-- ==== Sys2Proof/Word.lean ====
section
/-! DEFINITION. The word types of the machine (spec/00_scope.md R5, spec/01_instruction_words.md R8): a byte, a half,
a word, a double, and the 56-bit code address of a slice program counter (spec/04 R68). -/
namespace Sys2Proof

abbrev Byte := BitVec 8
abbrev Half := BitVec 16
abbrev Word := BitVec 32
abbrev Dbl := BitVec 64

/-- A lane mask: bit L is lane L of a group (64 lanes, spec/00 R3). -/
abbrev Mask := BitVec 64

/-- A virtual code address, 56 bits (slice program counter, spec/04 R68). -/
abbrev Addr := BitVec 56

end Sys2Proof
end

