-- ==== Sys2Proof/Syntax/Operand.lean ====
section
/-! DEFINITION. Operand types of the instructions (spec/01_instruction_words.md R9 to R11, R24 to R26) and of the hardware
steps. A register number that R10 makes illegal cannot be written in these types; what R11 and the cards make illegal from the
word's own fields is refused by WellFormed. -/
namespace Sys2Proof

/-- A vector source (R10): a register through VV, a latch entry, the lane index, or zero. -/
inductive VSrc where
  | reg (n : Fin 248)
  | latch (k : Fin 3)
  | lane
  | zero
  deriving DecidableEq, Repr

/-- A vector destination, or a source that admits no latch entry and no lane index: a register, or 255 (R10). -/
inductive VReg where
  | reg (n : Fin 248)
  | zero
  deriving DecidableEq, Repr

/-- A uniform register, or 255: reads zero, discards writes (R10). -/
inductive UReg where
  | reg (n : Fin 192)
  | zero
  deriving DecidableEq, Repr

/-- Scope codes 0 to 5 (R3). -/
inductive Scope where
  | group | core | quad | die | pkg | pod
  deriving DecidableEq, Repr

/-- What a FENCE names: a scope, or SYS (R26). -/
inductive FenceScope where
  | at (s : Scope)
  | sys
  deriving DecidableEq, Repr

/-- FENCE kinds (R26). -/
inductive FenceKind where
  | acq | rel | ar
  deriving DecidableEq, Repr

/-- Order of LD (R26). -/
inductive LdOrd where
  | plain | rlx | acq
  deriving DecidableEq, Repr

/-- Order of ST (R26). -/
inductive StOrd where
  | plain | rlx | rel
  deriving DecidableEq, Repr

/-- Order of LDG and STS (R26). -/
inductive GaOrd where
  | plain | rlx
  deriving DecidableEq, Repr

/-- Order of ATOM (R26). -/
inductive AtOrd where
  | rlx | acq | rel | ar
  deriving DecidableEq, Repr

/-- Conditions of ICMP (R24). -/
inductive ICond where
  | eq | ne | lt | le | gt | ge
  deriving DecidableEq, Repr

/-- Conditions of FCMP (R24). -/
inductive FCond where
  | eq | ne | lt | le | gt | ge | un | ord
  deriving DecidableEq, Repr

/-- Conditions of SCMP (R24). -/
inductive SCond where
  | eq | ne | lt | le | ltu | leu
  deriving DecidableEq, Repr

/-- Conditions of WAITM (R26). -/
inductive WCond where
  | eq | ne | geu | gtu | ltu | leu | andnz | andz
  deriving DecidableEq, Repr

/-- REDUCE and SCAN operations (R25). -/
inductive ROp where
  | add | min | max | and | or | xor
  deriving DecidableEq, Repr

/-- VOTE forms (R22). -/
inductive VoteKind where
  | any | all | eq
  deriving DecidableEq, Repr

/-- The view a VIEW replaces (R120). -/
inductive ViewSel where
  | vv | tv | av
  deriving DecidableEq, Repr

/-- Element size of TTRANS (R241): 1, 2 or 4 bytes. -/
inductive TSize where
  | b1 | b2 | b4
  deriving DecidableEq, Repr

/-- What MONRD reads (R349). -/
inductive MonSel where
  | sum | total | ref
  deriving DecidableEq, Repr

/-! ## Operands of the hardware steps -/

/-- A range-unit command, less its op (spec/15 R291): chunk, asid, idx, arg, bytes 16-23, done. -/
structure RangeCmd where
  chunk : Byte
  asid : Half
  idx : Word
  arg : Dbl
  pad : Dbl
  done : Dbl
  deriving DecidableEq, Repr

/-- PCIe AtomicOps that a host may send (spec/20 R356). -/
inductive HostOp where
  | fetchAdd | swap | cas
  deriving DecidableEq, Repr

/-- On-die arrays with a retention state (spec/15 R316). -/
inductive Array3 where
  | regs | scratch | accs
  | slot (n : Nat)
  deriving DecidableEq, Repr

/-- Control registers whose write only stores the value, or stores it in part (spec/20 R355). Registers with behaviour of
their own are written by rows of their own. -/
inductive CtlReg where
  | node | pwrcap | tenbase | nwinbase | capdec | rststat
  | attestNonce (word : Nat) | attestAddr | fwAddr | fwLen   -- 64-bit word 0 to 3 of the nonce
  | asidMap (asid : Nat)
  | hostWin (i word : Nat)                 -- 64-bit word 0 to 3 of entry i (R357)
  | peerWin (i : Nat)
  | counterVal (i : Nat)
  | counterTenant (i : Nat)
  | pcieCto (p : Nat)
  | cxlCto (p : Nat)
  | asidtb (iod : Nat)
  | ncfg (e : Nat)
  | nrto (e : Nat)
  | nstat (e : Nat)
  | sqBase (e q : Nat)
  | sqLsize (e q : Nat)
  | sqTenant (e q : Nat)
  | sqAsid (e q : Nat)
  | wdgrp (d : Nat)
  | wdcp (d : Nat)
  | wdstat (d : Nat)
  | wsidle (d : Nat)
  | pmsel (d m : Nat)
  | pmwin (d m : Nat)
  | pmctl (d m : Nat)
  | qbase (d q : Nat)
  | qctl (d q : Nat)                       -- a QCTL write that leaves en as it is
  | qptra (d q : Nat)
  | qwctl (q : Nat)
  | qwstat (q : Nat)
  | evcons (t : Nat)
  | evstat (t : Nat)
  deriving DecidableEq, Repr

/-- How a host access comes to a tenant's memory window (20 R356): the PCIe port, and the tenant. -/
structure HostVia where
  port : Nat
  tenant : Nat
  deriving DecidableEq, Repr

/-- A group's arrival as it reaches the root of a POD barrier (20 R369): the node it comes from, and the bpod of its launch. -/
structure PodArrival where
  node : Nat
  expected : Nat
  deriving DecidableEq, Repr

end Sys2Proof
end

