-- ==== Sys2Proof/Syntax.lean ====
section
/-! DEFINITION. The instructions and steps of the opcode table, one constructor a row. The first 182 rows have a word
(spec/01_instruction_words.md R22); the others are the steps of the hardware around the program (spec/95_what_each_step_holds.md),
whose operands say which queue, group or range the step is of and what an agent outside the model chooses. -/
namespace Sys2Proof

inductive Instr where
  /-- R118. -/
  | nop
  /-- R116. -/
  | bra (disp : BitVec 24)
  /-- R116. -/
  | brz (d : UReg) (imm : BitVec 16)
  /-- R116. -/
  | brnz (d : UReg) (imm : BitVec 16)
  /-- R81. -/
  | brd (disp : BitVec 24)
  /-- R117. -/
  | call (disp : BitVec 24)
  /-- R117. -/
  | ret
  /-- R82. -/
  | regang
  /-- R83. -/
  | exit
  /-- R96. -/
  | iadd (d : VReg) (a : VSrc) (b : VSrc)
  /-- R96. -/
  | iaddS (d : VReg) (a : VSrc) (b : UReg)
  /-- R96. -/
  | isub (d : VReg) (a : VSrc) (b : VSrc)
  /-- R96. -/
  | isubS (d : VReg) (a : VSrc) (b : UReg)
  /-- R96. -/
  | imul (d : VReg) (a : VSrc) (b : VSrc)
  /-- R96. -/
  | imulS (d : VReg) (a : VSrc) (b : UReg)
  /-- R96. -/
  | imulh (d : VReg) (a : VSrc) (b : VSrc)
  /-- R97. -/
  | imad (d : VReg) (a : VSrc) (b : VSrc)
  /-- R96. -/
  | imin (d : VReg) (a : VSrc) (b : VSrc)
  /-- R96. -/
  | imax (d : VReg) (a : VSrc) (b : VSrc)
  /-- R98. -/
  | shl (d : VReg) (a : VSrc) (b : VSrc)
  /-- R98. -/
  | shr (d : VReg) (a : VSrc) (b : VSrc)
  /-- R98. -/
  | sra (d : VReg) (a : VSrc) (b : VSrc)
  /-- R98. -/
  | rot (d : VReg) (a : VSrc) (b : VSrc)
  /-- R99. -/
  | and (d : VReg) (a : VSrc) (b : VSrc)
  /-- R99. -/
  | or (d : VReg) (a : VSrc) (b : VSrc)
  /-- R99. -/
  | xor (d : VReg) (a : VSrc) (b : VSrc)
  /-- R99. -/
  | andn (d : VReg) (a : VSrc) (b : VSrc)
  /-- R99. -/
  | sel (d : VReg) (a : VSrc) (b : VSrc)
  /-- R100. -/
  | icmp (p : Fin 8) (c : ICond) (a : VSrc) (b : VSrc)
  /-- R100. -/
  | icmpS (p : Fin 8) (c : ICond) (a : VSrc) (b : UReg)
  /-- R101. -/
  | lea (d : VReg) (a : VSrc) (sub : BitVec 5)
  /-- R102. -/
  | bfx (d : VReg) (a : VSrc) (b : VSrc)
  /-- R102. -/
  | bfi (d : VReg) (a : VSrc) (b : VSrc)
  /-- R103. -/
  | iabs (d : VReg) (a : VSrc)
  /-- R103. -/
  | ineg (d : VReg) (a : VSrc)
  /-- R103. -/
  | clz (d : VReg) (a : VSrc)
  /-- R103. -/
  | popc (d : VReg) (a : VSrc)
  /-- R103. -/
  | brev (d : VReg) (a : VSrc)
  /-- R104. -/
  | iaddi (d : VReg) (imm : BitVec 16)
  /-- R104. -/
  | lli (d : VReg) (imm : BitVec 16)
  /-- R104. -/
  | lui (d : VReg) (imm : BitVec 16)
  /-- R105. -/
  | movv (d : VReg) (a : VSrc)
  /-- R106. -/
  | movi (d : VReg) (a : VSrc) (b : VSrc)
  /-- R106. -/
  | moviw (d : VSrc) (a : VSrc) (b : VSrc)
  /-- R108. -/
  | sadd (d : UReg) (a : UReg) (b : UReg)
  /-- R108. -/
  | ssub (d : UReg) (a : UReg) (b : UReg)
  /-- R108. -/
  | smul (d : UReg) (a : UReg) (b : UReg)
  /-- R108. -/
  | sand (d : UReg) (a : UReg) (b : UReg)
  /-- R108. -/
  | sor (d : UReg) (a : UReg) (b : UReg)
  /-- R108. -/
  | sxor (d : UReg) (a : UReg) (b : UReg)
  /-- R108. -/
  | sshl (d : UReg) (a : UReg) (b : UReg)
  /-- R108. -/
  | sshr (d : UReg) (a : UReg) (b : UReg)
  /-- R109. -/
  | scmp (d : BitVec 5) (c : SCond) (a : UReg) (b : UReg)
  /-- R110. -/
  | smov (d : UReg) (a : UReg)
  /-- R110. -/
  | sli (d : UReg) (imm : BitVec 16)
  /-- R110. -/
  | slui (d : UReg) (imm : BitVec 16)
  /-- R111. -/
  | srd (d : UReg) (imm : BitVec 16)
  /-- R111. -/
  | swr (d : UReg) (imm : BitVec 16)
  /-- R112. -/
  | v2s (d : UReg) (a : VReg) (sub : BitVec 6)
  /-- R112. -/
  | s2v (d : VReg) (a : UReg)
  /-- R113. -/
  | pand (d : Fin 8) (a : Fin 8) (b : Fin 8)
  /-- R113. -/
  | por (d : Fin 8) (a : Fin 8) (b : Fin 8)
  /-- R113. -/
  | pxor (d : Fin 8) (a : Fin 8) (b : Fin 8)
  /-- R113. -/
  | pnot (d : Fin 8) (a : Fin 8)
  /-- R114. -/
  | p2s (d : UReg) (a : Fin 8) (b : Bool)
  /-- R114. -/
  | s2p (d : Fin 8) (a : UReg) (b : Bool)
  /-- R16. -/
  | mode (d : BitVec 8) (imm : BitVec 16)
  /-- R120. -/
  | view (d : UReg) (a : UReg) (b : ViewSel)
  /-- R121. -/
  | region (imm : BitVec 16)
  /-- R87. -/
  | sigchk (imm : BitVec 16)
  /-- R123. -/
  | wait (loads : BitVec 6) (stores : BitVec 6) (copies : BitVec 6) (matrix : BitVec 6)
  /-- R126. -/
  | fadd (d : VReg) (a : VSrc) (b : VSrc)
  /-- R126. -/
  | faddS (d : VReg) (a : VSrc) (b : UReg)
  /-- R126. -/
  | fsub (d : VReg) (a : VSrc) (b : VSrc)
  /-- R126. -/
  | fmul (d : VReg) (a : VSrc) (b : VSrc)
  /-- R126. -/
  | fmulS (d : VReg) (a : VSrc) (b : UReg)
  /-- R127. -/
  | ffma (d : VReg) (a : VSrc) (b : VSrc)
  /-- R128. -/
  | fmin (d : VReg) (a : VSrc) (b : VSrc)
  /-- R128. -/
  | fmax (d : VReg) (a : VSrc) (b : VSrc)
  /-- R129. -/
  | fcmp (p : Fin 8) (c : FCond) (a : VSrc) (b : VSrc)
  /-- R130. -/
  | fneg (d : VReg) (a : VSrc)
  /-- R130. -/
  | fabs (d : VReg) (a : VSrc)
  /-- R131. -/
  | fclass (d : VReg) (a : VSrc)
  /-- R130. -/
  | frcp (d : VReg) (a : VSrc)
  /-- R130. -/
  | frsq (d : VReg) (a : VSrc)
  /-- R130. -/
  | fsqrt (d : VReg) (a : VSrc)
  /-- R130. -/
  | fex2 (d : VReg) (a : VSrc)
  /-- R130. -/
  | flg2 (d : VReg) (a : VSrc)
  /-- R132. -/
  | cvt (d : VReg) (a : VSrc) (sub : BitVec 5)
  /-- R133. -/
  | qnt (d : VReg) (a : VSrc) (sub : BitVec 5)
  /-- R134. -/
  | dqnt (d : VReg) (a : VSrc) (sub : BitVec 5)
  /-- R135. -/
  | pack (d : VReg) (a : VSrc) (b : VSrc)
  /-- R136. -/
  | unpack (d : VReg) (a : VSrc) (part : BitVec 3)
  /-- R138. -/
  | p16add (d : VReg) (a : VSrc) (b : VSrc)
  /-- R138. -/
  | p16sub (d : VReg) (a : VSrc) (b : VSrc)
  /-- R138. -/
  | p16mac (d : VReg) (a : VSrc) (b : VSrc)
  /-- R138. -/
  | p16shr (d : VReg) (a : VSrc) (sh : BitVec 4) (r : Bool)
  /-- R138. -/
  | p32sat (d : VReg) (a : VSrc) (b : VSrc)
  /-- R140. -/
  | shfl (d : VReg) (a : VSrc) (b : VSrc)
  /-- R140. -/
  | slideup (d : VReg) (a : VSrc) (sub : BitVec 6)
  /-- R140. -/
  | slidedn (d : VReg) (a : VSrc) (sub : BitVec 6)
  /-- R140. -/
  | bcast (d : VReg) (a : VSrc) (sub : BitVec 6)
  /-- R141. -/
  | vote (d : Fin 8) (a : Fin 8) (b : VoteKind)
  /-- R142. -/
  | ballot (d : Fin 192) (a : Fin 8)
  /-- R143. -/
  | reduce (d : VReg) (a : VSrc) (b : ROp)
  /-- R144. -/
  | scan (d : VReg) (a : VSrc) (op : ROp) (excl : Bool)
  /-- R147. -/
  | ldB (d : VReg) (o : LdOrd) (base : BitVec 6) (b : VSrc)
  /-- R147. -/
  | ldH (d : VReg) (o : LdOrd) (base : BitVec 6) (b : VSrc)
  /-- R147. -/
  | ld (d : VReg) (o : LdOrd) (base : BitVec 6) (b : VSrc)
  /-- R147. -/
  | ldD (d : Fin 248) (o : LdOrd) (base : BitVec 6) (b : VSrc)
  /-- R147. -/
  | ldQ (d : Fin 248) (o : LdOrd) (base : BitVec 6) (b : VSrc)
  /-- R147. -/
  | stB (d : VSrc) (o : StOrd) (base : BitVec 6) (b : VSrc)
  /-- R147. -/
  | stH (d : VSrc) (o : StOrd) (base : BitVec 6) (b : VSrc)
  /-- R147. -/
  | st (d : VSrc) (o : StOrd) (base : BitVec 6) (b : VSrc)
  /-- R147. -/
  | stD (d : Fin 248) (o : StOrd) (base : BitVec 6) (b : VSrc)
  /-- R147. -/
  | stQ (d : Fin 248) (o : StOrd) (base : BitVec 6) (b : VSrc)
  /-- R149. -/
  | ldg (d : VReg) (o : GaOrd) (base : BitVec 6) (b : VSrc)
  /-- R149. -/
  | ldgD (d : Fin 248) (o : GaOrd) (base : BitVec 6) (b : VSrc)
  /-- R149. -/
  | sts (d : VSrc) (o : GaOrd) (base : BitVec 6) (b : VSrc)
  /-- R149. -/
  | stsD (d : Fin 248) (o : GaOrd) (base : BitVec 6) (b : VSrc)
  /-- R150. -/
  | ldu (d : UReg) (a : Fin 192) (b : BitVec 8)
  /-- R150. -/
  | stu (d : UReg) (a : Fin 192) (b : BitVec 8)
  /-- R151. -/
  | atomAdd (d : VReg) (o : AtOrd) (base : BitVec 6) (b : VSrc)
  /-- R151. -/
  | atomMin (d : VReg) (o : AtOrd) (base : BitVec 6) (b : VSrc)
  /-- R151. -/
  | atomMax (d : VReg) (o : AtOrd) (base : BitVec 6) (b : VSrc)
  /-- R151. -/
  | atomAnd (d : VReg) (o : AtOrd) (base : BitVec 6) (b : VSrc)
  /-- R151. -/
  | atomOr (d : VReg) (o : AtOrd) (base : BitVec 6) (b : VSrc)
  /-- R151. -/
  | atomXor (d : VReg) (o : AtOrd) (base : BitVec 6) (b : VSrc)
  /-- R151. -/
  | atomExch (d : VReg) (o : AtOrd) (base : BitVec 6) (b : VSrc)
  /-- R151. -/
  | atomCas (d : Fin 248) (o : AtOrd) (base : BitVec 6) (b : VSrc)
  /-- R151. -/
  | atomFadd (d : VReg) (o : AtOrd) (base : BitVec 6) (b : VSrc)
  /-- R152. -/
  | fence (k : FenceKind) (sc : FenceScope)
  /-- R153. -/
  | rpref (a : Fin 192) (b : Bool)
  /-- R207. -/
  | waitm (c : WCond) (wide : Bool) (a : Fin 192) (b : UReg)
  /-- R193. -/
  | spld (d : VReg) (a : Fin 192) (b : VSrc)
  /-- R193. -/
  | spst (d : VSrc) (a : Fin 192) (b : VSrc)
  /-- R195. -/
  | tclaim (d : Fin 192)
  /-- R196. -/
  | trel (d : Fin 192)
  /-- R197. -/
  | tstat (d : UReg) (a : Fin 192)
  /-- R200. -/
  | copy (d : Fin 192) (a : Fin 192) (b : UReg)
  /-- R201. -/
  | copyg (d : Fin 192) (a : Fin 192) (b : UReg)
  /-- R202. -/
  | copyo (d : Fin 192) (a : Fin 192) (b : UReg)
  /-- R203. -/
  | copyw (d : UReg) (a : Fin 192) (b : UReg)
  /-- R206. -/
  | publish (a : Fin 192)
  /-- R198. -/
  | spfence
  /-- R224. -/
  | acalloc (d : UReg) (b : BitVec 8)
  /-- R225. -/
  | acfree (d : Fin 16) (b : BitVec 8)
  /-- R226. -/
  | aczero (d : Fin 16)
  /-- R233. -/
  | mma (d : Fin 16) (a : Fin 248) (b : VSrc)
  /-- R233. -/
  | mmap (d : Fin 16) (a : Fin 248) (b : VSrc)
  /-- R233. -/
  | mmaq (d : Fin 16) (a : Fin 248) (b : VSrc)
  /-- R233. -/
  | mmaw (d : Fin 16) (a : Fin 248) (b : VSrc)
  /-- R236. -/
  | mfence (d : UReg)
  /-- R237. -/
  | waitb (a : UReg)
  /-- R238. -/
  | acld (d : Fin 248) (a : Fin 16) (b : VSrc)
  /-- R238. -/
  | acst (d : Fin 192) (a : Fin 16) (b : VSrc)
  /-- R239. -/
  | seek (d : VReg) (a : Fin 248) (b : UReg)
  /-- R240. -/
  | seedx (d : Fin 248) (a : Fin 248) (b : UReg)
  /-- R241. -/
  | ttrans (d : Fin 248) (a : Fin 248) (b : TSize)
  /-- R254. -/
  | sprd (d : VReg) (a : UReg) (b : VSrc)
  /-- R252. -/
  | qpub (d : Fin 192) (a : UReg)
  /-- R249. -/
  | qmap (d : UReg) (b : Bool)
  /-- R258. -/
  | chainw (d : Fin 192)
  /-- R213. -/
  | launch (a : Fin 192)
  /-- R213. -/
  | launcht (d : Fin 8) (a : Fin 192)
  /-- R214. -/
  | yield
  /-- R210. -/
  | bar (d : BitVec 8) (b : Scope)
  /-- R210. -/
  | bara (d : BitVec 8) (b : Scope)
  /-- R210. -/
  | barw (d : BitVec 8) (b : Scope)
  /-- R215. -/
  | trap (imm : BitVec 16)
  /-- R216. -/
  | resume
  /-- R217. -/
  | abort
  /-- R218. -/
  | clock (d : Fin 192)
  /-- R347. -/
  | monset (d : BitVec 2) (a : Fin 192)
  /-- R348. -/
  | monref (d : BitVec 2) (a : Fin 192)
  /-- R348. -/
  | monrefLast (d : BitVec 2)
  /-- R349. -/
  | monrd (d : Fin 192) (a : BitVec 2) (b : MonSel)
  /-- R350. -/
  | monclr (d : BitVec 2)
  /-- R371. -/
  | npost (d : UReg) (a : Fin 192)
  /-- R372. -/
  | nwait (d : UReg) (a : UReg)
  /-- R373. -/
  | ncnt (d : UReg) (a : UReg)
  /-- R373. -/
  | nqstat (d : UReg) (a : UReg)
  /-- R163. -/
  | loadComplete (gid : Nat) (op : Nat) (lanes : Mask) (cached : Bool)
  /-- R146. -/
  | storePerformed (gid : Nat) (op : Nat) (lanes : Mask)
  /-- R200. -/
  | copyFillComplete (gid : Nat) (op : Nat)
  /-- R202. -/
  | copyoComplete (gid : Nat) (op : Nat)
  /-- R203. -/
  | copywComplete (gid : Nat) (op : Nat)
  /-- R205. -/
  | copyFault (gid : Nat) (op : Nat) (link : Bool)
  /-- R174. -/
  | matrixOpStart (core : Nat)
  /-- R164. -/
  | matrixOpComplete (core : Nat)
  /-- R222. -/
  | matrixFault (core : Nat) (link : Bool)
  /-- R234. -/
  | pairingInstanceForm (quad : Nat) (first : Nat)
  /-- R234. -/
  | pairingTimeout (core : Nat)
  /-- R235. -/
  | instanceCancel (inst : Nat)
  /-- R171. -/
  | acallocGrant (core : Nat)
  /-- R208. -/
  | waitmReevaluation (gid : Nat) (path : Nat)
  /-- R182. -/
  | waitRemoteLoadTimeout (gid : Nat) (path : Nat)
  /-- R214. -/
  | yieldExpiry (gid : Nat) (path : Nat)
  /-- R185. -/
  | groupEnd (gid : Nat)
  /-- R212. -/
  | launchCompletionSignal (lid : Nat)
  /-- R183. -/
  | groupEvict (gid : Nat)
  /-- R184. -/
  | groupRestore (gid : Nat)
  /-- R272. -/
  | cohortPlacement (die : Nat) (spill : Dbl)
  /-- R277. -/
  | pendingLaunchEntryFree (die : Nat)
  /-- R279. -/
  | groupWatchdogExpiry (gid : Nat)
  /-- R280. -/
  | cpWatchdogExpiry (die : Nat) (q : Nat)
  /-- R261. -/
  | quadBarrierTimeout (quad : Nat) (idx : Nat)
  /-- R265. -/
  | queuePointerPoll (die : Nat) (q : Nat)
  /-- R268. -/
  | packetNop (die : Nat) (q : Nat)
  /-- R268. -/
  | packetLaunch (die : Nat) (q : Nat)
  /-- R268. -/
  | packetPrefetch (die : Nat) (q : Nat)
  /-- R268. -/
  | packetWaitsig (die : Nat) (q : Nat)
  /-- R269. -/
  | waitsigTimeout (die : Nat) (q : Nat)
  /-- R268. -/
  | packetSetsig (die : Nat) (q : Nat)
  /-- R268. -/
  | packetCopy (die : Nat) (q : Nat)
  /-- R268. -/
  | queueCopyComplete (die : Nat) (q : Nat) (pkt : Nat)
  /-- R318. -/
  | packetCheckpoint (die : Nat) (q : Nat)
  /-- R268. -/
  | packetMarker (die : Nat) (q : Nat)
  /-- R264. -/
  | queueEnable (die : Nat) (q : Nat) (v : Word)
  /-- R264. -/
  | queueDisable (die : Nat) (q : Nat) (v : Word)
  /-- R270. -/
  | qresumeGo (die : Nat) (q : Nat)
  /-- R291. -/
  | replaceDescriptor (c : RangeCmd)
  /-- R291. -/
  | replaceTable (c : RangeCmd)
  /-- R295. -/
  | slide (c : RangeCmd)
  /-- R302. -/
  | demote (c : RangeCmd)
  /-- R302. -/
  | demoteComplete (desc : Nat)
  /-- R307. -/
  | migrate (c : RangeCmd)
  /-- R291. -/
  | shootdownComplete (id : Nat)
  /-- R296. -/
  | slideChunk (desc : Nat)
  /-- R305. -/
  | migrationChunkMove (desc : Nat)
  /-- R306. -/
  | cxlLinkDown (port : Nat)
  /-- R306. -/
  | cxlCompletionTimeout (port : Nat)
  /-- R357. -/
  | pcieCompletionTimeout (gid : Nat) (op : Nat)
  /-- R356. -/
  | hostRead (via : HostVia) (off : Nat) (n : Nat) (tag : Nat)
  /-- R356. -/
  | hostWrite (via : HostVia) (off : Nat) (bytes : List Byte)
  /-- R356. -/
  | hostAtomicop (via : HostVia) (off : Nat) (op : HostOp) (size : Nat) (x : Nat) (y : Nat) (tag : Nat)
  /-- R304. -/
  | hostAccessTimeout (tag : Nat)
  /-- R368. -/
  | peerRequest (gid : Nat) (op : Nat) (lanes : Mask) (fail : Bool)
  /-- R314. -/
  | hbmRefresh (stack : Nat) (channel : Nat) (pseudo : Nat)
  /-- R177. -/
  | wsTagWrite (core : Nat) (slot : Nat) (v : Word)
  /-- R316. -/
  | arrayRetentionEntry (core : Nat) (arr : Array3)
  /-- R250. -/
  | quadRemap (quad : Nat) (phys : Nat)
  /-- R251. -/
  | quadOffline (quad : Nat) (off : Bool)
  /-- R251. -/
  | quadFailure (quad : Nat)
  /-- R256. -/
  | chainModeSet (quad : Nat) (on : Bool)
  /-- R261. -/
  | qwctlClr (quad : Nat) (v : Word)
  /-- R257. -/
  | chainHopComplete (core : Nat) (pub : Nat) (idx : Nat) (fail : Bool)
  /-- R282. -/
  | pmStart (die : Nat) (ch : Nat)
  /-- R282. -/
  | pmSample (die : Nat) (ch : Nat) (v : Nat)
  /-- R282. -/
  | pmWindowClose (die : Nat) (ch : Nat)
  /-- R383. -/
  | powerArbiterTick (dies : List Nat) (hbms : List Nat)
  /-- R384. -/
  | powerOvershoot (die : Nat)
  /-- R365. -/
  | networkMessageStart (eng : Nat) (q : Nat)
  /-- R365. -/
  | networkPacketArrival (wire : Nat)
  /-- R365. -/
  | networkAckArrival (wire : Nat)
  /-- R365. -/
  | retransmissionTimeout (eng : Nat) (msg : Nat) (pkt : Nat)
  /-- R361. -/
  | ntestArm (eng : Nat) (v : Word)
  /-- R362. -/
  | sendQueueEnable (eng : Nat) (q : Nat)
  /-- R362. -/
  | sendQueueDisable (eng : Nat) (q : Nat)
  /-- R366. -/
  | sendQueueGo (eng : Nat) (q : Nat)
  /-- R369. -/
  | podBarrierArrival (tenant : Nat) (idx : Nat) (a : PodArrival)
  /-- R369. -/
  | podBarrierCompletion (tenant : Nat) (idx : Nat)
  /-- R375. -/
  | tenantValidSet (tenant : Nat)
  /-- R379. -/
  | tenantReset (tenant : Nat)
  /-- R379. -/
  | functionLevelReset (tenant : Nat)
  /-- R382. -/
  | warmReset
  /-- R382. -/
  | coldReset
  /-- R381. -/
  | attestationRequest (fn : Nat) (nonce : BitVec 256) (addr : Dbl)
  /-- R380. -/
  | firmwareUpdate
  /-- R355. -/
  | registerWrite (reg : CtlReg) (v : Dbl)
  /-- R306. -/
  | cxlLinkUp (port : Nat)
  /-- R357. -/
  | pcieLinkDown (port : Nat)
  /-- R357. -/
  | pcieLinkUp (port : Nat)
  /-- R268. -/
  | waitsigReevaluation (die : Nat) (q : Nat)
  /-- R318. -/
  | checkpointComplete (die : Nat) (q : Nat)
  /-- R291. -/
  | malformedRangeCommand (op : Byte) (c : RangeCmd)
  /-- R369. -/
  | podMonitorGather (tenant : Nat) (idx : Nat)
  deriving DecidableEq, Repr

end Sys2Proof
end

