-- ==== Sys2Proof/Decode.lean ====
section
/-! DEFINITION. The decoder, total on any bytes, and the encoder, both from the formats and the opcode map of
spec/01_instruction_words.md (R8 to R11, R20, R22 to R26). A refusal has a name; every refused word raises the
illegal-instruction trap (R20). What R11 and the cards make illegal beyond these fields is WellFormed's. -/
namespace Sys2Proof

/-- Why a word is no instruction (R20). -/
inductive DecodeError where
  | tooShort
  | reservedOpcode
  | badSubOp
  | badCondition
  | badOrder
  | badScope
  | badSpecifier
  | nonzeroField
  deriving DecidableEq, Repr

/-! ## Codes of the operand types -/

/-- The 8-bit field that holds a number. -/
def finCode (n : Nat) : BitVec 8 := BitVec.ofNat 8 n

/-- R10, class v as a source. -/
def VSrc.code : VSrc → BitVec 8
  | .reg n => finCode n.val
  | .latch k => finCode (248 + k.val)
  | .lane => 251#8
  | .zero => 255#8

/-- R10, class v as a destination. -/
def VReg.code : VReg → BitVec 8
  | .reg n => finCode n.val
  | .zero => 255#8

/-- R10, class s. -/
def UReg.code : UReg → BitVec 8
  | .reg n => finCode n.val
  | .zero => 255#8

/-- The code of a Scope (R3, R24 to R26, R120, R241, R349). -/
def Scope.num : Scope → Nat
  | .group => 0
  | .core => 1
  | .quad => 2
  | .die => 3
  | .pkg => 4
  | .pod => 5

/-- The Scope of a code. -/
def scopeOf (n : Nat) : Except DecodeError Scope :=
  match n with
  | 0 => .ok .group
  | 1 => .ok .core
  | 2 => .ok .quad
  | 3 => .ok .die
  | 4 => .ok .pkg
  | 5 => .ok .pod
  | _ => .error .badScope

/-- The code of a LdOrd (R3, R24 to R26, R120, R241, R349). -/
def LdOrd.num : LdOrd → Nat
  | .plain => 0
  | .rlx => 1
  | .acq => 2

/-- The LdOrd of a code. -/
def ldOrdOf (n : Nat) : Except DecodeError LdOrd :=
  match n with
  | 0 => .ok .plain
  | 1 => .ok .rlx
  | 2 => .ok .acq
  | _ => .error .badOrder

/-- The code of a StOrd (R3, R24 to R26, R120, R241, R349). -/
def StOrd.num : StOrd → Nat
  | .plain => 0
  | .rlx => 1
  | .rel => 2

/-- The StOrd of a code. -/
def stOrdOf (n : Nat) : Except DecodeError StOrd :=
  match n with
  | 0 => .ok .plain
  | 1 => .ok .rlx
  | 2 => .ok .rel
  | _ => .error .badOrder

/-- The code of a GaOrd (R3, R24 to R26, R120, R241, R349). -/
def GaOrd.num : GaOrd → Nat
  | .plain => 0
  | .rlx => 1

/-- The GaOrd of a code. -/
def gaOrdOf (n : Nat) : Except DecodeError GaOrd :=
  match n with
  | 0 => .ok .plain
  | 1 => .ok .rlx
  | _ => .error .badOrder

/-- The code of a AtOrd (R3, R24 to R26, R120, R241, R349). -/
def AtOrd.num : AtOrd → Nat
  | .rlx => 0
  | .acq => 1
  | .rel => 2
  | .ar => 3

/-- The AtOrd of a code. -/
def atOrdOf (n : Nat) : Except DecodeError AtOrd :=
  match n with
  | 0 => .ok .rlx
  | 1 => .ok .acq
  | 2 => .ok .rel
  | 3 => .ok .ar
  | _ => .error .badOrder

/-- The code of a ICond (R3, R24 to R26, R120, R241, R349). -/
def ICond.num : ICond → Nat
  | .eq => 0
  | .ne => 1
  | .lt => 2
  | .le => 3
  | .gt => 4
  | .ge => 5

/-- The ICond of a code. -/
def iCondOf (n : Nat) : Except DecodeError ICond :=
  match n with
  | 0 => .ok .eq
  | 1 => .ok .ne
  | 2 => .ok .lt
  | 3 => .ok .le
  | 4 => .ok .gt
  | 5 => .ok .ge
  | _ => .error .badCondition

/-- The code of a FCond (R3, R24 to R26, R120, R241, R349). -/
def FCond.num : FCond → Nat
  | .eq => 0
  | .ne => 1
  | .lt => 2
  | .le => 3
  | .gt => 4
  | .ge => 5
  | .un => 6
  | .ord => 7

/-- The FCond of a code. -/
def fCondOf (n : Nat) : Except DecodeError FCond :=
  match n with
  | 0 => .ok .eq
  | 1 => .ok .ne
  | 2 => .ok .lt
  | 3 => .ok .le
  | 4 => .ok .gt
  | 5 => .ok .ge
  | 6 => .ok .un
  | 7 => .ok .ord
  | _ => .error .badCondition

/-- The code of a SCond (R3, R24 to R26, R120, R241, R349). -/
def SCond.num : SCond → Nat
  | .eq => 0
  | .ne => 1
  | .lt => 2
  | .le => 3
  | .ltu => 4
  | .leu => 5

/-- The SCond of a code. -/
def sCondOf (n : Nat) : Except DecodeError SCond :=
  match n with
  | 0 => .ok .eq
  | 1 => .ok .ne
  | 2 => .ok .lt
  | 3 => .ok .le
  | 4 => .ok .ltu
  | 5 => .ok .leu
  | _ => .error .badCondition

/-- The code of a WCond (R3, R24 to R26, R120, R241, R349). -/
def WCond.num : WCond → Nat
  | .eq => 0
  | .ne => 1
  | .geu => 2
  | .gtu => 3
  | .ltu => 4
  | .leu => 5
  | .andnz => 6
  | .andz => 7

/-- The WCond of a code. -/
def wCondOf (n : Nat) : Except DecodeError WCond :=
  match n with
  | 0 => .ok .eq
  | 1 => .ok .ne
  | 2 => .ok .geu
  | 3 => .ok .gtu
  | 4 => .ok .ltu
  | 5 => .ok .leu
  | 6 => .ok .andnz
  | 7 => .ok .andz
  | _ => .error .badCondition

/-- The code of a ROp (R3, R24 to R26, R120, R241, R349). -/
def ROp.num : ROp → Nat
  | .add => 0
  | .min => 1
  | .max => 2
  | .and => 3
  | .or => 4
  | .xor => 5

/-- The ROp of a code. -/
def rOpOf (n : Nat) : Except DecodeError ROp :=
  match n with
  | 0 => .ok .add
  | 1 => .ok .min
  | 2 => .ok .max
  | 3 => .ok .and
  | 4 => .ok .or
  | 5 => .ok .xor
  | _ => .error .badSubOp

/-- The code of a VoteKind (R3, R24 to R26, R120, R241, R349). -/
def VoteKind.num : VoteKind → Nat
  | .any => 0
  | .all => 1
  | .eq => 2

/-- The VoteKind of a code. -/
def voteKindOf (n : Nat) : Except DecodeError VoteKind :=
  match n with
  | 0 => .ok .any
  | 1 => .ok .all
  | 2 => .ok .eq
  | _ => .error .badSubOp

/-- The code of a ViewSel (R3, R24 to R26, R120, R241, R349). -/
def ViewSel.num : ViewSel → Nat
  | .vv => 0
  | .tv => 1
  | .av => 2

/-- The ViewSel of a code. -/
def viewSelOf (n : Nat) : Except DecodeError ViewSel :=
  match n with
  | 0 => .ok .vv
  | 1 => .ok .tv
  | 2 => .ok .av
  | _ => .error .badSubOp

/-- The code of a TSize (R3, R24 to R26, R120, R241, R349). -/
def TSize.num : TSize → Nat
  | .b1 => 0
  | .b2 => 1
  | .b4 => 2

/-- The TSize of a code. -/
def tSizeOf (n : Nat) : Except DecodeError TSize :=
  match n with
  | 0 => .ok .b1
  | 1 => .ok .b2
  | 2 => .ok .b4
  | _ => .error .badSubOp

/-- The code of a MonSel (R3, R24 to R26, R120, R241, R349). -/
def MonSel.num : MonSel → Nat
  | .sum => 0
  | .total => 1
  | .ref => 2

/-- The MonSel of a code. -/
def monSelOf (n : Nat) : Except DecodeError MonSel :=
  match n with
  | 0 => .ok .sum
  | 1 => .ok .total
  | 2 => .ok .ref
  | _ => .error .badSubOp

def Scope.code (x : Scope) : BitVec 8 := finCode x.num

def ROp.code (x : ROp) : BitVec 8 := finCode x.num

def VoteKind.code (x : VoteKind) : BitVec 8 := finCode x.num

def ViewSel.code (x : ViewSel) : BitVec 8 := finCode x.num

def TSize.code (x : TSize) : BitVec 8 := finCode x.num

def MonSel.code (x : MonSel) : BitVec 8 := finCode x.num

def b6Code (x : BitVec 6) : BitVec 8 := 0#2 ++ x
def b5Code (x : BitVec 5) : BitVec 8 := 0#3 ++ x
def b3Code (x : BitVec 3) : BitVec 8 := 0#5 ++ x
def b2Code (x : BitVec 2) : BitVec 8 := 0#6 ++ x
def boolCode (b : Bool) : BitVec 8 := if b then 1#8 else 0#8

/-- The split d field of ICMP and ICMP.S (R9). -/
def predICode (p : Fin 8) (c : ICond) : BitVec 8 := 0#2 ++ BitVec.ofNat 3 c.num ++ BitVec.ofNat 3 p.val
/-- The split d field of FCMP (R9). -/
def predFCode (p : Fin 8) (c : FCond) : BitVec 8 := 0#2 ++ BitVec.ofNat 3 c.num ++ BitVec.ofNat 3 p.val
/-- The split d field of SCMP (R9). -/
def scmpCode (d : BitVec 5) (c : SCond) : BitVec 8 := BitVec.ofNat 3 c.num ++ d
/-- The split a field of the ordered memory forms (R9, R26). -/
def ldBaseCode (o : LdOrd) (b : BitVec 6) : BitVec 8 := BitVec.ofNat 2 o.num ++ b
def stBaseCode (o : StOrd) (b : BitVec 6) : BitVec 8 := BitVec.ofNat 2 o.num ++ b
def gaBaseCode (o : GaOrd) (b : BitVec 6) : BitVec 8 := BitVec.ofNat 2 o.num ++ b
def atBaseCode (o : AtOrd) (b : BitVec 6) : BitVec 8 := BitVec.ofNat 2 o.num ++ b
/-- sub of SCAN (R22). -/
def scanCode (op : ROp) (excl : Bool) : BitVec 8 := 0#4 ++ BitVec.ofBool excl ++ BitVec.ofNat 3 op.num
/-- sub of P16SHR (R138). -/
def shrCode (sh : BitVec 4) (r : Bool) : BitVec 8 := 0#3 ++ BitVec.ofBool r ++ sh
/-- d of WAITM (R26). -/
def waitmCode (c : WCond) (wide : Bool) : BitVec 8 := 0#4 ++ BitVec.ofBool wide ++ BitVec.ofNat 3 c.num

def FenceKind.num : FenceKind → Nat
  | .acq => 1
  | .rel => 2
  | .ar => 3

/-- sub of FENCE (R26): kind, scope code, and bit 5 for SYS with a zero scope code. -/
def fenceCode (k : FenceKind) : FenceScope → BitVec 8
  | .at s => 0#3 ++ BitVec.ofNat 3 s.num ++ BitVec.ofNat 2 k.num
  | .sys => 0#2 ++ 1#1 ++ 0#3 ++ BitVec.ofNat 2 k.num

/-! ## The encoder -/

/-- The word of an instruction (R8, R22); a step of the hardware has none. -/
def encode (i : Instr) : Option Word :=
  match i with
  | .nop => some (0#8 ++ 0#8 ++ 0#8 ++ 0x00#8)
  | .bra disp => some (disp ++ 0x01#8)
  | .brz d imm => some (imm ++ (UReg.code d) ++ 0x02#8)
  | .brnz d imm => some (imm ++ (UReg.code d) ++ 0x03#8)
  | .brd disp => some (disp ++ 0x04#8)
  | .call disp => some (disp ++ 0x05#8)
  | .ret => some (0#8 ++ 0#8 ++ 0#8 ++ 0x06#8)
  | .regang => some (0#8 ++ 0#8 ++ 0#8 ++ 0x07#8)
  | .exit => some (0#8 ++ 0#8 ++ 0#8 ++ 0x08#8)
  | .iadd d a b => some ((VSrc.code b) ++ (VSrc.code a) ++ (VReg.code d) ++ 0x10#8)
  | .iaddS d a b => some ((UReg.code b) ++ (VSrc.code a) ++ (VReg.code d) ++ 0x11#8)
  | .isub d a b => some ((VSrc.code b) ++ (VSrc.code a) ++ (VReg.code d) ++ 0x12#8)
  | .isubS d a b => some ((UReg.code b) ++ (VSrc.code a) ++ (VReg.code d) ++ 0x13#8)
  | .imul d a b => some ((VSrc.code b) ++ (VSrc.code a) ++ (VReg.code d) ++ 0x14#8)
  | .imulS d a b => some ((UReg.code b) ++ (VSrc.code a) ++ (VReg.code d) ++ 0x15#8)
  | .imulh d a b => some ((VSrc.code b) ++ (VSrc.code a) ++ (VReg.code d) ++ 0x16#8)
  | .imad d a b => some ((VSrc.code b) ++ (VSrc.code a) ++ (VReg.code d) ++ 0x17#8)
  | .imin d a b => some ((VSrc.code b) ++ (VSrc.code a) ++ (VReg.code d) ++ 0x18#8)
  | .imax d a b => some ((VSrc.code b) ++ (VSrc.code a) ++ (VReg.code d) ++ 0x19#8)
  | .shl d a b => some ((VSrc.code b) ++ (VSrc.code a) ++ (VReg.code d) ++ 0x1A#8)
  | .shr d a b => some ((VSrc.code b) ++ (VSrc.code a) ++ (VReg.code d) ++ 0x1B#8)
  | .sra d a b => some ((VSrc.code b) ++ (VSrc.code a) ++ (VReg.code d) ++ 0x1C#8)
  | .rot d a b => some ((VSrc.code b) ++ (VSrc.code a) ++ (VReg.code d) ++ 0x1D#8)
  | .and d a b => some ((VSrc.code b) ++ (VSrc.code a) ++ (VReg.code d) ++ 0x1E#8)
  | .or d a b => some ((VSrc.code b) ++ (VSrc.code a) ++ (VReg.code d) ++ 0x1F#8)
  | .xor d a b => some ((VSrc.code b) ++ (VSrc.code a) ++ (VReg.code d) ++ 0x20#8)
  | .andn d a b => some ((VSrc.code b) ++ (VSrc.code a) ++ (VReg.code d) ++ 0x21#8)
  | .sel d a b => some ((VSrc.code b) ++ (VSrc.code a) ++ (VReg.code d) ++ 0x22#8)
  | .icmp p c a b => some ((VSrc.code b) ++ (VSrc.code a) ++ (predICode p c) ++ 0x23#8)
  | .icmpS p c a b => some ((UReg.code b) ++ (VSrc.code a) ++ (predICode p c) ++ 0x24#8)
  | .lea d a sub => some ((b5Code sub) ++ (VSrc.code a) ++ (VReg.code d) ++ 0x25#8)
  | .bfx d a b => some ((VSrc.code b) ++ (VSrc.code a) ++ (VReg.code d) ++ 0x26#8)
  | .bfi d a b => some ((VSrc.code b) ++ (VSrc.code a) ++ (VReg.code d) ++ 0x27#8)
  | .iabs d a => some (0#8 ++ (VSrc.code a) ++ (VReg.code d) ++ 0x28#8)
  | .ineg d a => some (1#8 ++ (VSrc.code a) ++ (VReg.code d) ++ 0x28#8)
  | .clz d a => some (2#8 ++ (VSrc.code a) ++ (VReg.code d) ++ 0x28#8)
  | .popc d a => some (3#8 ++ (VSrc.code a) ++ (VReg.code d) ++ 0x28#8)
  | .brev d a => some (4#8 ++ (VSrc.code a) ++ (VReg.code d) ++ 0x28#8)
  | .iaddi d imm => some (imm ++ (VReg.code d) ++ 0x29#8)
  | .lli d imm => some (imm ++ (VReg.code d) ++ 0x2A#8)
  | .lui d imm => some (imm ++ (VReg.code d) ++ 0x2B#8)
  | .movv d a => some (0#8 ++ (VSrc.code a) ++ (VReg.code d) ++ 0x2C#8)
  | .movi d a b => some ((VSrc.code b) ++ (VSrc.code a) ++ (VReg.code d) ++ 0x2D#8)
  | .moviw d a b => some ((VSrc.code b) ++ (VSrc.code a) ++ (VSrc.code d) ++ 0x2E#8)
  | .sadd d a b => some ((UReg.code b) ++ (UReg.code a) ++ (UReg.code d) ++ 0x30#8)
  | .ssub d a b => some ((UReg.code b) ++ (UReg.code a) ++ (UReg.code d) ++ 0x31#8)
  | .smul d a b => some ((UReg.code b) ++ (UReg.code a) ++ (UReg.code d) ++ 0x32#8)
  | .sand d a b => some ((UReg.code b) ++ (UReg.code a) ++ (UReg.code d) ++ 0x33#8)
  | .sor d a b => some ((UReg.code b) ++ (UReg.code a) ++ (UReg.code d) ++ 0x34#8)
  | .sxor d a b => some ((UReg.code b) ++ (UReg.code a) ++ (UReg.code d) ++ 0x35#8)
  | .sshl d a b => some ((UReg.code b) ++ (UReg.code a) ++ (UReg.code d) ++ 0x36#8)
  | .sshr d a b => some ((UReg.code b) ++ (UReg.code a) ++ (UReg.code d) ++ 0x37#8)
  | .scmp d c a b => some ((UReg.code b) ++ (UReg.code a) ++ (scmpCode d c) ++ 0x38#8)
  | .smov d a => some (0#8 ++ (UReg.code a) ++ (UReg.code d) ++ 0x39#8)
  | .sli d imm => some (imm ++ (UReg.code d) ++ 0x3A#8)
  | .slui d imm => some (imm ++ (UReg.code d) ++ 0x3B#8)
  | .srd d imm => some (imm ++ (UReg.code d) ++ 0x3C#8)
  | .swr d imm => some (imm ++ (UReg.code d) ++ 0x3D#8)
  | .v2s d a sub => some ((b6Code sub) ++ (VReg.code a) ++ (UReg.code d) ++ 0x3E#8)
  | .s2v d a => some (0#8 ++ (UReg.code a) ++ (VReg.code d) ++ 0x3F#8)
  | .pand d a b => some ((finCode b.val) ++ (finCode a.val) ++ (finCode d.val) ++ 0x40#8)
  | .por d a b => some ((finCode b.val) ++ (finCode a.val) ++ (finCode d.val) ++ 0x41#8)
  | .pxor d a b => some ((finCode b.val) ++ (finCode a.val) ++ (finCode d.val) ++ 0x42#8)
  | .pnot d a => some (0#8 ++ (finCode a.val) ++ (finCode d.val) ++ 0x43#8)
  | .p2s d a b => some ((boolCode b) ++ (finCode a.val) ++ (UReg.code d) ++ 0x44#8)
  | .s2p d a b => some ((boolCode b) ++ (UReg.code a) ++ (finCode d.val) ++ 0x45#8)
  | .mode d imm => some (imm ++ d ++ 0x46#8)
  | .view d a b => some ((ViewSel.code b) ++ (UReg.code a) ++ (UReg.code d) ++ 0x47#8)
  | .region imm => some (imm ++ 0#8 ++ 0x48#8)
  | .sigchk imm => some (imm ++ 0#8 ++ 0x49#8)
  | .wait loads stores copies matrix => some (matrix ++ copies ++ stores ++ loads ++ 0x4A#8)
  | .fadd d a b => some ((VSrc.code b) ++ (VSrc.code a) ++ (VReg.code d) ++ 0x50#8)
  | .faddS d a b => some ((UReg.code b) ++ (VSrc.code a) ++ (VReg.code d) ++ 0x51#8)
  | .fsub d a b => some ((VSrc.code b) ++ (VSrc.code a) ++ (VReg.code d) ++ 0x52#8)
  | .fmul d a b => some ((VSrc.code b) ++ (VSrc.code a) ++ (VReg.code d) ++ 0x53#8)
  | .fmulS d a b => some ((UReg.code b) ++ (VSrc.code a) ++ (VReg.code d) ++ 0x54#8)
  | .ffma d a b => some ((VSrc.code b) ++ (VSrc.code a) ++ (VReg.code d) ++ 0x55#8)
  | .fmin d a b => some ((VSrc.code b) ++ (VSrc.code a) ++ (VReg.code d) ++ 0x56#8)
  | .fmax d a b => some ((VSrc.code b) ++ (VSrc.code a) ++ (VReg.code d) ++ 0x57#8)
  | .fcmp p c a b => some ((VSrc.code b) ++ (VSrc.code a) ++ (predFCode p c) ++ 0x58#8)
  | .fneg d a => some (0#8 ++ (VSrc.code a) ++ (VReg.code d) ++ 0x59#8)
  | .fabs d a => some (1#8 ++ (VSrc.code a) ++ (VReg.code d) ++ 0x59#8)
  | .fclass d a => some (2#8 ++ (VSrc.code a) ++ (VReg.code d) ++ 0x59#8)
  | .frcp d a => some (3#8 ++ (VSrc.code a) ++ (VReg.code d) ++ 0x59#8)
  | .frsq d a => some (4#8 ++ (VSrc.code a) ++ (VReg.code d) ++ 0x59#8)
  | .fsqrt d a => some (5#8 ++ (VSrc.code a) ++ (VReg.code d) ++ 0x59#8)
  | .fex2 d a => some (6#8 ++ (VSrc.code a) ++ (VReg.code d) ++ 0x59#8)
  | .flg2 d a => some (7#8 ++ (VSrc.code a) ++ (VReg.code d) ++ 0x59#8)
  | .cvt d a sub => some ((b5Code sub) ++ (VSrc.code a) ++ (VReg.code d) ++ 0x5A#8)
  | .qnt d a sub => some ((b5Code sub) ++ (VSrc.code a) ++ (VReg.code d) ++ 0x5B#8)
  | .dqnt d a sub => some ((b5Code sub) ++ (VSrc.code a) ++ (VReg.code d) ++ 0x5C#8)
  | .pack d a b => some ((VSrc.code b) ++ (VSrc.code a) ++ (VReg.code d) ++ 0x5D#8)
  | .unpack d a part => some ((b3Code part) ++ (VSrc.code a) ++ (VReg.code d) ++ 0x5E#8)
  | .p16add d a b => some ((VSrc.code b) ++ (VSrc.code a) ++ (VReg.code d) ++ 0x5F#8)
  | .p16sub d a b => some ((VSrc.code b) ++ (VSrc.code a) ++ (VReg.code d) ++ 0x60#8)
  | .p16mac d a b => some ((VSrc.code b) ++ (VSrc.code a) ++ (VReg.code d) ++ 0x61#8)
  | .p16shr d a sh r => some ((shrCode sh r) ++ (VSrc.code a) ++ (VReg.code d) ++ 0x62#8)
  | .p32sat d a b => some ((VSrc.code b) ++ (VSrc.code a) ++ (VReg.code d) ++ 0x63#8)
  | .shfl d a b => some ((VSrc.code b) ++ (VSrc.code a) ++ (VReg.code d) ++ 0x70#8)
  | .slideup d a sub => some ((b6Code sub) ++ (VSrc.code a) ++ (VReg.code d) ++ 0x71#8)
  | .slidedn d a sub => some ((b6Code sub) ++ (VSrc.code a) ++ (VReg.code d) ++ 0x72#8)
  | .bcast d a sub => some ((b6Code sub) ++ (VSrc.code a) ++ (VReg.code d) ++ 0x73#8)
  | .vote d a b => some ((VoteKind.code b) ++ (finCode a.val) ++ (finCode d.val) ++ 0x74#8)
  | .ballot d a => some (0#8 ++ (finCode a.val) ++ (finCode d.val) ++ 0x75#8)
  | .reduce d a b => some ((ROp.code b) ++ (VSrc.code a) ++ (VReg.code d) ++ 0x76#8)
  | .scan d a op excl => some ((scanCode op excl) ++ (VSrc.code a) ++ (VReg.code d) ++ 0x77#8)
  | .ldB d o base b => some ((VSrc.code b) ++ (ldBaseCode o base) ++ (VReg.code d) ++ 0x80#8)
  | .ldH d o base b => some ((VSrc.code b) ++ (ldBaseCode o base) ++ (VReg.code d) ++ 0x81#8)
  | .ld d o base b => some ((VSrc.code b) ++ (ldBaseCode o base) ++ (VReg.code d) ++ 0x82#8)
  | .ldD d o base b => some ((VSrc.code b) ++ (ldBaseCode o base) ++ (finCode d.val) ++ 0x83#8)
  | .ldQ d o base b => some ((VSrc.code b) ++ (ldBaseCode o base) ++ (finCode d.val) ++ 0x84#8)
  | .stB d o base b => some ((VSrc.code b) ++ (stBaseCode o base) ++ (VSrc.code d) ++ 0x85#8)
  | .stH d o base b => some ((VSrc.code b) ++ (stBaseCode o base) ++ (VSrc.code d) ++ 0x86#8)
  | .st d o base b => some ((VSrc.code b) ++ (stBaseCode o base) ++ (VSrc.code d) ++ 0x87#8)
  | .stD d o base b => some ((VSrc.code b) ++ (stBaseCode o base) ++ (finCode d.val) ++ 0x88#8)
  | .stQ d o base b => some ((VSrc.code b) ++ (stBaseCode o base) ++ (finCode d.val) ++ 0x89#8)
  | .ldg d o base b => some ((VSrc.code b) ++ (gaBaseCode o base) ++ (VReg.code d) ++ 0x8A#8)
  | .ldgD d o base b => some ((VSrc.code b) ++ (gaBaseCode o base) ++ (finCode d.val) ++ 0x8B#8)
  | .sts d o base b => some ((VSrc.code b) ++ (gaBaseCode o base) ++ (VSrc.code d) ++ 0x8C#8)
  | .stsD d o base b => some ((VSrc.code b) ++ (gaBaseCode o base) ++ (finCode d.val) ++ 0x8D#8)
  | .ldu d a b => some (b ++ (finCode a.val) ++ (UReg.code d) ++ 0x8E#8)
  | .stu d a b => some (b ++ (finCode a.val) ++ (UReg.code d) ++ 0x8F#8)
  | .atomAdd d o base b => some ((VSrc.code b) ++ (atBaseCode o base) ++ (VReg.code d) ++ 0x90#8)
  | .atomMin d o base b => some ((VSrc.code b) ++ (atBaseCode o base) ++ (VReg.code d) ++ 0x91#8)
  | .atomMax d o base b => some ((VSrc.code b) ++ (atBaseCode o base) ++ (VReg.code d) ++ 0x92#8)
  | .atomAnd d o base b => some ((VSrc.code b) ++ (atBaseCode o base) ++ (VReg.code d) ++ 0x93#8)
  | .atomOr d o base b => some ((VSrc.code b) ++ (atBaseCode o base) ++ (VReg.code d) ++ 0x94#8)
  | .atomXor d o base b => some ((VSrc.code b) ++ (atBaseCode o base) ++ (VReg.code d) ++ 0x95#8)
  | .atomExch d o base b => some ((VSrc.code b) ++ (atBaseCode o base) ++ (VReg.code d) ++ 0x96#8)
  | .atomCas d o base b => some ((VSrc.code b) ++ (atBaseCode o base) ++ (finCode d.val) ++ 0x97#8)
  | .atomFadd d o base b => some ((VSrc.code b) ++ (atBaseCode o base) ++ (VReg.code d) ++ 0x98#8)
  | .fence k sc => some ((fenceCode k sc) ++ 0#8 ++ 0#8 ++ 0x99#8)
  | .rpref a b => some ((boolCode b) ++ (finCode a.val) ++ 0#8 ++ 0x9A#8)
  | .waitm c wide a b => some ((UReg.code b) ++ (finCode a.val) ++ (waitmCode c wide) ++ 0x9B#8)
  | .spld d a b => some ((VSrc.code b) ++ (finCode a.val) ++ (VReg.code d) ++ 0xA0#8)
  | .spst d a b => some ((VSrc.code b) ++ (finCode a.val) ++ (VSrc.code d) ++ 0xA1#8)
  | .tclaim d => some (0#8 ++ 0#8 ++ (finCode d.val) ++ 0xA2#8)
  | .trel d => some (0#8 ++ 0#8 ++ (finCode d.val) ++ 0xA3#8)
  | .tstat d a => some (0#8 ++ (finCode a.val) ++ (UReg.code d) ++ 0xA4#8)
  | .copy d a b => some ((UReg.code b) ++ (finCode a.val) ++ (finCode d.val) ++ 0xA5#8)
  | .copyg d a b => some ((UReg.code b) ++ (finCode a.val) ++ (finCode d.val) ++ 0xA6#8)
  | .copyo d a b => some ((UReg.code b) ++ (finCode a.val) ++ (finCode d.val) ++ 0xA7#8)
  | .copyw d a b => some ((UReg.code b) ++ (finCode a.val) ++ (UReg.code d) ++ 0xA8#8)
  | .publish a => some (0#8 ++ (finCode a.val) ++ 0#8 ++ 0xA9#8)
  | .spfence => some (0#8 ++ 0#8 ++ 0#8 ++ 0xAA#8)
  | .acalloc d b => some (b ++ 0#8 ++ (UReg.code d) ++ 0xB0#8)
  | .acfree d b => some (b ++ 0#8 ++ (finCode d.val) ++ 0xB1#8)
  | .aczero d => some (0#8 ++ 0#8 ++ (finCode d.val) ++ 0xB2#8)
  | .mma d a b => some ((VSrc.code b) ++ (finCode a.val) ++ (finCode d.val) ++ 0xB3#8)
  | .mmap d a b => some ((VSrc.code b) ++ (finCode a.val) ++ (finCode d.val) ++ 0xB4#8)
  | .mmaq d a b => some ((VSrc.code b) ++ (finCode a.val) ++ (finCode d.val) ++ 0xB5#8)
  | .mmaw d a b => some ((VSrc.code b) ++ (finCode a.val) ++ (finCode d.val) ++ 0xB6#8)
  | .mfence d => some (0#8 ++ 0#8 ++ (UReg.code d) ++ 0xB7#8)
  | .waitb a => some (0#8 ++ (UReg.code a) ++ 0#8 ++ 0xB8#8)
  | .acld d a b => some ((VSrc.code b) ++ (finCode a.val) ++ (finCode d.val) ++ 0xB9#8)
  | .acst d a b => some ((VSrc.code b) ++ (finCode a.val) ++ (finCode d.val) ++ 0xBA#8)
  | .seek d a b => some ((UReg.code b) ++ (finCode a.val) ++ (VReg.code d) ++ 0xBB#8)
  | .seedx d a b => some ((UReg.code b) ++ (finCode a.val) ++ (finCode d.val) ++ 0xBC#8)
  | .ttrans d a b => some ((TSize.code b) ++ (finCode a.val) ++ (finCode d.val) ++ 0xBD#8)
  | .sprd d a b => some ((VSrc.code b) ++ (UReg.code a) ++ (VReg.code d) ++ 0xC0#8)
  | .qpub d a => some (0#8 ++ (UReg.code a) ++ (finCode d.val) ++ 0xC1#8)
  | .qmap d b => some ((boolCode b) ++ 0#8 ++ (UReg.code d) ++ 0xC2#8)
  | .chainw d => some (0#8 ++ 0#8 ++ (finCode d.val) ++ 0xC3#8)
  | .launch a => some (0#8 ++ (finCode a.val) ++ 0#8 ++ 0xC8#8)
  | .launcht d a => some (0#8 ++ (finCode a.val) ++ (finCode d.val) ++ 0xC9#8)
  | .yield => some (0#8 ++ 0#8 ++ 0#8 ++ 0xCA#8)
  | .bar d b => some ((Scope.code b) ++ 0#8 ++ d ++ 0xCB#8)
  | .bara d b => some ((Scope.code b) ++ 0#8 ++ d ++ 0xCC#8)
  | .barw d b => some ((Scope.code b) ++ 0#8 ++ d ++ 0xCD#8)
  | .trap imm => some (imm ++ 0#8 ++ 0xD0#8)
  | .resume => some (0#8 ++ 0#8 ++ 0#8 ++ 0xD1#8)
  | .abort => some (0#8 ++ 0#8 ++ 0#8 ++ 0xD2#8)
  | .clock d => some (0#8 ++ 0#8 ++ (finCode d.val) ++ 0xD3#8)
  | .monset d a => some (0#8 ++ (finCode a.val) ++ (b2Code d) ++ 0xD4#8)
  | .monref d a => some (0#8 ++ (finCode a.val) ++ (b2Code d) ++ 0xD5#8)
  | .monrefLast d => some (1#8 ++ 0#8 ++ (b2Code d) ++ 0xD5#8)
  | .monrd d a b => some ((MonSel.code b) ++ (b2Code a) ++ (finCode d.val) ++ 0xD6#8)
  | .monclr d => some (0#8 ++ 0#8 ++ (b2Code d) ++ 0xD7#8)
  | .npost d a => some (0#8 ++ (finCode a.val) ++ (UReg.code d) ++ 0xE0#8)
  | .nwait d a => some (0#8 ++ (UReg.code a) ++ (UReg.code d) ++ 0xE1#8)
  | .ncnt d a => some (0#8 ++ (UReg.code a) ++ (UReg.code d) ++ 0xE2#8)
  | .nqstat d a => some (0#8 ++ (UReg.code a) ++ (UReg.code d) ++ 0xE3#8)
  | .loadComplete _ _ _ _ => none
  | .storePerformed _ _ _ => none
  | .copyFillComplete _ _ => none
  | .copyoComplete _ _ => none
  | .copywComplete _ _ => none
  | .copyFault _ _ _ => none
  | .matrixOpStart _ => none
  | .matrixOpComplete _ => none
  | .matrixFault _ _ => none
  | .pairingInstanceForm _ _ => none
  | .pairingTimeout _ => none
  | .instanceCancel _ => none
  | .acallocGrant _ => none
  | .waitmReevaluation _ _ => none
  | .waitRemoteLoadTimeout _ _ => none
  | .yieldExpiry _ _ => none
  | .groupEnd _ => none
  | .launchCompletionSignal _ => none
  | .groupEvict _ => none
  | .groupRestore _ => none
  | .cohortPlacement _ _ => none
  | .pendingLaunchEntryFree _ => none
  | .groupWatchdogExpiry _ => none
  | .cpWatchdogExpiry _ _ => none
  | .quadBarrierTimeout _ _ => none
  | .queuePointerPoll _ _ => none
  | .packetNop _ _ => none
  | .packetLaunch _ _ => none
  | .packetPrefetch _ _ => none
  | .packetWaitsig _ _ => none
  | .waitsigTimeout _ _ => none
  | .packetSetsig _ _ => none
  | .packetCopy _ _ => none
  | .queueCopyComplete _ _ _ => none
  | .packetCheckpoint _ _ => none
  | .packetMarker _ _ => none
  | .queueEnable _ _ _ => none
  | .queueDisable _ _ _ => none
  | .qresumeGo _ _ => none
  | .replaceDescriptor _ => none
  | .replaceTable _ => none
  | .slide _ => none
  | .demote _ => none
  | .demoteComplete _ => none
  | .migrate _ => none
  | .shootdownComplete _ => none
  | .slideChunk _ => none
  | .migrationChunkMove _ => none
  | .cxlLinkDown _ => none
  | .cxlCompletionTimeout _ => none
  | .pcieCompletionTimeout _ _ => none
  | .hostRead _ _ _ _ => none
  | .hostWrite _ _ _ => none
  | .hostAtomicop _ _ _ _ _ _ _ => none
  | .hostAccessTimeout _ => none
  | .peerRequest _ _ _ _ => none
  | .hbmRefresh _ _ _ => none
  | .wsTagWrite _ _ _ => none
  | .arrayRetentionEntry _ _ => none
  | .quadRemap _ _ => none
  | .quadOffline _ _ => none
  | .quadFailure _ => none
  | .chainModeSet _ _ => none
  | .qwctlClr _ _ => none
  | .chainHopComplete _ _ _ _ => none
  | .pmStart _ _ => none
  | .pmSample _ _ _ => none
  | .pmWindowClose _ _ => none
  | .powerArbiterTick _ _ => none
  | .powerOvershoot _ => none
  | .networkMessageStart _ _ => none
  | .networkPacketArrival _ => none
  | .networkAckArrival _ => none
  | .retransmissionTimeout _ _ _ => none
  | .ntestArm _ _ => none
  | .sendQueueEnable _ _ => none
  | .sendQueueDisable _ _ => none
  | .sendQueueGo _ _ => none
  | .podBarrierArrival _ _ _ => none
  | .podBarrierCompletion _ _ => none
  | .tenantValidSet _ => none
  | .tenantReset _ => none
  | .functionLevelReset _ => none
  | .warmReset => none
  | .coldReset => none
  | .attestationRequest _ _ _ => none
  | .firmwareUpdate => none
  | .registerWrite _ _ => none
  | .cxlLinkUp _ => none
  | .pcieLinkDown _ => none
  | .pcieLinkUp _ => none
  | .waitsigReevaluation _ _ => none
  | .checkpointComplete _ _ => none
  | .malformedRangeCommand _ _ => none
  | .podMonitorGather _ _ => none

/-- Whether a row is a step of the hardware and has no word. -/
def isStep (i : Instr) : Bool := (encode i).isNone

/-! ## The fields of a word (R8) -/

def fOp (w : Word) : BitVec 8 := w.extractLsb' 0 8
def fD (w : Word) : BitVec 8 := w.extractLsb' 8 8
def fA (w : Word) : BitVec 8 := w.extractLsb' 16 8
def fB (w : Word) : BitVec 8 := w.extractLsb' 24 8
def fImm (w : Word) : BitVec 16 := w.extractLsb' 16 16

/-- A field that must hold a fixed value (R20). -/
def fieldIs (f : BitVec 8) (n : Nat) : Except DecodeError Unit :=
  if f.toNat = n then .ok () else .error .nonzeroField

def slotVSrc (f : BitVec 8) : Except DecodeError VSrc :=
  if h : f.toNat < 248 then .ok (.reg ⟨f.toNat, h⟩)
  else if f.toNat = 248 then .ok (.latch 0)
  else if f.toNat = 249 then .ok (.latch 1)
  else if f.toNat = 250 then .ok (.latch 2)
  else if f.toNat = 251 then .ok .lane
  else if f.toNat = 255 then .ok .zero
  else .error .badSpecifier

def slotVReg (f : BitVec 8) : Except DecodeError VReg :=
  if h : f.toNat < 248 then .ok (.reg ⟨f.toNat, h⟩)
  else if f.toNat = 255 then .ok .zero
  else .error .badSpecifier

def slotUReg (f : BitVec 8) : Except DecodeError UReg :=
  if h : f.toNat < 192 then .ok (.reg ⟨f.toNat, h⟩)
  else if f.toNat = 255 then .ok .zero
  else .error .badSpecifier

def slotFin248 (f : BitVec 8) : Except DecodeError (Fin 248) :=
  if h : f.toNat < 248 then .ok ⟨f.toNat, h⟩ else .error .badSpecifier
def slotFin192 (f : BitVec 8) : Except DecodeError (Fin 192) :=
  if h : f.toNat < 192 then .ok ⟨f.toNat, h⟩ else .error .badSpecifier
def slotFin16 (f : BitVec 8) : Except DecodeError (Fin 16) :=
  if h : f.toNat < 16 then .ok ⟨f.toNat, h⟩ else .error .badSpecifier
def slotFin8 (f : BitVec 8) : Except DecodeError (Fin 8) :=
  if h : f.toNat < 8 then .ok ⟨f.toNat, h⟩ else .error .badSpecifier
def slotB8 (f : BitVec 8) : Except DecodeError (BitVec 8) := .ok f
def slotB6 (f : BitVec 8) : Except DecodeError (BitVec 6) :=
  if f.toNat < 64 then .ok (f.extractLsb' 0 6) else .error .badSubOp
def slotB5 (f : BitVec 8) : Except DecodeError (BitVec 5) :=
  if f.toNat < 32 then .ok (f.extractLsb' 0 5) else .error .badSubOp
def slotB3 (f : BitVec 8) : Except DecodeError (BitVec 3) :=
  if f.toNat < 8 then .ok (f.extractLsb' 0 3) else .error .badSubOp
def slotB2 (f : BitVec 8) : Except DecodeError (BitVec 2) :=
  if f.toNat < 4 then .ok (f.extractLsb' 0 2) else .error .badSubOp
def slotBool (f : BitVec 8) : Except DecodeError Bool :=
  if f.toNat = 0 then .ok false else if f.toNat = 1 then .ok true else .error .badSubOp
def slotVote (f : BitVec 8) : Except DecodeError VoteKind := voteKindOf f.toNat
def slotView (f : BitVec 8) : Except DecodeError ViewSel := viewSelOf f.toNat
def slotROp (f : BitVec 8) : Except DecodeError ROp := rOpOf f.toNat
def slotTSize (f : BitVec 8) : Except DecodeError TSize := tSizeOf f.toNat
def slotMonSel (f : BitVec 8) : Except DecodeError MonSel := monSelOf f.toNat
def slotScope (f : BitVec 8) : Except DecodeError Scope :=
  if f.toNat < 8 then scopeOf f.toNat else .error .nonzeroField

/-- d[2:0] of a compare form. -/
def predOf (f : BitVec 8) : Fin 8 := (f.extractLsb' 0 3).toFin

def slotPredI (f : BitVec 8) : Except DecodeError (Fin 8 × ICond) :=
  if f.toNat < 64 then do let c ← iCondOf (f.extractLsb' 3 3).toNat; pure (predOf f, c) else .error .nonzeroField
def slotPredF (f : BitVec 8) : Except DecodeError (Fin 8 × FCond) :=
  if f.toNat < 64 then do let c ← fCondOf (f.extractLsb' 3 3).toNat; pure (predOf f, c) else .error .nonzeroField
def slotSCmp (f : BitVec 8) : Except DecodeError (BitVec 5 × SCond) := do
  let c ← sCondOf (f.extractLsb' 5 3).toNat; pure (f.extractLsb' 0 5, c)
def slotLdBase (f : BitVec 8) : Except DecodeError (LdOrd × BitVec 6) := do
  let o ← ldOrdOf (f.extractLsb' 6 2).toNat; pure (o, f.extractLsb' 0 6)
def slotStBase (f : BitVec 8) : Except DecodeError (StOrd × BitVec 6) := do
  let o ← stOrdOf (f.extractLsb' 6 2).toNat; pure (o, f.extractLsb' 0 6)
def slotGaBase (f : BitVec 8) : Except DecodeError (GaOrd × BitVec 6) := do
  let o ← gaOrdOf (f.extractLsb' 6 2).toNat; pure (o, f.extractLsb' 0 6)
def slotAtBase (f : BitVec 8) : Except DecodeError (AtOrd × BitVec 6) := do
  let o ← atOrdOf (f.extractLsb' 6 2).toNat; pure (o, f.extractLsb' 0 6)
def slotScan (f : BitVec 8) : Except DecodeError (ROp × Bool) :=
  if f.toNat < 16 then do let o ← rOpOf (f.extractLsb' 0 3).toNat; pure (o, f.getLsbD 3) else .error .nonzeroField
def slotShr (f : BitVec 8) : Except DecodeError (BitVec 4 × Bool) :=
  if f.toNat < 32 then .ok (f.extractLsb' 0 4, f.getLsbD 4) else .error .nonzeroField
def slotWaitm (f : BitVec 8) : Except DecodeError (WCond × Bool) :=
  if f.toNat < 16 then do let c ← wCondOf (f.extractLsb' 0 3).toNat; pure (c, f.getLsbD 3) else .error .nonzeroField

/-- The kind of a FENCE; kind 0 is illegal (R26). -/
def fenceKindOf (n : Nat) : Except DecodeError FenceKind :=
  match n with
  | 1 => .ok .acq
  | 2 => .ok .rel
  | 3 => .ok .ar
  | _ => .error .badSubOp

def slotFence (f : BitVec 8) : Except DecodeError (FenceKind × FenceScope) := do
  let k ← fenceKindOf (f.extractLsb' 0 2).toNat
  if f.toNat < 32 then
    let s ← scopeOf (f.extractLsb' 2 3).toNat
    pure (k, .at s)
  else if f.toNat < 64 && (f.extractLsb' 2 3).toNat = 0 then pure (k, .sys)
  else .error .nonzeroField

/-! ## The decoder, by the classes of the opcode map (R22) -/

/-- Primaries 0x00 to 0x0F: control. -/
def decodeClass0 (n : Nat) (w : Word) : Except DecodeError Instr :=
  match n with
  | 0 => do fieldIs (fD w) 0; fieldIs (fA w) 0; fieldIs (fB w) 0; pure .nop
  | 1 => .ok (.bra (w.extractLsb' 8 24))
  | 2 => do let d ← slotUReg (fD w); pure (.brz d (fImm w))
  | 3 => do let d ← slotUReg (fD w); pure (.brnz d (fImm w))
  | 4 => .ok (.brd (w.extractLsb' 8 24))
  | 5 => .ok (.call (w.extractLsb' 8 24))
  | 6 => do fieldIs (fD w) 0; fieldIs (fA w) 0; fieldIs (fB w) 0; pure .ret
  | 7 => do fieldIs (fD w) 0; fieldIs (fA w) 0; fieldIs (fB w) 0; pure .regang
  | 8 => do fieldIs (fD w) 0; fieldIs (fA w) 0; fieldIs (fB w) 0; pure .exit
  | _ => .error .reservedOpcode

/-- Primaries 0x10 to 0x1F: integer vector, low half. -/
def decodeClass1 (n : Nat) (w : Word) : Except DecodeError Instr :=
  match n with
  | 0 => do let d ← slotVReg (fD w); let a ← slotVSrc (fA w); let b ← slotVSrc (fB w); pure (.iadd d a b)
  | 1 => do let d ← slotVReg (fD w); let a ← slotVSrc (fA w); let b ← slotUReg (fB w); pure (.iaddS d a b)
  | 2 => do let d ← slotVReg (fD w); let a ← slotVSrc (fA w); let b ← slotVSrc (fB w); pure (.isub d a b)
  | 3 => do let d ← slotVReg (fD w); let a ← slotVSrc (fA w); let b ← slotUReg (fB w); pure (.isubS d a b)
  | 4 => do let d ← slotVReg (fD w); let a ← slotVSrc (fA w); let b ← slotVSrc (fB w); pure (.imul d a b)
  | 5 => do let d ← slotVReg (fD w); let a ← slotVSrc (fA w); let b ← slotUReg (fB w); pure (.imulS d a b)
  | 6 => do let d ← slotVReg (fD w); let a ← slotVSrc (fA w); let b ← slotVSrc (fB w); pure (.imulh d a b)
  | 7 => do let d ← slotVReg (fD w); let a ← slotVSrc (fA w); let b ← slotVSrc (fB w); pure (.imad d a b)
  | 8 => do let d ← slotVReg (fD w); let a ← slotVSrc (fA w); let b ← slotVSrc (fB w); pure (.imin d a b)
  | 9 => do let d ← slotVReg (fD w); let a ← slotVSrc (fA w); let b ← slotVSrc (fB w); pure (.imax d a b)
  | 10 => do let d ← slotVReg (fD w); let a ← slotVSrc (fA w); let b ← slotVSrc (fB w); pure (.shl d a b)
  | 11 => do let d ← slotVReg (fD w); let a ← slotVSrc (fA w); let b ← slotVSrc (fB w); pure (.shr d a b)
  | 12 => do let d ← slotVReg (fD w); let a ← slotVSrc (fA w); let b ← slotVSrc (fB w); pure (.sra d a b)
  | 13 => do let d ← slotVReg (fD w); let a ← slotVSrc (fA w); let b ← slotVSrc (fB w); pure (.rot d a b)
  | 14 => do let d ← slotVReg (fD w); let a ← slotVSrc (fA w); let b ← slotVSrc (fB w); pure (.and d a b)
  | 15 => do let d ← slotVReg (fD w); let a ← slotVSrc (fA w); let b ← slotVSrc (fB w); pure (.or d a b)
  | _ => .error .reservedOpcode

/-- Primaries 0x20 to 0x2F: integer vector, high half. -/
def decodeClass2 (n : Nat) (w : Word) : Except DecodeError Instr :=
  match n with
  | 0 => do let d ← slotVReg (fD w); let a ← slotVSrc (fA w); let b ← slotVSrc (fB w); pure (.xor d a b)
  | 1 => do let d ← slotVReg (fD w); let a ← slotVSrc (fA w); let b ← slotVSrc (fB w); pure (.andn d a b)
  | 2 => do let d ← slotVReg (fD w); let a ← slotVSrc (fA w); let b ← slotVSrc (fB w); pure (.sel d a b)
  | 3 => do let (p, c) ← slotPredI (fD w); let a ← slotVSrc (fA w); let b ← slotVSrc (fB w); pure (.icmp p c a b)
  | 4 => do let (p, c) ← slotPredI (fD w); let a ← slotVSrc (fA w); let b ← slotUReg (fB w); pure (.icmpS p c a b)
  | 5 => do let d ← slotVReg (fD w); let a ← slotVSrc (fA w); let sub ← slotB5 (fB w); pure (.lea d a sub)
  | 6 => do let d ← slotVReg (fD w); let a ← slotVSrc (fA w); let b ← slotVSrc (fB w); pure (.bfx d a b)
  | 7 => do let d ← slotVReg (fD w); let a ← slotVSrc (fA w); let b ← slotVSrc (fB w); pure (.bfi d a b)
  | 8 =>
    match (fB w).toNat with
    | 0 => do let d ← slotVReg (fD w); let a ← slotVSrc (fA w); pure (.iabs d a)
    | 1 => do let d ← slotVReg (fD w); let a ← slotVSrc (fA w); pure (.ineg d a)
    | 2 => do let d ← slotVReg (fD w); let a ← slotVSrc (fA w); pure (.clz d a)
    | 3 => do let d ← slotVReg (fD w); let a ← slotVSrc (fA w); pure (.popc d a)
    | 4 => do let d ← slotVReg (fD w); let a ← slotVSrc (fA w); pure (.brev d a)
    | _ => .error .badSubOp
  | 9 => do let d ← slotVReg (fD w); pure (.iaddi d (fImm w))
  | 10 => do let d ← slotVReg (fD w); pure (.lli d (fImm w))
  | 11 => do let d ← slotVReg (fD w); pure (.lui d (fImm w))
  | 12 => do let d ← slotVReg (fD w); let a ← slotVSrc (fA w); fieldIs (fB w) 0; pure (.movv d a)
  | 13 => do let d ← slotVReg (fD w); let a ← slotVSrc (fA w); let b ← slotVSrc (fB w); pure (.movi d a b)
  | 14 => do let d ← slotVSrc (fD w); let a ← slotVSrc (fA w); let b ← slotVSrc (fB w); pure (.moviw d a b)
  | _ => .error .reservedOpcode

/-- Primaries 0x30 to 0x3F: uniform scalar. -/
def decodeClass3 (n : Nat) (w : Word) : Except DecodeError Instr :=
  match n with
  | 0 => do let d ← slotUReg (fD w); let a ← slotUReg (fA w); let b ← slotUReg (fB w); pure (.sadd d a b)
  | 1 => do let d ← slotUReg (fD w); let a ← slotUReg (fA w); let b ← slotUReg (fB w); pure (.ssub d a b)
  | 2 => do let d ← slotUReg (fD w); let a ← slotUReg (fA w); let b ← slotUReg (fB w); pure (.smul d a b)
  | 3 => do let d ← slotUReg (fD w); let a ← slotUReg (fA w); let b ← slotUReg (fB w); pure (.sand d a b)
  | 4 => do let d ← slotUReg (fD w); let a ← slotUReg (fA w); let b ← slotUReg (fB w); pure (.sor d a b)
  | 5 => do let d ← slotUReg (fD w); let a ← slotUReg (fA w); let b ← slotUReg (fB w); pure (.sxor d a b)
  | 6 => do let d ← slotUReg (fD w); let a ← slotUReg (fA w); let b ← slotUReg (fB w); pure (.sshl d a b)
  | 7 => do let d ← slotUReg (fD w); let a ← slotUReg (fA w); let b ← slotUReg (fB w); pure (.sshr d a b)
  | 8 => do let (d, c) ← slotSCmp (fD w); let a ← slotUReg (fA w); let b ← slotUReg (fB w); pure (.scmp d c a b)
  | 9 => do let d ← slotUReg (fD w); let a ← slotUReg (fA w); fieldIs (fB w) 0; pure (.smov d a)
  | 10 => do let d ← slotUReg (fD w); pure (.sli d (fImm w))
  | 11 => do let d ← slotUReg (fD w); pure (.slui d (fImm w))
  | 12 => do let d ← slotUReg (fD w); pure (.srd d (fImm w))
  | 13 => do let d ← slotUReg (fD w); pure (.swr d (fImm w))
  | 14 => do let d ← slotUReg (fD w); let a ← slotVReg (fA w); let sub ← slotB6 (fB w); pure (.v2s d a sub)
  | 15 => do let d ← slotVReg (fD w); let a ← slotUReg (fA w); fieldIs (fB w) 0; pure (.s2v d a)
  | _ => .error .reservedOpcode

/-- Primaries 0x40 to 0x4F: predicate, mode, view, region, signature, wait. -/
def decodeClass4 (n : Nat) (w : Word) : Except DecodeError Instr :=
  match n with
  | 0 => do let d ← slotFin8 (fD w); let a ← slotFin8 (fA w); let b ← slotFin8 (fB w); pure (.pand d a b)
  | 1 => do let d ← slotFin8 (fD w); let a ← slotFin8 (fA w); let b ← slotFin8 (fB w); pure (.por d a b)
  | 2 => do let d ← slotFin8 (fD w); let a ← slotFin8 (fA w); let b ← slotFin8 (fB w); pure (.pxor d a b)
  | 3 => do let d ← slotFin8 (fD w); let a ← slotFin8 (fA w); fieldIs (fB w) 0; pure (.pnot d a)
  | 4 => do let d ← slotUReg (fD w); let a ← slotFin8 (fA w); let b ← slotBool (fB w); pure (.p2s d a b)
  | 5 => do let d ← slotFin8 (fD w); let a ← slotUReg (fA w); let b ← slotBool (fB w); pure (.s2p d a b)
  | 6 => do let d ← slotB8 (fD w); pure (.mode d (fImm w))
  | 7 => do let d ← slotUReg (fD w); let a ← slotUReg (fA w); let b ← slotView (fB w); pure (.view d a b)
  | 8 => do fieldIs (fD w) 0; pure (.region (fImm w))
  | 9 => do fieldIs (fD w) 0; pure (.sigchk (fImm w))
  | 10 => .ok (.wait (w.extractLsb' 8 6) (w.extractLsb' 14 6) (w.extractLsb' 20 6) (w.extractLsb' 26 6))
  | _ => .error .reservedOpcode

/-- Primaries 0x50 to 0x5F: floating point and conversion. -/
def decodeClass5 (n : Nat) (w : Word) : Except DecodeError Instr :=
  match n with
  | 0 => do let d ← slotVReg (fD w); let a ← slotVSrc (fA w); let b ← slotVSrc (fB w); pure (.fadd d a b)
  | 1 => do let d ← slotVReg (fD w); let a ← slotVSrc (fA w); let b ← slotUReg (fB w); pure (.faddS d a b)
  | 2 => do let d ← slotVReg (fD w); let a ← slotVSrc (fA w); let b ← slotVSrc (fB w); pure (.fsub d a b)
  | 3 => do let d ← slotVReg (fD w); let a ← slotVSrc (fA w); let b ← slotVSrc (fB w); pure (.fmul d a b)
  | 4 => do let d ← slotVReg (fD w); let a ← slotVSrc (fA w); let b ← slotUReg (fB w); pure (.fmulS d a b)
  | 5 => do let d ← slotVReg (fD w); let a ← slotVSrc (fA w); let b ← slotVSrc (fB w); pure (.ffma d a b)
  | 6 => do let d ← slotVReg (fD w); let a ← slotVSrc (fA w); let b ← slotVSrc (fB w); pure (.fmin d a b)
  | 7 => do let d ← slotVReg (fD w); let a ← slotVSrc (fA w); let b ← slotVSrc (fB w); pure (.fmax d a b)
  | 8 => do let (p, c) ← slotPredF (fD w); let a ← slotVSrc (fA w); let b ← slotVSrc (fB w); pure (.fcmp p c a b)
  | 9 =>
    match (fB w).toNat with
    | 0 => do let d ← slotVReg (fD w); let a ← slotVSrc (fA w); pure (.fneg d a)
    | 1 => do let d ← slotVReg (fD w); let a ← slotVSrc (fA w); pure (.fabs d a)
    | 2 => do let d ← slotVReg (fD w); let a ← slotVSrc (fA w); pure (.fclass d a)
    | 3 => do let d ← slotVReg (fD w); let a ← slotVSrc (fA w); pure (.frcp d a)
    | 4 => do let d ← slotVReg (fD w); let a ← slotVSrc (fA w); pure (.frsq d a)
    | 5 => do let d ← slotVReg (fD w); let a ← slotVSrc (fA w); pure (.fsqrt d a)
    | 6 => do let d ← slotVReg (fD w); let a ← slotVSrc (fA w); pure (.fex2 d a)
    | 7 => do let d ← slotVReg (fD w); let a ← slotVSrc (fA w); pure (.flg2 d a)
    | _ => .error .badSubOp
  | 10 => do let d ← slotVReg (fD w); let a ← slotVSrc (fA w); let sub ← slotB5 (fB w); pure (.cvt d a sub)
  | 11 => do let d ← slotVReg (fD w); let a ← slotVSrc (fA w); let sub ← slotB5 (fB w); pure (.qnt d a sub)
  | 12 => do let d ← slotVReg (fD w); let a ← slotVSrc (fA w); let sub ← slotB5 (fB w); pure (.dqnt d a sub)
  | 13 => do let d ← slotVReg (fD w); let a ← slotVSrc (fA w); let b ← slotVSrc (fB w); pure (.pack d a b)
  | 14 => do let d ← slotVReg (fD w); let a ← slotVSrc (fA w); let part ← slotB3 (fB w); pure (.unpack d a part)
  | 15 => do let d ← slotVReg (fD w); let a ← slotVSrc (fA w); let b ← slotVSrc (fB w); pure (.p16add d a b)
  | _ => .error .reservedOpcode

/-- Primaries 0x60 to 0x6F: packed. -/
def decodeClass6 (n : Nat) (w : Word) : Except DecodeError Instr :=
  match n with
  | 0 => do let d ← slotVReg (fD w); let a ← slotVSrc (fA w); let b ← slotVSrc (fB w); pure (.p16sub d a b)
  | 1 => do let d ← slotVReg (fD w); let a ← slotVSrc (fA w); let b ← slotVSrc (fB w); pure (.p16mac d a b)
  | 2 => do let d ← slotVReg (fD w); let a ← slotVSrc (fA w); let (sh, r) ← slotShr (fB w); pure (.p16shr d a sh r)
  | 3 => do let d ← slotVReg (fD w); let a ← slotVSrc (fA w); let b ← slotVSrc (fB w); pure (.p32sat d a b)
  | _ => .error .reservedOpcode

/-- Primaries 0x70 to 0x7F: cross-lane. -/
def decodeClass7 (n : Nat) (w : Word) : Except DecodeError Instr :=
  match n with
  | 0 => do let d ← slotVReg (fD w); let a ← slotVSrc (fA w); let b ← slotVSrc (fB w); pure (.shfl d a b)
  | 1 => do let d ← slotVReg (fD w); let a ← slotVSrc (fA w); let sub ← slotB6 (fB w); pure (.slideup d a sub)
  | 2 => do let d ← slotVReg (fD w); let a ← slotVSrc (fA w); let sub ← slotB6 (fB w); pure (.slidedn d a sub)
  | 3 => do let d ← slotVReg (fD w); let a ← slotVSrc (fA w); let sub ← slotB6 (fB w); pure (.bcast d a sub)
  | 4 => do let d ← slotFin8 (fD w); let a ← slotFin8 (fA w); let b ← slotVote (fB w); pure (.vote d a b)
  | 5 => do let d ← slotFin192 (fD w); let a ← slotFin8 (fA w); fieldIs (fB w) 0; pure (.ballot d a)
  | 6 => do let d ← slotVReg (fD w); let a ← slotVSrc (fA w); let b ← slotROp (fB w); pure (.reduce d a b)
  | 7 => do let d ← slotVReg (fD w); let a ← slotVSrc (fA w); let (op, excl) ← slotScan (fB w); pure (.scan d a op excl)
  | _ => .error .reservedOpcode

/-- Primaries 0x80 to 0x8F: memory. -/
def decodeClass8 (n : Nat) (w : Word) : Except DecodeError Instr :=
  match n with
  | 0 => do let d ← slotVReg (fD w); let (o, base) ← slotLdBase (fA w); let b ← slotVSrc (fB w); pure (.ldB d o base b)
  | 1 => do let d ← slotVReg (fD w); let (o, base) ← slotLdBase (fA w); let b ← slotVSrc (fB w); pure (.ldH d o base b)
  | 2 => do let d ← slotVReg (fD w); let (o, base) ← slotLdBase (fA w); let b ← slotVSrc (fB w); pure (.ld d o base b)
  | 3 => do let d ← slotFin248 (fD w); let (o, base) ← slotLdBase (fA w); let b ← slotVSrc (fB w); pure (.ldD d o base b)
  | 4 => do let d ← slotFin248 (fD w); let (o, base) ← slotLdBase (fA w); let b ← slotVSrc (fB w); pure (.ldQ d o base b)
  | 5 => do let d ← slotVSrc (fD w); let (o, base) ← slotStBase (fA w); let b ← slotVSrc (fB w); pure (.stB d o base b)
  | 6 => do let d ← slotVSrc (fD w); let (o, base) ← slotStBase (fA w); let b ← slotVSrc (fB w); pure (.stH d o base b)
  | 7 => do let d ← slotVSrc (fD w); let (o, base) ← slotStBase (fA w); let b ← slotVSrc (fB w); pure (.st d o base b)
  | 8 => do let d ← slotFin248 (fD w); let (o, base) ← slotStBase (fA w); let b ← slotVSrc (fB w); pure (.stD d o base b)
  | 9 => do let d ← slotFin248 (fD w); let (o, base) ← slotStBase (fA w); let b ← slotVSrc (fB w); pure (.stQ d o base b)
  | 10 => do let d ← slotVReg (fD w); let (o, base) ← slotGaBase (fA w); let b ← slotVSrc (fB w); pure (.ldg d o base b)
  | 11 => do let d ← slotFin248 (fD w); let (o, base) ← slotGaBase (fA w); let b ← slotVSrc (fB w); pure (.ldgD d o base b)
  | 12 => do let d ← slotVSrc (fD w); let (o, base) ← slotGaBase (fA w); let b ← slotVSrc (fB w); pure (.sts d o base b)
  | 13 => do let d ← slotFin248 (fD w); let (o, base) ← slotGaBase (fA w); let b ← slotVSrc (fB w); pure (.stsD d o base b)
  | 14 => do let d ← slotUReg (fD w); let a ← slotFin192 (fA w); let b ← slotB8 (fB w); pure (.ldu d a b)
  | 15 => do let d ← slotUReg (fD w); let a ← slotFin192 (fA w); let b ← slotB8 (fB w); pure (.stu d a b)
  | _ => .error .reservedOpcode

/-- Primaries 0x90 to 0x9F: atomics, FENCE, RPREF, WAITM. -/
def decodeClass9 (n : Nat) (w : Word) : Except DecodeError Instr :=
  match n with
  | 0 => do let d ← slotVReg (fD w); let (o, base) ← slotAtBase (fA w); let b ← slotVSrc (fB w); pure (.atomAdd d o base b)
  | 1 => do let d ← slotVReg (fD w); let (o, base) ← slotAtBase (fA w); let b ← slotVSrc (fB w); pure (.atomMin d o base b)
  | 2 => do let d ← slotVReg (fD w); let (o, base) ← slotAtBase (fA w); let b ← slotVSrc (fB w); pure (.atomMax d o base b)
  | 3 => do let d ← slotVReg (fD w); let (o, base) ← slotAtBase (fA w); let b ← slotVSrc (fB w); pure (.atomAnd d o base b)
  | 4 => do let d ← slotVReg (fD w); let (o, base) ← slotAtBase (fA w); let b ← slotVSrc (fB w); pure (.atomOr d o base b)
  | 5 => do let d ← slotVReg (fD w); let (o, base) ← slotAtBase (fA w); let b ← slotVSrc (fB w); pure (.atomXor d o base b)
  | 6 => do let d ← slotVReg (fD w); let (o, base) ← slotAtBase (fA w); let b ← slotVSrc (fB w); pure (.atomExch d o base b)
  | 7 => do let d ← slotFin248 (fD w); let (o, base) ← slotAtBase (fA w); let b ← slotVSrc (fB w); pure (.atomCas d o base b)
  | 8 => do let d ← slotVReg (fD w); let (o, base) ← slotAtBase (fA w); let b ← slotVSrc (fB w); pure (.atomFadd d o base b)
  | 9 => do fieldIs (fD w) 0; fieldIs (fA w) 0; let (k, sc) ← slotFence (fB w); pure (.fence k sc)
  | 10 => do fieldIs (fD w) 0; let a ← slotFin192 (fA w); let b ← slotBool (fB w); pure (.rpref a b)
  | 11 => do let (c, wide) ← slotWaitm (fD w); let a ← slotFin192 (fA w); let b ← slotUReg (fB w); pure (.waitm c wide a b)
  | _ => .error .reservedOpcode

/-- Primaries 0xA0 to 0xAF: scratchpad, tiles, copies. -/
def decodeClassA (n : Nat) (w : Word) : Except DecodeError Instr :=
  match n with
  | 0 => do let d ← slotVReg (fD w); let a ← slotFin192 (fA w); let b ← slotVSrc (fB w); pure (.spld d a b)
  | 1 => do let d ← slotVSrc (fD w); let a ← slotFin192 (fA w); let b ← slotVSrc (fB w); pure (.spst d a b)
  | 2 => do let d ← slotFin192 (fD w); fieldIs (fA w) 0; fieldIs (fB w) 0; pure (.tclaim d)
  | 3 => do let d ← slotFin192 (fD w); fieldIs (fA w) 0; fieldIs (fB w) 0; pure (.trel d)
  | 4 => do let d ← slotUReg (fD w); let a ← slotFin192 (fA w); fieldIs (fB w) 0; pure (.tstat d a)
  | 5 => do let d ← slotFin192 (fD w); let a ← slotFin192 (fA w); let b ← slotUReg (fB w); pure (.copy d a b)
  | 6 => do let d ← slotFin192 (fD w); let a ← slotFin192 (fA w); let b ← slotUReg (fB w); pure (.copyg d a b)
  | 7 => do let d ← slotFin192 (fD w); let a ← slotFin192 (fA w); let b ← slotUReg (fB w); pure (.copyo d a b)
  | 8 => do let d ← slotUReg (fD w); let a ← slotFin192 (fA w); let b ← slotUReg (fB w); pure (.copyw d a b)
  | 9 => do fieldIs (fD w) 0; let a ← slotFin192 (fA w); fieldIs (fB w) 0; pure (.publish a)
  | 10 => do fieldIs (fD w) 0; fieldIs (fA w) 0; fieldIs (fB w) 0; pure .spfence
  | _ => .error .reservedOpcode

/-- Primaries 0xB0 to 0xBF: matrix and seeded. -/
def decodeClassB (n : Nat) (w : Word) : Except DecodeError Instr :=
  match n with
  | 0 => do let d ← slotUReg (fD w); fieldIs (fA w) 0; let b ← slotB8 (fB w); pure (.acalloc d b)
  | 1 => do let d ← slotFin16 (fD w); fieldIs (fA w) 0; let b ← slotB8 (fB w); pure (.acfree d b)
  | 2 => do let d ← slotFin16 (fD w); fieldIs (fA w) 0; fieldIs (fB w) 0; pure (.aczero d)
  | 3 => do let d ← slotFin16 (fD w); let a ← slotFin248 (fA w); let b ← slotVSrc (fB w); pure (.mma d a b)
  | 4 => do let d ← slotFin16 (fD w); let a ← slotFin248 (fA w); let b ← slotVSrc (fB w); pure (.mmap d a b)
  | 5 => do let d ← slotFin16 (fD w); let a ← slotFin248 (fA w); let b ← slotVSrc (fB w); pure (.mmaq d a b)
  | 6 => do let d ← slotFin16 (fD w); let a ← slotFin248 (fA w); let b ← slotVSrc (fB w); pure (.mmaw d a b)
  | 7 => do let d ← slotUReg (fD w); fieldIs (fA w) 0; fieldIs (fB w) 0; pure (.mfence d)
  | 8 => do fieldIs (fD w) 0; let a ← slotUReg (fA w); fieldIs (fB w) 0; pure (.waitb a)
  | 9 => do let d ← slotFin248 (fD w); let a ← slotFin16 (fA w); let b ← slotVSrc (fB w); pure (.acld d a b)
  | 10 => do let d ← slotFin192 (fD w); let a ← slotFin16 (fA w); let b ← slotVSrc (fB w); pure (.acst d a b)
  | 11 => do let d ← slotVReg (fD w); let a ← slotFin248 (fA w); let b ← slotUReg (fB w); pure (.seek d a b)
  | 12 => do let d ← slotFin248 (fD w); let a ← slotFin248 (fA w); let b ← slotUReg (fB w); pure (.seedx d a b)
  | 13 => do let d ← slotFin248 (fD w); let a ← slotFin248 (fA w); let b ← slotTSize (fB w); pure (.ttrans d a b)
  | _ => .error .reservedOpcode

/-- Primaries 0xC0 to 0xCF: quad, launch, barrier. -/
def decodeClassC (n : Nat) (w : Word) : Except DecodeError Instr :=
  match n with
  | 0 => do let d ← slotVReg (fD w); let a ← slotUReg (fA w); let b ← slotVSrc (fB w); pure (.sprd d a b)
  | 1 => do let d ← slotFin192 (fD w); let a ← slotUReg (fA w); fieldIs (fB w) 0; pure (.qpub d a)
  | 2 => do let d ← slotUReg (fD w); fieldIs (fA w) 0; let b ← slotBool (fB w); pure (.qmap d b)
  | 3 => do let d ← slotFin192 (fD w); fieldIs (fA w) 0; fieldIs (fB w) 0; pure (.chainw d)
  | 8 => do fieldIs (fD w) 0; let a ← slotFin192 (fA w); fieldIs (fB w) 0; pure (.launch a)
  | 9 => do let d ← slotFin8 (fD w); let a ← slotFin192 (fA w); fieldIs (fB w) 0; pure (.launcht d a)
  | 10 => do fieldIs (fD w) 0; fieldIs (fA w) 0; fieldIs (fB w) 0; pure .yield
  | 11 => do let d ← slotB8 (fD w); fieldIs (fA w) 0; let b ← slotScope (fB w); pure (.bar d b)
  | 12 => do let d ← slotB8 (fD w); fieldIs (fA w) 0; let b ← slotScope (fB w); pure (.bara d b)
  | 13 => do let d ← slotB8 (fD w); fieldIs (fA w) 0; let b ← slotScope (fB w); pure (.barw d b)
  | _ => .error .reservedOpcode

/-- Primaries 0xD0 to 0xDF: trap, system, monitors. -/
def decodeClassD (n : Nat) (w : Word) : Except DecodeError Instr :=
  match n with
  | 0 => do fieldIs (fD w) 0; pure (.trap (fImm w))
  | 1 => do fieldIs (fD w) 0; fieldIs (fA w) 0; fieldIs (fB w) 0; pure .resume
  | 2 => do fieldIs (fD w) 0; fieldIs (fA w) 0; fieldIs (fB w) 0; pure .abort
  | 3 => do let d ← slotFin192 (fD w); fieldIs (fA w) 0; fieldIs (fB w) 0; pure (.clock d)
  | 4 => do let d ← slotB2 (fD w); let a ← slotFin192 (fA w); fieldIs (fB w) 0; pure (.monset d a)
  | 5 =>
    match (fB w).toNat with
    | 0 => do let d ← slotB2 (fD w); let a ← slotFin192 (fA w); pure (.monref d a)
    | 1 => do let d ← slotB2 (fD w); fieldIs (fA w) 0; pure (.monrefLast d)
    | _ => .error .badSubOp
  | 6 => do let d ← slotFin192 (fD w); let a ← slotB2 (fA w); let b ← slotMonSel (fB w); pure (.monrd d a b)
  | 7 => do let d ← slotB2 (fD w); fieldIs (fA w) 0; fieldIs (fB w) 0; pure (.monclr d)
  | _ => .error .reservedOpcode

/-- Primaries 0xE0 to 0xEF: network. -/
def decodeClassE (n : Nat) (w : Word) : Except DecodeError Instr :=
  match n with
  | 0 => do let d ← slotUReg (fD w); let a ← slotFin192 (fA w); fieldIs (fB w) 0; pure (.npost d a)
  | 1 => do let d ← slotUReg (fD w); let a ← slotUReg (fA w); fieldIs (fB w) 0; pure (.nwait d a)
  | 2 => do let d ← slotUReg (fD w); let a ← slotUReg (fA w); fieldIs (fB w) 0; pure (.ncnt d a)
  | 3 => do let d ← slotUReg (fD w); let a ← slotUReg (fA w); fieldIs (fB w) 0; pure (.nqstat d a)
  | _ => .error .reservedOpcode

/-- The instruction of a word, or why it is none (R20, R22). -/
def decode (w : Word) : Except DecodeError Instr :=
  let n := (fOp w).toNat % 16
  match (fOp w).toNat / 16 with
  | 0 => decodeClass0 n w
  | 1 => decodeClass1 n w
  | 2 => decodeClass2 n w
  | 3 => decodeClass3 n w
  | 4 => decodeClass4 n w
  | 5 => decodeClass5 n w
  | 6 => decodeClass6 n w
  | 7 => decodeClass7 n w
  | 8 => decodeClass8 n w
  | 9 => decodeClass9 n w
  | 10 => decodeClassA n w
  | 11 => decodeClassB n w
  | 12 => decodeClassC n w
  | 13 => decodeClassD n w
  | 14 => decodeClassE n w
  | _ => .error .reservedOpcode

/-- The little-endian word of four bytes (R5, R8). -/
def wordOfBytes (b0 b1 b2 b3 : Byte) : Word := b3 ++ b2 ++ b1 ++ b0

/-- The four bytes of a word, lowest address first (R5, R8). -/
def bytesOfWord (w : Word) : List Byte := [w.extractLsb' 0 8, w.extractLsb' 8 8, w.extractLsb' 16 8, w.extractLsb' 24 8]

/-- The instruction at the start of a list of bytes, with the rest. -/
def decodeBytes : List Byte → Except DecodeError (Instr × List Byte)
  | b0 :: b1 :: b2 :: b3 :: rest => do
    let i ← decode (wordOfBytes b0 b1 b2 b3)
    pure (i, rest)
  | _ => .error .tooShort

/-- What the decoder reads from an instruction whose bits are `w`, bit 0 the least significant of the word; the bits above
`nbits` are zero. -/
def decodeTableWord (nbits w : Nat) : Option Instr :=
  match decodeBytes (bytesOfWord (BitVec.ofNat 32 (w % 2 ^ nbits))) with
  | .ok (i, _) => some i
  | .error _ => none

end Sys2Proof
end

