-- ==== Sys2Proof/Machine/SMap.lean ====
section
/-! DEFINITION. Sparse maps as plain data: a list of key and value pairs in ONE canonical form, keys strictly rising. Two
kinds: `mget`/`mset` for maps with a default value (memory, registers: no listed entry equals the default, so equal maps are
equal lists) and `kget`/`kset` for tables of records. -/
namespace Sys2Proof.Machine

/-- The value at `k`, the default `z` where nothing is listed. -/
def mget {β : Type} (z : β) : List (Nat × β) → Nat → β
  | [], _ => z
  | (a, v) :: m, k => if a = k then v else mget z m k

/-- Keys rise strictly above `lo` and no entry holds the default. -/
def mwfFrom {β : Type} [DecidableEq β] (z : β) (lo : Nat) : List (Nat × β) → Bool
  | [] => true
  | (a, v) :: m => decide (lo ≤ a) && decide (v ≠ z) && mwfFrom z (a + 1) m

/-- The canonical form of a map with default `z`. -/
def mwf {β : Type} [DecidableEq β] (z : β) (m : List (Nat × β)) : Bool := mwfFrom z 0 m

/-- The `n` values at `k`, `k + 1`, ... -/
def mgetList {β : Type} (z : β) (m : List (Nat × β)) : Nat → Nat → List β
  | _, 0 => []
  | k, n + 1 => mget z m k :: mgetList z m (k + 1) n

/-- Every entry with a key in `lo ≤ k < hi` removed: those keys read as the default. -/
def mclear {β : Type} (m : List (Nat × β)) (lo hi : Nat) : List (Nat × β) :=
  m.filter fun e => e.1 < lo || hi ≤ e.1

/-- The record listed at `k`. -/
def kget {β : Type} : List (Nat × β) → Nat → Option β
  | [], _ => none
  | (a, v) :: m, k => if a = k then some v else kget m k

/-- Store record `v` at `k`. -/
def kset {β : Type} : List (Nat × β) → Nat → β → List (Nat × β)
  | [], k, v => [(k, v)]
  | (a, w) :: m, k, v =>
    if k < a then (k, v) :: (a, w) :: m
    else if k = a then (k, v) :: m
    else (a, w) :: kset m k v

/-- Remove the record at `k`. -/
def kdel {β : Type} (m : List (Nat × β)) (k : Nat) : List (Nat × β) := m.filter fun e => e.1 != k

/-- Store `v` at `k`; a value equal to the default `z` removes the entry. -/
def mset {β : Type} [DecidableEq β] (z : β) (m : List (Nat × β)) (k : Nat) (v : β) : List (Nat × β) :=
  if v = z then kdel m k else kset m k v

/-- Store the values of `vs` at `k`, `k + 1`, ... -/
def msetList {β : Type} [DecidableEq β] (z : β) (m : List (Nat × β)) : Nat → List β → List (Nat × β)
  | _, [] => m
  | k, v :: vs => msetList z (mset z m k v) (k + 1) vs

/-- Change the record at `k`, where there is one. -/
def kupd {β : Type} (m : List (Nat × β)) (k : Nat) (f : β → β) : List (Nat × β) :=
  m.map fun e => if e.1 = k then (e.1, f e.2) else e

/-- The smallest key above every listed key. -/
def kfresh {β : Type} : List (Nat × β) → Nat
  | [] => 0
  | [(a, _)] => a + 1
  | _ :: e :: m => kfresh (e :: m)

end Sys2Proof.Machine
end

