-- ==== Sys2Proof/Machine/Num.lean ====
section
/-! DEFINITION. Number formats and rounding (spec/03_number_formats.md R46 to R58): exact values as a magnitude times a
power of two, the IEEE formats, the narrow floats, the five rounding modes, and conversions between formats. Everything is
computed exactly and narrowed once. -/
namespace Sys2Proof.Machine

/-- The element types of R13, by element (a packed type names its element). -/
inductive Ty where
  | i32 | n32 | i16 | n16 | i8 | n8 | f32 | f16 | bf16 | f8e4 | f8e5 | f4 | i4 | i4x | seed
  deriving DecidableEq, Repr

/-- The type code of R13; a reserved code has no type. -/
def tyOfCode (c : Nat) : Option Ty :=
  if c = 0 then some .i32 else if c = 1 then some .n32 else if c = 2 then some .i16 else if c = 3 then some .n16
  else if c = 4 then some .i8 else if c = 5 then some .n8 else if c = 8 then some .f32 else if c = 9 then some .f16
  else if c = 10 then some .bf16 else if c = 12 then some .f8e4 else if c = 13 then some .f8e5
  else if c = 14 then some .f4 else if c = 15 then some .i4 else if c = 16 then some .i4x
  else if c = 17 then some .seed else none

/-- Element width in bits (R46); the block formats have none and read as 32. -/
def tyWidth : Ty → Nat
  | .i32 | .n32 | .f32 | .i4x | .seed => 32
  | .i16 | .n16 | .f16 | .bf16 => 16
  | .i8 | .n8 | .f8e4 | .f8e5 => 8
  | .f4 | .i4 => 4

/-- Elements per lane word (R46). -/
def tyCount (t : Ty) : Nat := 32 / tyWidth t

/-- A signed integer type (R47). -/
def tySigned : Ty → Bool
  | .i32 | .i16 | .i8 | .i4 => true
  | _ => false

/-- An integer type (R47). -/
def tyIsInt : Ty → Bool
  | .i32 | .n32 | .i16 | .n16 | .i8 | .n8 | .i4 => true
  | _ => false

/-- The smallest value of an integer type (R47). -/
def tyLo (t : Ty) : Int := if tySigned t then -(2 ^ (tyWidth t - 1) : Nat) else 0

/-- The largest value of an integer type (R47). -/
def tyHi (t : Ty) : Int :=
  if tySigned t then (2 ^ (tyWidth t - 1) : Nat) - 1 else (2 ^ tyWidth t : Nat) - 1

/-- Bits `w*i + w - 1` to `w*i` of a word (R46). -/
def elemBits (w i : Nat) (x : Word) : Nat := (x.toNat >>> (w * i)) % 2 ^ w

/-- An `n`-bit pattern read as a two's complement integer. -/
def signedOf (n v : Nat) : Int := if v % 2 ^ n < 2 ^ (n - 1) then (v % 2 ^ n : Nat) else (v % 2 ^ n : Nat) - (2 ^ n : Nat)

/-- The `n`-bit pattern of an integer. -/
def patOf (n : Nat) (x : Int) : Nat := (x % ((2 ^ n : Nat) : Int)).toNat

/-- `Elem` of R94: element i of word x, signed for I types and unsigned for N types. -/
def elemInt (t : Ty) (i : Nat) (x : Word) : Int :=
  let v := elemBits (tyWidth t) i x
  if tySigned t then signedOf (tyWidth t) v else v

/-- The word whose elements of width `w` are the patterns of the list, element 0 first. -/
def packElems (w : Nat) : List Nat → Nat
  | [] => 0
  | v :: vs => v % 2 ^ w + (packElems w vs) * 2 ^ w

/-- A word from element patterns (R46). -/
def wordOfElems (w : Nat) (vs : List Nat) : Word := BitVec.ofNat 32 (packElems w vs)

/-! ## Exact values -/

/-- An exact number, or a special value. `fin neg m e sticky` has magnitude `m * 2^e`, or, with `sticky`, a magnitude
strictly between `m * 2^e` and `(m + 1) * 2^e` (used where the exact value is no dyadic number; `m` is then long). -/
inductive Exact where
  | nan
  | inf (neg : Bool)
  | fin (neg : Bool) (m : Nat) (e : Int) (sticky : Bool)
  deriving DecidableEq, Repr

/-- The rounding modes of R51. -/
inductive Rnd where
  | rne | rtz | rup | rdn | rna
  deriving DecidableEq, Repr

/-- The rounding mode of Mode.round; codes 5 to 7 are reserved (R12). -/
def rndOfCode (c : Nat) : Option Rnd :=
  if c = 0 then some .rne else if c = 1 then some .rtz else if c = 2 then some .rup
  else if c = 3 then some .rdn else if c = 4 then some .rna else none

/-- The integer with magnitude `m`. -/
def intOf (neg : Bool) (m : Nat) : Int := if neg then -(m : Int) else m

/-- An integer as an exact number. -/
def exactOfInt (x : Int) : Exact := .fin (decide (x < 0)) x.natAbs 0 false

/-- `m * 2^e` cut at the quantum `2^q`: the whole quanta, how the rest compares with half a quantum, and whether there is a
rest. -/
def cutAt (m : Nat) (e : Int) (sticky : Bool) (q : Int) : Nat × Ordering × Bool :=
  if q ≤ e then (m * 2 ^ (e - q).toNat, .lt, sticky)
  else
    let sh := (q - e).toNat
    let r := m % 2 ^ sh
    let h := 2 ^ (sh - 1)
    (m / 2 ^ sh, if r < h then .lt else if r = h && !sticky then .eq else .gt, r != 0 || sticky)

/-- Whether a magnitude is rounded up to the next quantum (R51). -/
def roundsUp (r : Rnd) (neg odd : Bool) (c : Ordering) (rest : Bool) : Bool :=
  match r with
  | .rne => c = .gt || (c = .eq && odd)
  | .rtz => false
  | .rup => rest && !neg
  | .rdn => rest && neg
  | .rna => c = .gt || c = .eq

/-- A magnitude rounded to whole quanta `2^q`. -/
def roundAt (r : Rnd) (neg : Bool) (m : Nat) (e : Int) (sticky : Bool) (q : Int) : Nat :=
  let (k, c, rest) := cutAt m e sticky q
  if roundsUp r neg (k % 2 = 1) c rest then k + 1 else k

/-! ## The IEEE formats (R48, R49) -/

/-- An IEEE layout: fraction bits and exponent bits. -/
structure Ieee where
  mb : Nat
  eb : Nat
  deriving DecidableEq, Repr

def ieeeF32 : Ieee := ⟨23, 8⟩
def ieeeF16 : Ieee := ⟨10, 5⟩
def ieeeBF16 : Ieee := ⟨7, 8⟩

/-- The IEEE layout of a type. -/
def ieeeOf : Ty → Option Ieee
  | .f32 => some ieeeF32
  | .f16 => some ieeeF16
  | .bf16 => some ieeeBF16
  | _ => none

def ieeeBias (f : Ieee) : Int := (2 ^ (f.eb - 1) : Nat) - 1
def ieeeInf (f : Ieee) : Nat := (2 ^ f.eb - 1) * 2 ^ f.mb
/-- The canonical quiet NaN of R48. -/
def ieeeNan (f : Ieee) : Nat := ieeeInf f + 2 ^ (f.mb - 1)
def ieeeSign (f : Ieee) : Nat := 2 ^ (f.mb + f.eb)

/-- The value of an IEEE code; with `flush` a subnormal reads as a zero of its own sign (R48). -/
def ieeeDecode (f : Ieee) (flush : Bool) (c : Nat) : Exact :=
  let neg := c / ieeeSign f % 2 = 1
  let ex := c / 2 ^ f.mb % 2 ^ f.eb
  let fr := c % 2 ^ f.mb
  if ex = 2 ^ f.eb - 1 then (if fr = 0 then .inf neg else .nan)
  else if ex = 0 then .fin neg (if flush then 0 else fr) (1 - ieeeBias f - f.mb) false
  else .fin neg (2 ^ f.mb + fr) ((ex : Int) - ieeeBias f - f.mb) false

/-- The exponent of the leading bit. -/
def leadExp (m : Nat) (e : Int) : Int := (Nat.log2 m : Int) + e

/-- `RoundTo` for an IEEE format (R18, R48, R49, R51). -/
def ieeeRound (f : Ieee) (r : Rnd) (flush : Bool) : Exact → Nat
  | .nan => ieeeNan f
  | .inf neg => (if neg then ieeeSign f else 0) + ieeeInf f
  | .fin neg m e sticky =>
    let s := if neg then ieeeSign f else 0
    if m = 0 && !sticky then s
    else
      let emin := 1 - ieeeBias f
      let le := if leadExp m e < emin then emin else leadExp m e
      let k := roundAt r neg m e sticky (le - f.mb)
      -- the code of k quanta: the exponent field counts up with k by itself
      let code := ((le - emin).toNat) * 2 ^ f.mb + k
      if ieeeInf f ≤ code then
        s + (match r with
          | .rne | .rna => ieeeInf f
          | .rtz => ieeeInf f - 1
          | .rup => if neg then ieeeInf f - 1 else ieeeInf f
          | .rdn => if neg then ieeeInf f else ieeeInf f - 1)
      else if flush && code < 2 ^ f.mb then s
      else s + code

/-! ## The narrow floats (R50 to R52) -/

/-- A narrow float: fraction bits, exponent bits, bias. -/
structure Narrow where
  mb : Nat
  eb : Nat
  bias : Nat
  deriving DecidableEq, Repr

/-- The narrow layout of a type (R50). -/
def narrowOf : Ty → Option Narrow
  | .f8e4 => some ⟨3, 4, 7⟩
  | .f8e5 => some ⟨2, 5, 15⟩
  | .f4 => some ⟨1, 2, 1⟩
  | _ => none

def narrowSign (f : Narrow) : Nat := 2 ^ (f.mb + f.eb)

/-- The value of a narrow code: every exponent has a hidden one, code 0 is zero and the sign bit alone is NaN (R50). -/
def narrowDecode (f : Narrow) (c : Nat) : Exact :=
  let mag := c % narrowSign f
  let neg := c / narrowSign f % 2 = 1
  if mag = 0 then (if neg then .nan else .fin false 0 0 false)
  else .fin neg (2 ^ f.mb + mag % 2 ^ f.mb) ((mag / 2 ^ f.mb : Nat) - (f.bias : Int) - f.mb) false

/-- `RoundTo` for a narrow float; `nov1` is the policy NaN on overflow (R51, R52). -/
def narrowRound (f : Narrow) (r : Rnd) (nov1 : Bool) : Exact → Nat
  | .nan => narrowSign f
  | .inf neg => if nov1 then narrowSign f else (if neg then narrowSign f else 0) + (narrowSign f - 1)
  | .fin neg m e sticky =>
    let s := if neg then narrowSign f else 0
    if m = 0 && !sticky then 0
    else
      let e0 : Int := -(f.bias : Int)
      -- the smallest positive value is (2^mb + 1) quanta of 2^(e0 - mb); below it only zero is representable
      let (k0, _, _) := cutAt m e sticky (e0 - f.mb)
      if k0 < 2 ^ f.mb + 1 then
        let mid := 2 ^ f.mb + 1          -- in half quanta
        let (h, _, rest) := cutAt m e sticky (e0 - f.mb - 1)
        let up := match r with
          | .rne => decide (mid < h) || (h == mid && rest)
          | .rna => decide (mid ≤ h)
          | .rtz => false
          | .rup => !neg
          | .rdn => neg
        if up then s + 1 else 0
      else
        let le := leadExp m e
        let k := roundAt r neg m e sticky (le - f.mb)
        let code := (le - e0).toNat * 2 ^ f.mb + k - 2 ^ f.mb
        if narrowSign f - 1 < code then (if nov1 then narrowSign f else s + (narrowSign f - 1)) else s + code

/-! ## Integers -/

/-- An exact finite magnitude rounded to an integer (R51). -/
def exactToInt (r : Rnd) (neg : Bool) (m : Nat) (e : Int) (sticky : Bool) : Int := intOf neg (roundAt r neg m e sticky 0)

/-- The nearer bound. -/
def clampInt (lo hi x : Int) : Int := if x < lo then lo else if hi < x then hi else x

/-- A float converted to an integer type: rounded, then clamped whatever Mode.sat is; the flag says SAT (R53). -/
def exactToTy (t : Ty) (r : Rnd) : Exact → Int × Bool
  | .nan => (0, true)
  | .inf neg => (if neg then tyLo t else tyHi t, true)
  | .fin neg m e sticky =>
    let v := exactToInt r neg m e sticky
    let c := clampInt (tyLo t) (tyHi t) v
    (c, decide (c ≠ v))

/-- `Sat` of R18 on an integer type: the pattern, and whether SAT is set. -/
def satPat (sat : Bool) (t : Ty) (x : Int) : Nat × Bool :=
  if tyLo t ≤ x && x ≤ tyHi t then (patOf (tyWidth t) x, false)
  else if sat then (patOf (tyWidth t) (clampInt (tyLo t) (tyHi t) x), true)
  else (patOf (tyWidth t) x, false)

/-! ## Any element type -/

/-- What a rounding consults of the mode register (R12): round, flush, nov = 1, sat. -/
structure NumMode where
  rnd : Rnd
  flush : Bool
  nov1 : Bool
  sat : Bool
  deriving DecidableEq, Repr

/-- The exact value of an element pattern of a scalar type (R47, R48, R50). -/
def decodeTy (t : Ty) (flush : Bool) (c : Nat) : Exact :=
  match ieeeOf t, narrowOf t with
  | some f, _ => ieeeDecode f flush c
  | none, some f => narrowDecode f c
  | none, none =>
    exactOfInt (if tySigned t then signedOf (tyWidth t) c else ((c % 2 ^ tyWidth t : Nat) : Int))

/-- `RoundTo` of R18 for a float type. -/
def roundToTy (t : Ty) (nm : NumMode) (x : Exact) : Nat :=
  match ieeeOf t, narrowOf t with
  | some f, _ => ieeeRound f nm.rnd nm.flush x
  | none, some f => narrowRound f nm.rnd nm.nov1 x
  | none, none => 0

/-- The conversion table of R53 from a scalar type to a scalar type: the target pattern and whether SAT is set. -/
def convertTy (src dst : Ty) (nm : NumMode) (c : Nat) : Nat × Bool :=
  if tyIsInt dst then
    if tyIsInt src then
      satPat nm.sat dst (if tySigned src then signedOf (tyWidth src) c else ((c % 2 ^ tyWidth src : Nat) : Int))
    else
      let (v, s) := exactToTy dst nm.rnd (decodeTy src nm.flush c)
      (patOf (tyWidth dst) v, s)
  else (roundToTy dst nm (decodeTy src nm.flush c), false)

/-! ## Exact arithmetic -/

/-- The product; zero times infinity is NaN (R126). -/
def exactMul : Exact → Exact → Exact
  | .nan, _ => .nan
  | _, .nan => .nan
  | .inf a, .inf b => .inf (a != b)
  | .inf a, .fin b m _ _ => if m = 0 then .nan else .inf (a != b)
  | .fin a m _ _, .inf b => if m = 0 then .nan else .inf (a != b)
  | .fin a m e s, .fin b n f t => .fin (a != b) (m * n) (e + f) (s || t)

/-- The sum. An exact zero sum of operands of opposite sign is -0 under RDN and +0 otherwise (R126). -/
def exactAdd (r : Rnd) : Exact → Exact → Exact
  | .nan, _ => .nan
  | _, .nan => .nan
  | .inf a, .inf b => if a = b then .inf a else .nan
  | .inf a, .fin _ _ _ _ => .inf a
  | .fin _ _ _ _, .inf b => .inf b
  | .fin a m e _, .fin b n f _ =>
    let q := if e ≤ f then e else f
    let x := intOf a (m * 2 ^ (e - q).toNat) + intOf b (n * 2 ^ (f - q).toNat)
    if x = 0 then (if a = b then .fin a 0 q false else .fin (decide (r = .rdn)) 0 q false)
    else .fin (decide (x < 0)) x.natAbs q false

/-- The negated value. -/
def exactNeg : Exact → Exact
  | .nan => .nan
  | .inf a => .inf (!a)
  | .fin a m e s => .fin (!a) m e s

/-- Numerical order of two values that are no NaN (zeros compare equal). -/
def exactCmp : Exact → Exact → Ordering
  | .inf a, .inf b => if a = b then .eq else if a then .lt else .gt
  | .inf a, _ => if a then .lt else .gt
  | _, .inf b => if b then .gt else .lt
  | .fin a m e _, .fin b n f _ =>
    let q := if e ≤ f then e else f
    compare (intOf a (m * 2 ^ (e - q).toNat)) (intOf b (n * 2 ^ (f - q).toNat))
  | _, _ => .eq

def exactIsNan : Exact → Bool
  | .nan => true
  | _ => false

def exactIsNeg : Exact → Bool
  | .nan => false
  | .inf a => a
  | .fin a _ _ _ => a

/-! ## Reciprocals and roots (R130) -/

/-- The integer square root by one bit per step, from bit `b` down. -/
def isqrtBits : Nat → Nat → Nat → Nat
  | 0, _, r => r
  | b + 1, n, r =>
    let r' := r + 2 ^ b
    isqrtBits b n (if r' * r' ≤ n then r' else r)

/-- floor of the square root. -/
def isqrt (n : Nat) : Nat := isqrtBits (Nat.log2 n / 2 + 1) n 0

/-- 1/x with at least 80 significant bits and the sticky bit. -/
def exactRcp : Exact → Exact
  | .nan => .nan
  | .inf a => .fin a 0 0 false
  | .fin a m e _ =>
    if m = 0 then .inf a
    else
      let k := Nat.log2 m + 80
      .fin a (2 ^ k / m) (-e - k) (decide (2 ^ k % m ≠ 0))

/-- The square root of a value at or above zero, with at least 80 significant bits and the sticky bit. -/
def exactSqrtMag (m : Nat) (e : Int) : Exact :=
  if m = 0 then .fin false 0 0 false
  else
    let e2 := if e % 2 = 0 then e else e - 1
    let m2 := if e % 2 = 0 then m else 2 * m
    let n := m2 * 2 ^ 160
    let r := isqrt n
    .fin false r (e2 / 2 - 80) (decide (r * r ≠ n))

/-- √x of R130. -/
def exactSqrt : Exact → Exact
  | .nan => .nan
  | .inf a => if a then .nan else .inf false
  | .fin a m e _ => if m = 0 then .fin a 0 e false else if a then .nan else exactSqrtMag m e

/-- 1/√x of R130: floor of the root of a long quotient, which is the root of the exact quotient where that is whole. -/
def exactRsqrt : Exact → Exact
  | .nan => .nan
  | .inf a => if a then .nan else .fin false 0 0 false
  | .fin a m e _ =>
    if m = 0 then .inf a
    else if a then .nan
    else
      let e2 := if e % 2 = 0 then e else e - 1
      let m2 := if e % 2 = 0 then m else 2 * m
      let k := 2 * (Nat.log2 m2 + 81)
      let q := 2 ^ k / m2
      let r := isqrt q
      .fin false r (-(e2 / 2) - ((k / 2 : Nat) : Int)) (decide (r * r * m2 ≠ 2 ^ k))

end Sys2Proof.Machine
end

