-- ==== Sys2Proof/Machine/Wide.lean ====
section
/-! DEFINITION. The wide accumulator (spec/03_number_formats.md R63 to R65), E8M0 scales (R54, R55), I4X blocks (R57), seed
words (R59, R60) and seed fitting (R61, R62). -/
namespace Sys2Proof.Machine

/-- A wide value: 192 bits with value V * 2^-112, and its three sticky flags (R63). -/
structure Acc where
  v : BitVec 192
  ovf : Bool
  unf : Bool
  nan : Bool
  deriving DecidableEq, Repr

def accZero : Acc := ⟨0, false, false, false⟩

/-- The largest and the smallest wide value, in units of 2^-112. -/
def wideMax : Int := (2 ^ 191 : Nat) - 1
def wideMin : Int := -(2 ^ 191 : Nat)

/-- What `Wide` of R18 makes of an exact value. -/
inductive WideTerm where
  | nan
  | past (neg : Bool)                 -- infinite, or past the window
  | val (v : Int) (truncated : Bool)  -- in units of 2^-112
  deriving DecidableEq, Repr

/-- Units of 2^-112, truncated toward minus infinity (R18, R64). -/
def wideTerm : Exact → WideTerm
  | .nan => .nan
  | .inf neg => .past neg
  | .fin neg m e _ =>
    if 0 ≤ e + 112 then
      let x := intOf neg (m * 2 ^ (e + 112).toNat)
      if wideMin ≤ x && x ≤ wideMax then .val x false else .past neg
    else
      let sh := (-(e + 112)).toNat
      let x := (intOf neg m) / ((2 ^ sh : Nat) : Int)
      if wideMin ≤ x && x ≤ wideMax then .val x (decide (m % 2 ^ sh ≠ 0)) else .past neg

/-- The bound of a sign. -/
def wideBound (neg : Bool) : BitVec 192 := BitVec.ofInt 192 (if neg then wideMin else wideMax)

/-- Add one term to an element (R64, steps 1 to 6). -/
def addTerm (a : Acc) (x : Exact) : Acc :=
  match wideTerm x with
  | .nan => { a with nan := true }
  | .past neg =>
    if a.ovf then (if a.v.msb = neg then a else { a with nan := true })
    else { a with v := wideBound neg, ovf := true }
  | .val t tr =>
    let a := if tr then { a with unf := true } else a
    if a.ovf then a
    else
      let s := a.v.toInt + t
      if wideMin ≤ s && s ≤ wideMax then { a with v := BitVec.ofInt 192 s }
      else { a with v := wideBound (decide (s < 0)), ovf := true }

/-- The exact value an element holds. -/
def accExact (a : Acc) : Exact := .fin a.v.msb a.v.toInt.natAbs (-112) false

/-- The final rounding of an element to a type, and whether SAT is set (R65). -/
def accRead (t : Ty) (nm : NumMode) (a : Acc) : Nat × Bool :=
  let neg := a.v.msb
  if tyIsInt t then
    if a.nan then (0, true)
    else if a.ovf then (patOf (tyWidth t) (if neg then tyLo t else tyHi t), true)
    else satPat nm.sat t (exactToInt nm.rnd neg a.v.toInt.natAbs (-112) false)
  else
    match ieeeOf t with
    | some f =>
      if a.nan then (ieeeNan f, false)
      else if a.ovf then ((if neg then ieeeSign f else 0) + (if nm.sat then ieeeInf f - 1 else ieeeInf f), false)
      else (ieeeRound f nm.rnd nm.flush (if a.v = 0 then .fin false 0 0 false else accExact a), false)
    | none =>
      if a.nan then (roundToTy t nm .nan, false)
      else if a.ovf then (roundToTy t nm (.inf neg), false)
      else (roundToTy t nm (accExact a), false)

/-! ## Scales (R54, R55) -/

/-- An exact value times 2^k; a NaN scale is handled by `scaleBy`. -/
def exactShift (k : Int) : Exact → Exact
  | .fin neg m e s => .fin neg m (e + k) s
  | x => x

/-- A value under E8M0 scale code `e` with unit exponent offset `o` (127, or 126 for the integer elements of R55). -/
def scaleBy (e : Nat) (o : Int) (x : Exact) : Exact := if e = 255 then .nan else exactShift ((e : Int) - o) x

/-- An element of a scaled operand (R55): I4 counts in units of twice the scale, every other element is element * 2^(e-127). -/
def scaledElem (t : Ty) (e : Nat) (c : Nat) : Exact :=
  scaleBy e (if t = .i4 then 126 else 127) (decodeTy t false c)

/-! ## I4X blocks (R56, R57) -/

/-- Decode the pairs of a block: slots, extension byte, extension nibbles used; the values (unscaled, with the scale's
exponent offset) in slot order and whether a third marker was met. -/
def i4xPairs : List Nat → Nat → Nat → List (Exact × Int) × Bool
  | x :: y :: rest, ext, used =>
    let out (code : Nat) : Exact × Int := (narrowDecode ⟨3, 4, 7⟩ code, 127)
    let zero : Exact × Int := (.fin false 0 0 false, 127)
    if x = 8 || y = 8 then
      let nbr := if x = 8 then y else x
      let hit := used < 2
      let v := if hit then out ((ext >>> (4 * used)) % 16 * 16 + nbr) else zero
      let (vs, ox) := i4xPairs rest ext (used + 1)
      ((if x = 8 then [v, zero] else [zero, v]) ++ vs, ox || !hit)
    else
      let (vs, ox) := i4xPairs rest ext used
      ([(exactOfInt (signedOf 4 x), 126), (exactOfInt (signedOf 4 y), 126)] ++ vs, ox)
  | _, _, _ => ([], false)

/-- An I4X block: 32 slot codes, scale code, extension byte; the 32 values and whether OX is set. -/
def i4xDecode (slots : List Nat) (scale ext : Nat) : List Exact × Bool :=
  let (vs, ox) := i4xPairs slots ext 0
  (vs.map fun p => scaleBy scale p.2 p.1, ox)

/-! ## Seeded weights (R59, R60) -/

/-- The bobbin generator: the next `n` bits from state `s` (R60). -/
def bobbin : Nat → Nat → List Bool
  | 0, _ => []
  | n + 1, s =>
    let nb := (s + s / 4 + s / 8 + s / 32) % 2
    (s % 2 = 1) :: bobbin n (s / 2 + nb * 2 ^ 15)

/-- u(i,k) = 1 - 2*b as a sign. -/
def uSign (b : List Bool) (i k : Nat) : Int := if b.getD (4 * i + k) false then -1 else 1

/-- Coefficient t_k of a seed word (R59). -/
def seedCoef (w k : Nat) : Int := signedOf 4 (w >>> (16 + 4 * k))

/-- The sixteen weights of a seed word under scale code `e` (R60). -/
def seedBlock (w e : Nat) : List Exact :=
  let b := bobbin 64 (w % 65536)
  (List.range 16).map fun i =>
    if e = 255 then .nan
    else if w % 65536 = 0 then .fin false 0 0 false
    else scaleBy e 127 (exactOfInt (uSign b i 0 * seedCoef w 0 + uSign b i 1 * seedCoef w 1
      + uSign b i 2 * seedCoef w 2 + uSign b i 3 * seedCoef w 3))

/-! ## Seed fitting (R61, R62): F32 operations, RNE, subnormals kept, never fused -/

def f32Val (c : Nat) : Exact := ieeeDecode ieeeF32 false c
def f32Rne (x : Exact) : Nat := ieeeRound ieeeF32 .rne false x
def f32Add (a b : Nat) : Nat := f32Rne (exactAdd .rne (f32Val a) (f32Val b))
def f32Mul (a b : Nat) : Nat := f32Rne (exactMul (f32Val a) (f32Val b))
def f32OfInt (x : Int) : Nat := f32Rne (exactOfInt x)

/-- acc := acc + u(i,k)*r[i] over i (R61). -/
def fitAcc (b : List Bool) (k : Nat) : Nat → List Nat → Nat → Nat
  | _, [], acc => acc
  | i, r :: rs, acc => fitAcc b k (i + 1) rs (f32Add acc (f32Mul (f32OfInt (uSign b i k)) r))

/-- clamp(RoundInt(acc / 16), -8, 7), ties to even, NaN gives 0 (R61). -/
def fitCoef (acc : Nat) : Int :=
  match f32Val (f32Mul acc (f32Rne (.fin false 1 (-4) false))) with
  | .nan => 0
  | .inf neg => if neg then -8 else 7
  | .fin neg m e _ => clampInt (-8) 7 (exactToInt .rne neg m e false)

/-- The residuals after coefficient t_k: r[i] - t[k]*u(i,k) (R61). -/
def fitStep (b : List Bool) (k : Nat) (t : Int) : Nat → List Nat → List Nat
  | _, [] => []
  | i, r :: rs =>
    f32Rne (exactAdd .rne (f32Val r) (exactNeg (f32Val (f32Mul (f32OfInt t) (f32OfInt (uSign b i k)))))) ::
      fitStep b k t (i + 1) rs

/-- The coefficients from k on, and the last residuals. -/
def fitLoop (b : List Bool) : Nat → Nat → List Nat → List Int × List Nat
  | 0, _, r => ([], r)
  | n + 1, k, r =>
    let t := fitCoef (fitAcc b k 0 r 0)
    let (ts, r') := fitLoop b n (k + 1) (fitStep b k t 0 r)
    (t :: ts, r')

/-- `Fit` of R61: coefficients and the F32 error. -/
def fitSeed (seed : Nat) (w : List Nat) : List Int × Nat :=
  let (ts, r) := fitLoop (bobbin 64 seed) 4 0 w
  (ts, r.foldl (fun acc x => f32Add acc (f32Mul x x)) 0)

/-- A candidate: seed, coefficients, error. -/
structure Cand where
  seed : Nat
  t : List Int
  err : Nat
  deriving DecidableEq, Repr

/-- Whether candidate `c` replaces the best so far (R62 steps 3 and 4). -/
def candBetter (best : Option Cand) (c : Cand) : Bool :=
  match f32Val c.err, best with
  | .nan, _ => false
  | _, none => true
  | x, some b =>
    match exactCmp x (f32Val b.err) with
    | .lt => true
    | .eq => decide (c.seed < b.seed)
    | .gt => false

/-- The search over `n` candidates from `q` on (R62 step 2, R239). -/
def seekLoop (w : List Nat) : Nat → Nat → Option Cand → Option Cand
  | 0, _, best => best
  | n + 1, q, best =>
    let best' :=
      if q = 0 || 65535 < q then best
      else
        let (t, e) := fitSeed q w
        let c : Cand := ⟨q, t, e⟩
        if candBetter best c then some c else best
    seekLoop w n (q + 1) best'

/-- The seed word of a candidate (R239). -/
def candWord (c : Cand) : Nat :=
  c.seed + (patOf 4 (c.t.getD 0 0)) * 2 ^ 16 + (patOf 4 (c.t.getD 1 0)) * 2 ^ 20
    + (patOf 4 (c.t.getD 2 0)) * 2 ^ 24 + (patOf 4 (c.t.getD 3 0)) * 2 ^ 28

/-- One SEEK step on a block: the destination's present word, targets, window (R62, R239); none where nothing qualifies. -/
def seekBlock (dw : Nat) (w : List Nat) (start count : Nat) : Option Nat :=
  let first :=
    if dw % 65536 = 0 then none
    else
      let (t, e) := fitSeed (dw % 65536) w
      let c : Cand := ⟨dw % 65536, t, e⟩
      if candBetter none c then some c else none
  (seekLoop w count start first).map candWord

/-! ## Block quantisation (R58) -/

/-- The constant emax of a QNT target. -/
def qntEmax : Ty → Int
  | .f8e4 => 8
  | .f8e5 => 16
  | .f4 => 2
  | _ => 3

/-- One element of a block under exponent `x`: the code and whether SAT is set (R58). -/
def qntElem (t : Ty) (nm : NumMode) (x : Int) (v : Exact) : Nat × Bool :=
  match narrowOf t with
  | some f => (narrowRound f nm.rnd nm.nov1 (exactShift (-x) v), false)
  | none =>
    match v with
    | .fin neg m e s =>
      let k := exactToInt nm.rnd neg m (e - x - 1) s
      let c := clampInt (if t = .i4x then -7 else -8) 7 k
      (patOf 4 c, decide (c ≠ k))
    | _ => (0, false)

/-- QNT of a block: scale code, element codes, SAT, UF (R58). -/
def qntBlock (t : Ty) (nm : NumMode) (vs : List Exact) : Nat × List Nat × Bool × Bool :=
  let bad := vs.any fun v => match v with
    | .fin _ _ _ _ => false
    | _ => true
  if bad then (255, vs.map (fun _ => match narrowOf t with | some f => narrowSign f | none => 0), false, false)
  else
    let lead : Option Int := vs.foldl (fun acc v => match v with
      | .fin _ m e _ => if m = 0 then acc else match acc with
        | none => some (leadExp m e)
        | some l => some (if l < leadExp m e then leadExp m e else l)
      | _ => acc) none
    match lead with
    | none => (127, vs.map (fun _ => 0), false, false)
    | some l =>
      let x0 := l - qntEmax t
      let x := clampInt (-127) 127 x0
      let rs := vs.map (qntElem t nm x)
      ((x + 127).toNat, rs.map (·.1), rs.any (·.2), decide (x0 < -127))

end Sys2Proof.Machine
end

