-- ==== Sys2Proof/Machine/State.lean ====
section
/-! DEFINITION. The state of the package as plain data: everything the spec gives the machine (INVENTORY.md, State), the
choices of its agents as an agenda, and the state right after reset (spec/20_fabric_and_system.md R382). Tables are lists in
canonical form (SMap); a map that lists nothing reads as its default everywhere. -/
namespace Sys2Proof.Machine

/-- Why the machine stops. The spec stops the package nowhere; these name states that no run of the machine reaches. -/
inductive Fault where
  /-- Raised by the issue wrapper when a word is executed in a state whose `cur` names no live path: there is no agent to
  execute it. Safe: the hardware has no such situation. -/
  | noIssuer
  deriving DecidableEq, Repr

/-- Why an instruction has no meaning here. -/
inductive Refusal where
  /-- Raised by an arm of Dispatch that has no meaning yet. Safe: nothing can be proved of a run past it. -/
  | notModelled (mnemonic : String)
  /-- Raised by the step for an agenda entry that hands a program word to the hardware as a step of its own: only steps of the
  hardware stand there. Safe: no agent of the spec does it. -/
  | notAStep
  deriving DecidableEq, Repr

/-! ## Group -/

/-- The three views (04 R69 to R72), as the special registers hold them. -/
structure Views where
  vvbase : Word
  vvcount : Word
  tvbase : Word
  tvstride : Word
  tvcount : Word
  avbase : Word
  deriving DecidableEq, Repr

/-- Side tag of a path (04 R81). -/
inductive Side where
  | none | taken | fall
  deriving DecidableEq, Repr

/-- A reconvergence-stack entry (04 R81, R84). -/
structure Entry where
  pre : Mask
  tk : Mask
  target : Addr
  join : Option Addr
  arrT : Mask
  arrN : Mask
  owed : BitVec 16
  parting : Bool
  complete : Bool
  side : Side
  deriving DecidableEq, Repr

/-- The record of a region entry (04 R88, 05 R122). -/
structure Region where
  pc : Addr
  regidx : Half
  mask : Mask
  sigs : List (Nat × Word)
  depths : List (Nat × Nat)
  mode : Word
  views : Views
  spill : Dbl
  sa : Dbl
  sb : Dbl
  deriving DecidableEq, Repr

/-- One entry of the latch history (08 R162): the register-space byte address read from, the values read, and the number of
the reading instruction. -/
structure Latch where
  base : Nat
  vals : List Word
  at_ : Nat
  deriving DecidableEq, Repr

/-- Bytes that an access has read at an address before the rest of what it reads: a word of a HOST double (14 R283), a 64-byte block
of a list or a scale array (16 R332). `unit` is the lane of a load, else 0. -/
structure Taken where
  unit : Nat
  addr : Nat
  bytes : List Byte
  deriving DecidableEq, Repr

/-- What a blocked path waits for (08 R182). -/
inductive Wake where
  | bar (sc : Scope) (idx : Nat)                    -- its barrier completes
  | waitm (va : Nat) (c : WCond) (wide : Bool) (v : Nat) (taken : List Taken)   -- words of a HOST double its next evaluation has read
  | nwait (counter : Nat) (v : Word)
  | launch                                          -- a pending-launch entry is reserved
  | acalloc                                         -- its banks are reserved
  | chunk (desc : Nat) (chunk : Nat)                -- the chunk is present
  | wait                                            -- the loads of a blocked WAIT
  deriving DecidableEq, Repr

/-- Whether a path runs. -/
inductive PStatus where
  | run
  | woken                                           -- a WAITM whose condition an evaluation has met (09 R208)
  | blocked (w : Wake)
  | yielded (others : List (Nat × Nat))             -- creation and instruction count of the paths that were ready (09 R214)
  deriving DecidableEq, Repr

/-- The mark of a FENCE whose scope is narrower than PKG: it orders the operations numbered below it with respect to the agents of
the scope's domain alone (16 R322). -/
structure NarrowFence where
  sc : Scope
  kind : FenceKind
  below : Nat
  deriving DecidableEq, Repr

/-- Ordering marks of a path (06 R148, R152; 16 R320): operation numbers below a mark must be finished first. -/
structure Marks where
  acq : Nat            -- FENCE.acq, .ar: earlier loads and atomics, before any later access
  acqWide : Bool       -- the load cache is discarded when that wait ends
  rel : Nat            -- FENCE.rel, .ar: earlier accesses, before later stores and atomics
  ar : Nat             -- FENCE.ar: earlier stores, before later loads
  join : Nat           -- REGANG: the arriving paths' stores and atomics, before any later access
  spf : Nat            -- SPFENCE: the group's earlier SPSTs, before later scratchpad reads
  narrow : List NarrowFence -- the latest FENCE of each kind at each scope narrower than PKG
  fenced : Bool        -- a FENCE.rel or FENCE.ar of an earlier region precedes: stores and atomics are releases (16 R321)
  deriving DecidableEq, Repr

/-- No ordering mark. -/
def Marks.zero : Marks := ⟨0, false, 0, 0, 0, 0, [], false⟩

/-- A place that an access has gone past, or has gone to, ahead of operations that a narrow FENCE orders before it: until these are
over, no agent of the scope's domain may write it, or read it (16 R322, R325). A place of a scratchpad stands in the address space
that `Machine.tileSpace` gives its core. -/
structure Lock where
  gid : Nat            -- the group whose access went ahead
  own : Bool           -- this is that group itself: its own path, by the mask, goes on
  mask : Mask
  below : Nat          -- the operations that are to be over
  loads : Bool         -- they are loads and atomics; else stores and atomics
  write : Bool         -- what may not be done: a write, or a read
  asid : Nat
  va : Nat
  size : Nat
  deriving DecidableEq, Repr

/-- A path (04 R78). It is numbered by its lowest slice (08 R187). -/
structure Path where
  uid : Nat                          -- which creation: a path ends for good, its number is used again
  mask : Mask
  mask0 : Mask
  pc : Addr
  side : Side
  status : PStatus
  since : Nat                        -- when it blocked
  waiting : Bool                     -- a WAIT at pc has found its condition false (05 R123)
  region : Region
  entryDue : Option Half             -- a region entry with this index is due at pc, once the path has drained
  behind : Bool                      -- what precedes the due entry is over for good: no restart repeats it (04 R88)
  idem : Bool                        -- read-first checking is on in the current region (01 R17)
  attempts : Nat
  icount : Nat
  regionAt : Nat                     -- icount at the region entry
  latch : List Latch
  readFirst : List (Nat × Mask)
  written : List (Nat × Mask)
  contrib : List (Nat × List Exact)  -- working monitor contributions (18 R342), in path order
  partials : List Nat                -- monitors whose words a narrow store wrote in part
  trel : List Nat                    -- tiles whose release is pending (09 R196)
  spfence : List Nat                 -- tiles that an SPFENCE makes READY at the next region entry (09 R198)
  claims : List Nat                  -- tiles taken by TCLAIM in the current region (08 R170)
  fills : List Nat                   -- tiles, and slots from 4096 up, that the current region has written (08 R181)
  marks : Marks
  fencedAt : Bool                    -- `marks.fenced` as it stood at the region entry
  deriving DecidableEq, Repr

/-- A tile of a core's scratchpad. -/
structure TileRef where
  core : Nat
  tile : Nat
  deriving DecidableEq, Repr

/-- ATOM operations with what they consult (06 R151). -/
inductive AOp where
  | add | min (signed : Bool) | max (signed : Bool) | and | or | xor | exch | cas | fadd
  deriving DecidableEq, Repr

/-- The four multiplications (10 R233). -/
inductive MmaForm where
  | solo | pair | quad | weight
  deriving DecidableEq, Repr

/-- A matrix operation as it was issued. -/
inductive MatOp where
  | aczero (bank : Nat)
  | mma (form : MmaForm) (bank : Nat) (lo hi fmt : Word) (views : Views) (sa sb : Dbl)
  | acld (bank dst : Nat) (fmt mode : Word)
  | acst (bank addr pitch : Nat) (fmt mode : Word)
  | seedx (dst src : Nat) (scale mode : Word)
  | ttrans (dst src z : Nat)
  deriving DecidableEq, Repr

/-- The kinds of outstanding operation. `dst` is a byte address of register space, none for a discarded result. -/
inductive OpKind where
  | load (acq strong gather : Bool) (size : Nat) (addrs : List Nat) (dst : Option Nat)
  | store (rel strong gather : Bool) (size : Nat) (addrs data : List Nat)
  | atom (op : AOp) (ord : AtOrd) (addrs xs ys : List Nat) (dst : Option Nat) (performed : Mask) (res : List (Nat × Word))
  | spld (tile : TileRef) (offs : List Nat) (dst : Option Nat)
  | sprd (tile : TileRef) (offs : List Nat) (dst : Option Nat) (pub : Option (Nat × Nat))
  | spst (tile : TileRef) (offs data : List Nat)
  | copy (tile : TileRef) (src pitch rows : Nat)
  | copyg (tile : TileRef) (list size count : Nat) (rows left : List Nat)   -- row addresses, once read; row numbers yet to serve
  | copyo (tile : TileRef) (dst pitch rows : Nat)
  | copyw (slot off src len : Nat)
  | mat (m : MatOp)
  deriving DecidableEq, Repr

/-- An outstanding operation of a group. Its number is its key in `Group.ops`; numbers rise in issue order over the package. -/
structure Op where
  path : Nat
  uid : Nat              -- the issuing path's creation
  mask : Mask            -- the issuing path's mask: paths that hold one of these lanes inherit it (16 R320)
  pc : Addr
  word : Word
  batch : Nat            -- of a matrix operation, the batch it has joined
  at_ : Nat              -- when it issued
  todo : Mask            -- lanes, rows or engine units not yet served; of a matrix operation also: operands to fetch
  kind : OpKind
  dropped : Bool         -- a blocked WAIT's load of an evicted group, to be issued again (08 R183)
  await : Mask           -- the lanes of a dropped load whose response has not yet arrived (08 R182)
  release : Bool         -- a FENCE.rel or FENCE.ar precedes it in path order (16 R321)
  narrow : List NarrowFence   -- narrow FENCEs before it, whose earlier operations were not over when it issued
  pieces : List (Nat × Nat)  -- 64-byte blocks served before the rest of their unit: unit and block (16 R332); of a store the
                             -- words of HOST doubles performed before the rest of their lane: lane and word (14 R283)
  taken : List Taken         -- what it has read before the rest
  deriving DecidableEq, Repr

/-- What a trap records (08 R187). -/
structure TrapInfo where
  cls : Nat
  cause : Nat
  code : Nat
  daddr : Option Nat
  mon : List Byte              -- the 48 bytes of 0x05A0 to 0x05CF, for 0x0E; otherwise none
  deriving DecidableEq, Repr

/-- A copy or matrix fault not yet taken (09 R205, 10 R222). -/
structure PendFault where
  info : TrapInfo
  path : Nat
  uid : Nat
  pc : Addr
  word : Word
  qual : Bool                  -- uncorrectable data that qualifies for the restart of R181
  deriving DecidableEq, Repr

/-- SPFENCEs of paths that have ended, their readiness pending: the SPSTs numbered below `below`, and the tiles (09 R198). -/
structure SpFence where
  below : Nat
  tiles : List Nat
  deriving DecidableEq, Repr

def SpFence.none : SpFence := ⟨0, []⟩

/-- What RESUME needs and the frame does not hold: side tags, latch names and attempt counts by path, the arrivals made by
blocking words, the exited lanes, faults and marks of paths that have ended; and the end of the trapping group's spill area. -/
structure Handler where
  cls : Nat
  paths : List (Nat × Path)
  made : List (Nat × Nat)
  exited : Mask
  pending : List PendFault
  left : List (Mask × Marks)
  fenceLeft : SpFence
  spillEnd : Nat
  deriving DecidableEq, Repr

/-- The return stack of a slice (05 R115): its depth, and its entries from the oldest on; a pop leaves its entry in place. -/
structure Ret where
  depth : Nat
  slots : List Addr
  deriving DecidableEq, Repr

def retEmpty : Ret := ⟨0, []⟩

/-- A restart or a trap of a group that waits for the group's copies (08 R170, R180): what follows when they are over. -/
inductive Stop where
  | restart (charge : Option Nat)                     -- charged to this path (08 R181)
  | trap (i : TrapInfo) (pathNo : Nat) (restartable : Bool) (pc : Nat) (word : Word)
  deriving DecidableEq, Repr

/-- Where a group stands. -/
inductive GStatus where
  | resident
  | evicted (at_ : Nat) (woke : Option Nat)   -- since when; its place in the order in which wake conditions came true (13 R275)
  | ending (abort : Bool)           -- no lane left, or its cohort is being aborted
  deriving DecidableEq, Repr

/-- A group (04 R68). -/
structure Group where
  asid : Nat
  core : Nat                         -- logical core: 256 * die + 4 * quad + core (12 R246)
  slot : Nat                         -- hardware group slot
  cohort : Nat
  grpidx : Nat
  lanes : Nat
  frame : Nat
  status : GStatus
  exited : Mask
  regbytes : Nat
  regs : List (Nat × Word)           -- register space by word index, default 0
  regPoison : List Nat               -- register words with uncorrectable data
  uni : List (Nat × Word)
  preds : List (Nat × Mask)          -- p1 to p7
  mode : Word
  views : Views
  flags : Word
  spill : Dbl
  spillBytes : Nat
  sa : Dbl
  sb : Dbl
  spc : List (Nat × Addr)            -- program counters of slices that hold no live path
  sig : List (Nat × Word)
  ret : List (Nat × Ret)             -- return stacks by slice, default empty
  stack : List Entry                 -- hardware entries, newest first, at most 32
  spilled : Nat
  spillOpen : List Bool              -- of the spilled entries, newest first: parting and incomplete
  paths : List (Nat × Path)
  banks : List Nat                   -- owned core banks, in rank order
  ops : List (Nat × Op)
  batch : Nat                        -- MFENCEs issued; modulo 2^16 the number of the open batch (08 R165)
  handler : Option Handler
  pending : List PendFault           -- oldest first
  stopping : Option Stop
  made : List (Nat × Nat)            -- by path number: address of the BAR word whose arrival is made
  stall : Nat                        -- cycles runnable without a retired instruction (13 R279)
  fenceLeft : SpFence                -- what paths that have ended have left pending
  left : List (Mask × Marks)         -- ordering marks of paths that have arrived at a REGANG (16 R320)
  lastPath : Option (Nat × Path)     -- the path whose EXIT left no lane, until the group's end (08 R185)
  clockLast : Nat                    -- the last value read by CLOCK (09 R218)
  endFault : Option Nat              -- class of a copy or matrix fault found while ending
  locks : List Lock                  -- places that the group leaves alone for another path's sake (16 R322)
  deriving DecidableEq, Repr

/-! ## Cohorts, launches, barriers -/

/-- A launch record (09 R212). -/
structure LaunchRec where
  kdesc : Nat
  args : Dbl
  cohorts : Nat
  lastlanes : Nat
  prio : Nat
  flags : Nat
  signal : Nat
  sigadd : Nat
  bquad : Nat
  bdie : Nat
  bpkg : Nat
  bpod : Nat
  deriving DecidableEq, Repr

/-- A kernel descriptor (02 R34). -/
structure KDesc where
  entry : Nat
  regbytes : Nat
  groups : Nat
  flags : Nat
  scratch : Nat
  spill : Nat
  mode : Word
  views : Views
  deriving DecidableEq, Repr

/-- Where a launch came from. -/
inductive Source where
  | queue (die q pkt slot : Nat) (tag : Word)
  | device (die : Nat) (addr : Nat)
  deriving DecidableEq, Repr

/-- A launch in hand. -/
structure Launch where
  rcd : LaunchRec
  kd : KDesc
  asid : Nat
  tenant : Nat
  source : Source
  dies : List Nat
  order : Nat                  -- order of arrival at the distributors
  nextCohort : Nat
  live : Nat                   -- cohorts placed and not ended
  holdsEntry : Bool            -- occupies an entry of the pending-launch store
  killed : Bool
  aborted : Bool               -- some cohort ended aborted
  headSince : Option Nat       -- since when its head cohort has fitted nowhere
  deriving DecidableEq, Repr

/-- A cohort on its core. -/
structure Cohort where
  launch : Nat
  index : Nat
  core : Nat
  tiles : List Nat             -- physical tiles in specifier order
  groups : List Nat            -- groups not ended
  aborted : Option Nat         -- ends with an aborted status; the event's byte 1
  event : Nat                  -- 2 or 5, or 0 for a kill that writes its own record
  deriving DecidableEq, Repr

/-- A drifting reduction (18 R345): monitor number, cause, total, reference. -/
structure Drift where
  mon : Nat
  cause : Nat
  total : BitVec 192
  ref : BitVec 192
  deriving DecidableEq, Repr

/-- A barrier of 09 R209: scope, index, launch (the tenant at POD), domain. -/
structure Barrier where
  scope : Scope
  idx : Nat
  owner : Nat
  domain : Nat
  phase : Nat
  arrivals : Nat
  parts : List (Nat × Mask)    -- lanes arrived, of groups that have not arrived whole
  last : List (Nat × Nat)      -- phase joined by each group's last arrival
  ended : Nat                  -- CORE: groups that ended after an arrival counted in this phase
  firstAt : Nat
  timedOut : Bool
  drifts : List (Nat × Drift)  -- by phase
  told : List (Nat × Nat)      -- groups that have taken a phase's drift trap
  deriving DecidableEq, Repr

/-! ## Core -/

/-- An accumulator element: committed value, and the working values by the creation of the path whose region wrote them
(08 R172). -/
structure Elem where
  com : Acc
  work : List (Nat × Acc)
  deriving DecidableEq, Repr

def elemZero : Elem := ⟨accZero, []⟩

/-- An owned bank. -/
structure Bank where
  owner : Nat
  elems : List (Nat × Elem)
  poison : List Nat
  deriving DecidableEq, Repr

/-- A waiting ACALLOC of the path of creation `uid` (08 R171); `first` is set once its banks are reserved. -/
structure AcReq where
  gid : Nat
  uid : Nat
  count : Nat
  first : Option Nat
  deriving DecidableEq, Repr

/-- A weight-store slot's tags (08 R176, R177). -/
structure Slot where
  asid : Nat
  valid : Bool
  gen : Nat
  busy : Bool
  poisoned : Bool
  pend : List (Word × Nat)     -- tag writes not yet in effect, oldest first, each with the first operation number after it
  retained : Bool
  deriving DecidableEq, Repr

def slotZero : Slot := ⟨0, false, 0, false, false, [], false⟩

/-- Tile states (08 R168). -/
inductive TState where
  | empty | filling | ready | draining
  deriving DecidableEq, Repr

/-- A tile-table entry. -/
structure Tile where
  state : TState
  soft : Bool
  drains : Nat
  owner : Nat
  relBy : List (Nat × Nat)     -- group and path whose release is pending
  deriving DecidableEq, Repr

def tileEmpty : Tile := ⟨.empty, false, 0, 0, []⟩

/-- A monitor's configuration block (18 R341). -/
structure MonCfg where
  base : Nat
  length : Nat
  stride : Nat
  offset : Nat
  type : Nat
  scope : Scope
  idx : Nat
  be : Nat
  bm : Nat
  deriving DecidableEq, Repr

/-- A bound monitor (18 R339). -/
structure Monitor where
  cfg : MonCfg
  launch : Nat
  open_ : Acc
  next : Acc
  total : Acc
  ref : BitVec 192
  partial_ : Bool
  mismatch : Bool
  drift : Bool
  gathered : Bool              -- its open sum has been taken for the POD phase under way (20 R369)
  deriving DecidableEq, Repr

/-- An operand-cache tag (08 R178). -/
structure OTag where
  asid : Nat
  slot : Nat
  off : Nat
  gen : Nat
  half : Half
  deriving DecidableEq, Repr

/-- A range lookaside entry (15 R292), with the address of its descriptor. -/
structure Rlb where
  asid : Nat
  vbase : Nat
  length : Nat
  gen : Nat
  desc : Nat
  deriving DecidableEq, Repr

/-- A core. -/
structure Core where
  banks : List (Nat × Bank)
  acreqs : List AcReq
  mq : List (Nat × Nat)              -- queued matrix operations: group and number, in issue order
  headAt : Nat                       -- since when the head of the queue has been the head
  running : Option (Nat × Nat)
  spaced : Nat                       -- the power arbiter lets the next matrix operation start from this time on (20 R384)
  ws : List (Nat × Byte)             -- weight-store bytes
  wsPoison : List Nat                -- 64-byte units with uncorrectable data
  slots : List (Nat × Slot)
  scr : List (Nat × Byte)            -- scratchpad bytes by 4096 * tile + offset
  scrPoison : List Nat
  tiles : List (Nat × Tile)
  mons : List (Nat × Monitor)
  lines : List (Nat × List Byte)     -- load cache by 2^50 * asid + VA / 128
  otags : List OTag
  rlb : List Rlb
  retRegs : Bool
  retScr : Bool
  retAccs : Bool
  deriving DecidableEq, Repr

def Core.zero : Core :=
  { banks := [], acreqs := [], mq := [], headAt := 0, running := none, spaced := 0, ws := [], wsPoison := [], slots := [], scr := [],
    scrPoison := [], tiles := [], mons := [], lines := [], otags := [], rlb := [], retRegs := false, retScr := false,
    retAccs := false }

/-! ## Quad and die -/

/-- A publish-table entry (12 R252) and its chain (R257, R259). -/
structure Pub where
  tile : TileRef
  spec : Nat
  cohort : Nat
  phase : Nat
  hops : Nat                   -- completed hops of the chain, 0 to 3
  fails : Nat                  -- failed tries of the hop in flight
  poisonedFrom : Option Nat    -- first poisoned buffer along the chain
  chained : Bool
  withdrawn : Bool             -- withdrawn while its own hop is still in flight
  deriving DecidableEq, Repr

/-- A logical quad (12 R247, R261). -/
structure Quad where
  phys : Nat
  offline : Bool
  chain : Bool
  wantChain : Bool
  bto : Nat
  esc : Nat
  stalls : Nat
  btos : Nat
  lastbar : Nat
  escd : Bool
  hop : Bool
  bound : Option Nat
  pubs : List (Nat × Pub)      -- by 8 * core + index
  stallBy : List Nat           -- launches whose groups raised counted stall traps
  draining : Bool              -- a remap or a mode change is under way: nothing is placed
  deriving DecidableEq, Repr

/-- A started, incomplete packet of a hardware queue. -/
inductive PktKind where
  | launch (lid : Nat)
  | copy (src dst len done signal addend : Nat)
  | checkpoint (body : List Byte)
  | waitsig (addr value timeout since : Nat)
  | prefetch (lo hi : Nat)     -- migrations of the window that have yet to start
  deriving DecidableEq, Repr

structure Pkt where
  kind : PktKind
  asid : Nat                   -- address space and tenant of the queue when the packet started
  tenant : Nat
  intr : Bool
  tag : Word
  slot : Nat
  deriving DecidableEq, Repr

/-- A hardware queue (13 R264). -/
structure Queue where
  base : Nat
  lsize : Nat
  prio : Nat
  en : Bool
  tenant : Nat
  asid : Nat
  ptrblk : Nat
  halted : Option Nat          -- the error code
  haltSlot : Nat
  resumed : Bool               -- go has ended a halt, and no packet has started since (13 R270)
  rptr : Nat
  wptr : Nat                   -- the write pointer as last observed
  pkts : List (Nat × Pkt)
  nextPkt : Nat
  progress : Nat               -- time of the last progress (13 R280)
  deriving DecidableEq, Repr

def Queue.zero : Queue :=
  { base := 0, lsize := 4, prio := 0, en := false, tenant := 0, asid := 0, ptrblk := 0, halted := none, haltSlot := 0, resumed := false,
    rptr := 0, wptr := 0, pkts := [], nextPkt := 0, progress := 0 }

/-- A performance-monitor channel (13 R282): the registers, and the running results of the open window. -/
structure PmChan where
  sel : Word
  win : Word
  cont : Bool
  done : Bool
  min : Nat
  max : Nat
  count : Nat
  bins : List (Nat × Nat)
  open_ : Bool
  opened : Nat                 -- when the window opened, and when a sample was last taken
  sampled : Nat
  rmin : Nat
  rmax : Nat
  rcount : Nat
  rbins : List (Nat × Nat)
  deriving DecidableEq, Repr

def PmChan.zero : PmChan :=
  { sel := 0, win := 1000, cont := false, done := false, min := 0, max := 0, count := 0, bins := [], open_ := false,
    opened := 0, sampled := 0, rmin := 0, rmax := 0, rcount := 0, rbins := [] }

/-- A LAUNCH waiting for a pending-launch entry (13 R277). -/
structure LWait where
  gid : Nat
  uid : Nat
  tenant : Nat
  reserved : Bool
  deriving DecidableEq, Repr

/-- A placement round of one priority at a die (13 R272): the tenant in turn, its placements in the turn, the tenants whose turn is
over, and each tenant's weight as the round began (20 R377). -/
structure Round where
  tenant : Nat
  placed : Nat
  had : List Nat
  weights : List Nat
  deriving DecidableEq, Repr

/-- A die. -/
structure Die where
  queues : List (Nat × Queue)
  gcyc : Nat
  cpms : Nat
  cpesc : Nat
  kills : Nat
  killTimes : List Nat
  fault : Bool
  wsidle : Word
  errCorr : Nat
  errUncorr : Nat
  hbmCorr : Nat
  pms : List (Nat × PmChan)
  lwaits : List LWait
  rounds : List (Nat × Round)        -- by priority
  gap : Nat
  locks : List Lock                  -- places that the command processor leaves alone (16 R322)
  deriving DecidableEq, Repr

def Die.zero : Die :=
  { queues := [], gcyc := 0x40000000, cpms := 2000, cpesc := 4, kills := 0, killTimes := [], fault := false, wsidle := 0,
    errCorr := 0, errUncorr := 0, hbmCorr := 0, pms := [], lwaits := [], rounds := [], gap := 0, locks := [] }

/-! ## Package -/

/-- A range descriptor (15 R289). -/
structure Desc where
  vbase : Nat
  length : Nat
  pbase : Nat
  attr : Nat
  state : Nat
  ctl : Nat
  gen : Nat
  pbase2 : Nat
  seam : Nat
  bmap : Nat
  deriving DecidableEq, Repr

/-- What a range has beside its descriptor, by the descriptor's address: presence map, work order, current half. -/
structure RAux where
  pres : List (Nat × Nat)      -- by chunk: 0 absent, 1 present, 2 lost (15 R304)
  order : List Nat             -- the triggering chunk, then parked chunks, in arrival order (15 R305)
  hints : List Nat             -- chunks named by RPREF and PREFETCH
  trigger : Nat
  half : Bool                  -- 15 R300
  waiting : Bool               -- a start waits under the limit of 256 migrations (15 R303)
  done : Option Nat            -- the done word of a migrate command whose start waits
  asid : Nat                   -- of the start
  deriving DecidableEq, Repr

def RAux.zero : RAux := ⟨[], [], [], 0, false, false, none, 0⟩

/-- A pending shootdown: the range it covers (a whole ASID for length 0), the done word, and what accesses issued before it still
see: operations numbered below `mark`, the old entries as descriptor address and contents (15 R291). -/
structure Shootdown where
  asid : Nat
  vbase : Nat
  length : Nat
  done : Option Nat
  mark : Nat
  old : List (Nat × Desc)
  deriving DecidableEq, Repr

/-- A relaxed store to HOST or PEER memory that agents behind the same I/O die already see, before it is performed (16 R330):
the place, the bytes, and the lane that issued it. -/
structure Post where
  iod : Nat
  remote : Bool
  addr : Nat
  bytes : List Byte
  gid : Nat
  op : Nat
  lane : Nat
  part : Nat                   -- the word of a HOST double (14 R283), else 0
  landed : Bool                -- already performed; the lane has yet to be told
  deriving DecidableEq, Repr

/-- A demotion in progress (15 R302), by descriptor address: destination, done word, ASID. -/
structure Demotion where
  asid : Nat
  dest : Nat
  done : Nat
  deriving DecidableEq, Repr

/-- A slide in progress needs its done word (15 R299). -/
structure SlideJob where
  asid : Nat
  done : Nat
  deriving DecidableEq, Repr

/-- A host-window entry (20 R357). -/
structure HostWin where
  hbase : Nat
  hsize : Nat
  valid : Bool
  port : Nat
  tenant : Nat
  deriving DecidableEq, Repr

def HostWin.zero : HostWin := ⟨0, 0, false, 0, 0⟩

/-- A port's link register (15 R306). -/
structure Port where
  cto : Nat
  down : Bool
  deriving DecidableEq, Repr

def Port.zero : Port := ⟨16, false⟩

/-- A window of another package, as far as this package can tell: length and whether it may be read and written. -/
structure RemWin where
  length : Nat
  read : Bool
  write : Bool
  deriving DecidableEq, Repr

/-- A work request as posted (20 R363). -/
structure WorkReq where
  flags : Nat
  window : Nat
  node : Nat
  lcounter : Nat
  src : Nat
  offset : Nat
  length : Nat
  tag : Dbl
  deriving DecidableEq, Repr

/-- One packet of a message at the sender (20 R365). -/
structure NPkt where
  sent : Bool
  acked : Bool
  tries : Nat                  -- retransmissions made
  dups : Nat                   -- acknowledgements counted since the latest transmission (21 R387)
  first : Nat                  -- numbers of the first and the latest transmission, in the engine's order
  last : Nat
  at_ : Nat                    -- time of the latest transmission
  deriving DecidableEq, Repr

/-- A message in flight or failed. -/
structure Msg where
  queue : Nat
  wr : WorkReq
  psize : Nat
  pkts : List NPkt
  order : Nat                  -- post order within the queue
  drop : Option Nat            -- the packet whose first transmission NTEST discards
  failed : Option Nat
  again : Bool                 -- failed, and to be sent again whole (20 R366)
  finished : Bool              -- sent again under another number
  gid : Option Nat             -- the group that posted it (08 R185)
  deriving DecidableEq, Repr

/-- A send queue (20 R362). -/
structure SendQ where
  base : Nat
  lsize : Nat
  en : Bool
  tenant : Nat
  asid : Nat
  wpos : Nat
  spos : Nat
  halted : Option Nat
  posted : List (Nat × Nat)    -- the requests in the ring: position and the group that posted it (08 R185)
  deriving DecidableEq, Repr

def SendQ.zero : SendQ := ⟨0, 4, false, 0, 0, 0, 0, none, []⟩

/-- A network engine (20 R361). -/
structure Eng where
  psize : Nat
  en : Bool
  rto : Nat
  tries : Nat
  dup : Nat
  tqueue : Nat
  tpkt : Nat
  arm : Bool
  rexmit : Nat
  tdrops : Nat
  sqs : List (Nat × SendQ)
  msgs : List (Nat × Msg)
  nextMsg : Nat
  seq : Nat                    -- transmissions made
  deaf : Bool                  -- no reply to its single-packet requests comes before their last try (20 R368)
  deriving DecidableEq, Repr

def Eng.zero : Eng :=
  { psize := 2, en := false, rto := 50, tries := 8, dup := 3, tqueue := 0, tpkt := 0, arm := false, rexmit := 0, tdrops := 0,
    sqs := [], msgs := [], nextMsg := 0, seq := 0, deaf := false }

/-- A single-packet request at a window of this package (20 R368). -/
inductive PeerReq where
  | load (window off n : Nat)
  | store (window off : Nat) (bytes : List Byte)
  | atom (window off : Nat) (op : AOp) (x y : Nat)
  deriving DecidableEq, Repr

/-- Something on the wire. -/
inductive Wire where
  | data (srcNode eng msg pkt dstNode window offset : Nat) (total : Nat) (rcnt : Bool) (bytes : List Byte)
  | ack (dstNode eng msg pkt : Nat) (refusal : Nat)
  | peer (srcNode dstNode eng tag : Nat) (r : PeerReq)
  deriving DecidableEq, Repr

/-- A message at its receiver (20 R365). -/
structure RMsg where
  srcNode : Nat
  eng : Nat
  msg : Nat
  placed : List Nat
  finished : Bool
  deriving DecidableEq, Repr

/-- The verdict of one monitor number: its total, and how it drifts. -/
structure PodVerdict where
  mon : Nat
  total : Acc
  drift : Option Drift
  deriving DecidableEq, Repr

/-- A monitor that a member of a POD barrier answers with: its number and its logical core (20 R369, 18 R345). -/
structure SentMon where
  mon : Nat
  core : Nat
  held : Monitor
  deriving DecidableEq, Repr

/-- A POD barrier in its present phase (20 R369): at the root the arrivals of its own groups still on the way (the bpod of each), the
arrivals received and the open sums that other members have answered with, by node; then the verdicts, which a member receives with
the completion. -/
structure Pod where
  own : List Nat
  arrivals : Nat
  expected : Nat
  sums : List (Nat × List SentMon)
  verdict : Option (List PodVerdict)
  deriving DecidableEq, Repr

/-- What the package has sent out: MSI-X signals, answers to the host, reports. -/
inductive Output where
  | msix (fn vector : Nat)
  | reply (tag : Nat) (data : List Byte)
  | completerAbort (tag : Nat)
  | unsupported (tag : Nat)
  | report (port : Nat)
  | peerAnswer (node tag : Nat) (data : Option (List Byte))   -- to a peer's request; none is a refusal
  | podArrival (root tenant idx bpod : Nat)           -- a group's arrival, to the tenant's root node (20 R369)
  | podSums (root tenant idx : Nat) (ms : List SentMon)  -- a member's open sums, to the root
  | podDone (tenant idx : Nat) (v : List PodVerdict)  -- the root's completion, to every member
  deriving DecidableEq, Repr

/-- A host access, or a part of a write, held at the I/O die until its chunk is present (15 R304). -/
inductive HostReq where
  | read (n tag : Nat)
  | write (bytes : List Byte)
  | atom (op : HostOp) (size x y tag : Nat)
  deriving DecidableEq, Repr

structure Held where
  tenant : Nat
  off : Nat
  req : HostReq
  port : Nat
  deriving DecidableEq, Repr

/-- Which agent moves at a step: the model's own schedule. -/
inductive Action where
  | issue (gid path : Nat)
  | event (i : Instr)
  | engineUnit (gid op unit : Nat)                    -- an engine serves one unit of its transfer
  | rlbFill (core : Nat) (asid va : Nat)
  | cacheDrop (core : Nat) (line : Nat)               -- capacity or parity discard of a load-cache line
  | operandDrop (core : Nat) (t : OTag)               -- an operand-cache entry goes for a parity error (08 R178, R191)
  | poison (block : Nat)                              -- an uncorrectable burst in memory
  | poisonReg (gid word : Nat)
  | poisonTile (core byte : Nat)
  | poisonSlot (core unit : Nat)
  | poisonBank (core bank elem : Nat)
  | correct (die : Nat)                               -- a corrected error of the die's arrays
  | correctHbm (pa : Nat)                             -- a read of HBM corrects an error of its burst
  | shuttleError (core : Nat)                         -- a shuttle beat fails its check (12 R260)
  | clearContext (engine asid : Nat)                  -- system software lets an ASID's streams start again (15 R312)
  | elapse (cycles : Nat)
  | early (gid op : Nat) (lanes : Mask) (cached : Bool)   -- lanes take effect ahead of what only a narrow FENCE orders (16 R322)
  | unlock                                            -- locks whose operations are over go
  | piece (gid op unit block : Nat)                   -- one 64-byte block of an engine's unit, or word of a HOST double that a lane
                                                      -- stores, before the rest
  | take (gid op unit block : Nat)                    -- the same of what a lane loads, of a list, and of a scale array
  | takeWait (gid path block : Nat)                   -- the same of the double that a blocked WAITM watches
  | post (gid op lane part : Nat)                     -- a store to HOST or PEER memory reaches the readers behind its I/O die
  | hostRefuses (block : Nat) (bad : Bool)            -- requests at a block of host memory complete with an error, or no longer
  | peerSilent (eng : Nat) (deaf : Bool)              -- no replies come for an engine's requests, or come again
  | barWrite (fn off : Nat) (bytes : List Byte)       -- software of the host writes to a function's BAR 0 (20 R354)
  | barRead (fn off n tag : Nat)
  | hostStore (addr : Nat) (bytes : List Byte)        -- the host writes its own memory
  | queueUnit (die q pkt : Nat)                       -- a copy engine moves 64 bytes of a queue's COPY
  | remoteStore (node window off : Nat) (bytes : List Byte)
  | remoteWindow (node window : Nat) (w : RemWin)
  | wireIn (w : Wire)
  | netSend (eng : Nat)                               -- an engine makes its next first transmission
  | podSums (node tenant idx : Nat) (ms : List SentMon)   -- a member's sums reach this root
  | podVerdict (tenant idx : Nat) (v : List PodVerdict)           -- the completion of a root elsewhere reaches this member
  deriving DecidableEq, Repr

/-- The state of the package. -/
structure State where
  agenda : List Action
  cur : Option (Nat × Nat)
  now : Nat
  fresh : Nat
  nextOp : Nat
  -- memory
  mem : List Host.Cell               -- HBM by physical address; from 2^52 up the CXL devices, by port and device address
  hostMem : List Host.Cell           -- by host bus address
  remMem : List Host.Cell            -- by 2^56 * node + 2^42 * window + offset
  posts : List Post                  -- oldest first
  hostBad : List Nat                 -- 64-byte blocks of host memory whose requests complete with an error (20 R357)
  poison : List Nat                  -- poisoned 64-byte blocks of memory
  -- groups and their company
  groups : List (Nat × Group)
  cohorts : List (Nat × Cohort)
  launches : List (Nat × Launch)
  barriers : List Barrier
  cores : List (Nat × Core)
  quads : List (Nat × Quad)
  dies : List (Nat × Die)
  frames : List (Nat × List Nat)     -- trap-frame slots in use, by tenant
  -- ranges
  raux : List (Nat × RAux)
  slides : List (Nat × SlideJob)
  slideWaits : List RangeCmd         -- slide commands that wait for a checkpoint of their tenant, oldest first (15 R317)
  demotions : List (Nat × Demotion)
  shoots : List (Nat × Shootdown)
  drained : List Nat                 -- 1024 * engine + ASID: contexts halted by a malformed block (15 R312)
  asidtb : List (Nat × Dbl)
  cmdWin : List (Nat × Word)         -- words written to the command windows: 8 * range unit + word (15 R291)
  -- fabric
  ready : Bool
  recovery : Bool
  resetting : List Nat               -- tenants whose reset waits for its work to end (20 R379)
  node : Nat
  pwrcap : Word
  tenbase : Dbl
  nwinbase : Dbl
  capdec : Word
  rststat : Dbl
  dieShare : List (Nat × Nat)
  hbmShare : List (Nat × Nat)
  attNonce : BitVec 256
  attAddr : Dbl
  attDone : Bool
  fwAddr : Dbl
  fwLen : Dbl
  fwDone : Bool
  fwRejected : Bool
  fwDigests : List (Nat × List Byte) -- of the images accepted since the package was made, by kind (20 R380)
  warm : Bool                        -- a warm reset is under way (20 R382)
  asidMap : List (Nat × Byte)
  hostWins : List (Nat × HostWin)
  peerWins : List (Nat × Dbl)
  counters : List (Nat × Word)
  counterTen : List (Nat × Byte)
  pcie : List (Nat × Port)
  cxl : List (Nat × Port)
  engines : List (Nat × Eng)
  wires : List (Nat × Wire)
  rmsgs : List RMsg
  remWins : List (Nat × RemWin)
  pods : List (Nat × Pod)            -- by 256 * tenant + index
  held : List (Nat × Held)
  evcons : List (Nat × Word)
  evstat : List (Nat × Bool)
  evseq : List (Nat × Nat)
  pairings : List (Nat × List (Nat × Nat))  -- pairings in being: participant groups and operations
  outputs : List Output
  deriving DecidableEq, Repr

/-- An unlisted logical quad: its factory map (12 R261). -/
def Quad.zero (q : Nat) : Quad :=
  { phys := q % 64, offline := false, chain := false, wantChain := false, bto := 1024, esc := 8, stalls := 0, btos := 0,
    lastbar := 0, escd := false, hop := false, bound := none, pubs := [], stallBy := [], draining := false }

/-- The package right after the cold reset (20 R382): no group, no launch, memory with nothing listed, and every register at
the reset value its table gives; where a table gives none, at the value of log entry 5. -/
def State.reset : State :=
  { agenda := [], cur := none, now := 0, fresh := 0, nextOp := 0,
    mem := [], hostMem := [], remMem := [], posts := [], hostBad := [], poison := [],
    groups := [], cohorts := [], launches := [], barriers := [], cores := [], quads := [], dies := [], frames := [],
    raux := [], slides := [], slideWaits := [], demotions := [], shoots := [], drained := [], asidtb := [], cmdWin := [],
    ready := true, recovery := false, resetting := [], node := 0, pwrcap := 3600, tenbase := 0, nwinbase := 0, capdec := 0, rststat := 0,
    dieShare := [], hbmShare := [], attNonce := 0, attAddr := 0, attDone := false, fwAddr := 0, fwLen := 0, fwDone := false,
    fwRejected := false, fwDigests := [], warm := false, asidMap := [], hostWins := [], peerWins := [], counters := [], counterTen := [],
    pcie := [], cxl := [], engines := [], wires := [], rmsgs := [], remWins := [], pods := [], held := [],
    evcons := [], evstat := [], evseq := [], pairings := [], outputs := [] }

end Sys2Proof.Machine
end

