-- ==== Sys2Proof/Machine/Formats.lean ====
section
/-! DEFINITION. The format and location words of the matrix instructions (spec/10_matrix_instructions.md R227 to R232, R240): which bytes an
operand is read from, and which words of register space these are (spec/04 R90, spec/10 R223). -/
namespace Sys2Proof.Machine

/-! ## The format word (R228, R229, R232) -/

/-- One half of the format word. -/
structure OpFmt where
  enc : Nat
  lay : Nat
  scale : Nat
  wrap : Nat
  rsv : Nat
  deriving DecidableEq, Repr

def fmtHalf (w : Nat) : OpFmt := ⟨w % 32, w / 32 % 8, w / 256 % 8, w / 2048 % 4, w / 8192 % 8⟩
def fmtA (w : Word) : OpFmt := fmtHalf (w.toNat % 65536)
def fmtB (w : Word) : OpFmt := fmtHalf (w.toNat / 65536)

/-- Element class in nibbles: 1, 2 or 4; 0 for an encoding the table does not list. -/
def encClass (e : Nat) : Nat :=
  if e = 14 || e = 15 || e = 16 then 1 else if e = 4 || e = 12 || e = 13 || e = 17 then 2
  else if e = 9 || e = 10 then 4 else 0

/-- K of R229. -/
def encK (e : Nat) : Nat := 256 / encClass e

/-- Row length in nibbles (R230). -/
def encRow (e : Nat) : Nat := if e = 17 then 64 else 256

/-- Scale bytes of an operand (R232). -/
def scaleBytes (f : OpFmt) : Nat :=
  if f.scale = 0 then 0 else if f.scale = 2 then 1 else if f.enc = 17 then 32
  else if f.enc = 16 then 512 else encK f.enc

/-- The operand's scales lie in memory (R232). -/
def farScales (f : OpFmt) : Bool := f.scale = 1 || f.scale = 2

/-- The B operand is named by a weight-store handle (R233). -/
def formHandle : MmaForm → Bool
  | .weight | .quad => true
  | _ => false

/-- Whether the issuing core supplies B (R233). -/
def suppliesB (form : MmaForm) (core : Nat) : Bool :=
  match form with
  | .solo | .weight => true
  | .pair => core % 2 = 0
  | .quad => core % 4 = 0

/-- The operation reads a scale array in memory on its core (R232). -/
def memScaled (form : MmaForm) (core : Nat) (fmt : Word) : Bool :=
  farScales (fmtA fmt) || (suppliesB form core && farScales (fmtB fmt))

/-! ## The location word (R227) -/

def locStart (w : Word) : Nat := w.toNat / 2 ^ 9 % 2 ^ 13
def locPitch (w : Word) : Nat := w.toNat / 2 ^ 22 % 2 ^ 9
def locIndex (w : Word) : Nat := w.toNat % 256
def locScratch (w : Word) : Bool := w.toNat / 256 % 2 = 1

/-! ## The bytes an operand is read from -/

/-- Byte spans that an operand touches in its tile, as offset and length: one a row (R230). -/
def rowSpans (start pitch : Nat) (o : OpFmt) : List (Nat × Nat) :=
  (List.range 32).map fun r => ((start + r * pitch) / 2, (start + r * pitch + encRow o.enc + 1) / 2 - (start + r * pitch) / 2)

/-- The seed words of SEEDX: four of each source row (R240). -/
def seedSpans (w : Word) : List (Nat × Nat) := (List.range 32).map fun j => (128 * j + 16 * (w.toNat / 256 % 8), 16)

/-- A whole tile. -/
def fullSpans : List (Nat × Nat) := [(0, 4096)]

def inSpans (spans : List (Nat × Nat)) (b : Nat) : Bool := spans.any fun e => decide (e.1 ≤ b) && decide (b < e.1 + e.2)

/-- The words of the block of 64 from `base` on that are numbered `lo` to `hi - 1`. -/
def wordsIn (base lo hi : Nat) : Mask :=
  BitVec.ofNat 64 (2 ^ ((if hi < base + 64 then hi else base + 64) - base) - 2 ^ (lo - base))

/-- The words of block `k` of a tile that the spans meet. -/
def spanMask (spans : List (Nat × Nat)) (k : Nat) : Mask :=
  spans.foldl (fun m e => m ||| wordsIn (64 * k) (e.1 / 4) ((e.1 + e.2 + 3) / 4)) 0

/-- The register words that spans of the tile register at `a` meet, by block. -/
def spanReads (a : Nat) (spans : List (Nat × Nat)) : List (Nat × Mask) :=
  ((List.range 16).map fun k => (a / 256 + k, spanMask spans k)).filter fun e => e.2 ≠ 0

/-- The register words that a tile operand reads, by block; none of an operand in the scratchpad (R227). -/
def operandReads (v : Views) (w : Word) (f : OpFmt) : List (Nat × Mask) :=
  if locScratch w then [] else spanReads (v.tvbase.toNat + locIndex w * v.tvstride.toNat) (rowSpans (locStart w) (locPitch w) f)

/-- The register blocks that a tile operand reads. -/
def operandBlocks (v : Views) (w : Word) (f : OpFmt) : List Nat := (operandReads v w f).map (·.1)

end Sys2Proof.Machine
end

