-- ==== Sys2Proof/Config.lean ====
section
/-! DEFINITION. What an implementation fixes, and the values the spec leaves open: constants without a body, so that nothing
can be proved of a particular value. `State.fresh` numbers the uses. -/
namespace Sys2Proof.Config

/-- A free choice, by the number of its use: whether a plain load of LDU that hits a load-cache line is served from it
(spec/06 R147), and how far the clock of a core differs (spec/09 R218). -/
opaque freeNat : Nat → Nat

/-- Bytes that the spec gives no value: the signature and the digests of an attestation report (spec/20 R381). -/
opaque reportDigest : Nat → List Byte
opaque reportSignature : List Byte → List Byte

/-- Whether the management controller accepts a firmware image (spec/20 R380): the public key and the rollback version are
fused. -/
opaque firmwareAccepted : List Byte → Bool

/-- Whether the images found at a cold reset verify (spec/20 R380), by the number of the use. -/
opaque bootVerified : Nat → Bool

/-- Which of the four images a firmware image is, and its body: the spec does not lay out its header (spec/20 R380). -/
opaque imageKind : List Byte → Nat
opaque imageBody : List Byte → List Byte

/-- Capacity in bytes of the device on CXL port p (spec/20 R359). -/
opaque cxlCapacity : Nat → Nat

/-- The idle draw of a die in whole watts, below 4096, since PWRCAP ends at 3600 (spec/20 R383). -/
opaque idleDraw : Nat → BitVec 12

end Sys2Proof.Config
end

