-- ==== Sys2Proof/Machine/Codec.lean ====
section
/-! DEFINITION. Byte order, packed blocks with their CRC-32C (spec/15_package_memory.md R308 to R312), and SHAKE256 (FIPS 202,
named by spec/15 R318 and spec/20 R380). -/
namespace Sys2Proof.Machine

/-- The little-endian number of a list of bytes (R5). -/
def leNat : List Byte → Nat
  | [] => 0
  | b :: bs => b.toNat + 256 * leNat bs

/-- The `n` little-endian bytes of a number (R5). -/
def leBytes : Nat → Nat → List Byte
  | 0, _ => []
  | n + 1, v => BitVec.ofNat 8 v :: leBytes n (v / 256)

/-- Zero bytes. -/
def zeros (n : Nat) : List Byte := List.replicate n 0

/-- The list cut into pieces of `k` elements, at most `n` of them. -/
def chunksOf {α : Type} (k : Nat) : Nat → List α → List (List α)
  | 0, _ => []
  | n + 1, l => if l.isEmpty then [] else l.take k :: chunksOf k n (l.drop k)

/-- Little-endian 32-bit words of a list of bytes. -/
def leWords (n : Nat) (bs : List Byte) : List Nat := (chunksOf 4 n bs).map leNat

/-! ## CRC-32C: polynomial 0x1EDC6F41 reflected, initial and final XOR all ones (R308) -/

/-- `n` bit steps of the reflected CRC register. -/
def crcBits : Nat → Nat → Nat
  | 0, c => c
  | n + 1, c => crcBits n (if c % 2 = 1 then (c / 2) ^^^ 0x82F63B78 else c / 2)

def crcBytes (c : Nat) (bs : List Byte) : Nat := bs.foldl (fun c b => crcBits 8 (c ^^^ b.toNat)) c

def crc32c (bs : List Byte) : Nat := crcBytes 0xFFFFFFFF bs ^^^ 0xFFFFFFFF

/-! ## Packed blocks (R308, R309) -/

/-- Payload length of a sector mode (R309). -/
def sectorLen (mode : Nat) : Nat := if mode = 0 then 0 else if mode = 1 then 64 else if mode = 2 then 20 else 4

/-- The words after word 0 of a delta sector: each adds a signed byte (R309, mode 10). -/
def deltaWords : Nat → List Byte → List Nat
  | _, [] => []
  | w, b :: bs =>
    let w' := (w + (b.signExtend 32).toNat) % 2 ^ 32
    w' :: deltaWords w' bs

/-- The 64 bytes of a sector; `none` for a nonzero delta pad byte (R309, R312). -/
def sectorDecode (mode : Nat) (p : List Byte) : Option (List Byte) :=
  if mode = 0 then some (zeros 64)
  else if mode = 1 then some (p.take 64)
  else if mode = 3 then some ((List.replicate 16 (p.take 4)).flatten)
  else if p.getD 19 0 = 0 then
    let w := leNat (p.take 4)
    some ((w :: deltaWords w ((p.drop 4).take 15)).flatMap (leBytes 4))
  else none

/-- The sectors from `s` on, `n` of them. -/
def sectorsDecode (modes : Nat) : Nat → Nat → List Byte → Option (List Byte)
  | 0, _, _ => some []
  | n + 1, s, p =>
    let m := modes / 4 ^ s % 4
    match sectorDecode m p, sectorsDecode modes n (s + 1) (p.drop (sectorLen m)) with
    | some a, some b => some (a ++ b)
    | _, _ => none

/-- The 2048 bytes of a packed slot; `none` for a malformed block (R308, R312). A plen past 2032, the end of the field's range,
has no 2048 bytes to expand to. -/
def blockDecode (slot : List Byte) : Option (List Byte) :=
  let modes := leNat ((slot.drop 4).take 8)
  let plen := leNat ((slot.drop 2).take 2)
  let sum := ((List.range 32).map fun s => sectorLen (modes / 4 ^ s % 4)).sum
  if slot.getD 0 0 ≠ 0xC7 || slot.getD 1 0 ≠ 1 || plen ≠ sum || 2032 < plen then none
  else
    match sectorsDecode modes 32 0 (slot.drop 16) with
    | none => none
    | some bs => if crc32c bs = leNat ((slot.drop 12).take 4) then some bs else none

/-- The differences of a delta sector as signed bytes, where each fits (R309). -/
def deltasOf : List Nat → Option (List Byte)
  | a :: b :: ws =>
    let d := (b + 2 ^ 32 - a) % 2 ^ 32
    if d < 128 || 2 ^ 32 - 128 ≤ d then (deltasOf (b :: ws)).map (BitVec.ofNat 8 d :: ·) else none
  | _ => some []

/-- The first mode that fits a sector, in the order 00, 11, 10, 01, and its payload (R309). -/
def sectorEncode (bs : List Byte) : Nat × List Byte :=
  if bs.all (· = 0) then (0, [])
  else
    let ws := leWords 16 bs
    if ws.all (· = ws.headD 0) then (3, bs.take 4)
    else
      match deltasOf ws with
      | some ds => (2, bs.take 4 ++ ds ++ [0])
      | none => (1, bs)

/-- The packed slot of 2048 bytes, zeros after its payload (log entry 125); `none` where the block is stored raw (R309). -/
def blockEncode (bs : List Byte) : Option (List Byte) :=
  let ss := (chunksOf 64 32 bs).map sectorEncode
  let pay := ss.flatMap (·.2)
  if 2032 < pay.length then none
  else
    let modes := ss.foldr (fun p acc => p.1 + 4 * acc) 0
    some (0xC7 :: 1 :: (leBytes 2 pay.length ++ leBytes 8 modes ++ leBytes 4 (crc32c bs) ++ pay
      ++ zeros (2032 - pay.length)))

/-! ## SHAKE256 -/

/-- One step of the shift register x^8 + x^6 + x^5 + x^4 + 1, bit `i` of the number its cell `i` (FIPS 202, rc). -/
def rcStep (r : Nat) : Nat := if r < 128 then 2 * r else 2 * r ^^^ 0x171

/-- The iota constant of a round and the register after it: cell 0 after `j` steps is bit 2^j - 1, for `j` up to 6. -/
def iotaConst : Nat → Nat → Nat → Nat × Nat
  | 0, _, r => (0, r)
  | n + 1, j, r =>
    let (c, r') := iotaConst n (j + 1) (rcStep r)
    (r % 2 * 2 ^ (2 ^ j - 1) + c, r')

/-- Theta on the lanes x + 5y: each takes the parities of the column before it and, turned, of the one after it. -/
def theta (a : List Dbl) : List Dbl :=
  let par (x : Nat) : Dbl := (chunksOf 5 5 a).foldl (fun p row => p ^^^ row.getD (x % 5) 0) 0
  let eff := (List.range 5).map fun x => par (x + 4) ^^^ (par (x + 1)).rotateLeft 1
  (chunksOf 5 5 a).flatMap fun row => List.zipWith (· ^^^ ·) row eff

/-- Rho and pi in one walk of the 24 lanes off the origin: the lane `w` of (x, y) goes, turned by the triangular number of its
place in the walk, to (y, 2x + 3y), the next place. -/
def rhoPi : Nat → Nat → Nat → Nat → Dbl → List Dbl → List Dbl
  | 0, _, _, _, _, a => a
  | n + 1, t, x, y, w, a =>
    let y' := (2 * x + 3 * y) % 5
    rhoPi n (t + 1) y y' (a.getD (y + 5 * y') 0) (a.set (y + 5 * y') (w.rotateLeft ((t + 1) * (t + 2) / 2)))

/-- Chi on a row. -/
def chi (row : List Dbl) : List Dbl :=
  let at1 := row.drop 1 ++ row.take 1
  let at2 := row.drop 2 ++ row.take 2
  List.zipWith (· ^^^ ·) row (List.zipWith (fun p q => q &&& ~~~ p) at1 at2)

/-- `n` rounds of Keccak-f[1600]; `r` is the shift register of the constants. -/
def keccakRounds : Nat → Nat → List Dbl → List Dbl
  | 0, _, a => a
  | n + 1, r, a =>
    let b := theta a
    let (c, r') := iotaConst 7 0 r
    match (chunksOf 5 5 (rhoPi 24 0 1 0 (b.getD 1 0) b)).flatMap chi with
    | o :: l => keccakRounds n r' ((o ^^^ BitVec.ofNat 64 c) :: l)
    | [] => []

/-- A rate block of 136 bytes enters the sponge. -/
def absorbBlock (a : List Dbl) (block : List Byte) : List Dbl :=
  let ws := (chunksOf 8 17 block).map fun b => (BitVec.ofNat 64 (leNat b) : Dbl)
  keccakRounds 24 1 (List.zipWith (· ^^^ ·) a (ws ++ List.replicate 8 0))

/-- The padding of SHAKE256: 0x1F, zeros, and the top bit of the last byte. -/
def shakePad (len : Nat) : List Byte :=
  let r := 136 - len % 136
  if r = 1 then [0x9F] else 0x1F :: (zeros (r - 2) ++ [0x80])

/-- The first `n` bytes (at most 136) of SHAKE256. -/
def shake256 (n : Nat) (bs : List Byte) : List Byte :=
  let a := (chunksOf 136 (bs.length / 136 + 1) (bs ++ shakePad bs.length)).foldl absorbBlock (List.replicate 25 0)
  ((a.flatMap fun w => leBytes 8 w.toNat).take n)

end Sys2Proof.Machine
end

