-- ==== Sys2Proof/Machine/Ranges.lean ====
section
/-! DEFINITION. Ranges and the memory behind them (spec/15_package_memory.md R286 to R311, spec/20 R356 to R359, R368): the
walk, the access checks of spec/06 R145, the place of a byte under sliding, migration, publication and packing, and reads and
writes by virtual address. Every unit of the package reaches memory through these. -/
namespace Sys2Proof.Machine

/-- Why an access is not served. -/
inductive MErr where
  | trap (cls : Nat)
  | start (desc : Nat)                    -- ABSENT with AUTO-MIGRATE: the migration must start
  | chunk (desc : Nat) (chunk : Nat)      -- absent chunk of a migrating range
  | held                                  -- the place is left alone for another agent's sake (16 R322)
  deriving DecidableEq, Repr

/-- What an access does. -/
inductive AKind where
  | read | write | atom (hostOk : Bool) | fetch
  deriving DecidableEq, Repr

/-! ## Tables of records with defaults -/

def State.core (s : State) (c : Nat) : Core := (kget s.cores c).getD Core.zero
def State.setCore (s : State) (c : Nat) (v : Core) : State := { s with cores := kset s.cores c v }
def State.quad (s : State) (q : Nat) : Quad := (kget s.quads q).getD (Quad.zero q)
def State.setQuad (s : State) (q : Nat) (v : Quad) : State := { s with quads := kset s.quads q v }
def State.die (s : State) (d : Nat) : Die := (kget s.dies d).getD Die.zero
def State.setDie (s : State) (d : Nat) (v : Die) : State := { s with dies := kset s.dies d v }
def State.eng (s : State) (e : Nat) : Eng := (kget s.engines e).getD Eng.zero
def State.setEng (s : State) (e : Nat) (v : Eng) : State := { s with engines := kset s.engines e v }
def State.setGroup (s : State) (g : Nat) (v : Group) : State := { s with groups := kset s.groups g v }
def State.aux (s : State) (a : Nat) : RAux := (kget s.raux a).getD RAux.zero
def State.setAux (s : State) (a : Nat) (v : RAux) : State := { s with raux := kset s.raux a v }
def State.tenantOf (s : State) (asid : Nat) : Nat := (mget 255 s.asidMap asid).toNat
def State.cxlPort (s : State) (p : Nat) : Port := (kget s.cxl p).getD Port.zero
def State.pciePort (s : State) (p : Nat) : Port := (kget s.pcie p).getD Port.zero
def State.hostWin (s : State) (i : Nat) : HostWin := (kget s.hostWins i).getD HostWin.zero

/-- The I/O die whose range unit serves a core: dies 0 to 7 and 8 to 15. Software keeps the two table bases equal (R355).
Numbers from 4096 up stand for units of the I/O dies, which have no lookaside buffer. -/
def iodOf (core : Nat) : Nat := if 4096 ≤ core then core - 4096 else if core / 256 < 8 then 0 else 1
def ioCore (iod : Nat) : Nat := 4096 + iod

/-! ## Physical bytes -/

def Memory.byte (m : List Host.Cell) (a : Nat) : Byte := mget 0 m a
def Memory.bytes (m : List Host.Cell) (a n : Nat) : List Byte := mgetList 0 m a n
def Memory.store (m : List Host.Cell) (a : Nat) (bs : List Byte) : List Host.Cell := msetList 0 m a bs
/-- The canonical form of memory: addresses rise strictly and no listed byte is 0, what an unlisted one reads as. -/
def Memory.wf (m : List Host.Cell) : Bool := mwf 0 m

/-- The CXL port of a capacity address and the device address (spec/20 R359): ports of pmask in ascending order. -/
def capPort (s : State) (pa : Nat) : Option (Nat × Nat) :=
  let ports := (List.range 8).filter fun p => s.capdec.toNat / 2 ^ p % 2 = 1
  let n := ports.length
  if s.capdec.toNat / 2 ^ 11 % 2 = 0 || !(n = 1 || n = 2 || n = 4 || n = 8) then none
  else
    let w := Nat.log2 n
    let o := pa % 2 ^ 48
    (ports[o / 2 ^ 11 % n]?).map fun p => (p, o / 2 ^ (11 + w) * 2 ^ 11 + o % 2 ^ 11)

/-- The cell of a capacity address: its byte of its device; none where region 1 does not decode it. -/
def capCell (s : State) (pa : Nat) : Option Nat := (capPort s pa).map fun e => 2 ^ 52 + 2 ^ 48 * e.1 + e.2

/-- The cell of a physical address of region 0 or 1. -/
def cellOf (s : State) (pa : Nat) : Option Nat := if pa / 2 ^ 48 = 1 then capCell s pa else some pa

/-- How many of `n` bytes at an address lie in its slot of 2 KiB, whole on one port (20 R359). -/
def slotPart (pa n : Nat) : Nat := if n < 2048 - pa % 2048 then n else 2048 - pa % 2048

/-- Bytes of the capacity tier, slot by slot. -/
def capBytes (s : State) : Nat → Nat → Nat → List Byte
  | 0, _, _ => []
  | fuel + 1, pa, n =>
    if n = 0 then []
    else
      let k := slotPart pa n
      (match capCell s pa with
        | some a => Memory.bytes s.mem a k
        | none => zeros k) ++ capBytes s fuel (pa + k) (n - k)

/-- `n` bytes at a physical address. -/
def State.bytes (s : State) (pa n : Nat) : List Byte :=
  if pa / 2 ^ 48 = 1 then capBytes s (n / 2048 + 2) pa n else Memory.bytes s.mem pa n

/-- `n` bytes at a physical address, as a little-endian number. -/
def State.phys (s : State) (a n : Nat) : Nat := leNat (s.bytes a n)

/-- The 64-byte blocks that `n` bytes at `a` touch. -/
def blocksOf (a n : Nat) : List Nat := if n = 0 then [] else (List.range ((a + n - 1) / 64 - a / 64 + 1)).map (a / 64 + ·)

/-- The same blocks as cells. -/
def cellBlocks (s : State) (a n : Nat) : List Nat := (blocksOf a n).filterMap fun b => (cellOf s (64 * b)).map (· / 64)

def State.poisoned (s : State) (a n : Nat) : Bool := !s.poison.isEmpty && (cellBlocks s a n).any fun b => s.poison.contains b

/-- A write ends the poison of each burst it covers whole (R315). -/
def unpoison (p : List Nat) (a n : Nat) : List Nat := p.filter fun b => !(decide (a ≤ 64 * b) && decide (64 * b + 64 ≤ a + n))

/-- A write of cells. -/
def State.cellStore (s : State) (a : Nat) (bs : List Byte) : State :=
  { s with mem := Memory.store s.mem a bs, poison := unpoison s.poison a bs.length }

/-- A write of the capacity tier, slot by slot. -/
def capStore (s : State) : Nat → Nat → List Byte → State
  | 0, _, _ => s
  | fuel + 1, pa, bs =>
    if bs.isEmpty then s
    else
      let k := slotPart pa bs.length
      let s := match capCell s pa with
        | some a => s.cellStore a (bs.take k)
        | none => s
      capStore s fuel (pa + k) (bs.drop k)

def State.physStore (s : State) (a : Nat) (bs : List Byte) : State :=
  if a / 2 ^ 48 = 1 then capStore s (bs.length / 2048 + 2) a bs else s.cellStore a bs

/-- The blocks of `n` bytes at a physical address go bad. -/
def State.spoil (s : State) (a n : Nat) : State :=
  let bad := cellBlocks s a n
  { s with poison := bad ++ s.poison.filter fun b => !bad.contains b }

/-! ## Descriptors and the walk -/

def descOfBytes (b : List Byte) : Desc :=
  let f (o n : Nat) := leNat ((b.drop o).take n)
  { vbase := f 0 8, length := f 8 8, pbase := f 16 8, attr := f 24 2, state := f 26 1, ctl := f 27 1, gen := f 28 4,
    pbase2 := f 32 8, seam := f 40 8, bmap := f 48 8 }

def bytesOfDesc (d : Desc) : List Byte :=
  leBytes 8 d.vbase ++ leBytes 8 d.length ++ leBytes 8 d.pbase ++ leBytes 2 d.attr ++ leBytes 1 d.state ++ leBytes 1 d.ctl
    ++ leBytes 4 d.gen ++ leBytes 8 d.pbase2 ++ leBytes 8 d.seam ++ leBytes 8 d.bmap ++ zeros 8

def State.desc (s : State) (a : Nat) : Desc := descOfBytes (s.bytes a 64)

/-- The range unit writes a descriptor and raises its generation (R291). -/
def State.putDesc (s : State) (a : Nat) (d : Desc) : State :=
  s.physStore a (bytesOfDesc { d with gen := (d.gen + 1) % 2 ^ 32 })

/-- Write a descriptor without a new generation (the seam). -/
def State.putSeam (s : State) (a : Nat) (d : Desc) : State := s.physStore a (bytesOfDesc d)

def attrBit (d : Desc) (k : Nat) : Bool := d.attr / 2 ^ k % 2 = 1
def Desc.rd (d : Desc) : Bool := attrBit d 0
def Desc.wr (d : Desc) : Bool := attrBit d 1
def Desc.ex (d : Desc) : Bool := attrBit d 2
/-- Memory type: 0 HBM, 1 PEER, 2 HOST, 3 CAP (spec/02 R36). -/
def Desc.type (d : Desc) : Nat := d.attr / 8 % 4
def Desc.pin (d : Desc) : Bool := attrBit d 5
def Desc.seeded (d : Desc) : Bool := attrBit d 6
def Desc.packed (d : Desc) : Bool := attrBit d 7
def Desc.pair (d : Desc) : Bool := attrBit d 8
def Desc.auto (d : Desc) : Bool := attrBit d 9
def Desc.stopped (d : Desc) : Bool := d.ctl / 32 % 2 = 1
def Desc.up (d : Desc) : Bool := d.ctl / 16 % 2 = 1
def Desc.chunk (d : Desc) : Nat := 2 ^ (d.ctl % 16)
def Desc.chunks (d : Desc) : Nat := (d.length + 65535) / 65536

/-- The state a walk gives a descriptor (R290, R291): SLIDING and MIGRATING only as the range unit entered them. -/
def State.rstate (s : State) (a : Nat) (d : Desc) : Nat :=
  if d.state = 1 then (if (kget s.slides a).isSome then 1 else 4)
  else if d.state = 3 then (if (kget s.raux a).isSome then 3 else 4)
  else if d.state = 0 || d.state = 2 then d.state else 4

/-- Read forward to the descriptor that holds `va` (R288). -/
def findDesc (s : State) (arr va : Nat) : Nat → Nat → Option (Nat × Desc)
  | 0, _ => none
  | n + 1, i =>
    let a := arr + 64 * i
    let d := s.desc a
    if va < d.vbase then none
    else if va < d.vbase + d.length then some (a, d)
    else findDesc s arr va n (i + 1)

/-- A root entry (R288). -/
structure Root where
  desc : Nat
  count : Nat
  valid : Bool
  index : Nat
  deriving DecidableEq, Repr

def State.rootAddr (s : State) (iod asid : Nat) : Nat := (mget 0 s.asidtb iod).toNat + 32 * asid

def State.root (s : State) (iod asid : Nat) : Root :=
  let a := s.rootAddr iod asid
  ⟨s.phys a 8, s.phys (a + 8) 4, s.phys (a + 12) 4 % 2 = 1, s.phys (a + 16) 8⟩

/-- The walk through the two-level index (R288). It reads as many descriptors as count says, be they more than 65,536 (log entry 111). -/
def walk (s : State) (iod asid va : Nat) : Option (Nat × Desc) :=
  if 2 ^ 56 ≤ va || 1024 ≤ asid then none
  else
    let r := s.root iod asid
    if !r.valid then none
    else
      let top := s.phys (r.index + 4 * (va / 2 ^ 44)) 4
      if top = 0xFFFFFFFF then none
      else
        let i := s.phys (r.index + 4 * top + 4 * (va / 2 ^ 32 % 4096)) 4
        if i = 0xFFFFFFFF then none else findDesc s r.desc va (r.count - i) i

/-- Translation at a core: a range lookaside entry serves in place of the walk (R292). -/
def translate (s : State) (core asid va : Nat) : Option (Nat × Desc) :=
  match (s.core core).rlb.find? fun e => e.asid = asid && decide (e.vbase ≤ va) && decide (va < e.vbase + e.length) with
  | some e => some (e.desc, s.desc e.desc)
  | none => walk s (iodOf core) asid va

/-! ## Places -/

/-- The 2 KiB slot of a packed block: bytes below `cut` from `lo` on, the others from `hi` on; the two differ where the seam of a
slide runs through the block (R297). -/
structure PSlot where
  lo : Nat
  hi : Nat
  cut : Nat
  deriving DecidableEq, Repr

def PSlot.whole (a : Nat) : PSlot := ⟨a, a, 2048⟩

/-- Where the bytes of an access are. -/
inductive Place where
  | mem (pa : Nat)
  | host (bus port : Nat)
  | peer (node window off eng : Nat)
  | packed (slot : PSlot) (off bmap block : Nat)
  deriving DecidableEq, Repr

def hbmLimit : Nat := 0x12A05F20000

/-! An HBM address lies by its 4 KiB granule (R287); the home base die is that of the stack. -/

def hbmGranule (pa : Nat) : Nat := pa % 2 ^ 48 / 4096
def hbmStack (pa : Nat) : Nat := (hbmGranule pa % 16) ^^^ (hbmGranule pa / 16 % 16)
def stackGranule (pa : Nat) : Nat := hbmGranule pa / 16
def hbmChannel (pa : Nat) : Nat := pa / 64 % 32
def hbmPseudo (pa : Nat) : Nat := pa / 2048 % 2
def homeDie (pa : Nat) : Nat := hbmStack pa

/-- The place of `n` bytes at a physical address, for an access of `asid` (R286, spec/20 R357, R359, R368). -/
def physPlace (s : State) (asid pa n : Nat) : Except MErr Place :=
  let off := pa % 2 ^ 48
  match pa / 2 ^ 48 with
  | 0 => if off + n ≤ hbmLimit then .ok (.mem pa) else .error (.trap 0x07)
  | 1 =>
    match capPort s pa with
    | some (p, da) => if da + n ≤ Config.cxlCapacity p then .ok (.mem pa) else .error (.trap 0x07)
    | none => .error (.trap 0x07)
  | 2 =>
    let w := s.hostWin (off / 2 ^ 40)
    let o := off % 2 ^ 40
    if !w.valid || w.hsize < o + n then .error (.trap 0x07)
    else if w.tenant ≠ s.tenantOf asid then .error (.trap 0x08)
    else .ok (.host (w.hbase + o) w.port)
  | 3 =>
    let e := (mget 0 s.peerWins (off / 2 ^ 41)).toNat
    if e / 2 ^ 63 = 0 then .error (.trap 0x07)
    else if e / 2 ^ 32 % 64 ≠ s.tenantOf asid then .error (.trap 0x08)
    else .ok (.peer (e % 1024) (e / 2 ^ 16 % 4096) (off % 2 ^ 41) (off / 2 ^ 41 % 16))
  | _ => .error (.trap 0x07)

/-- Whether the range's type is that of its physical base (R286). -/
def regionOk (d : Desc) (pa : Nat) : Bool :=
  pa / 2 ^ 48 = (if d.type = 0 then 0 else if d.type = 3 then 1 else if d.type = 2 then 2 else 3)

/-- Physical base and offset of an access at range offset `x`: residency, seam and half (R297, R300, R303, R304). -/
def basePlace (s : State) (a : Nat) (d : Desc) (writes : Bool) (x : Nat) : Except MErr Nat :=
  match s.rstate a d with
  | 0 => if d.pair && ((s.aux a).half != writes) then .ok d.pbase2 else .ok d.pbase
  | 1 => .ok (if (if d.up then d.seam + d.chunk ≤ x else x < d.seam) then d.pbase2 else d.pbase)
  | 2 => if d.auto then .error (.start a) else .error (.trap 0x07)
  | 3 =>
    let c := x / 65536
    let p := mget 0 (s.aux a).pres c
    if p = 1 then .ok d.pbase else if p = 2 then .error (.trap 0x07) else .error (.chunk a c)
  | _ => .error (.trap 0x07)

/-- The slot of the block at range offset `b`, whose base R297 gives as `base`. -/
def slotOfBlock (s : State) (a : Nat) (d : Desc) (base b : Nat) : PSlot :=
  if s.rstate a d = 1 then
    let seam := if d.up then d.seam + d.chunk else d.seam
    ⟨(if d.up then d.pbase else d.pbase2) + b, (if d.up then d.pbase2 else d.pbase) + b,
      if seam ≤ b then 0 else if b + 2048 ≤ seam then 2048 else seam - b⟩
  else PSlot.whole (base + b)

/-- The place of `n` bytes at `va` inside the range `d` whose descriptor lies at `a`. -/
def place (s : State) (asid a : Nat) (d : Desc) (writes : Bool) (va n : Nat) : Except MErr Place :=
  let x := va - d.vbase
  match basePlace s a d writes x with
  | .error e => .error e
  | .ok base =>
    if !regionOk d base then .error (.trap 0x07)
    else if d.packed then
      match physPlace s asid (base + x / 2048 * 2048) 2048 with
      | .ok _ => .ok (.packed (slotOfBlock s a d base (x / 2048 * 2048)) (x % 2048) d.bmap (x / 2048))
      | .error e => .error e
    else physPlace s asid (base + x) n

/-! ## Access checks of R145 -/

/-- What the permission checks of R145 say of a range. Every device write to a SEEDED range traps with 0x09, and such a range never has
write permission (R302, spec/02 R36). -/
def permits (d : Desc) : AKind → Option Nat
  | .read => if d.rd then none else some 0x08
  | .fetch => if d.ex then none else some 0x08
  | .write => if d.seeded then some 0x09 else if d.wr then none else some 0x08
  | .atom hostOk =>
    if d.seeded then some 0x09
    else if !d.wr || d.pair || d.type = 3 || (d.type = 2 && !hostOk) then some 0x08 else none

/-- The checks of R145 on `n` bytes at `va`, alignment `al`; a wait for residency is reported last (R303, R304). -/
def check145 (s : State) (core asid : Nat) (k : AKind) (al va n : Nat) : Except MErr Unit :=
  if va % al ≠ 0 then .error (.trap 0x0A)
  else
    match translate s core asid va with
    | none => .error (.trap 0x07)
    | some (a, d) =>
      if d.vbase + d.length < va + n then .error (.trap 0x07)
      else
        let st := s.rstate a d
        if st = 4 || (st = 2 && !d.auto) then .error (.trap 0x07)
        else
          match permits d k with
          | some c => .error (.trap c)
          | none =>
            match place s asid a d (k = .write) va n with
            | .ok _ => .ok ()
            | .error e => .error e

/-- Rank of an outcome in the order of R145; a wait ranks after every trap. -/
def errRank : MErr → Nat
  | .trap 0x0A => 0
  | .trap 0x07 => 1
  | .trap 0x08 => 2
  | .trap 0x09 => 3
  | .trap _ => 4
  | .start _ => 5
  | .chunk _ _ => 6
  | .held => 7

/-- The deciding failure among the lanes: the lowest rank, and of it the first lane (R145). -/
def firstFailure : List (Nat × Except MErr Unit) → Option (Nat × MErr)
  | [] => none
  | (va, r) :: rest =>
    match r, firstFailure rest with
    | .ok _, t => t
    | .error e, none => some (va, e)
    | .error e, some (v, f) => if errRank e ≤ errRank f then some (va, e) else some (v, f)

/-! ## Bytes at a place -/

/-- Whether block `n` of a packed range is stored packed (R310). -/
def blockPacked (s : State) (bmap n : Nat) : Bool := s.phys (bmap + n / 8) 1 / 2 ^ (n % 8) % 2 = 1

def setBlockPacked (s : State) (bmap n : Nat) (v : Bool) : State :=
  let b := s.phys (bmap + n / 8) 1
  let b' := if blockPacked s bmap n = v then b else if v then b + 2 ^ (n % 8) else b - 2 ^ (n % 8)
  s.physStore (bmap + n / 8) (leBytes 1 b')

/-- Link and poison errors of memory bytes (R306, R315, spec/20 R359). -/
def memErr (s : State) (pa n : Nat) : Option Nat :=
  if n = 0 then none
  else if pa / 2 ^ 48 = 1 && (match capPort s pa with
    | some (p, _) => (s.cxlPort p).down
    | none => true) then some 0x0B
  else if s.poisoned pa n then some 0x0C else none

def slotErr (s : State) (t : PSlot) : Option Nat :=
  match memErr s t.lo t.cut with
  | some c => some c
  | none => memErr s (t.hi + t.cut) (2048 - t.cut)

/-- A slot as it is stored. -/
def slotBytes (s : State) (t : PSlot) : List Byte := s.bytes t.lo t.cut ++ s.bytes (t.hi + t.cut) (2048 - t.cut)

def slotStore (s : State) (t : PSlot) (bs : List Byte) : State :=
  (s.physStore t.lo (bs.take t.cut)).physStore (t.hi + t.cut) (bs.drop t.cut)

/-- The 2048 bytes of a packed range's block (R308 to R312). -/
def blockBytes (s : State) (t : PSlot) (bmap n : Nat) : Except Nat (List Byte) :=
  match slotErr s t with
  | some c => .error c
  | none =>
    if blockPacked s bmap n then
      match blockDecode (slotBytes s t) with
      | some bs => .ok bs
      | none => .error 0x0C
    else .ok (slotBytes s t)

/-- The block is malformed (R312). -/
def slotMalformed (s : State) (t : PSlot) (bmap n : Nat) : Bool :=
  (slotErr s t).isNone && blockPacked s bmap n && (blockDecode (slotBytes s t)).isNone

/-- The block of a packed range that holds the address is malformed. -/
def malformedAt (s : State) (core asid va : Nat) : Bool :=
  match translate s core asid va with
  | none => false
  | some (a, d) =>
    match place s asid a d false va 1 with
    | .ok (.packed t _ bmap n) => slotMalformed s t bmap n
    | _ => false

/-- Engines whose contexts R312 names: the copy engine of a core, that of a die's command processor, the fault unit, a network
engine. -/
def engCore (core : Nat) : Nat := core
def engDie (die : Nat) : Nat := 8192 + die
def engFault : Nat := 8448
def engNet (e : Nat) : Nat := 8449 + e

def State.contextHalted (s : State) (engine asid : Nat) : Bool := s.drained.contains (1024 * engine + asid)
def State.haltContext (s : State) (engine asid : Nat) : State :=
  if s.contextHalted engine asid then s else { s with drained := (1024 * engine + asid) :: s.drained }

/-! ### Host memory and other packages -/

/-- Remote memory's key. -/
def remKey (node window off : Nat) : Nat := 2 ^ 56 * node + 2 ^ 42 * window + off

def State.remWin (s : State) (node window : Nat) : Option RemWin := kget s.remWins (4096 * node + window)
def State.nodeNum (s : State) : Nat := s.node % 1024

/-- A receive-window entry (spec/20 R364). -/
structure RecvWin where
  base : Nat
  length : Nat
  asid : Nat
  tenant : Nat
  valid : Bool
  write : Bool
  read : Bool
  counter : Nat
  deriving DecidableEq, Repr

def State.recvWin (s : State) (w : Nat) : RecvWin :=
  let a := s.nwinbase.toNat + 32 * w
  { base := s.phys a 8, length := s.phys (a + 8) 8, asid := s.phys (a + 16) 2, tenant := s.phys (a + 18) 1
    valid := s.phys (a + 19) 1 % 2 = 1, write := s.phys (a + 19) 1 / 2 % 2 = 1, read := s.phys (a + 19) 1 / 4 % 2 = 1
    counter := s.phys (a + 20) 2 }

/-- The window admits a peer's request: loads need the read flag, stores and atomics the write flag (spec/20 R368). -/
def winAdmits (s : State) (w : RecvWin) (writes : Bool) (off n : Nat) : Bool :=
  w.valid && (if writes then w.write else w.read) && s.tenantOf w.asid = w.tenant && decide (off + n ≤ w.length)

/-- The posted write shows at a byte. -/
def Post.shows (p : Post) (iod : Nat) (remote : Bool) (a : Nat) : Bool :=
  p.iod = iod && p.remote = remote && !p.landed && decide (p.addr ≤ a) && decide (a < p.addr + p.bytes.length)

/-- Bytes at `a` as agents behind an I/O die see them: the newest posted write over what memory holds (16 R330). -/
def seen (s : State) (iod : Nat) (remote : Bool) : Nat → List Byte → List Byte
  | _, [] => []
  | a, b :: bs =>
    s.posts.foldl (fun b p => if p.shows iod remote a then p.bytes.getD (a - p.addr) 0 else b) b
      :: seen s iod remote (a + 1) bs

/-- The bytes at `va` that an access reads, where it has read some of them before the rest (14 R283, 16 R332). -/
def withTaken (ts : List Taken) (unit va : Nat) (bs : List Byte) : List Byte :=
  ts.foldl (fun bs t =>
    if t.unit = unit && decide (va ≤ t.addr) && decide (t.addr + t.bytes.length ≤ va + bs.length) then
      bs.take (t.addr - va) ++ t.bytes ++ bs.drop (t.addr - va + t.bytes.length)
    else bs) bs

/-- Write outside memory. -/
def outStore (s : State) (remote : Bool) (a : Nat) (bs : List Byte) : State :=
  if remote then { s with remMem := Memory.store s.remMem a bs } else { s with hostMem := Memory.store s.hostMem a bs }

/-- Posted writes that satisfy `f` are performed, oldest first. -/
def landPosts (s : State) (f : Post → Bool) : State :=
  s.posts.foldl (fun s p => if !p.landed && f p then outStore s p.remote p.addr p.bytes else s)
    { s with posts := s.posts.map fun p => if f p then { p with landed := true } else p }

/-- A write is performed after those posted before it to the same blocks, through either I/O die (16 R328): a reader of a posted write may
have told the writer (16 R327). -/
def outWrite (s : State) (remote : Bool) (a : Nat) (bs : List Byte) : State :=
  outStore (landPosts s fun p => p.remote = remote && decide (a / 64 ≤ p.addr / 64) && decide (p.addr / 64 ≤ (a + bs.length - 1) / 64))
    remote a bs

/-- Read at a place that is no window of this package itself, or the trap class. An atomic needs the write flag of a peer window. -/
def readLocal (s : State) (core : Nat) (p : Place) (n : Nat) (atom : Bool) : Except Nat (List Byte) :=
  match p with
  | .mem pa =>
    match memErr s pa n with
    | some c => .error c
    | none => .ok (s.bytes pa n)
  | .host bus port =>
    if (s.pciePort port).down || s.hostBad.contains (bus / 64) then .error 0x0B
    else .ok (seen s (iodOf core) false bus (Memory.bytes s.hostMem bus n))
  | .peer node w off eng =>
    match s.remWin node w with
    | some r =>
      if (if atom then r.write else r.read) && decide (off + n ≤ r.length) && !(s.eng eng).deaf then
        .ok (seen s (iodOf core) true (remKey node w off) (Memory.bytes s.remMem (remKey node w off) n))
      else .error 0x0B
    | none => .error 0x0B
  | .packed t off bmap block =>
    match blockBytes s t bmap block with
    | .ok bs => .ok ((bs.drop off).take n)
    | .error c => .error c

/-- Write at such a place, or the trap class. A packed block is expanded, merged and stored again (R311). -/
def writeLocal (s : State) (p : Place) (bs : List Byte) : Except Nat State :=
  match p with
  | .mem pa =>
    if pa / 2 ^ 48 = 1 && memErr s pa bs.length = some 0x0B then .error 0x0B else .ok (s.physStore pa bs)
  | .host bus port =>
    if (s.pciePort port).down || s.hostBad.contains (bus / 64) then .error 0x0B else .ok (outWrite s false bus bs)
  | .peer node w off eng =>
    match s.remWin node w with
    | some r =>
      if r.write && decide (off + bs.length ≤ r.length) && !(s.eng eng).deaf then
        .ok (outWrite s true (remKey node w off) bs)
      else .error 0x0B
    | none => .error 0x0B
  | .packed t off bmap block =>
    match blockBytes s t bmap block with
    | .error c => .error c
    | .ok old =>
      let new := old.take off ++ bs ++ old.drop (off + bs.length)
      match blockEncode new with
      | some e => .ok (setBlockPacked (slotStore s t e) bmap block true)
      | none => .ok (setBlockPacked (slotStore s t new) bmap block false)

def isPeer : Place → Bool
  | .peer .. => true
  | _ => false

/-- The I/O die's unit of an engine (spec/20 R360). -/
def engIo (e : Nat) : Nat := ioCore (if e < 8 then 0 else 1)

/-- The place behind a window of this package itself, which an entry naming the own node reaches (spec/20 R368); none is a refusal. A
window over a PEER range, or a chunk that is absent, refuses (log entry 40). -/
def ownPlace (s : State) (w off n eng : Nat) (k : AKind) : Option Place :=
  let r := s.recvWin w
  let writes : Bool := k ≠ .read
  if !winAdmits s r writes off n || (s.eng eng).deaf then none
  else
    match translate s (engIo eng) r.asid (r.base + off) with
    | none => none
    | some (a, d) =>
      if (permits d k).isSome || d.vbase + d.length < r.base + off + n then none
      else
        match place s r.asid a d writes (r.base + off) n with
        | .ok p => if isPeer p then none else some p
        | .error _ => none

/-- Read at a place, or the trap class. -/
def readPlace (s : State) (core : Nat) (p : Place) (n : Nat) (atom : Bool) : Except Nat (List Byte) :=
  match p with
  | .peer node w off eng =>
    if node = s.nodeNum then
      match ownPlace s w off n eng (if atom then .atom true else .read) with
      | some q => (readLocal s (engIo eng) q n atom).mapError fun _ => 0x0B
      | none => .error 0x0B
    else readLocal s core p n atom
  | p => readLocal s core p n atom

/-- Write at a place, or the trap class. -/
def writePlace (s : State) (p : Place) (bs : List Byte) : Except Nat State :=
  match p with
  | .peer node w off eng =>
    if node = s.nodeNum then
      match ownPlace s w off bs.length eng .write with
      | some q => (writeLocal s q bs).mapError fun _ => 0x0B
      | none => .error 0x0B
    else writeLocal s p bs
  | p => writeLocal s p bs

/-- Where a physical address that a command of the range unit holds lies: a window is taken as its entry stands, of whatever tenant
(R286; log entry 116). -/
def unitPlace (s : State) (pa n : Nat) : Option Place :=
  let off := pa % 2 ^ 48
  match pa / 2 ^ 48 with
  | 2 =>
    let w := s.hostWin (off / 2 ^ 40)
    if w.valid && decide (off % 2 ^ 40 + n ≤ w.hsize) then some (.host (w.hbase + off % 2 ^ 40) w.port) else none
  | 3 =>
    let e := (mget 0 s.peerWins (off / 2 ^ 41)).toNat
    if e / 2 ^ 63 = 0 then none else some (.peer (e % 1024) (e / 2 ^ 16 % 4096) (off % 2 ^ 41) (off / 2 ^ 41 % 16))
  | _ => some (.mem pa)

/-- The range unit writes at a physical address; a write that a window or its link refuses is lost. -/
def State.unitWrite (s : State) (pa : Nat) (bs : List Byte) : State :=
  match unitPlace s pa bs.length with
  | none => s
  | some (.mem a) => s.physStore a bs
  | some p => (writePlace s p bs).toOption.getD s

/-- The range unit reads at a physical address, or is refused. -/
def State.unitRead (s : State) (pa n : Nat) : Option (List Byte) :=
  match unitPlace s pa n with
  | none => none
  | some (.mem a) => some (s.bytes a n)
  | some p => (readPlace s (ioCore 0) p n false).toOption

/-- The old entry under which an access of operation `n` was translated, where a shootdown of its range is still under way
(R291). -/
def oldEntry (s : State) (asid n va : Nat) : Option (Nat × Desc) :=
  s.shoots.findSome? fun e =>
    if e.2.asid = asid && decide (n < e.2.mark) then
      e.2.old.find? fun d => decide (d.2.vbase ≤ va) && decide (va < d.2.vbase + d.2.length)
    else none

/-- Translation for an access of operation `n`. -/
def translateFor (s : State) (core asid n va : Nat) : Option (Nat × Desc) :=
  match oldEntry s asid n va with
  | some e => some e
  | none => translate s core asid va

/-- `n` bytes at `va` of a range, read as it stands at this moment. -/
def readIn (s : State) (core asid va n : Nat) (atom : Bool) : Option (Nat × Desc) → Except MErr (List Byte)
  | none => .error (.trap 0x07)
  | some (a, d) =>
    match place s asid a d false va n with
    | .error e => .error e
    | .ok p => (readPlace s core p n atom).mapError .trap

/-- A write at `va` of a range. -/
def writeIn (s : State) (asid va : Nat) (bs : List Byte) : Option (Nat × Desc) → Except MErr State
  | none => .error (.trap 0x07)
  | some (a, d) =>
    match place s asid a d true va bs.length with
    | .error e => .error e
    | .ok p => (writePlace s p bs).mapError .trap

/-- `n` bytes at `va` in one 64-byte block. -/
def readUnit (s : State) (core asid va n : Nat) : Except MErr (List Byte) :=
  readIn s core asid va n false (translate s core asid va)

/-- The read of an atomic. -/
def atomUnit (s : State) (core asid va n : Nat) : Except MErr (List Byte) :=
  readIn s core asid va n true (translate s core asid va)

/-- A write inside one 64-byte block. -/
def writeUnit (s : State) (core asid va : Nat) (bs : List Byte) : Except MErr State :=
  writeIn s asid va bs (translate s core asid va)

/-- An error with the address it is of. -/
structure AErr where
  err : MErr
  va : Nat
  deriving DecidableEq, Repr

/-- `n` bytes at `va`, cut at 64-byte boundaries; `fuel` bounds the pieces. -/
def readVa (s : State) (core asid : Nat) : Nat → Nat → Nat → Except AErr (List Byte)
  | 0, _, _ => .ok []
  | fuel + 1, va, n =>
    if n = 0 then .ok []
    else
      let k := if n < 64 - va % 64 then n else 64 - va % 64
      match readUnit s core asid va k with
      | .error e => .error ⟨e, va⟩
      | .ok bs =>
        match readVa s core asid fuel (va + k) (n - k) with
        | .ok r => .ok (bs ++ r)
        | .error e => .error e

/-- Write bytes at `va`, cut at 64-byte boundaries: what was written before an error stays written. -/
def writeVa (s : State) (core asid : Nat) : Nat → Nat → List Byte → State × Option AErr
  | 0, _, _ => (s, none)
  | fuel + 1, va, bs =>
    if bs.isEmpty then (s, none)
    else
      let k := 64 - va % 64
      match writeUnit s core asid va (bs.take k) with
      | .error e => (s, some ⟨e, va⟩)
      | .ok s' => writeVa s' core asid fuel (va + (bs.take k).length) (bs.drop k)

def vread (s : State) (core asid va n : Nat) : Except AErr (List Byte) := readVa s core asid (n / 64 + 2) va n
def vwrite (s : State) (core asid va : Nat) (bs : List Byte) : State × Option AErr :=
  writeVa s core asid (bs.length / 64 + 2) va bs

/-- R145 on a span of bytes that must stay in one range, as the checks of copies, lists and records are (R292). What a host or a peer window
refuses (20 R357, R368) is left to the engine, which finds it as its fault (log entry 119). -/
def checkSpan (s : State) (core asid : Nat) (k : AKind) (va n : Nat) : Except MErr Unit :=
  if n = 0 then .ok ()
  else
    match translate s core asid va with
    | none => .error (.trap 0x07)
    | some (a, d) =>
      if d.vbase + d.length < va + n then .error (.trap 0x07)
      else
        let st := s.rstate a d
        if st = 4 || (st = 2 && !d.auto) then .error (.trap 0x07)
        else
          match permits d k with
          | some c => .error (.trap c)
          | none => if st = 2 then .error (.start a) else .ok ()

/-- R145 on `n` bytes byte by byte, across ranges: where ranges adjoin each part is judged by its own range. The first check that some
byte fails, in the order of R145, decides, and of its bytes the lowest; a wait ranks after every trap. -/
def checkBytes (s : State) (core asid : Nat) (k : AKind) : Nat → Nat → Nat → Except AErr Unit
  | 0, _, _ => .ok ()
  | fuel + 1, va, n =>
    if n = 0 then .ok ()
    else
      let m := if n < 256 - va % 256 then n else 256 - va % 256
      match checkSpan s core asid k va m, checkBytes s core asid k fuel (va + m) (n - m) with
      | .ok _, r => r
      | .error e, .ok _ => .error ⟨e, va⟩
      | .error e, .error f => if errRank e ≤ errRank f.err then .error ⟨e, va⟩ else .error f

/-- The scope at which an access that names none orders: type 3 HBM and CAP PKG, PEER POD, HOST SYS (16 R322). -/
def rangeType (s : State) (core asid va : Nat) : Nat :=
  match translate s core asid va with
  | some (_, d) => d.type
  | none => 0

/-- The same for operation `n`, which an old entry may still serve. -/
def typeFor (s : State) (core asid n va : Nat) : Nat :=
  match translateFor s core asid n va with
  | some (_, d) => d.type
  | none => 0

/-! ## Starting a migration (R303) -/

/-- Ranges that count toward the limit of 256. -/
def migrating (s : State) : Nat :=
  (s.raux.filter fun e =>
    let d := s.desc e.1
    decide (d.state = 3) && !d.stopped).length

/-- A shootdown begins. -/
def addShoot (s : State) (asid vbase length : Nat) (done : Option Nat) (old : List (Nat × Desc)) : State :=
  { s with shoots := kset s.shoots (kfresh s.shoots) ⟨asid, vbase, length, done, s.nextOp, old⟩ }

/-- A done word says why a command failed (R291). -/
def cmdFails (s : State) (done code : Nat) : State := s.unitWrite done (leBytes 8 (2 ^ 63 + code))

/-- Load-cache lines of a range are discarded with its shootdown (08 R166). -/
def dropLines (s : State) (asid vbase length : Nat) : State :=
  { s with cores := s.cores.map fun e =>
      (e.1, { e.2 with
        lines := e.2.lines.filter fun l =>
          !(l.1 / 2 ^ 50 = asid && (length = 0 || (decide (vbase < (l.1 % 2 ^ 50 + 1) * 128) && decide (l.1 % 2 ^ 50 * 128 < vbase + length))))
        rlb := e.2.rlb.filter fun r =>
          !(r.asid = asid && (length = 0 || (decide (vbase < r.vbase + r.length) && decide (r.vbase < vbase + length)))) }) }

/-- A port that `n` bytes of an image at a capacity address need is down (R306): slots of 2 KiB go round the ports. -/
def capDown (s : State) (pa n : Nat) : Bool :=
  (List.range (if n ≤ 16384 then (n + 2047) / 2048 else 8)).any fun i => match capPort s (pa + 2048 * i) with
    | some (p, _) => (s.cxlPort p).down
    | none => true

/-- A checkpoint of the tenant is running (R317). -/
def checkpointing (s : State) (t : Nat) : Bool :=
  s.dies.any fun d => d.2.queues.any fun q => q.2.pkts.any fun p => match p.2.kind with
    | .checkpoint b => (b.getD 8 0).toNat = t
    | _ => false

/-- No migration may start now: the limit of 256 is reached, or a checkpoint of the tenant runs (R303, R317). -/
def startBarred (s : State) (asid : Nat) : Bool := decide (256 ≤ migrating s) || checkpointing s (s.tenantOf asid)

/-- The affected entries are shot down; the done word follows when that has completed. -/
def shootRange (s : State) (asid : Nat) (d : Desc) (done : Option Nat) : State :=
  addShoot (dropLines s asid d.vbase d.length) asid d.vbase d.length done []

/-- A done word of a command that has waited fails. -/
def doneFails (s : State) (done : Option Nat) (code : Nat) : State :=
  match done with
  | some w => cmdFails s w code
  | none => s

/-- Start the migration of the ABSENT range at `a`, or report why not: the port is down (the range turns LOST, and a migrate command
fails), or starts are barred (the start waits). `trigger` is the chunk that asked first, `order` the parked chunks, `hints` the
hinted ones. -/
def startMigration (s : State) (asid a trigger : Nat) (order hints : List Nat) : State :=
  let d := s.desc a
  let x := s.aux a
  if d.state ≠ 2 then s
  else if capDown s d.pbase d.length then
    let s := s.putDesc a { d with state := 4 }
    let s := shootRange { s with outputs := s.outputs ++ [.report 0x100], raux := kdel s.raux a } asid d none
    doneFails s x.done 2
  else
    let y : RAux := { RAux.zero with
      trigger := if x.waiting then x.trigger else trigger, order := x.order ++ order.filter (fun c => !x.order.contains c)
      hints := x.hints ++ hints, waiting := false, done := x.done, asid := asid }
    if startBarred s asid then s.setAux a { y with waiting := true }
    else
      let s := s.putDesc a { d with state := 3, pbase := d.pbase2, pbase2 := d.pbase, ctl := d.ctl % 32 }
      shootRange (s.setAux a { y with done := none }) asid d x.done

/-- Lost chunks turn back to absent. -/
def unlose (m : List (Nat × Nat)) : List (Nat × Nat) := m.filter fun e => e.2 ≠ 2

/-- Resume the stopped migration of the range at `a` (R307), for the migrate command that its `done` names: it fails while the port is
down, and waits like a start. -/
def resumeMigration (s : State) (asid a : Nat) : State :=
  let d := s.desc a
  let x := s.aux a
  if capDown s d.pbase2 d.length then doneFails (s.setAux a { x with waiting := false, done := none }) x.done 2
  else if startBarred s asid then s.setAux a { x with waiting := true, asid := asid }
  else
    let s := s.setAux a { x with pres := unlose x.pres, waiting := false, done := none, asid := asid }
    shootRange (s.putDesc a { d with ctl := d.ctl - 32 }) asid d x.done

/-- A start or a resumption that waits begins when there is room (R303). -/
def startOne (s : State) : State :=
  match s.raux.find? fun e =>
      e.2.waiting && decide ((s.desc e.1).state = 2 || (s.desc e.1).stopped) && !checkpointing s (s.tenantOf e.2.asid) with
  | some (a, x) => if (s.desc a).state = 2 then startMigration s x.asid a x.trigger [] [] else resumeMigration s x.asid a
  | none => s

/-- Every start that may begin does. -/
def startWaiting (s : State) : State := s.raux.foldl (fun s _ => startOne s) s

/-- A wait for residency asks for its chunk: the migration starts, or the chunk joins the work order (R303, R305). -/
def askChunk (s : State) (asid va : Nat) : MErr → State
  | .start a =>
    let c := (va - (s.desc a).vbase) / 65536
    startMigration s asid a c [c] []
  | .chunk a c =>
    let x := s.aux a
    if x.order.contains c then s else s.setAux a { x with order := x.order ++ [c] }
  | .trap _ | .held => s

end Sys2Proof.Machine
end

