-- ==== Sys2Proof/WellFormed.lean ====
section
/-! DEFINITION. What R11, R23 and the cards make illegal from the word's own fields, beyond the single fields the decoder
checks (spec/01_instruction_words.md R11, R16, R23, R29): an instruction that fails is illegal by encoding, and the step takes
the illegal-instruction trap at its word. -/
namespace Sys2Proof

/-- A vector span of `k` registers from `n` lies in v0 to v247 (R11). -/
def vSpanOk (n : Fin 248) (k : Nat) : Bool := n.val + k ≤ 248

/-- A uniform span of `k` registers from `n` lies in s0 to s191 (R11). -/
def uSpanOk (n : Fin 192) (k : Nat) : Bool := n.val + k ≤ 192

/-- A uniform operand that is a pair (R11, R207). -/
def uPairOk : UReg → Bool
  | .reg n => uSpanOk n 2
  | .zero => false

/-- Barrier indices by scope (R209). -/
def barIndices : Scope → Nat
  | .group => 4
  | .core => 16
  | .quad => 8
  | .die => 16
  | .pkg => 16
  | .pod => 4

/-- Target codes of CVT (R132). -/
def cvtCode (c : Nat) : Bool := c ≤ 5 || (8 ≤ c && c ≤ 10) || (12 ≤ c && c ≤ 15)

/-- Codes of QNT targets and DQNT sources (R133, R134). -/
def qntCode (c : Nat) : Bool := 12 ≤ c && c ≤ 16

/-- Legal by encoding (R29). -/
def wellFormed : Instr → Bool
  | .mode d imm => d = 0 || (d = 1 && imm.toNat < 16)
  | .cvt _ _ t => cvtCode t.toNat
  | .qnt _ _ t | .dqnt _ _ t => qntCode t.toNat
  | .ballot d _ => uSpanOk d 2 && d.val % 2 = 0
  | .ldD d _ _ _ | .ldgD d _ _ _ | .stD d _ _ _ | .stsD d _ _ _ | .atomCas d _ _ _ => vSpanOk d 2
  | .ldQ d _ _ _ | .stQ d _ _ _ => vSpanOk d 4
  | .ldu _ a _ | .stu _ a _ | .rpref a _ | .copy _ a _ | .copyg _ a _ | .copyo a _ _ | .copyw _ a _
  | .publish a | .launch a | .launcht _ a | .clock a | .acst a _ _ => uSpanOk a 2
  | .waitm _ wide a b => uSpanOk a 2 && (!wide || uPairOk b)
  | .acalloc _ n => 1 ≤ n.toNat && n.toNat ≤ 16
  | .acfree d n => 1 ≤ n.toNat && d.val + n.toNat ≤ 16
  | .mma _ a _ | .mmap _ a _ | .mmaq _ a _ | .mmaw _ a _ => vSpanOk a 2
  | .seek _ a _ => vSpanOk a 4
  | .bar d s | .bara d s | .barw d s => d.toNat < barIndices s
  | .monset _ a | .monref _ a => uSpanOk a 6
  | .monrd d _ _ => uSpanOk d 7
  | .npost _ a => uSpanOk a 3
  | _ => true

end Sys2Proof
end

