-- ==== Sys2Proof/Machine/Ops.lean ====
section
/-! DEFINITION. The named operations over registers, paths, regions and operations in flight, and taking a trap: every meaning
is written over these. -/
namespace Sys2Proof.Machine

/-! ## Masks -/

def bit (m : Mask) (l : Nat) : Bool := m.toNat / 2 ^ l % 2 = 1
def allLanes : Mask := BitVec.allOnes 64
/-- Lanes 0 to `n - 1`. -/
def lanesBelow (n : Nat) : Mask := BitVec.ofNat 64 (2 ^ n - 1)
/-- The mask of the lanes for which `f` holds. -/
def maskOf (f : Nat → Bool) : Mask := BitVec.ofNat 64 (((List.range 64).map fun l => if f l then 2 ^ l else 0).sum)
/-- The lanes of a mask, ascending. -/
def lanesOf (m : Mask) : List Nat := (List.range 64).filter (bit m)
/-- The four lanes of slice `c`. -/
def sliceMask (c : Nat) : Mask := BitVec.ofNat 64 (15 * 16 ^ c)
/-- The slices that hold a lane of the mask (R78). -/
def slicesOf (m : Mask) : List Nat := (List.range 16).filter fun c => m &&& sliceMask c ≠ 0
def sliceSet (m : Mask) : BitVec 16 := BitVec.ofNat 16 (((slicesOf m).map fun c => 2 ^ c).sum)
/-- The lanes of a set of slices. -/
def lanesOfSlices (b : BitVec 16) : Mask := maskOf fun l => b.toNat / 2 ^ (l / 4) % 2 = 1
/-- The number of a path: its lowest slice (08 R187). -/
def pathNumber (m : Mask) : Nat := (slicesOf m).headD 0

/-! ## Registers -/

/-- The unread field of the mode register (R12). -/
def modeField (m : Word) (lo n : Nat) : Nat := m.toNat / 2 ^ lo % 2 ^ n
def modeGuard (m : Word) : Nat := modeField m 0 3
def modeGinv (m : Word) : Bool := modeField m 3 1 = 1
def modeType (m : Word) : Nat := modeField m 4 5
def modeRound (m : Word) : Nat := modeField m 9 3
def modeSat (m : Word) : Bool := modeField m 12 1 = 1
def modeFill (m : Word) : Nat := modeField m 13 2
def modeFlush (m : Word) : Bool := modeField m 15 1 = 1
def modeSigen (m : Word) : Bool := modeField m 16 1 = 1
def modeIdemen (m : Word) : Bool := modeField m 17 1 = 1
def modeNov (m : Word) : Nat := modeField m 18 2

/-- What rounding consults, where no consulted code is reserved. -/
def numMode (m : Word) : NumMode :=
  ⟨(rndOfCode (modeRound m)).getD .rne, modeFlush m, modeNov m = 1, modeSat m⟩

/-- A uniform register; 255 reads zero (R10). -/
def Group.u (g : Group) (n : Nat) : Word := mget 0 g.uni n
def Group.us (g : Group) : UReg → Word
  | .reg n => g.u n.val
  | .zero => 0
/-- A pair as a 64-bit number, low word first (R11). -/
def Group.upair (g : Group) (n : Nat) : Nat := (g.u n).toNat + 2 ^ 32 * (g.u (n + 1)).toNat
def Group.setU (g : Group) (n : Nat) (v : Word) : Group := { g with uni := mset 0 g.uni n v }
/-- A uniform write; 255 discards it (R10). -/
def Group.setUs (g : Group) (d : UReg) (v : Word) : Group :=
  match d with
  | .reg n => g.setU n.val v
  | .zero => g

/-- A predicate; p0 reads true in every lane (R10, R74). -/
def Group.pred (g : Group) (n : Nat) : Mask := if n = 0 then allLanes else mget 0 g.preds n
/-- A predicate write in the lanes of `m`; p0 discards it. -/
def Group.setPred (g : Group) (n : Nat) (m v : Mask) : Group :=
  if n = 0 then g else { g with preds := mset 0 g.preds n ((g.pred n &&& ~~~m) ||| (v &&& m)) }

/-- Byte address of vN and of tK in the register space (R69, R70). -/
def Group.vaddr (g : Group) (n : Nat) : Nat := g.views.vvbase.toNat + 256 * n
def Group.taddr (g : Group) (k : Nat) : Nat := g.views.tvbase.toNat + k * g.views.tvstride.toNat

/-- The 64 words at a byte address of the register space. -/
def Group.row (g : Group) (a : Nat) : List Word := mgetList 0 g.regs (a / 4) 64
def Group.v (g : Group) (n : Nat) : List Word := g.row (g.vaddr n)

/-- Write the words of the lanes in `m` from lane `l` on, at word index `w`. -/
def writeLanes (m : Mask) : Nat → Nat → List Word → List (Nat × Word) → List (Nat × Word)
  | _, _, [], r => r
  | l, w, v :: vs, r => writeLanes m (l + 1) (w + 1) vs (if bit m l then mset 0 r w v else r)

/-- Register words that a write reaches lose their poison. -/
def cleanWords (p : List Nat) (m : Mask) (w : Nat) : List Nat :=
  p.filter fun x => !(decide (w ≤ x) && decide (x < w + 64) && bit m (x - w))

def Group.setRow (g : Group) (a : Nat) (m : Mask) (vs : List Word) : Group :=
  { g with regs := writeLanes m 0 (a / 4) vs g.regs, regPoison := cleanWords g.regPoison m (a / 4) }

/-- A vector write in the lanes of `m`; 255 discards it (R10). -/
def Group.setV (g : Group) (d : VReg) (m : Mask) (vs : List Word) : Group :=
  match d with
  | .reg n => g.setRow (g.vaddr n.val) m vs
  | .zero => g

def Group.setFlag (g : Group) (k : Nat) (b : Bool) : Group := if b then { g with flags := g.flags ||| BitVec.ofNat 32 (2 ^ k) } else g
def flagSat : Nat := 0
def flagOx : Nat := 1
def flagUf : Nat := 2

/-- Bytes of the register space. -/
def regByte (g : Group) (a : Nat) : Byte := ((mget 0 g.regs (a / 4)).extractLsb' (8 * (a % 4)) 8)
def regBytes (g : Group) (a n : Nat) : List Byte := (mgetList 0 g.regs (a / 4) ((a % 4 + n + 3) / 4)).flatMap (fun w => leBytes 4 w.toNat) |>.drop (a % 4) |>.take n

def setRegWords (r : List (Nat × Word)) : Nat → List Nat → List (Nat × Word)
  | _, [] => r
  | w, v :: vs => setRegWords (mset 0 r w (BitVec.ofNat 32 v)) (w + 1) vs

/-- Write bytes to the register space at a word-aligned address, whole words. -/
def Group.setBytes (g : Group) (a : Nat) (bs : List Byte) : Group :=
  { g with regs := setRegWords g.regs (a / 4) (leWords (bs.length / 4) bs)
           regPoison := g.regPoison.filter fun x => !(decide (a / 4 ≤ x) && decide (x < (a + bs.length) / 4)) }

/-! ## Paths -/

def State.group (s : State) (g : Nat) : Option Group := kget s.groups g
def Group.path (g : Group) (p : Nat) : Option Path := kget g.paths p
def Group.setPath (g : Group) (n : Nat) (p : Path) : Group := { g with paths := kset g.paths n p }

/-- The launched lanes that have not exited. -/
def Group.present (g : Group) : Mask := lanesBelow g.lanes &&& ~~~ g.exited

/-- The lanes of the path, launched and not exited (R7). -/
def pathLanes (g : Group) (p : Path) : Mask := p.mask &&& g.present

/-- The lanes the guard admits (R15). -/
def guardMask (g : Group) : Mask := if modeGinv g.mode then ~~~ g.pred (modeGuard g.mode) else g.pred (modeGuard g.mode)

/-- The active lanes of a guarded instruction (R7, R15). -/
def active (g : Group) (p : Path) : Mask := pathLanes g p &&& guardMask g

/-- An incomplete parting entry. -/
def entryOpen (e : Entry) : Bool := e.parting && !e.complete

/-- The stack holds an incomplete parting entry (R80). -/
def Group.parted (g : Group) : Bool := g.stack.any entryOpen || g.spillOpen.any id

/-- Converged under R80. -/
def Group.converged (g : Group) : Bool := !g.parted && g.paths.length = 1 && g.lanes = 64 && g.exited = 0
    && (g.paths.all fun e => e.2.mask = allLanes)

def Group.sigOf (g : Group) (c : Nat) : Word := mget 0 g.sig c
def setSigs (g : Group) (m : Mask) (f : Word → Word) : Group :=
  { g with sig := (slicesOf m).foldl (fun acc c => mset 0 acc c (f (mget 0 acc c))) g.sig }

/-- The live entries of a return stack, newest first (R115). -/
def Ret.live (r : Ret) : List Addr := (r.slots.take r.depth).reverse
/-- A push: above the live entries older ones may remain. -/
def Ret.push (r : Ret) (a : Addr) : Ret := ⟨r.depth + 1, r.slots.take r.depth ++ a :: r.slots.drop (r.depth + 1)⟩
def Ret.pop (r : Ret) : Ret := { r with depth := r.live.length - 1 }

def Group.retStack (g : Group) (c : Nat) : Ret := (kget g.ret c).getD retEmpty
def Group.retOf (g : Group) (c : Nat) : List Addr := (g.retStack c).live
/-- Change the return stacks of some slices. -/
def Group.mapRet (g : Group) (cs : List Nat) (f : Ret → Ret) : Group :=
  { g with ret := cs.foldl (fun r c => kset r c (f (g.retStack c))) g.ret }

/-! ## Plans: what an instruction names, checked before it acts -/

/-- What an instruction consults and names: `illegal` a mode code or a rule of the card from the mode (R14), `parted` and
`converge` the checks of the third class of R21, `regs` and `tiles` the spans of the fourth, `touch` the register-space
blocks it touches and `wtouch` those it writes (R163, R223), `reads` and `writes` the register words of R90 by block, `hist` the
addresses that enter the latch history (R162), `treads` the register words that an engine reads for it later, `range` a lane whose
address, itself sound, fails the range check of 04 R73. -/
structure Plan where
  illegal : Bool
  parted : Bool
  converge : Bool
  regs : List (Nat × Nat)
  tiles : List Nat
  touch : List Nat
  wtouch : List Nat
  reads : List (Nat × Mask)
  writes : List (Nat × Mask)
  hist : List Nat
  treads : List (Nat × Mask)
  range : Bool
  deriving DecidableEq, Repr

def Plan.none : Plan := ⟨false, false, false, [], [], [], [], [], [], [], [], false⟩

def Plan.and (a b : Plan) : Plan :=
  ⟨a.illegal || b.illegal, a.parted || b.parted, a.converge || b.converge, a.regs ++ b.regs, a.tiles ++ b.tiles,
    a.touch ++ b.touch, a.wtouch ++ b.wtouch, a.reads ++ b.reads, a.writes ++ b.writes, a.hist ++ b.hist,
    a.treads ++ b.treads, a.range || b.range⟩

def Plan.all : List Plan → Plan
  | [] => Plan.none
  | p :: ps => p.and (Plan.all ps)

/-- Blocks of the idempotence masks: register space by 256 bytes, then uniforms, predicates and the accumulator view. -/
def uniBlock (n : Nat) : Nat × Mask := (0x1000 + n / 64, BitVec.ofNat 64 (2 ^ (n % 64)))
def predBlock (n : Nat) : Nat := 0x2000 + n
def avBlock (bank off : Nat) : Nat × Mask := (0x4000 + 128 * bank + off / 256, BitVec.ofNat 64 (2 ^ (off / 4 % 64)))

def Group.vblock (g : Group) (n : Nat) : Nat := g.vaddr n / 256

/-- A latch entry is fresh: read by one of the two instructions before, in the current region (R162). -/
def latchFresh (p : Path) (e : Latch) : Bool := decide (p.icount ≤ e.at_ + 2) && decide (p.regionAt ≤ e.at_)

def planSrc (g : Group) (p : Path) (m : Mask) : VSrc → Plan
  | .reg n => { Plan.none with
      regs := [(n.val, 1)], touch := [g.vblock n.val], reads := [(g.vblock n.val, m)], hist := [g.vaddr n.val] }
  | .latch k =>
    match p.latch[k.val]? with
    | some e => { Plan.none with touch := if latchFresh p e then [] else [e.base / 256], reads := [(e.base / 256, m)] }
    | none => Plan.none
  | .lane | .zero => Plan.none

/-- A read of `k` consecutive vector registers. -/
def planSpan (g : Group) (m : Mask) (n k : Nat) : Plan :=
  { Plan.none with
      regs := [(n, k)], touch := (List.range k).map (g.vblock n + ·),
      reads := (List.range k).map (fun i => (g.vblock n + i, m)), hist := (List.range k).map (fun i => g.vaddr (n + i)) }

/-- A write of `k` consecutive vector registers. -/
def planDstN (g : Group) (m : Mask) (n k : Nat) : Plan :=
  { Plan.none with
      regs := [(n, k)], wtouch := (List.range k).map (g.vblock n + ·),
      writes := (List.range k).map (fun i => (g.vblock n + i, m)) }

def planDst (g : Group) (m : Mask) : VReg → Plan
  | .reg n => planDstN g m n.val 1
  | .zero => Plan.none

/-- A destination that is read first (R95). -/
def planRW (g : Group) (m : Mask) : VReg → Plan
  | .reg n => (planSpan g m n.val 1).and (planDstN g m n.val 1)
  | .zero => Plan.none

def planU : UReg → Plan
  | .reg n => { Plan.none with reads := [uniBlock n.val] }
  | .zero => Plan.none

def planUspan (n k : Nat) : Plan := { Plan.none with reads := (List.range k).map fun i => uniBlock (n + i) }

/-- A uniform destination: parted-uniform while parted, even for 255 (R80). -/
def planUdst : UReg → Plan
  | .reg n => { Plan.none with parted := true, writes := [uniBlock n.val] }
  | .zero => { Plan.none with parted := true }

def planUdstSpan (n k : Nat) : Plan :=
  { Plan.none with parted := true, writes := (List.range k).map fun i => uniBlock (n + i) }

def planPred (m : Mask) (n : Nat) : Plan := if n = 0 then Plan.none else { Plan.none with reads := [(predBlock n, m)] }
def planPdst (m : Mask) (n : Nat) : Plan := if n = 0 then Plan.none else { Plan.none with writes := [(predBlock n, m)] }

/-- The guard is a predicate source (R15, R89). -/
def planGuard (g : Group) (p : Path) : Plan := planPred (pathLanes g p) (modeGuard g.mode)

def planIllegal (b : Bool) : Plan := { Plan.none with illegal := b }

/-- The words of a vector source (R10, R162). -/
def srcVals (g : Group) (p : Path) : VSrc → List Word
  | .reg n => g.v n.val
  | .latch k =>
    match p.latch[k.val]? with
    | some e => if latchFresh p e then e.vals else g.row e.base
    | none => List.replicate 64 0
  | .lane => (List.range 64).map (BitVec.ofNat 32)
  | .zero => List.replicate 64 0

def dsrc : VReg → VSrc
  | .reg n => .reg n
  | .zero => .zero

/-! ## Operations in flight -/

/-- The 256-byte blocks an operation will write (R163). -/
def opPending (o : Op) : List Nat :=
  match o.kind with
  | .load _ _ _ size _ (some d) => (List.range ((size + 3) / 4)).map (d / 256 + ·)
  | .atom _ _ _ _ _ (some d) _ _ => [d / 256]
  | .spld _ _ (some d) | .sprd _ _ (some d) _ => [d / 256]
  | .mat (.acld _ d _ _) | .mat (.seedx d _ _ _) | .mat (.ttrans d _ _) => (List.range 16).map (d / 256 + ·)
  | _ => []

/-- The register-space blocks that a queued matrix operation reads and has yet to fetch on its core (R223, 10 R233, R240). -/
def opHolds (core : Nat) (o : Op) : List Nat :=
  if o.todo = 0 then [] else
  match o.kind with
  | .mat (.mma form _ lo hi fmt v _ _) =>
    operandBlocks v lo (fmtA fmt) ++ (if suppliesB form core && !formHandle form then operandBlocks v hi (fmtB fmt) else [])
  | .mat (.seedx _ a w _) => (spanReads a (seedSpans w)).map (·.1)
  | .mat (.ttrans _ a _) => (spanReads a fullSpans).map (·.1)
  | _ => []

def isLoad (o : Op) : Bool :=
  match o.kind with
  | .load .. | .spld .. | .sprd .. => true
  | .atom _ _ _ _ _ _ _ _ => o.todo ≠ 0
  | _ => false

/-- Stores with their writes outstanding; an atomic counts until every lane is performed. -/
def isStore (o : Op) : Bool :=
  match o.kind with
  | .store .. | .spst .. => true
  | .atom _ _ _ _ _ _ performed _ => o.todo &&& ~~~ performed ≠ 0
  | _ => false

def isCopy (o : Op) : Bool :=
  match o.kind with
  | .copy .. | .copyg .. | .copyo .. | .copyw .. => true
  | _ => false

def isMat (o : Op) : Bool :=
  match o.kind with
  | .mat _ => true
  | _ => false

/-- The four completion counters (R123, R164). -/
def countOps (g : Group) (f : Op → Bool) : Nat := (g.ops.filter fun e => f e.2 && !e.2.dropped).length

/-- Operations that the path issued or inherited (R320). -/
def ofPath (p : Path) (o : Op) : Bool := o.mask &&& p.mask ≠ 0

def isSpst (o : Op) : Bool :=
  match o.kind with
  | .spst .. => true
  | _ => false

/-- SPSTs of the group before the path's last SPFENCE are not yet performed (R198). -/
def spfHeld (g : Group) (p : Path) : Bool := g.ops.any fun e => decide (e.1 < p.marks.spf) && isSpst e.2

/-- The drain of R179; the entry that makes an SPFENCE good also waits for the group's SPSTs before it (R169, R198). -/
def drained (g : Group) (p : Path) : Bool := (g.ops.all fun e => !ofPath p e.2) && !(!p.spfence.isEmpty && spfHeld g p)
/-- The drain of a blocked WAIT's entry: loads excepted. -/
def drainedButLoads (g : Group) (p : Path) : Bool :=
  (g.ops.all fun e => !ofPath p e.2 || (isLoad e.2 && !isStore e.2)) && !(!p.spfence.isEmpty && spfHeld g p)
/-- Every earlier access of the path is performed (R213, R371). -/
def accessesDone (g : Group) (p : Path) : Bool := g.ops.all fun e => !(ofPath p e.2 && (isLoad e.2 || isStore e.2))
def storesDone (g : Group) (p : Path) : Bool := g.ops.all fun e => !(ofPath p e.2 && isStore e.2)

def pendingHit (g : Group) (pl : Plan) : Bool :=
  g.ops.any fun e =>
    let b := opPending e.2
    let h := opHolds g.core e.2
    (!b.isEmpty && (pl.touch.any b.contains || pl.wtouch.any b.contains)) || (!h.isEmpty && pl.wtouch.any h.contains)

/-! ## Tiles and banks -/

def Core.tile (c : Core) (t : Nat) : Tile := (kget c.tiles t).getD tileEmpty
def Core.setTile (c : Core) (t : Nat) (v : Tile) : Core := { c with tiles := kset c.tiles t v }
def Core.slot (c : Core) (n : Nat) : Slot := (kget c.slots n).getD slotZero
def Core.setSlot (c : Core) (n : Nat) (v : Slot) : Core := { c with slots := kset c.slots n v }

/-- The value that the path of creation `u` sees (R172). -/
def Elem.seen (e : Elem) (u : Nat) : Acc := (kget e.work u).getD e.com

/-- The working values of the creations that satisfy `f` are committed, the newest last, or discarded. -/
def commitElem (f : Nat → Bool) (e : Elem) : Elem :=
  ⟨(e.work.filter fun w => f w.1).foldl (fun _ w => w.2) e.com, e.work.filter fun w => !f w.1⟩
def discardElem (f : Nat → Bool) (e : Elem) : Elem := ⟨e.com, e.work.filter fun w => !f w.1⟩

/-- The paths of a group, those that its handler suspends among them, by creation. -/
def liveUids (g : Group) : List Nat :=
  g.paths.map (·.2.uid) ++ match g.handler with
    | some h => h.paths.map (·.2.uid)
    | none => []

/-- Elements equal to a zero committed value are not listed. -/
def mapElems (f : Elem → Elem) (m : List (Nat × Elem)) : List (Nat × Elem) :=
  (m.map fun e => (e.1, f e.2)).filter fun e => e.2 ≠ elemZero

/-- Every bank of the group commits or discards working values (R172). -/
def banksMap (c : Core) (gid : Nat) (f : Elem → Elem) : Core :=
  { c with banks := c.banks.map fun e => if e.2.owner = gid then (e.1, { e.2 with elems := mapElems f e.2.elems }) else e }

/-! ## Barriers, as far as monitors and regions ask -/

def scopeNum (s : Scope) : Nat := s.num

def Barrier.is (b : Barrier) (sc : Scope) (idx owner domain : Nat) : Bool :=
  b.scope = sc && b.idx = idx && b.owner = owner && b.domain = domain

def Barrier.fresh (sc : Scope) (idx owner domain : Nat) : Barrier :=
  { scope := sc, idx := idx, owner := owner, domain := domain, phase := 0, arrivals := 0, parts := [], last := [], ended := 0,
    firstAt := 0, timedOut := false, drifts := [], told := [] }

def State.barrier (s : State) (sc : Scope) (idx owner domain : Nat) : Barrier :=
  (s.barriers.find? (·.is sc idx owner domain)).getD (Barrier.fresh sc idx owner domain)

def putBarrier (b : Barrier) : List Barrier → List Barrier
  | [] => [b]
  | x :: xs => if x.is b.scope b.idx b.owner b.domain then b :: xs else x :: putBarrier b xs

def State.setBarrier (s : State) (b : Barrier) : State := { s with barriers := putBarrier b s.barriers }

/-- The launch a group belongs to. -/
def State.launchOf (s : State) (g : Group) : Nat := ((kget s.cohorts g.cohort).map (·.launch)).getD 0

/-- The domain of R209 that holds a group; the DIE instances of a launch count across all its dies (13 R268). -/
def domainOf (gid : Nat) (g : Group) : Scope → Nat
  | .group => gid
  | .core => g.cohort
  | .quad => g.core / 4
  | .die | .pkg | .pod => 0

/-- At POD scope every launch of the tenant counts as one (20 R369). -/
def ownerOf (s : State) (g : Group) : Scope → Nat
  | .pod => s.tenantOf g.asid
  | _ => s.launchOf g

/-- The group has arrived in the present phase (R343). -/
def arrivedIn (b : Barrier) (gid : Nat) : Bool := kget b.last gid = some b.phase

/-! ## Monitors (18 R343) -/

/-- Commit a path's contributions to monitor `m` of its core. -/
def commitMon (s : State) (gid : Nat) (g : Group) (m : Nat) (xs : List Exact) (part : Bool) : State :=
  let c := s.core g.core
  match kget c.mons m with
  | none => s
  | some mon =>
    if mon.launch ≠ s.launchOf g then s
    else
      let b := s.barrier mon.cfg.scope mon.cfg.idx (ownerOf s g mon.cfg.scope) (domainOf gid g mon.cfg.scope)
      let mon := { mon with partial_ := mon.partial_ || part }
      let mon := if arrivedIn b gid then { mon with next := xs.foldl addTerm mon.next }
                 else { mon with open_ := xs.foldl addTerm mon.open_ }
      s.setCore g.core { c with mons := kset c.mons m mon }

def commitMons (s : State) (gid : Nat) (g : Group) (p : Path) : State :=
  (List.range 4).foldl (fun s m =>
    let xs := (kget p.contrib m).getD []
    if xs.isEmpty && !p.partials.contains m then s else commitMon s gid g m xs (p.partials.contains m)) s

/-! ## Region entries (R88, R122, R179) -/

/-- The record of an entry at `pc`. -/
def recordRegion (g : Group) (m : Mask) (pc : Addr) (idx : Half) : Region :=
  { pc := pc, regidx := idx, mask := m
    sigs := (slicesOf m).map fun c => (c, g.sigOf c)
    depths := (slicesOf m).map fun c => (c, (g.retStack c).depth)
    mode := g.mode, views := g.views, spill := g.spill, sa := g.sa, sb := g.sb }

/-- TREL takes effect: the path's released tiles become EMPTY (R196). -/
def applyTrels (s : State) (gid pid core : Nat) : State :=
  let c := s.core core
  s.setCore core { c with
    tiles := c.tiles.map fun e =>
      if e.2.relBy.contains (gid, pid) then (e.1, tileEmpty) else e }

/-- SPFENCEs take effect: of the tiles that were the group's own soft claims at them, those that still are become READY (R169, R198). -/
def applySpfence (s : State) (g : Group) (tiles : List Nat) : State :=
  let c := s.core g.core
  s.setCore g.core { c with
    tiles := c.tiles.map fun e =>
      if tiles.contains e.1 && e.2.state = .filling && e.2.soft && e.2.owner = g.grpidx then
      (e.1, { e.2 with state := .ready, soft := false }) else e }

def State.tilesOf (s : State) (g : Group) : List Nat := ((kget s.cohorts g.cohort).map (·.tiles)).getD []

/-- The working values that an entry of the path of creation `u` commits: its own, and those of paths that have ended. -/
def commits (g : Group) (u v : Nat) : Bool := v = u || !(liveUids g).contains v

/-- What a region entry makes final: working values, contributions, releases, soft fills. -/
def commitWork (s : State) (gid pid : Nat) (g : Group) (p : Path) : State :=
  let s := commitMons s gid g p
  let s := s.setCore g.core (banksMap (s.core g.core) gid (commitElem (commits g p.uid)))
  let s := if p.trel.isEmpty then s else applyTrels s gid pid g.core
  if p.spfence.isEmpty then s else applySpfence s g p.spfence

/-- The path after the entry. -/
def enteredPath (g : Group) (p : Path) (idx : Half) : Path :=
  { p with region := recordRegion g p.mask p.pc idx, entryDue := none, behind := false, idem := modeIdemen g.mode, attempts := 0, regionAt := p.icount,
           readFirst := [], written := [], contrib := [], partials := [], trel := [], spfence := [], claims := [], fills := [],
           fencedAt := p.marks.fenced }

/-- A region begins at the path's present word; the caller has seen the drain. -/
def enterRegion (s : State) (gid pid : Nat) (idx : Half) : State :=
  match s.group gid with
  | none => s
  | some g =>
    match g.path pid with
    | none => s
    | some p =>
      let s := commitWork s gid pid g p
      s.setGroup gid { (g.setPath pid (enteredPath g p idx)) with made := kdel g.made pid }

/-- The entry at the path's present word is already recorded. -/
def entered (p : Path) : Bool := p.region.pc = p.pc && p.icount = p.regionAt && p.entryDue = none

/-! ## Restart (R91, R170, R180) -/

/-- A path whose entry is due with nothing before it to repeat (R88): the restart finds it at that entry. -/
def atDue (p : Path) : Option Half := if p.behind then p.entryDue else none

/-- Undo the tile effects of a path's current region: a tile it claimed is EMPTY again, also where a sibling's SPFENCE has made it READY
since; pending releases go (R170). -/
def undoTiles (s : State) (gid pid : Nat) (g : Group) (p : Path) : State :=
  if (atDue p).isSome then s
  else
    let c := s.core g.core
    s.setCore g.core { c with
      tiles := c.tiles.map fun e =>
        if p.claims.contains e.1 && e.2.owner = g.grpidx then (e.1, tileEmpty)
        else (e.1, { e.2 with relBy := e.2.relBy.filter (· ≠ (gid, pid)) }) }

/-- No restart repeats the operation: its path has ended, or stands at a due entry behind which it lies. -/
def opOver (g : Group) (o : Op) : Bool := g.paths.all fun q => q.2.uid ≠ o.uid || (atDue q.2).isSome

/-- A path that waits in a region of its own for a load it issued or inherited (R182). -/
def waitsFor (g : Group) (o : Op) : Bool := g.paths.any fun q => q.2.waiting && entered q.2 && ofPath q.2 o

/-- Whether R180 drops an operation of a region that runs again: loads are dropped, matrix operations cancelled, SPSTs to a tile
claimed in the region discarded; stores and copies stay. An atomic stays whole: it is a commit point, never re-executed (R88),
so its result is still delivered. -/
def dropsOp (claims : List Nat) (k : OpKind) : Bool :=
  match k with
  | .mat _ | .load .. | .spld .. | .sprd .. => true
  | .spst t _ _ => claims.contains t.tile
  | _ => false

/-- The issuing path has ended. -/
def opEnded (g : Group) (o : Op) : Bool := !(liveUids g).contains o.uid

/-- An operation as a restart leaves it; none where it is gone. Loads of a path that has ended are dropped for good; an SPRD among
them stays as a response to be discarded, since an arrival may have waited for it (R180, 12 R254). -/
def keptOp (g : Group) (claims : List Nat) (o : Op) : Option Op :=
  match o.kind with
  | .load .. | .spld .. =>
    if opEnded g o then none else if opOver g o || waitsFor g o then some o else none
  | .sprd t a _ pub =>
    if opEnded g o then some { o with kind := .sprd t a none pub, dropped := true, await := if o.dropped then o.await else o.todo }
    else if opOver g o || waitsFor g o then some o else none
  | k => if opOver g o || !dropsOp claims k || (isLoad o && waitsFor g o) then some o else none

/-- The operations that a restart leaves; the loads of a blocked WAIT are issued again (R180, R182). -/
def keptOps (g : Group) : List (Nat × Op) :=
  let claims := g.paths.flatMap fun e => if (atDue e.2).isSome then [] else e.2.claims
  g.ops.filterMap fun e => (keptOp g claims e.2).map (e.1, ·)

/-- The matrix queue changes; a new head begins to wait. -/
def Core.withQueue (c : Core) (q : List (Nat × Nat)) (now : Nat) : Core :=
  { c with mq := q, headAt := if q.head? = c.mq.head? then c.headAt else now }

/-- Cancel the matrix operations of the group that are no longer in flight (R180). -/
def cancelMatrix (c : Core) (gid : Nat) (ops : List (Nat × Op)) (now : Nat) : Core :=
  let stays (r : Nat × Nat) : Bool := r.1 ≠ gid || (kget ops r.2).isSome
  { (c.withQueue (c.mq.filter stays) now) with running := c.running.filter stays }

/-- The working values that a restart discards: those of the current regions that it repeats (R91). -/
def repeats (g : Group) (v : Nat) : Bool := g.paths.any fun e => e.2.uid = v && (atDue e.2).isNone

/-- R180 on the group's unfinished work: loads dropped, matrix operations cancelled, working values discarded. -/
def dropWork (s : State) (gid : Nat) : State :=
  match s.group gid with
  | none => s
  | some g =>
    let s := s.setCore g.core (banksMap (cancelMatrix (s.core g.core) gid (keptOps g) s.now) gid (discardElem (repeats g)))
    s.setGroup gid { g with ops := keptOps g }

/-- The ordering marks of a path back at its region entry: those of a blocked WAIT stand, since its loads are still out (R182). -/
def restartedMarks (p : Path) : Marks := if p.waiting && entered p then p.marks else { Marks.zero with fenced := p.fencedAt }

/-- A path back at its region entry, with the mask recorded there (R91); one at its due entry stays there, with that entry recorded. -/
def restartedPath (g : Group) (p : Path) : Path :=
  match atDue p with
  | some idx => { p with region := recordRegion g p.mask p.pc idx, status := .run, waiting := false }
  | none =>
    { p with waiting := p.waiting && entered p, mask := p.region.mask, pc := p.region.pc, status := .run, entryDue := none, behind := false
             idem := modeIdemen p.region.mode, regionAt := p.icount, readFirst := [], written := [], contrib := [], partials := []
             trel := [], spfence := [], claims := [], fills := [], marks := restartedMarks p }

/-- Signatures and return-stack depths of the entry (R91, R122). -/
def restoreSlices (g : Group) (r : Region) : Group :=
  { g with
      sig := r.sigs.foldl (fun acc (e : Nat × Word) => mset 0 acc e.1 e.2) g.sig
      ret := r.depths.foldl (fun acc (e : Nat × Nat) => kset acc e.1 { (kget acc e.1).getD retEmpty with depth := e.2 }) g.ret }

/-- The group's registers of the entry (R122); every live path's entry records the same. -/
def restoreRegs (g : Group) (r : Region) : Group :=
  { g with mode := r.mode, views := r.views, spill := r.spill, sa := r.sa, sb := r.sb }

/-- Discard the load cache of a core. -/
def dropCache (s : State) (core : Nat) : State := s.setCore core { s.core core with lines := [] }

/-- A restart fulfils the cache discard that a wide acquiring FENCE before it has asked for (06 R147, R152); a path that keeps its marks
still owes it. -/
def discardOwed (s : State) (g : Group) : State :=
  if g.paths.any (fun e => e.2.marks.acqWide && !(restartedPath g e.2).marks.acqWide) then dropCache s g.core else s

/-- Faults of live paths are repeated with their regions; those of ended paths stay. -/
def faultsLeft (g : Group) : List PendFault :=
  g.pending.filter fun f => !((g.path f.path).any fun p => p.uid = f.uid)

/-- Every path of the group returns to its region entry (R91). -/
def returnPaths (s : State) (gid : Nat) : State :=
  match s.group gid with
  | none => s
  | some g =>
    let s := discardOwed (g.paths.foldl (fun s e => undoTiles s gid e.1 g e.2) s) g
    let ps := g.paths.map fun e => (e.1, restartedPath g e.2)
    let g' := ps.foldl (fun g e => restoreSlices g e.2.region) { g with paths := ps, pending := faultsLeft g, stopping := none }
    s.setGroup gid (match ps.head? with
      | some (_, p) => restoreRegs g' p.region
      | none => g')

/-- Every path of the group returns to its region entry; R180 acts on its unfinished work. -/
def restartGroup (s : State) (gid : Nat) : State := returnPaths (dropWork s gid) gid

/-- The group has copies in flight. -/
def copiesOut (g : Group) : Bool := g.ops.any fun e => isCopy e.2

/-- A COPYO drains a tile that the group has claimed in its current regions, made READY by an SPFENCE of a sibling path: no restart empties
the tile before that copy is over (R169, R170; log entry 91). -/
def drainsOut (s : State) (g : Group) : Bool :=
  g.paths.any fun e => (atDue e.2).isNone && e.2.claims.any fun k =>
    ((s.core g.core).tile k).owner = g.grpidx && ((s.core g.core).tile k).state = .draining

/-- A restart waits for the group's copies, and for those that drain its claims. -/
def stopHeld (s : State) (g : Group) : Bool := copiesOut g || drainsOut s g

/-- A stop of the group waits: for copies, or behind another stop. -/
def stopWaits (s : State) (g : Group) : Bool := stopHeld s g || g.stopping.isSome

/-- The group stops until the copies it waits for are over (R170, R180); a trap goes before a restart. -/
def stopFor (s : State) (gid : Nat) (st : Stop) : State :=
  match s.group gid with
  | none => s
  | some g =>
    (dropWork s gid).setGroup gid { g with
      ops := keptOps g
      stopping := match g.stopping, st with
        | some old, .restart _ => some old
        | some (.trap i p r pc w), _ => some (.trap i p r pc w)
        | _, st => some st }

/-- A restart with no charge: at once, or when the copies it waits for are over. -/
def restartSoon (s : State) (gid : Nat) : State :=
  match s.group gid with
  | none => s
  | some g => if g.stopping.isSome then s else if stopHeld s g then stopFor s gid (.restart none) else restartGroup s gid

/-- Participants other than `gid` of the pairings that hold an operation of `gid` restart too, and the pairings end
(10 R235). -/
def cancelPairings (s : State) (gid : Nat) : State :=
  let hit := s.pairings.filter fun e => e.2.any (·.1 = gid)
  let others := (hit.flatMap fun e => e.2.map (·.1)).filter (· ≠ gid)
  let s := { s with pairings := s.pairings.filter fun e => !(e.2.any (·.1 = gid)) }
  others.foldl restartSoon s

/-- The restart of R91 with its cancellations. -/
def restart (s : State) (gid : Nat) : State := restartGroup (cancelPairings s gid) gid

/-! ## Kernel and tenant descriptors -/

/-- Limits of the views (R72). -/
def vvOk (regbytes base count : Nat) : Bool := base % 256 = 0 && decide (1 ≤ count) && decide (count ≤ 248) && decide (base + 256 * count ≤ regbytes)
def tvOk (regbytes base stride count : Nat) : Bool :=
  base % 256 = 0 && stride % 256 = 0 && decide (256 ≤ stride) && decide (count ≤ 248)
    && (count = 0 || decide (base + stride * (count - 1) + 4096 ≤ regbytes))
def avOk (base : Nat) : Bool := base % 0x10000 = 0 && decide (0x100000 ≤ base) && decide (base ≤ 0xF00000)

def viewsOk (regbytes : Nat) (v : Views) : Bool :=
  vvOk regbytes v.vvbase.toNat v.vvcount.toNat && tvOk regbytes v.tvbase.toNat v.tvstride.toNat v.tvcount.toNat
    && avOk v.avbase.toNat

/-- The descriptor in 128 bytes, where it keeps the limits of R34 and R35. -/
def kdescOfBytes (b : List Byte) : Option KDesc :=
  let f (o n : Nat) := leNat ((b.drop o).take n)
  let w (o n : Nat) : Word := BitVec.ofNat 32 (f o n)
  let k : KDesc :=
    { entry := f 0 8, regbytes := f 8 4, groups := f 12 2, flags := f 14 2, scratch := f 16 4, spill := f 20 4, mode := w 24 4
      views := ⟨w 32 4, w 36 2, w 40 4, w 44 2, w 46 2, w 48 4⟩ }
  if k.regbytes % 2048 = 0 && decide (2048 ≤ k.regbytes) && decide (k.regbytes ≤ 65536) && decide (1 ≤ k.groups)
      && decide (k.groups ≤ 16) && decide (k.flags < 16) && k.scratch % 4096 = 0 && decide (k.scratch ≤ 786432)
      && k.spill % 256 = 0 && decide (k.spill ≤ 65536) && decide (k.mode.toNat < 2 ^ 20) && viewsOk k.regbytes k.views
      && decide (modeSigen k.mode = (k.flags % 2 = 1)) && decide (modeIdemen k.mode = (k.flags / 2 % 2 = 1))
      && k.entry % 4 = 0 && f 28 4 = 0 && f 38 2 = 0 && f 52 4 = 0 && ((b.drop 76).take 52).all (· = 0)
  then some k else none

/-- An installed kernel descriptor of the address space: it lies in a range the loader made read-only (R44), keeps R34 and R35,
and its entry lies in an execute range. One that cannot be read, a chunk of it being absent included, is not installed (log entry
74). -/
def kdescAt (s : State) (core asid va : Nat) : Option KDesc :=
  match translate s core asid va with
  | none => none
  | some (_, d) =>
    if !d.rd || d.wr then none
    else
      match vread s core asid va 128 with
      | .error _ => none
      | .ok b =>
        match kdescOfBytes b with
        | none => none
        | some k =>
          match translate s core asid k.entry with
          | some (_, e) => if e.ex then some k else none
          | none => none

/-- A tenant descriptor (20 R374). -/
structure Tenant where
  valid : Bool
  weight : Nat
  lcap : Nat
  hwasid : Nat
  hwsize : Nat
  hwbase : Nat
  hdesc : Nat
  tfbase : Nat
  tfcount : Nat
  evbase : Nat
  evlog : Nat
  evptr : Nat
  podroot : Nat
  podcount : Nat
  podlist : Nat
  zerosOk : Bool
  deriving DecidableEq, Repr

def State.tenantAddr (s : State) (t : Nat) : Nat := s.tenbase.toNat + 128 * t

def State.tenant (s : State) (t : Nat) : Tenant :=
  let b := s.bytes (s.tenantAddr t) 128
  let f (o n : Nat) := leNat ((b.drop o).take n)
  { valid := decide (t < 64) && f 0 1 = 1, weight := f 1 1, lcap := f 2 2, hwasid := f 4 2, hwsize := f 6 1, hwbase := f 8 8,
    hdesc := f 16 8, tfbase := f 24 8, tfcount := f 32 4, evbase := f 40 8, evlog := f 48 1, evptr := f 56 8, podroot := f 64 2,
    podcount := f 66 2, podlist := f 72 8
    zerosOk := f 7 1 = 0 && f 36 4 = 0 && f 49 7 = 0 && f 68 4 = 0 && ((b.drop 80).take 48).all (· = 0) }

/-! ## Event records (13 R271, 20 R378) -/

def sendOut (s : State) (o : Output) : State := { s with outputs := s.outputs ++ [o] }

/-- A queue, counter, window or slot passes from one tenant to another: both quotas change (20 R377, R358). -/
def quotaMoved (s : State) (old new : Nat) : State :=
  if old = new then s
  else [old, new].foldl (fun s t => if t < 64 then sendOut s (.msix (t + 1) 3) else s) s

/-- Write in the tenant's hwasid, where the ASID map gives that to the tenant (20 R376). -/
def tenantWrite (s : State) (t va : Nat) (bs : List Byte) : State :=
  let a := (s.tenant t).hwasid
  if s.tenantOf a = t then (vwrite s (ioCore 0) a va bs).1 else s

/-- Append a 32-byte record to the tenant's ring; its descriptor need not be valid (20 R375). -/
def appendEvent (s : State) (t : Nat) (rcd : List Byte) : State :=
  let d := s.tenant t
  if 64 ≤ t || d.evbase = 0 then s
  else
    let n := mget 0 s.evseq t
    let cons := (mget 0 s.evcons t).toNat
    if 2 ^ d.evlog ≤ (n + 2 ^ 32 - cons) % 2 ^ 32 then { s with evstat := mset false s.evstat t true }
    else
      let s1 := tenantWrite s t (d.evbase + 32 * (n % 2 ^ d.evlog)) rcd
      let s2 := tenantWrite s1 t d.evptr (leBytes 8 (n + 1))
      sendOut { s2 with evseq := mset 0 s2.evseq t (n + 1) } (.msix (t + 1) 0)

/-- The record of R271. -/
def eventBytes (s : State) (type code q die slot tag cohort : Nat) : List Byte :=
  leBytes 1 type ++ leBytes 1 code ++ leBytes 2 q ++ leBytes 2 die ++ leBytes 2 slot ++ leBytes 4 tag ++ leBytes 4 cohort
    ++ leBytes 8 s.now ++ zeros 8

/-- Where a launch came from, as R271 records it: queue, slot, tag. -/
def sourceFields : Source → Nat × Nat × Nat
  | .queue _ q _ slot tag => (q, slot, tag.toNat)
  | .device _ addr => (0xFFFF, 0xFFFF, addr % 2 ^ 32)

def sourceDie : Source → Nat
  | .queue d _ _ _ _ => d
  | .device d _ => d

/-- An event of a launch; its die is that of the launch's source, whichever die ran the cohort (log entry 82). -/
def launchEvent (s : State) (l : Launch) (type code cohort : Nat) : State :=
  let (q, slot, tag) := sourceFields l.source
  appendEvent s l.tenant (eventBytes s type code q (sourceDie l.source) slot tag cohort)

/-! ## Aborting a cohort (R217), handler machine check (R190) -/

/-- A group of an aborted cohort: no path runs, loads are dropped, matrix operations and working values discarded. -/
def stopGroup (s : State) (gid : Nat) : State :=
  match s.group gid with
  | none => s
  | some g =>
    let s := cancelPairings s gid
    let s := s.setCore g.core (banksMap (cancelMatrix (s.core g.core) gid [] s.now) gid (discardElem fun _ => true))
    let s := s.setCore g.core { s.core g.core with acreqs := (s.core g.core).acreqs.filter (·.gid ≠ gid) }
    let d := s.die (g.core / 256)
    let s := s.setDie (g.core / 256) { d with lwaits := d.lwaits.filter (·.gid ≠ gid) }
    s.setGroup gid { g with
      paths := [], handler := none, status := .ending true, ops := g.ops.filter (fun e => !dropsOp [] e.2.kind), pending := [], stopping := none, left := [], fenceLeft := SpFence.none }

/-- End a cohort with an aborted status; `event` is the type of its record, 0 for none of its own. -/
def abortCohort (s : State) (cid event code : Nat) : State :=
  match kget s.cohorts cid with
  | none => s
  | some c =>
    let s := { s with cohorts := kset s.cohorts cid { c with aborted := some code, event := event } }
    c.groups.foldl stopGroup s

/-- A handler machine check: the group is killed and its cohort aborted; the record of type 5 follows at the cohort's end. -/
def machineCheck (s : State) (g : Group) (cls : Nat) : State := abortCohort s g.cohort 5 cls

/-! ## The trap frame (R187) -/

/-- Slice program counters: of the path that holds the slice, else as the slice was left. -/
def slicePath (g : Group) (c : Nat) : Option (Nat × Path) := g.paths.find? fun e => e.2.mask &&& sliceMask c ≠ 0

def slicePc (g : Group) (c : Nat) : Addr :=
  match slicePath g c with
  | some (_, p) => p.pc
  | none => mget 0 g.spc c

/-- A stack entry in the form of R84. -/
def entryBytes (e : Entry) : List Byte :=
  leBytes 8 e.pre.toNat ++ leBytes 8 e.tk.toNat ++ leBytes 8 e.target.toNat
    ++ leBytes 8 (match e.join with
      | some a => a.toNat
      | none => 2 ^ 64 - 1)
    ++ leBytes 8 e.arrT.toNat ++ leBytes 8 e.arrN.toNat ++ leBytes 2 e.owed.toNat
    ++ leBytes 2 ((if e.parting then 1 else 0) + (if e.complete then 2 else 0) + (match e.side with
      | .none => 0
      | .taken => 4
      | .fall => 8)) ++ zeros 12

/-- The entry that 64 bytes of the form of R84 give. What the hardware never writes there, side code 3 and nonzero reserved bits, is read as
no side and ignored (log entry 93). -/
def entryOfBytes (b : List Byte) : Entry :=
  let f (o n : Nat) := leNat ((b.drop o).take n)
  { pre := BitVec.ofNat 64 (f 0 8), tk := BitVec.ofNat 64 (f 8 8), target := BitVec.ofNat 56 (f 16 8)
    join := if f 24 8 = 2 ^ 64 - 1 then none else some (BitVec.ofNat 56 (f 24 8))
    arrT := BitVec.ofNat 64 (f 32 8), arrN := BitVec.ofNat 64 (f 40 8), owed := BitVec.ofNat 16 (f 48 2)
    parting := f 50 2 % 2 = 1, complete := f 50 2 / 2 % 2 = 1
    side := if f 50 2 / 4 % 4 = 1 then .taken else if f 50 2 / 4 % 4 = 2 then .fall else .none }

def depthOf (g : Group) : Nat := g.stack.length + g.spilled

/-- The 8192 bytes of the frame, from the group after R180 and the trap's particulars. -/
def frameBytes (g : Group) (i : TrapInfo) (attempts pathNo : Nat) (restartable : Bool) (pc : Nat) (word : Word) : List Byte :=
  let r := (g.paths.head?.map (·.2.region)).getD (recordRegion g 0 0 0xFFFF)
  let v := r.views
  let sl (f : Nat → List Byte) := (List.range 16).flatMap f
  let preg (c : Nat) : Option Region := (slicePath g c).map (·.2.region)
  leBytes 1 i.cls ++ leBytes 1 i.cause ++ leBytes 1 attempts
    ++ leBytes 1 ((if i.daddr.isSome then 1 else 0) + (if restartable then 2 else 0))
    ++ leBytes 2 pathNo ++ leBytes 2 i.code ++ leBytes 8 pc ++ leBytes 4 word.toNat ++ zeros 4
    ++ leBytes 8 (i.daddr.getD 0) ++ leBytes 4 r.mode.toNat ++ leBytes 4 g.flags.toNat
    ++ leBytes 4 v.vvbase.toNat ++ leBytes 2 v.vvcount.toNat ++ leBytes 2 v.tvcount.toNat ++ leBytes 4 v.tvbase.toNat
    ++ leBytes 2 (v.tvstride.toNat / 256) ++ leBytes 2 (depthOf g) ++ leBytes 4 v.avbase.toNat ++ zeros 4
    ++ sl (fun c => leBytes 8 (slicePc g c).toNat)
    ++ sl (fun c => leBytes 4 (match preg c with
      | some r => ((kget r.sigs c).getD 0).toNat
      | none => (g.sigOf c).toNat))
    ++ sl (fun c => leBytes 8 ((preg c).map (·.pc.toNat) |>.getD 0))
    ++ sl (fun c => leBytes 2 ((preg c).map (·.regidx.toNat) |>.getD 0))
    ++ sl (fun c => leBytes 1 ((slicePath g c).map (·.1) |>.getD 0xFF))
    ++ sl (fun c => leBytes 1 (match preg c with
      | some r => (kget r.depths c).getD 0
      | none => (g.retStack c).depth))
    ++ sl (fun c => leBytes 8 (match g.path c with
      | some p => p.region.mask.toNat
      | none => 0))
    ++ (List.range 8).flatMap (fun n => leBytes 8 (g.pred n).toNat)
    ++ (List.range 192).flatMap (fun n => leBytes 4 (g.u n).toNat)
    ++ leBytes 8 r.spill.toNat ++ leBytes 8 r.sa.toNat ++ leBytes 8 r.sb.toNat ++ zeros 8
    ++ (i.mon ++ zeros (48 - i.mon.length)) ++ zeros 48
    ++ g.stack.reverse.flatMap entryBytes ++ zeros (64 * (32 - g.stack.length))
    ++ sl (fun c => (List.range 16).flatMap fun e => leBytes 8 ((g.retStack c).slots.getD e 0).toNat)
    ++ zeros (8192 - 0x1600)

/-! ## Taking a trap (R186, R188, 20 R375) -/

/-- The range of `n` bytes at `va` is pinned. -/
def pinned (s : State) (core asid va n : Nat) : Bool :=
  match translate s core asid va with
  | some (_, d) => d.pin && decide (va + n ≤ d.vbase + d.length)
  | none => false

/-- The handler that a trap of the group enters, where R375 admits it. -/
def handlerOf (s : State) (g : Group) : Option KDesc :=
  let t := s.tenant (s.tenantOf g.asid)
  if !t.valid then none
  else
    match kdescAt s g.core g.asid t.hdesc with
    | none => none
    | some k =>
      if k.flags / 8 % 2 = 1 && pinned s g.core g.asid (t.tfbase + 8192 * g.frame) 8192 && pinned s g.core g.asid k.entry 4
          && viewsOk g.regbytes k.views then some k else none

/-- The one path of the handler, or of a group at its entry. -/
def freshPath (uid : Nat) (m : Mask) (pc : Addr) (side : Side) (r : Region) (now : Nat) : Path :=
  { uid := uid, mask := m, mask0 := m, pc := pc, side := side, status := .run, since := now, waiting := false, region := r,
    entryDue := none, behind := false, idem := modeIdemen r.mode, attempts := 0, icount := 0, regionAt := 0, latch := [], readFirst := [], written := [], contrib := [],
    partials := [], trel := [], spfence := [], claims := [], fills := [], marks := Marks.zero, fencedAt := false }

/-- The group in its handler (R188). -/
def inHandler (g : Group) (k : KDesc) (cls frame now uid : Nat) : Group :=
  let m := lanesBelow g.lanes
  let g1 : Group :=
    { g with
        handler := some ⟨cls, g.paths, g.made, g.exited, g.pending, g.left, g.fenceLeft, g.spill.toNat + g.spillBytes⟩
        exited := 0, made := [], pending := [], left := [], fenceLeft := SpFence.none, mode := k.mode, views := k.views
        spill := g.spill + BitVec.ofNat 64 (64 * g.spilled)
        stack := [], spilled := 0, spillOpen := [], ret := [], sig := []
        uni := mset 0 (mset 0 (mset 0 g.uni 0 (BitVec.ofNat 32 frame)) 1 (BitVec.ofNat 32 (frame / 2 ^ 32))) 2 (BitVec.ofNat 32 cls) }
  { g1 with paths := [(pathNumber m, freshPath uid m (BitVec.ofNat 56 k.entry) .none (recordRegion g1 m (BitVec.ofNat 56 k.entry) 0xFFFF) now)] }

/-- The frame, the handler: a trap that finds no valid handler is a handler machine check. -/
def enterHandler (s : State) (gid : Nat) (i : TrapInfo) (pathNo : Nat) (restartable : Bool) (pc : Nat) (word : Word) : State :=
  match s.group gid with
  | none => s
  | some g =>
    let attempts := ((g.path pathNo).map (·.attempts)).getD 0
    let spcs := (List.range 16).map fun c => (c, slicePc g c)
    let s1 := restart s gid
    match s1.group gid with
    | none => s1
    | some g1 =>
      match handlerOf s1 g1 with
      | none => machineCheck s1 g1 i.cls
      | some k =>
        let t := s1.tenant (s1.tenantOf g1.asid)
        let fa := t.tfbase + 8192 * g1.frame
        -- the program counters of the frame are those at the trap
        let gf := { g1 with paths := g1.paths.map fun e => (e.1, { e.2 with pc := ((kget spcs e.1).getD e.2.pc) }) }
        match vwrite s1 g1.core g1.asid fa (frameBytes gf i attempts pathNo restartable pc word) with
        | (s2, some _) => machineCheck s2 g1 i.cls
        | (s2, none) => { (s2.setGroup gid (inHandler g1 k i.cls fa s2.now s2.nextOp)) with nextOp := s2.nextOp + 1 }

/-- Take a trap: R180 on the group's work, the frame, the handler, once the copies it waits for are over; a trap inside a handler is
a handler machine check. `pathNo` is 0xFFFF where the issuing path has ended. -/
def trapEnter (s : State) (gid : Nat) (i : TrapInfo) (pathNo : Nat) (restartable : Bool) (pc : Nat) (word : Word) : State :=
  match s.group gid with
  | none => s
  | some g =>
    if g.handler.isSome then machineCheck s g i.cls
    else if stopWaits s g then stopFor (cancelPairings s gid) gid (.trap i pathNo restartable pc word)
    else enterHandler s gid i pathNo restartable pc word

/-- The restart of a group, charged to a path (R181). -/
def restartCharged (s : State) (gid : Nat) (charge : Option Nat) : State :=
  let s := restart s gid
  match charge, s.group gid with
  | some pid, some g => s.setGroup gid { g with paths := kupd g.paths pid fun p => { p with attempts := 1 } }
  | _, _ => s

/-- What the group has stopped for, its copies over. -/
def performStop (s : State) (gid : Nat) (st : Stop) : State :=
  match st with
  | .restart charge => restartCharged s gid charge
  | .trap i p r pc w => enterHandler s gid i p r pc w

def trapOf (cls : Nat) : TrapInfo := ⟨cls, 0, 0, none, []⟩
def trapAt (cls daddr : Nat) : TrapInfo := ⟨cls, 0, 0, some daddr, []⟩
def trapCause (cls cause : Nat) : TrapInfo := ⟨cls, cause, 0, none, []⟩

/-- A fault that qualifies for the automatic restart of R181, charged to a path: the first restarts the group, the second
traps. -/
def faultOrRestart (s : State) (gid pid : Nat) (i : TrapInfo) (restartable : Bool) (pc : Nat) (word : Word) : State :=
  match s.group gid with
  | none => s
  | some g =>
    match g.path pid with
    | none => trapEnter s gid i 0xFFFF false pc word
    | some p =>
      if g.handler.isNone && p.attempts = 0 then
        if stopWaits s g then stopFor (cancelPairings s gid) gid (.restart (some pid)) else restartCharged s gid (some pid)
      else trapEnter s gid i pid restartable pc word

/-! ## Issue -/

/-- What an instruction does with its path. -/
inductive Res where
  | done (s : State)                    -- the path goes on at the next word
  | jump (s : State) (pc : Addr)        -- a taken transfer: the signature clears at the target
  | hold                                -- held at issue
  | holdWith (s : State)                -- held, with something else noted (a region entry, a request)
  | block (s : State) (w : Wake)        -- blocked at this word
  | trap (i : TrapInfo)
  | trapWith (s : State) (i : TrapInfo) -- a trap with something noted beside it
  | qualified (i : TrapInfo)            -- a fault with the restart of R181
  | ended (s : State)                   -- the path's end or replacement is part of the effect

/-- Who issues: numbers and state of group and path, and the word. -/
structure Ctx where
  gid : Nat
  pid : Nat
  g : Group
  p : Path
  word : Word

/-- The next word's address. -/
def Ctx.next (x : Ctx) : Addr := x.p.pc + 4

/-- The group as it stands in `s`; the issuing one where it is gone. -/
def Ctx.grp (x : Ctx) (s : State) : Group := (s.group x.gid).getD x.g

/-- Change the issuing path in `s`. -/
def Ctx.onPath (x : Ctx) (s : State) (f : Path → Path) : State :=
  match s.group x.gid with
  | none => s
  | some g => s.setGroup x.gid { g with paths := kupd g.paths x.pid f }

def Ctx.onGroup (x : Ctx) (s : State) (f : Group → Group) : State :=
  match s.group x.gid with
  | none => s
  | some g => s.setGroup x.gid (f g)

/-- The masks of R90 joined over their blocks. -/
def orBlocks (m : List (Nat × Mask)) (l : List (Nat × Mask)) : List (Nat × Mask) :=
  l.foldl (fun acc e => mset 0 acc e.1 (mget 0 acc e.1 ||| e.2)) m

/-- The read-first bits after the instruction's reads. -/
def rfAfter (p : Path) (pl : Plan) : List (Nat × Mask) :=
  orBlocks p.readFirst ((pl.reads ++ pl.treads).map fun e => (e.1, e.2 &&& ~~~ mget 0 p.written e.1))

/-- A write to a word that the region has read first (R90). -/
def idemTrap (p : Path) (pl : Plan) : Bool :=
  p.idem && (let rf := rfAfter p pl; pl.writes.any fun e => mget 0 rf e.1 &&& e.2 ≠ 0)

/-- The signature step of R86. -/
def sigStep (w S : Word) : Word := S.rotateLeft 1 ^^^ w

/-- The latch history after the instruction's reads, newest first (R162). -/
def latchPush (g : Group) (p : Path) (hist : List Nat) : List Latch :=
  (hist.foldl (fun acc a => ⟨a, g.row a, p.icount⟩ :: acc) p.latch).take 3

/-- The path after an instruction it completed: what R86, R90 and R162 record. -/
def retire (x : Ctx) (pl : Plan) (s : State) (pc : Addr) (clear : Bool) : State :=
  match s.group x.gid with
  | none => s
  | some g =>
    let g := setSigs g x.p.mask (fun S => if clear then 0 else sigStep x.word S)
    s.setGroup x.gid { g with
      stall := 0
      paths := kupd g.paths x.pid fun p =>
        { p with pc := pc, status := .run, waiting := false, icount := p.icount + 1
                 latch := latchPush x.g p pl.hist
                 readFirst := if p.idem then rfAfter p pl else p.readFirst
                 written := orBlocks p.written pl.writes } }

/-- The checks of R20 and R21 that precede the card's own. -/
def planTrap (g : Group) (pl : Plan) : Option TrapInfo :=
  if pl.illegal then some (trapOf 0x01)
  else if pl.parted && g.parted then some (trapOf 0x03)
  else if pl.converge && !g.converged then some (trapOf 0x04)
  else if pl.regs.any (fun r => g.views.vvcount.toNat < r.1 + r.2) || pl.tiles.any (fun k => g.views.tvcount.toNat ≤ k) then
    some (trapOf 0x02)
  else none

/-- Take the result of an instruction. The idempotence trap goes after the traps of the body (log entry 110). -/
def finish (x : Ctx) (pl : Plan) (s : State) : Res → State
  | .done s' => if idemTrap x.p pl then trapEnter s x.gid (trapOf 0x17) x.pid false x.p.pc.toNat x.word
                else retire x pl s' x.next false
  | .jump s' pc => if idemTrap x.p pl then trapEnter s x.gid (trapOf 0x17) x.pid false x.p.pc.toNat x.word
                else retire x pl s' pc true
  | .hold => s
  | .holdWith s' => s'
  | .block s' w => x.onPath s' fun p =>
      { p with status := .blocked w, since := if p.status = .run then s.now else p.since }
  | .trap i => trapEnter s x.gid i x.pid false x.p.pc.toNat x.word
  | .trapWith s' i => trapEnter s' x.gid i x.pid false x.p.pc.toNat x.word
  | .qualified i => faultOrRestart s x.gid x.pid i false x.p.pc.toNat x.word
  | .ended s' => x.onGroup s' fun g => { g with stall := 0 }

/-- A pending copy or matrix fault is taken at an instruction boundary of any path (R205, R222). Uncorrectable data takes the
restart of R181, charged to the issuing path. -/
def takePending (s : State) (gid : Nat) (f : PendFault) : State :=
  match s.group gid with
  | none => s
  | some g =>
    let s := s.setGroup gid { g with pending := g.pending.tail }
    let live := (g.path f.path).any fun p => p.uid = f.uid
    if live then
      if f.info.cls = 0x0C && f.qual then faultOrRestart s gid f.path f.info true f.pc.toNat f.word
      else trapEnter s gid f.info f.path true f.pc.toNat f.word
    else trapEnter s gid f.info 0xFFFF false f.pc.toNat f.word

/-- The register words with uncorrectable data that the instruction reads. -/
def poisonRead (g : Group) (pl : Plan) : List Nat :=
  g.regPoison.filter fun w => pl.reads.any fun e => e.1 = w / 64 && bit e.2 (w % 64)

/-- Uncorrectable data in register space: a word written in the current region qualifies for the restart, an input of the
region traps at once (R181). -/
def poisonRes (p : Path) (ws : List Nat) : Res :=
  if ws.all fun w => bit (mget 0 p.written (w / 64)) (w % 64) then .qualified (trapOf 0x0C) else .trap (trapOf 0x0C)

/-- Run the body of a word for the issuing path: wrong by encoding, the plan's traps, the exit of the register space from
retention (15 R316), the interlock of R163, then the body. Uncorrectable data in the register words that it reads goes after the four
classes of R21, the range check of a MOVI or MOVIW among them, and before the operand-dependent traps (log entry 110). -/
def issueBody (i : Instr) (s : State) (gid pid : Nat) (plan : Group → Path → Plan) (body : State → Ctx → Res) : State :=
  match s.group gid with
  | none => s
  | some g =>
    match g.path pid with
    | none => s
    | some p =>
      let x : Ctx := ⟨gid, pid, g, p, (encode i).getD 0⟩
      let pl := plan g p
      if !wellFormed i then finish x pl s (.trap (trapOf 0x01))
      else
        match planTrap g pl with
        | some t => finish x pl s (.trap t)
        | none =>
          if (s.core g.core).retRegs then finish x pl s (.holdWith (s.setCore g.core { s.core g.core with retRegs := false }))
          else if pendingHit g pl then finish x pl s .hold
          else if !(poisonRead g pl).isEmpty then finish x pl s (if pl.range then .trap (trapOf 0x02) else poisonRes p (poisonRead g pl))
          else finish x pl s (body s x)

/-- The path waits out a YIELD. -/
def isYielded (p : Path) : Bool :=
  match p.status with
  | .yielded _ => true
  | _ => false

/-- The path is ready but for holds of its next word: not blocked, not yielded, not at a WAIT whose condition does not hold (05 R123, 08 R158;
log entry 112). -/
def isReady (p : Path) : Bool := !p.waiting && (p.status = .run || p.status = .woken)

/-- What comes before any word of the group: the stop that has waited for its copies, then a pending fault (R170, R205). -/
def beforeWord (s : State) (gid : Nat) (g : Group) : Option State :=
  match g.stopping, g.pending with
  | some st, _ => some (if stopHeld s g then s else performStop s gid st)
  | none, f :: _ => some (takePending s gid f)
  | none, [] => none

/-- The issue of a word: by the path that `cur` names, where the group is resident and the path neither yielded nor ended; a
region entry that is due takes effect first, once drained (R179), and a pending fault is taken before the word (R205). -/
def issue (i : Instr) (s : State) (plan : Group → Path → Plan) (body : State → Ctx → Res) :
    Host.Outcome State Fault Refusal :=
  match s.cur with
  | none => .fault .noIssuer
  | some (gid, pid) =>
    match s.group gid with
    | none => .fault .noIssuer
    | some g =>
      match g.path pid with
      | none => .fault .noIssuer
      | some p =>
        if g.status ≠ .resident || isYielded p then .next s
        else
          match beforeWord s gid g with
          | some t => .next t
          | none =>
            match p.entryDue with
            | some idx =>
              if drained g p then .next (issueBody i (enterRegion s gid pid idx) gid pid plan body) else .next s
            | none => .next (issueBody i s gid pid plan body)

/-- An access of the word that is not served: a trap, or the park of R303 and R304. -/
def parkOr (x : Ctx) (s : State) (va : Nat) (e : MErr) (t : Nat → Res) : Res :=
  match e with
  | .trap c => t c
  | .start a => .block (askChunk s x.g.asid va e) (.chunk a ((va - (s.desc a).vbase) / 65536))
  | .chunk a c => .block (askChunk s x.g.asid va e) (.chunk a c)
  | .held => .hold

/-- A commit point that begins a region at the next word (R88): the entry is due there. -/
def entryNext (x : Ctx) (s : State) : State := x.onPath s fun p => { p with entryDue := some 0xFFFF, behind := true }

/-- A commit point holds until nothing issued before it by the path can fault any more, so that no restart reaches back past
its effect (R88). -/
def commitHold (x : Ctx) : Bool :=
  x.g.ops.any fun e => ofPath x.p e.2 && (isLoad e.2 || isCopy e.2 || isMat e.2)

/-- A blocking word forms its own region (R88): the entry is recorded, in a step of its own, once the path has drained. -/
def atOwnEntry (s : State) (x : Ctx) (k : State → Ctx → Res) : Res :=
  if entered x.p then k s x
  else if drained x.g x.p then .holdWith (enterRegion s x.gid x.pid 0xFFFF)
  else .hold

/-- A free value of the model: the next use of the free choices (log entry 2). -/
def takeFree (s : State) : Nat × State := (Config.freeNat s.fresh, { s with fresh := s.fresh + 1 })

end Sys2Proof.Machine
end

