-- ==== Sys2Proof/Machine/Perf.lean ====
section
/-! DEFINITION. The performance monitors (spec/13_die.md R282) and the power arbiter (spec/20 R383, R384). -/
namespace Sys2Proof.Machine

/-! ## Performance monitors -/

def Die.pm (d : Die) (ch : Nat) : PmChan := (kget d.pms ch).getD PmChan.zero
def State.setPm (s : State) (die ch : Nat) (v : PmChan) : State := s.setDie die { s.die die with pms := kset (s.die die).pms ch v }

/-- The channel's quantity and instance exist. -/
def pmSelected (sel : Word) : Bool :=
  let inst := sel.toNat / 16 % 4096
  match sel.toNat % 16 with
  | 1 => decide (inst < 256)
  | 2 => decide (inst < 64)
  | 3 => decide (inst < 16)
  | 4 => decide (inst < 128)
  | 5 => true
  | _ => false

/-- The bin of a sample. -/
def pmBin (v : Nat) : Nat := if v < 2 then 0 else if Nat.log2 v < 15 then Nat.log2 v else 15

/-- A 32-bit count that saturates. -/
def sat32 (n : Nat) : Nat := if n < 2 ^ 32 - 1 then n else 2 ^ 32 - 1

/-- The running results cleared, at a time. -/
def pmFresh (c : PmChan) (open_ : Bool) (now : Nat) : PmChan :=
  { c with open_ := open_, opened := now, sampled := now, rmin := 0, rmax := 0, rcount := 0, rbins := [] }

/-- A write of PMCTL.start clears the results and opens a window. -/
def pmOpen (s : State) (die ch : Nat) : State :=
  let c := (s.die die).pm ch
  s.setPm die ch (pmFresh { c with min := 0, max := 0, count := 0, bins := [] } true s.now)

/-- PM_START. -/
def execPmStart (die ch : Nat) (s : State) : Host.Outcome State Fault Refusal :=
  if s.recovery then .next s else
  if 8 ≤ ch || 16 ≤ die then .next s else .next (pmOpen s die ch)

/-- The channel takes a sample. -/
def pmTake (c : PmChan) (v : Nat) : PmChan :=
  { c with
      rmin := if c.rcount = 0 || v < c.rmin then v else c.rmin
      rmax := if c.rmax < v then v else c.rmax
      rcount := sat32 (c.rcount + 1)
      rbins := mset 0 c.rbins (pmBin v) (sat32 (mget 0 c.rbins (pmBin v) + 1)) }

/-- Quantities sampled each µs: occupancy and current. -/
def pmTimed (sel : Word) : Bool := sel.toNat % 16 = 4 || sel.toNat % 16 = 5

/-- The occupancy of a queue, in slots. -/
def queueSlots (s : State) (die q : Nat) : Nat :=
  let x := (kget (s.die die).queues q).getD Queue.zero
  (x.wptr + 2 ^ 32 - x.rptr) % 2 ^ 32

/-- The window's time is over, and a sample no longer counts in it; one taken just as it ends still does (log entry 107). -/
def pmOver (c : PmChan) (now : Nat) : Bool := decide (c.opened + 1200 * c.win.toNat < now)

/-- PM_SAMPLE: a timed quantity is sampled once a µs, and the occupancy of a queue is what its pointers say; the others are what
the sampled unit shows. -/
def execPmSample (die ch v : Nat) (s : State) : Host.Outcome State Fault Refusal :=
  let c := (s.die die).pm ch
  if !c.open_ || pmOver c s.now || !pmSelected c.sel || (pmTimed c.sel && decide (s.now < c.sampled + 1200)) then .next s
  else
    let v := if c.sel.toNat % 16 = 4 then queueSlots s die (c.sel.toNat / 16 % 4096) else v
    .next (s.setPm die ch { pmTake c v with sampled := s.now })

/-- PM_WINDOW_CLOSE: win µs after it opened the window closes and its results become visible; with cont set the next window opens at
once. -/
def execPmWindowClose (die ch : Nat) (s : State) : Host.Outcome State Fault Refusal :=
  let c := (s.die die).pm ch
  if c.open_ && decide (c.opened + 1200 * c.win.toNat ≤ s.now) then
    .next (s.setPm die ch
      (pmFresh { c with done := true, min := c.rmin, max := c.rmax, count := c.rcount, bins := c.rbins } c.cont s.now))
  else .next s

/-! ## Power -/

/-- The demands of the sixteen dies (R1): a die draws its idle draw at the least. -/
def dieDemands (dies : List Nat) : List Nat := (List.range 16).map fun i => max (dies.getD i 0) (Config.idleDraw i).toNat

/-- Shares of the cap: each unit has its demand while the sum keeps the cap; above it the dies share what the stacks leave in
proportion to their demand, none below its idle draw (R383; log entry 69). -/
def dieShares (cap : Nat) (dies hbms : List Nat) : List Nat :=
  let want := dieDemands dies
  let total := want.sum
  let left := cap - hbms.sum
  if total ≤ left then want
  else (List.range 16).map fun i => max (want.getD i 0 * left / total) (Config.idleDraw i).toNat

def listMap (l : List Nat) : List (Nat × Nat) := (List.range l.length).foldl (fun m i => mset 0 m i (l.getD i 0)) []

/-- The gap of each die for the interval is free (log entry 2): the spec says what it must achieve, not its value. -/
def newGaps (s : State) : State :=
  (List.range 16).foldl (fun s i =>
    let (n, s) := takeFree s
    s.setDie i { s.die i with gap := n }) s

/-- POWER_ARBITER_TICK: the arbiter has read the demand, in watts, of the sixteen dies and sixteen stacks (R1). -/
def execPowerArbiterTick (dies hbms : List Nat) (s : State) : Host.Outcome State Fault Refusal :=
  let hbms := hbms.take 16
  .next (newGaps { s with dieShare := listMap (dieShares s.pwrcap.toNat dies hbms), hbmShare := listMap hbms })

/-- POWER_OVERSHOOT: the gap doubles until the next interval, and vector 4 of PF 0 is signalled. -/
def execPowerOvershoot (die : Nat) (s : State) : Host.Outcome State Fault Refusal :=
  if 16 ≤ die then .next s else .next (sendOut (s.setDie die { s.die die with gap := 2 * (s.die die).gap }) (.msix 0 4))

end Sys2Proof.Machine
end

