-- ==== Sys2Proof/Machine/Orders.lean ====
section
/-! DEFINITION. What of a path's accesses is over, and what must wait for it (spec/16_memory_model.md R320 to R325; spec/10
R232, which says what a matrix operation reads in memory): the issued-before relation, loads
not yet bound, the orders that only the agents of a narrow scope observe, and how an operation is put in flight. -/
namespace Sys2Proof.Machine

/-! ## Scale arrays -/

/-- The scale arrays, address and length, that a matrix operation has yet to read in memory: relaxed strong reads of its path (16
R321). -/
def scaleReads (core : Nat) (o : Op) : List (Nat × Nat) :=
  match o.kind with
  | .mat (.mma form _ _ _ fmt _ sa sb) =>
    if o.todo = 0 then []
    else (if farScales (fmtA fmt) then [(sa.toNat, scaleBytes (fmtA fmt))] else [])
      ++ (if suppliesB form core && farScales (fmtB fmt) then [(sb.toNat, scaleBytes (fmtB fmt))] else [])
  | _ => []

/-! ## Earlier accesses -/

/-- The issued-before relation within the path, inherited accesses included (R320). -/
def before (g : Group) (n : Nat) (mask : Mask) (f : Op → Bool) : Bool :=
  g.ops.any fun e => decide (e.1 < n) && e.2.mask &&& mask ≠ 0 && f e.2

/-- A load whose value is not fixed yet. -/
def unbound (core : Nat) (o : Op) : Bool :=
  match o.kind with
  | .load .. | .spld .. | .sprd .. => !o.dropped
  | .atom _ _ _ _ _ _ performed _ => o.todo &&& ~~~ performed ≠ 0
  | .mat _ => !(scaleReads core o).isEmpty
  | _ => false

/-- Of these, the relaxed strong ones; scratchpad accesses count among them (R321, R323). -/
def unboundStrong (core : Nat) (o : Op) : Bool :=
  unbound core o && match o.kind with
    | .load _ strong .. => strong
    | _ => true

/-! ## Narrow scopes (R322, R325) -/

/-- Narrower than PKG: some agent of the package is outside the domain. -/
def scopeNarrow : Scope → Bool
  | .group | .core | .quad | .die => true
  | .pkg | .pod => false

/-- Wider than CORE. -/
def scopeWide : Scope → Bool
  | .group | .core => false
  | _ => true

/-- Of the narrow FENCEs `ks`, those whose earlier operations, of the path with this mask, are not over: loads and atomics before any
later access, stores before later ones that write, and under .ar before later loads too. -/
def narrowOpen (g : Group) (mask : Mask) (ks : List NarrowFence) (writes : Bool) : List NarrowFence :=
  ks.filter fun k => (k.kind ≠ .rel && before g k.below mask (unbound g.core))
    || ((k.kind = .ar || (writes && k.kind = .rel)) && before g k.below mask isStore)

/-- The place overlaps one that the group leaves alone (R325). -/
def locked (ls : List Lock) (mask : Mask) (write : Bool) (asid va n : Nat) : Bool :=
  ls.any fun l => l.write = write && !(l.own && l.mask &&& mask ≠ 0) && l.asid = asid && decide (l.va < va + n) && decide (va < l.va + l.size)

/-! ## In flight -/

def kindWrites (k : OpKind) : Bool :=
  match k with
  | .store .. | .atom .. | .spst .. => true
  | _ => false

/-- Put an operation in flight. -/
def addOp (s : State) (gid : Nat) (g : Group) (p : Path) (pid : Nat) (word : Word) (todo : Mask) (k : OpKind) : State :=
  let o : Op := { path := pid, uid := p.uid, mask := p.mask, pc := p.pc, word := word, batch := g.batch, at_ := s.now, todo := todo, kind := k,
                  dropped := false, await := 0, release := p.marks.fenced, narrow := narrowOpen g p.mask p.marks.narrow (kindWrites k), pieces := [], taken := [] }
  { (s.setGroup gid { g with ops := g.ops ++ [(s.nextOp, o)] }) with nextOp := s.nextOp + 1 }

end Sys2Proof.Machine
end

