-- ==== Sys2Proof/Machine/Passing.lean ====
section
/-! DEFINITION. Scopes narrower than PKG (spec/16_memory_model.md R322, R325, R330): a FENCE of such a scope orders nothing for agents
outside its domain. An access may therefore take effect ahead of operations that only such a FENCE orders before it; until these are
over, the agents of the domain leave alone the places at which they could tell (log entry 84). -/
namespace Sys2Proof.Machine

/-- The kind orders later stores and atomics. -/
def fenceRel : FenceKind → Bool
  | .acq => false
  | .rel | .ar => true

/-- The kind orders later accesses behind earlier loads and atomics. -/
def fenceAcq : FenceKind → Bool
  | .rel => false
  | .acq | .ar => true

/-- Group `hid` has its paths in the domain of the scope around group `gid` (R322). -/
def sharesScope (s : State) (sc : Scope) (gid : Nat) (g : Group) (hid : Nat) (h : Group) : Bool :=
  match sc with
  | .group => gid = hid
  | .core => g.cohort = h.cohort
  | .quad => g.cohort = h.cohort || (s.launchOf g = s.launchOf h && g.core / 4 = h.core / 4
      && (kget s.launches (s.launchOf g)).any fun l => l.rcd.bquad ≠ 0)
  | .die => g.core / 256 = h.core / 256
  | .pkg | .pod => true

/-- A place: an address space, an address in it, and a length. -/
abbrev Spot := Nat × Nat × Nat

/-- Spots of a core's scratchpad have an address space of their own. -/
def tileSpace (core : Nat) : Nat := 65536 + core
def tileSpot (t : TileRef) (off : Nat) : Spot := (tileSpace t.core, 4096 * t.tile + off, 4)

/-- The spot overlaps one that the group leaves alone. -/
def spotLocked (ls : List Lock) (mask : Mask) (write : Bool) (r : Spot) : Bool := locked ls mask write r.1 r.2.1 r.2.2

/-- The spots at which an operation's lanes, or its scale reads, have yet to take effect. -/
def opSpots (g : Group) (o : Op) : List Spot :=
  match o.kind with
  | .load _ _ _ size addrs _ | .store _ _ _ size addrs _ => (lanesOf o.todo).map fun l => (g.asid, addrs.getD l 0, size)
  | .atom _ _ addrs _ _ _ performed _ => (lanesOf (o.todo &&& ~~~ performed)).map fun l => (g.asid, addrs.getD l 0, 4)
  | .spld t offs _ | .sprd t offs _ _ | .spst t offs _ => (lanesOf o.todo).map fun l => tileSpot t (offs.getD l 0)
  | .mat _ => (scaleReads g.core o).map fun r => (g.asid, r.1, r.2)
  | _ => []

def isAtom (k : OpKind) : Bool :=
  match k with
  | .atom .. => true
  | _ => false

/-- The operation waits for a spot that its group leaves alone. -/
def opLocked (g : Group) (o : Op) : Bool :=
  (opSpots g o).any fun r => (!kindWrites o.kind || isAtom o.kind) && spotLocked g.locks o.mask false r
    || kindWrites o.kind && spotLocked g.locks o.mask true r

/-- An access numbered `n` of the path with this mask may go ahead of what the fences `ks` order before it: none of the path's earlier
operations waits for a spot or has been dropped. -/
def mayPass (g : Group) (n : Nat) (mask : Mask) (ks : List NarrowFence) : Bool :=
  !ks.isEmpty && !before g n mask fun e => e.dropped || opLocked g e

/-- What the agents of a fence's domain leave alone while an access at the spots `here` is ahead: under an acquire writes to the spots of
the loads passed, since a release read there would synchronise; behind stores passed, reads of a spot written, and under .ar writes to
a spot read. -/
def passLocks (gid : Nat) (g : Group) (mask : Mask) (here : List Spot) (writes : Bool) (k : NarrowFence) : List Lock :=
  let lock (loads write : Bool) (r : Spot) : Lock := ⟨gid, false, mask, k.below, loads, write, r.1, r.2.1, r.2.2⟩
  let passed := g.ops.filter (fun e => decide (e.1 < k.below) && e.2.mask &&& mask ≠ 0 && unbound g.core e.2)
  (if fenceAcq k.kind then passed.flatMap fun e => (opSpots g e.2).map (lock true true) else [])
    ++ (if fenceRel k.kind && writes then here.map (lock false false) else [])
    ++ (if fenceRel k.kind && fenceAcq k.kind then here.map (lock false true) else [])

/-- The groups of the domain, and at DIE scope the command processor, take the locks. -/
def addLocks (s : State) (gid : Nat) (g : Group) (sc : Scope) (ls : List Lock) : State :=
  let take (e : Nat × Group) : Nat × Group :=
    if sharesScope s sc gid g e.1 e.2 then (e.1, { e.2 with locks := e.2.locks ++ ls.map fun l => { l with own := e.1 = gid } }) else e
  let s := { s with groups := s.groups.map take }
  if sc = .die then s.setDie (g.core / 256) { s.die (g.core / 256) with locks := (s.die (g.core / 256)).locks ++ ls } else s

/-- An access of the path with this mask goes ahead of what the fences `ks` order before it. -/
def passFences (s : State) (gid : Nat) (g : Group) (mask : Mask) (here : List Spot) (writes : Bool) (ks : List NarrowFence) : State :=
  ks.foldl (fun s k => addLocks s gid g k.sc (passLocks gid g mask here writes k)) s

end Sys2Proof.Machine
end

