-- ==== Sys2Proof/Machine/Flags.lean ====
section
/-! DEFINITION. What a mode code lets an instruction accept (spec/01 R12 to R14, spec/05 R94, spec/06 R125) and the results that
set the sticky flags (spec/04 R76): integer elements narrowed through `Sat` of spec/01 R18, float elements through `RoundTo`. -/
namespace Sys2Proof.Machine

/-! ## Which mode codes an instruction accepts -/

/-- Integer types of R94. -/
def okInt (m : Word) : Bool := decide (modeType m ≤ 5) || modeType m = 15
/-- I32 and N32, the types of ICMP (R94). -/
def okCmp (m : Word) : Bool := decide (modeType m ≤ 1)
/-- The float types of R125. -/
def okFloat (m : Word) : Bool := decide (8 ≤ modeType m) && decide (modeType m ≤ 10)
def okRound (m : Word) : Bool := decide (modeRound m ≤ 4)
def okFill (m : Word) : Bool := decide (modeFill m ≤ 2)
def okNov (m : Word) : Bool := decide (modeNov m ≤ 1)
/-- A float instruction that rounds. -/
def okFloatR (m : Word) : Bool := okFloat m && okRound m
/-- An instruction that consults no mode field. -/
def okAny (_ : Word) : Bool := true

/-- The element type of the mode; I32 where the code is reserved (the plan has trapped by then). -/
def modeTy (m : Word) : Ty := (tyOfCode (modeType m)).getD .i32

/-! ## Elementwise results -/

/-- Apply a function to the elements of the words of a lane: patterns in, pattern and SAT out. -/
def mapElemsOf (t : Ty) (f : List Nat → Nat × Bool) (ws : List Word) : Word × Bool :=
  let w := tyWidth t
  let rs := (List.range (tyCount t)).map fun i => f (ws.map (elemBits w i))
  (wordOfElems w (rs.map (·.1)), rs.any (·.2))

/-- The integer an element pattern holds under its type (R94). -/
def elemVal (t : Ty) (v : Nat) : Int := if tySigned t then signedOf (tyWidth t) v else v

/-- An integer operation on two elements, narrowed through `Sat`. -/
def satOp (m : Word) (f : Int → Int → Int) (ws : List Word) : Word × Bool :=
  let t := modeTy m
  mapElemsOf t (fun vs => satPat (modeSat m) t (f (elemVal t (vs.getD 0 0)) (elemVal t (vs.getD 1 0)))) ws

/-- An integer operation on two elements whose result is kept modulo 2^w and sets no flag. -/
def wrapOp (m : Word) (f : Ty → Int → Int → Int) (ws : List Word) : Word × Bool :=
  let t := modeTy m
  mapElemsOf t (fun vs => (patOf (tyWidth t) (f t (elemVal t (vs.getD 0 0)) (elemVal t (vs.getD 1 0))), false)) ws

/-- An operation on element patterns of width w; the second is a count read unsigned (R98). -/
def patOp (m : Word) (f : Nat → Nat → Nat → Nat) (ws : List Word) : Word × Bool :=
  let t := modeTy m
  mapElemsOf t (fun vs => (f (tyWidth t) (vs.getD 0 0) (vs.getD 1 0), false)) ws

/-- A word operation that sets no flag. -/
def wordOp (f : Word → Word → Word) (ws : List Word) : Word × Bool := (f (ws.getD 0 0) (ws.getD 1 0), false)

/-- A float operation: elements decoded with the input flush, the exact result rounded once (R125, R126). -/
def floatOp (m : Word) (f : NumMode → List Exact → Exact) (ws : List Word) : Word × Bool :=
  let t := modeTy m
  let nm := numMode m
  mapElemsOf t (fun vs => (roundToTy t nm (f nm (vs.map (decodeTy t nm.flush))), false)) ws

/-! ## The sticky flags -/

/-- SAT is set when any active lane saturated (R76, R94). -/
def Group.noteSat (g : Group) (b : Bool) : Group := g.setFlag flagSat b

end Sys2Proof.Machine
end

