-- ==== Sys2Proof/Machine/Operands.lean ====
section
/-! DEFINITION. The operand forms: lanewise instructions over vector, latch, lane and uniform sources (spec/01 R10, R15, spec/05
R93), instructions over predicates and uniforms, and the shapes they share. -/
namespace Sys2Proof.Machine

/-- The words of lane `l` in a list of rows. -/
def laneWords (rows : List (List Word)) (l : Nat) : List Word := rows.map fun r => r.getD l 0

/-- The results of a lanewise function in the lanes of `m`. -/
def laneMap (m : Mask) (f : Nat → Word × Bool) : List (Word × Bool) :=
  (List.range 64).map fun l => if bit m l then f l else (0, false)

/-- What a lanewise instruction names: guard, mode codes, sources in the order of their fields, uniforms, destination. -/
def lanePlan (ok : Word → Bool) (d : VReg) (srcs : List VSrc) (us : List UReg) (g : Group) (p : Path) : Plan :=
  Plan.all ([planIllegal (!ok g.mode), planGuard g p] ++ srcs.map (planSrc g p (active g p)) ++ us.map planU
    ++ [planDst g (active g p) d])

/-- Write the results of a lanewise instruction in the lanes of `m`. -/
def putLanes (s : State) (x : Ctx) (d : VReg) (m : Mask) (rs : List (Word × Bool)) : State :=
  x.onGroup s fun g => (g.setV d m (rs.map (·.1))).noteSat (rs.any (·.2))

/-- A lanewise instruction: every source of an active lane is read, then every destination written (R7). `us` are the uniform
operands of the .S forms, read once and used by every lane. -/
def laneOp (i : Instr) (s : State) (ok : Word → Bool) (d : VReg) (srcs : List VSrc) (us : List UReg)
    (f : Word → List Word → Word × Bool) : Host.Outcome State Fault Refusal :=
  issue i s (lanePlan ok d srcs us) fun s x =>
    let rows := srcs.map (srcVals x.g x.p)
    let uv := us.map x.g.us
    let m := active x.g x.p
    .done (putLanes s x d m (laneMap m fun l => f x.g.mode (laneWords rows l ++ uv)))

/-- A lanewise comparison into a predicate (R100, R129). -/
def predOp (i : Instr) (s : State) (ok : Word → Bool) (p : Fin 8) (srcs : List VSrc) (us : List UReg)
    (f : Word → List Word → Bool) : Host.Outcome State Fault Refusal :=
  issue i s (fun g q => Plan.all ([planIllegal (!ok g.mode), planGuard g q] ++ srcs.map (planSrc g q (active g q)) ++ us.map planU
      ++ [planPdst (active g q) p.val])) fun s x =>
    let rows := srcs.map (srcVals x.g x.p)
    let uv := us.map x.g.us
    let m := active x.g x.p
    .done (x.onGroup s fun g => g.setPred p.val m (maskOf fun l => bit m l && f x.g.mode (laneWords rows l ++ uv)))

/-- A uniform instruction: one result per issue of the path (R107). -/
def uniOp (i : Instr) (s : State) (d : UReg) (us : List UReg) (f : List Word → Word) : Host.Outcome State Fault Refusal :=
  issue i s (fun _ _ => Plan.all (us.map planU ++ [planUdst d])) fun s x =>
    .done (x.onGroup s fun g => g.setUs d (f (us.map x.g.us)))

/-- An instruction on predicate bits in every lane of the path, launched and not exited; it ignores the guard (R113). -/
def pOp (i : Instr) (s : State) (d : Fin 8) (ps : List (Fin 8)) (f : List Mask → Mask) : Host.Outcome State Fault Refusal :=
  issue i s (fun g p => Plan.all (ps.map (fun a => planPred (pathLanes g p) a.val) ++ [planPdst (pathLanes g p) d.val])) fun s x =>
    .done (x.onGroup s fun g => g.setPred d.val (pathLanes x.g x.p) (f (ps.map fun a => x.g.pred a.val)))

/-- An instruction that names nothing and ends at the next word. -/
def plainOp (i : Instr) (s : State) (f : State → Ctx → State) : Host.Outcome State Fault Refusal :=
  issue i s (fun _ _ => Plan.none) fun s x => .done (f s x)

/-- A list of words in every lane of one row. -/
def rowOf (f : Nat → Word) : List Word := (List.range 64).map f

/-- The 64-bit base of an ordered memory form (R145). -/
def Ctx.base (x : Ctx) (n : BitVec 6) : Nat := x.g.upair n.toNat

/-- The lanes' addresses: base plus signed offset, modulo 2^64; 0 in lanes that take no part (R145). -/
def laneAddrs (base : Nat) (m : Mask) (offs : List Word) : List Nat :=
  (List.range 64).map fun l =>
    if bit m l then ((base : Int) + (offs.getD l 0).toInt) % (2 ^ 64 : Nat) |>.toNat else 0

end Sys2Proof.Machine
end

