-- ==== Sys2Proof/Machine/BarOps.lean ====
section
/-! DEFINITION. Barriers (spec/09 R209 to R211), the reduction of monitors at a phase (spec/18 R344, R345) and the withdrawal of
publications (spec/12 R253); the ends of paths, which may complete a phase. -/
namespace Sys2Proof.Machine

/-! ## Reduction of monitors -/

/-- The cores of a barrier's domain. -/
def inDomain (s : State) (b : Barrier) (core : Nat) : Bool :=
  match b.scope with
  | .group => false
  | .core => (kget s.cohorts b.domain).any fun c => c.core = core
  | .quad => core / 4 = b.domain
  | .die | .pkg | .pod => true

def ownsMon (s : State) (b : Barrier) (m : Monitor) : Bool :=
  match b.scope with
  | .pod => (kget s.launches m.launch).any fun l => l.tenant = b.owner
  | _ => m.launch = b.owner

/-- The monitors of number `n` gathered at a phase of `b`, with their cores, ascending (R344). -/
def gatherMons (s : State) (b : Barrier) (n : Nat) : List (Nat × Monitor) :=
  s.cores.filterMap fun e =>
    match kget e.2.mons n with
    | none => none
    | some m =>
      if inDomain s b e.1 && ownsMon s b m && m.cfg.scope = b.scope && m.cfg.idx = b.idx then some (e.1, m) else none

/-- The exact total of wide sums, their flags joined (R344); past the window it saturates (R64). -/
def sumAcc (l : List Acc) : Acc :=
  let t := (l.map fun a => a.v.toInt).sum
  let fl : Acc := ⟨0, l.any (·.ovf), l.any (·.unf), l.any (·.nan)⟩
  if wideMin ≤ t && t ≤ wideMax then { fl with v := BitVec.ofInt 192 t }
  else { fl with v := wideBound (decide (t < 0)), ovf := true }

/-- |d| ≤ bm * 2^(be - 127) for d in units of 2^-112; a bound past the window counts as the largest wide value (R341). -/
def withinBound (be bm : Nat) (d : Int) : Bool :=
  if 15 ≤ be then
    let b := bm * 2 ^ (be - 15)
    let w := wideMax.toNat
    decide (d.natAbs ≤ if b ≤ w then b else w)
  else decide (d.natAbs * 2 ^ (15 - be) ≤ bm)

/-- Bounds are the same when their values are. -/
def sameBound (a b : MonCfg) : Bool := a.bm * 2 ^ a.be = b.bm * 2 ^ b.be

/-- The judgement of R344 on the gathered monitors of one number: `none` passes. -/
def judge (n : Nat) (ms : List (Nat × Monitor)) (t : Acc) : Option Drift :=
  match ms with
  | [] => none
  | (_, m) :: rest =>
    let d : Drift := ⟨n, 0, t.v, m.ref⟩
    if !rest.all fun e => e.2.cfg.type = m.cfg.type && e.2.ref = m.ref && sameBound e.2.cfg m.cfg then some { d with cause := 3 }
    else if t.nan then some { d with cause := 1 }
    else if t.ovf then some { d with cause := 2 }
    else if withinBound m.cfg.be m.cfg.bm (t.v.toInt - m.ref.toInt) then none
    else some d

/-- Reduce number `n` at the barrier: totals and status bits written, sums moved on (R343, R344). -/
def reduceOne (s : State) (b : Barrier) (n : Nat) : State × Option Drift :=
  let ms := gatherMons s b n
  let t := sumAcc (ms.map fun e => e.2.open_)
  let d := judge n ms t
  let s := ms.foldl (fun s e =>
    let m := { e.2 with
      total := t, open_ := e.2.next, next := accZero, drift := e.2.drift || d.isSome
      mismatch := e.2.mismatch || (d.any fun x => x.cause = 3) }
    s.setCore e.1 { s.core e.1 with mons := kset (s.core e.1).mons n m }) s
  (s, d)

/-- The four reductions of a phase; the drift of the lowest number stands (R345). -/
def reduceMons (s : State) (b : Barrier) : State × Option Drift :=
  (List.range 4).foldl (fun acc n =>
    let (s, d) := reduceOne acc.1 b n
    (s, match acc.2 with
      | some x => some x
      | none => d)) (s, none)

/-! ## Phases -/

/-- Publications of the phase before the one completed are withdrawn (12 R253); the entry of one whose own hop is still in flight
stays until the hop is over (12 R257). A later hop in flight goes with its entry (log entry 81). -/
def withdraw (s : State) (b : Barrier) : State :=
  match b.scope with
  | .quad =>
    let q := s.quad b.domain
    let keep (e : Nat × Pub) : Option (Nat × Pub) :=
      if e.1 % 8 = b.idx && decide (e.2.phase + 1 ≤ b.phase) then
        (if e.2.chained && e.2.hops = 0 && e.2.poisonedFrom.isNone then some (e.1, { e.2 with withdrawn := true }) else none)
      else some e
    s.setQuad b.domain { q with pubs := q.pubs.filterMap keep }
  | _ => s

/-- Progress of a launch's queue (13 R280). -/
def noteProgress (s : State) (lid : Nat) : State :=
  match kget s.launches lid with
  | some l =>
    match l.source with
    | .queue d q _ _ _ => s.setDie d { s.die d with queues := kupd (s.die d).queues q fun x => { x with progress := s.now } }
    | .device _ _ => s
  | none => s

/-- A completed phase is progress of the launches that take part: at POD scope those of the tenant that give a bpod (13 R280, 20
R369). -/
def barProgress (s : State) (b : Barrier) : State :=
  if b.scope = .pod then
    (s.launches.filter fun l => l.2.tenant = b.owner && l.2.rcd.bpod ≠ 0).foldl (fun s l => noteProgress s l.1) s
  else noteProgress s b.owner

/-- A phase completes with a verdict. -/
def closePhase (s : State) (b : Barrier) (d : Option Drift) : State :=
  let s := withdraw s b
  let s := s.setBarrier { b with
    phase := b.phase + 1, arrivals := 0, ended := 0, timedOut := false
    parts := if b.scope = .group then [] else b.parts
    drifts := match d with
      | some x => kset b.drifts b.phase x
      | none => b.drifts }
  barProgress s b

/-- A phase completes: the reduction first, then the waiters (R210, R344). -/
def completePhase (s : State) (b : Barrier) : State :=
  let (s, d) := if b.scope = .group then (s, none) else reduceMons s b
  closePhase s b d

/-- Expected arrivals (R209); GROUP counts lanes and is judged apart. -/
def expectedOf (s : State) (b : Barrier) : Nat :=
  let l := (kget s.launches b.owner).map (·.rcd)
  match b.scope with
  | .group | .pod => 0
  | .core => ((kget s.cohorts b.domain).map (·.groups.length)).getD 0 + b.ended
  | .quad => (l.map (·.bquad)).getD 0
  | .die => (l.map (·.bdie)).getD 0
  | .pkg => (l.map (·.bpkg)).getD 0

/-- The expected count of the record for a scope: 0 is a launch-argument trap (R209). -/
def recordCount (l : LaunchRec) : Scope → Nat
  | .group | .core => 1
  | .quad => l.bquad
  | .die => l.bdie
  | .pkg => l.bpkg
  | .pod => l.bpod

/-- Complete the phase where its arrivals have reached the count. -/
def tryComplete (s : State) (b : Barrier) : State :=
  if b.scope ≠ .group && b.scope ≠ .pod && b.arrivals ≠ 0 && b.arrivals = expectedOf s b then completePhase s b
  else s.setBarrier b

/-! ### POD (20 R369) -/

def Pod.zero : Pod := ⟨[], 0, 0, [], none⟩
def podKey (t idx : Nat) : Nat := 256 * t + idx
def State.pod (s : State) (t idx : Nat) : Pod := (kget s.pods (podKey t idx)).getD Pod.zero
def State.setPod (s : State) (t idx : Nat) (p : Pod) : State := { s with pods := kset s.pods (podKey t idx) p }

/-- This package roots the tenant's POD barriers. -/
def isRoot (s : State) (t : Nat) : Bool := (s.tenant t).valid && (s.tenant t).podroot = s.nodeNum

/-- An arrival at a POD instance is sent to the tenant's root node, with the bpod of the group's launch. -/
def tellRoot (s : State) (gid : Nat) (b : Barrier) : State :=
  if b.scope ≠ .pod then s
  else
    let bpod := ((s.group gid).bind fun g => (kget s.launches (s.launchOf g)).map (·.rcd.bpod)).getD 0
    if isRoot s b.owner then s.setPod b.owner b.idx { s.pod b.owner b.idx with own := (s.pod b.owner b.idx).own ++ [bpod] }
    else sendOut s (.podArrival ((s.tenant b.owner).podroot % 1024) b.owner b.idx bpod)

/-- The group arrives: its lanes are no longer counted apart (R210). -/
def groupArrives (s : State) (gid : Nat) (b : Barrier) : State :=
  tryComplete (tellRoot s gid b) { b with
    arrivals := b.arrivals + 1, parts := kdel b.parts gid, last := kset b.last gid b.phase
    firstAt := if b.arrivals = 0 then s.now else b.firstAt }

/-- The lanes of every live path. -/
def liveLanes (g : Group) : Mask := g.paths.foldl (fun m e => m ||| e.2.mask) 0

/-- Lanes of the group that have arrived and wait for the rest. -/
def partOf (b : Barrier) (gid : Nat) : Mask := (kget b.parts gid).getD 0

/-- An SPRD of a publication at index `idx` by the group is outstanding: it reads its data before the arrival (12 R253). -/
def sprdOpen (g : Group) (idx : Nat) : Bool :=
  g.ops.any fun e => match e.2.kind with
    | .sprd _ _ _ (some (_, i)) => i = idx && !e.2.dropped
    | _ => false

/-- After an arrival or the end of a path: the group, or at GROUP scope the phase, may be whole. An arrival at QUAD scope waits for the
group's reads of publications at the index (12 R253). -/
def settleParts (s : State) (gid : Nat) (g : Group) (b : Barrier) : State :=
  let m := partOf b gid
  if m = 0 then s.setBarrier b
  else if b.scope = .group then
    if g.present &&& ~~~ m = 0 then completePhase s { b with last := kset b.last gid b.phase } else s.setBarrier b
  else if liveLanes g &&& ~~~ m = 0 && !(b.scope = .quad && sprdOpen g b.idx) then groupArrives s gid b else s.setBarrier b

/-- The path arrives at an instance (R210); its contributions commit first (18 R343). -/
def arrive (s : State) (x : Ctx) (sc : Scope) (idx : Nat) : State :=
  let g0 := x.grp s
  let s := commitMons s x.gid g0 x.p
  let s := x.onPath s fun p => { p with contrib := [], partials := [] }
  let g := x.grp s
  let b := s.barrier sc idx (ownerOf s g sc) (domainOf x.gid g sc)
  settleParts s x.gid g { b with
    parts := kset b.parts x.gid (partOf b x.gid ||| (pathLanes g x.p))
    firstAt := if b.arrivals = 0 && b.parts.isEmpty then s.now else b.firstAt }

/-- An earlier arrival by the path or its group is incomplete (R210). -/
def arrivalOpen (s : State) (x : Ctx) (sc : Scope) (idx : Nat) : Bool :=
  let b := s.barrier sc idx (ownerOf s x.g sc) (domainOf x.gid x.g sc)
  partOf b x.gid &&& x.p.mask ≠ 0 || (kget b.last x.gid = some b.phase)

/-- The group's last arrival at the instance has not completed: neither its own nor, with only another of its paths arrived, the
group's (log entry 79). -/
def waitOpen (s : State) (gid : Nat) (g : Group) (sc : Scope) (idx : Nat) : Bool :=
  let b := s.barrier sc idx (ownerOf s g sc) (domainOf gid g sc)
  partOf b gid ≠ 0 || (kget b.last gid = some b.phase)

/-- The drift that the group has yet to be told of at its WaitFor (R345). -/
def driftDue (s : State) (gid : Nat) (g : Group) (sc : Scope) (idx : Nat) : Option (Barrier × Nat × Drift) :=
  let b := s.barrier sc idx (ownerOf s g sc) (domainOf gid g sc)
  match kget b.last gid with
  | none => none
  | some ph =>
    match kget b.drifts ph with
    | none => none
    | some d => if b.told.contains (gid, ph) then none else some (b, ph, d)

/-- The conservation-drift trap (R345). -/
def driftInfo (d : Drift) : TrapInfo :=
  ⟨0x0E, d.cause, d.mon, none, leBytes 24 d.total.toNat ++ leBytes 24 d.ref.toNat⟩

/-! ## The end of a path -/

/-- Every instance where the group has lanes waiting for the rest is looked at again. -/
def settleGroup (s : State) (gid : Nat) : State :=
  s.barriers.foldl (fun s b =>
    match s.group gid with
    | none => s
    | some g =>
      let b := s.barrier b.scope b.idx b.owner b.domain
      if partOf b gid = 0 then s else settleParts s gid g b) s

/-- What is left of a path that ends: an SPFENCE whose readiness is pending, its slices' program counters, its arrivals. -/
def leavePath (g : Group) (pid : Nat) (p : Path) : Group :=
  { g with
      paths := kdel g.paths pid
      made := kdel g.made pid
      fenceLeft := if p.spfence.isEmpty then g.fenceLeft
        else ⟨Nat.max g.fenceLeft.below p.marks.spf, g.fenceLeft.tiles ++ p.spfence⟩
      spc := (slicesOf p.mask).foldl (fun acc c => mset 0 acc c p.pc) g.spc }

/-- A path ends: its contributions commit, its releases take effect (R196, R343). -/
def endPath (s : State) (x : Ctx) : State :=
  let g := x.grp s
  let p := (g.path x.pid).getD x.p
  let s := commitMons s x.gid g p
  let s := if p.trel.isEmpty then s else applyTrels s x.gid x.pid g.core
  x.onGroup s fun g => leavePath g x.pid p

/-- The path whose EXIT leaves no lane ends; its contributions and releases wait for the group's end (08 R185). -/
def endLast (s : State) (x : Ctx) : State :=
  x.onGroup s fun g =>
    let p := (g.path x.pid).getD x.p
    { leavePath g x.pid p with lastPath := some (x.pid, p), status := .ending false }

/-- Create a path (R78): signature clear, its region entry due at its first word; it inherits the ordering marks given. -/
def createPath (s : State) (gid : Nat) (m : Mask) (pc : Addr) (side : Side) (marks : Marks) : State :=
  match s.group gid with
  | none => s
  | some g =>
    let g := setSigs g m fun _ => 0
    let p := { freshPath s.nextOp m pc side (recordRegion g m pc 0xFFFF) s.now with
      entryDue := some 0xFFFF, behind := true, spfence := g.fenceLeft.tiles
      marks := { marks with spf := Nat.max marks.spf g.fenceLeft.below } }
    { (s.setGroup gid { (g.setPath (pathNumber m) p) with fenceLeft := SpFence.none }) with nextOp := s.nextOp + 1 }

end Sys2Proof.Machine
end

