-- ==== Sys2Proof/Machine/MemInstr.lean ====
section
/-! DEFINITION. Memory instructions (spec/06_group_vector_memory.md R145 to R153): their checks, their order in the path
(spec/16_memory_model.md R320, R323, R324), and what they put in flight. Loads are bound and stores performed by steps of their
own. -/
namespace Sys2Proof.Machine

/-! ## Order at issue (R148, R152, R320) -/

/-- Which orders a memory instruction must respect. -/
inductive MemDir where
  | load | store | both
  deriving DecidableEq, Repr

/-- An acquire access still under way. -/
def isAcq (o : Op) : Bool :=
  match o.kind with
  | .load acq .. => acq
  | .atom _ ord .. => (ord = .acq || ord = .ar) && o.todo ≠ 0
  | _ => false

/-- The path has an operation numbered below `n` that satisfies `f`. -/
def earlier (g : Group) (p : Path) (n : Nat) (f : Op → Bool) : Bool :=
  g.ops.any fun e => decide (e.1 < n) && ofPath p e.2 && f e.2

/-- The memory instruction holds at issue. -/
def memHeld (g : Group) (p : Path) (a : MemDir) : Bool :=
  let k := p.marks
  let reads (o : Op) : Bool := isLoad o || !(scaleReads g.core o).isEmpty
  g.ops.any (fun e => ofPath p e.2 && isAcq e.2) || earlier g p k.acq reads || earlier g p k.join isStore
    || (a ≠ .load && earlier g p k.rel (fun o => reads o || isStore o)) || (a ≠ .store && earlier g p k.ar isStore)

/-- What an acquiring FENCE wider than CORE waits for is over. -/
def acqOver (g : Group) (p : Path) : Bool := (narrowOpen g p.mask (p.marks.narrow.filter fun k => scopeWide k.sc) false).isEmpty

/-- A memory instruction goes ahead: a discard of the load cache that an acquiring FENCE wider than CORE has asked for comes before any
later load, once what it waits for is over (R147, R152). -/
def memOpen (s : State) (x : Ctx) : State :=
  if x.p.marks.acqWide && acqOver x.g x.p then
    dropCache (x.onPath s fun p => { p with marks := { p.marks with acqWide := false } }) x.g.core
  else s

/-- Put an operation in flight for the issuing path. -/
def Ctx.add (x : Ctx) (s : State) (todo : Mask) (k : OpKind) : State :=
  let g := x.grp s
  addOp s x.gid g ((g.path x.pid).getD x.p) x.pid x.word todo k

/-- Completion counters hold at most 62 (R124). -/
def full (g : Group) (f : Op → Bool) : Bool := decide (62 ≤ countOps g f)

/-- The checks of R145 over the active lanes. -/
def checkLanes (s : State) (x : Ctx) (k : AKind) (size : Nat) (m : Mask) (addrs : List Nat) : Option (Nat × MErr) :=
  firstFailure ((lanesOf m).map fun l => (addrs.getD l 0, check145 s x.g.core x.g.asid k size (addrs.getD l 0) size))

/-- What fails a memory instruction: the trap with its address, or the park (R145, R304). -/
def memFail (s : State) (x : Ctx) (f : Nat × MErr) : Res := parkOr x s f.1 f.2 fun c => .trap (trapAt c f.1)

/-- A memory instruction over lanes: nothing without an active lane; holds; the checks; then the operation. -/
def memOp (s : State) (x : Ctx) (a : MemDir) (k : AKind) (size : Nat) (m : Mask) (addrs : List Nat) (op : State → State) : Res :=
  if m = 0 then .done s
  else if memHeld x.g x.p a || (a ≠ .store && full x.g isLoad) || (a ≠ .load && full x.g isStore) then .hold
  else
    match checkLanes s x k size m addrs with
    | some f => memFail s x f
    | none => .done (op (memOpen s x))

/-! ## Loads (R147, R149) -/

/-- The destination of a load in the register space. -/
def dstAddr (g : Group) : VReg → Option Nat
  | .reg n => some (g.vaddr n.val)
  | .zero => none

def memPlan (base : BitVec 6) (b : VSrc) (g : Group) (p : Path) : Plan :=
  Plan.all [planGuard g p, planUspan base.toNat 2, planSrc g p (active g p) b]

/-- A load of `size` bytes a lane. -/
def loadOp (i : Instr) (s : State) (acq strong gather : Bool) (size : Nat) (d : VReg) (base : BitVec 6) (b : VSrc) :
    Host.Outcome State Fault Refusal :=
  issue i s
    (fun g p => Plan.all [memPlan base b g p, match d with
      | .reg n => planDstN g (active g p) n.val ((size + 3) / 4)
      | .zero => Plan.none])
    fun s x =>
      let m := active x.g x.p
      let addrs := laneAddrs (x.base base) m (srcVals x.g x.p b)
      memOp s x .load .read size m addrs fun s => x.add s m (.load acq strong gather size addrs (dstAddr x.g d))

def ldAcq : LdOrd → Bool
  | .acq => true
  | _ => false
def ldStrong : LdOrd → Bool
  | .plain => false
  | _ => true
def gaStrong : GaOrd → Bool
  | .plain => false
  | .rlx => true

def execLdB (d : VReg) (o : LdOrd) (base : BitVec 6) (b : VSrc) (s : State) := loadOp (.ldB d o base b) s (ldAcq o) (ldStrong o) false 1 d base b
def execLdH (d : VReg) (o : LdOrd) (base : BitVec 6) (b : VSrc) (s : State) := loadOp (.ldH d o base b) s (ldAcq o) (ldStrong o) false 2 d base b
def execLd (d : VReg) (o : LdOrd) (base : BitVec 6) (b : VSrc) (s : State) := loadOp (.ld d o base b) s (ldAcq o) (ldStrong o) false 4 d base b
def execLdD (d : Fin 248) (o : LdOrd) (base : BitVec 6) (b : VSrc) (s : State) := loadOp (.ldD d o base b) s (ldAcq o) (ldStrong o) false 8 (.reg d) base b
def execLdQ (d : Fin 248) (o : LdOrd) (base : BitVec 6) (b : VSrc) (s : State) := loadOp (.ldQ d o base b) s (ldAcq o) (ldStrong o) false 16 (.reg d) base b
def execLdg (d : VReg) (o : GaOrd) (base : BitVec 6) (b : VSrc) (s : State) := loadOp (.ldg d o base b) s false (gaStrong o) true 4 d base b
def execLdgD (d : Fin 248) (o : GaOrd) (base : BitVec 6) (b : VSrc) (s : State) := loadOp (.ldgD d o base b) s false (gaStrong o) true 8 (.reg d) base b

/-! ## Stores (R147, R149) -/

/-- The data of each lane: `k` consecutive registers, low word first, as one number of `size` bytes. -/
def spanData (g : Group) (n k : Nat) : List Nat :=
  let rows := (List.range k).map fun i => g.v (n + i)
  (List.range 64).map fun l => (rows.map fun r => (r.getD l 0).toNat).foldr (fun w acc => w + 2 ^ 32 * acc) 0

def wordsData (size : Nat) (vs : List Word) : List Nat := vs.map fun w => w.toNat % 2 ^ (8 * size)

/-! ## What monitors count (18 R342) -/

def monHit (c : MonCfg) (a : Nat) : Bool :=
  decide (c.base ≤ a) && decide (a < c.base + c.length) && (a - c.base) % c.stride = c.offset

/-- A stored word as the monitor's type reads it, with no flush. -/
def monVal (c : MonCfg) (w : Nat) : Exact := decodeTy ((tyOfCode c.type).getD .i32) false w

/-- The words that a lane stores whole, with their addresses. -/
def wholeWords (size a d : Nat) : List (Nat × Nat) := (List.range (size / 4)).map fun k => (a + 4 * k, d / 2 ^ (32 * k) % 2 ^ 32)

def addContrib (p : Path) (n : Nat) (xs : List Exact) (part : Bool) : Path :=
  let c := if xs.isEmpty then p.contrib else kset p.contrib n ((kget p.contrib n).getD [] ++ xs)
  { p with contrib := c, partials := if part && !p.partials.contains n then n :: p.partials else p.partials }

/-- The contributions of a store to the monitors of the core that its launch binds. -/
def storeContrib (s : State) (x : Ctx) (size : Nat) (m : Mask) (addrs data : List Nat) : State :=
  (s.core x.g.core).mons.foldl (fun s e =>
    if e.2.launch ≠ s.launchOf x.g then s
    else
      let ws := (lanesOf m).flatMap fun l => wholeWords size (addrs.getD l 0) (data.getD l 0)
      let xs := (ws.filter fun w => monHit e.2.cfg w.1).map fun w => monVal e.2.cfg w.2
      let part := decide (size < 4) && (lanesOf m).any fun l => monHit e.2.cfg (addrs.getD l 0 / 4 * 4)
      x.onPath s fun p => addContrib p e.1 xs part) s

def storeOp (i : Instr) (s : State) (rel strong gather : Bool) (size : Nat) (src : Group → Path → Plan)
    (data : Group → Path → List Nat) (base : BitVec 6) (b : VSrc) : Host.Outcome State Fault Refusal :=
  issue i s (fun g p => Plan.all [memPlan base b g p, src g p])
    fun s x =>
      let m := active x.g x.p
      let addrs := laneAddrs (x.base base) m (srcVals x.g x.p b)
      memOp s x .store .write size m addrs fun s =>
        storeContrib (x.add s m (.store rel strong gather size addrs (data x.g x.p))) x size m addrs (data x.g x.p)

/-- A store from one source. -/
def storeSrc (i : Instr) (s : State) (rel strong gather : Bool) (size : Nat) (d : VSrc) (base : BitVec 6) (b : VSrc) :=
  storeOp i s rel strong gather size (fun g p => planSrc g p (active g p) d) (fun g p => wordsData size (srcVals g p d)) base b

/-- A store from a span of `k` registers. -/
def storeSpan (i : Instr) (s : State) (rel strong gather : Bool) (k : Nat) (d : Fin 248) (base : BitVec 6) (b : VSrc) :=
  storeOp i s rel strong gather (4 * k) (fun g p => planSpan g (active g p) d.val k) (fun g _ => spanData g d.val k) base b

def stRel : StOrd → Bool
  | .rel => true
  | _ => false
def stStrong : StOrd → Bool
  | .plain => false
  | _ => true

def execStB (d : VSrc) (o : StOrd) (base : BitVec 6) (b : VSrc) (s : State) := storeSrc (.stB d o base b) s (stRel o) (stStrong o) false 1 d base b
def execStH (d : VSrc) (o : StOrd) (base : BitVec 6) (b : VSrc) (s : State) := storeSrc (.stH d o base b) s (stRel o) (stStrong o) false 2 d base b
def execSt (d : VSrc) (o : StOrd) (base : BitVec 6) (b : VSrc) (s : State) := storeSrc (.st d o base b) s (stRel o) (stStrong o) false 4 d base b
def execStD (d : Fin 248) (o : StOrd) (base : BitVec 6) (b : VSrc) (s : State) := storeSpan (.stD d o base b) s (stRel o) (stStrong o) false 2 d base b
def execStQ (d : Fin 248) (o : StOrd) (base : BitVec 6) (b : VSrc) (s : State) := storeSpan (.stQ d o base b) s (stRel o) (stStrong o) false 4 d base b
def execSts (d : VSrc) (o : GaOrd) (base : BitVec 6) (b : VSrc) (s : State) := storeSrc (.sts d o base b) s false (gaStrong o) true 4 d base b
def execStsD (d : Fin 248) (o : GaOrd) (base : BitVec 6) (b : VSrc) (s : State) := storeSpan (.stsD d o base b) s false (gaStrong o) true 2 d base b

/-! ## LDU and STU (R150) -/

/-- The address of LDU and STU: pair plus 4 * sub. -/
def uniAddr (g : Group) (a : Fin 192) (b : BitVec 8) : Nat := (g.upair a.val + 4 * b.toNat) % 2 ^ 64

/-- The load-cache line of an address (08 R166). -/
def lineKey (asid va : Nat) : Nat := 2 ^ 50 * asid + va / 128

/-- Lines of a load cache: 128 KiB of 128 bytes (08 R166). -/
def cacheLines : Nat := 1024

/-- Room for a new line: of a full cache one goes, which the spec does not say: a free choice (log entry 39). -/
def lineRoom (s : State) (core : Nat) : State :=
  let ls := (s.core core).lines
  if ls.length < cacheLines then s
  else
    let (n, s) := takeFree s
    s.setCore core { s.core core with lines := match ls[n % ls.length]? with
      | some e => kdel ls e.1
      | none => ls }

/-- Fill the line of an address from memory; a line that cannot be read whole is not kept. -/
def fillLine (s : State) (core asid va : Nat) : State :=
  let k := lineKey asid va
  match vread s core asid (va / 128 * 128) 128 with
  | .ok bs =>
    let s := if (kget (s.core core).lines k).isSome then s else lineRoom s core
    s.setCore core { s.core core with lines := kset (s.core core).lines k bs }
  | .error _ => s.setCore core { s.core core with lines := kdel (s.core core).lines k }

/-- The bytes of a plain load of operation `op`: from the line, where `cached` and present, else from memory, and the line is
filled. -/
def plainRead (s : State) (core asid op va n : Nat) (cached : Bool) : Except MErr (List Byte) × State :=
  match (if cached then kget (s.core core).lines (lineKey asid va) else none) with
  | some bs => (.ok ((bs.drop (va % 128)).take n), s)
  | none =>
    match readIn s core asid va n false (translateFor s core asid op va) with
    | .ok r => (.ok r, fillLine s core asid va)
    | .error e => (.error e, s)

/-- A plain read of memory that bypasses the load cache: no later plain load of the path may hit an older line there (16 R328), so the
line goes (log entry 115). -/
def bypassRead (s : State) (core asid op va n : Nat) : Except MErr (List Byte) × State :=
  match readIn s core asid va n false (translateFor s core asid op va) with
  | .ok r => (.ok r, s.setCore core { s.core core with lines := kdel (s.core core).lines (lineKey asid va) })
  | .error e => (.error e, s)

/-- The path, or one it came from, has an unperformed store or atomic on bytes of `[va, va + n)`: accesses of one path to one
location take effect in program order (R146). -/
def storeOverlap (g : Group) (mask : Mask) (before va n : Nat) : Bool :=
  g.ops.any fun e => decide (e.1 < before) && e.2.mask &&& mask ≠ 0 &&
    match e.2.kind with
    | .store _ _ _ size addrs _ => (lanesOf e.2.todo).any fun l => decide (addrs.getD l 0 < va + n) && decide (va < addrs.getD l 0 + size)
    | .atom _ _ addrs _ _ _ performed _ =>
      (lanesOf (e.2.todo &&& ~~~ performed)).any fun l => decide (addrs.getD l 0 < va + n) && decide (va < addrs.getD l 0 + 4)
    | _ => false

/-- An earlier load of the path of bytes of `[va, va + n)` is not bound. -/
def loadOverlap (g : Group) (mask : Mask) (num va n : Nat) : Bool :=
  before g num mask fun o => match o.kind with
    | .load _ _ _ size addrs _ => (lanesOf o.todo).any fun l => decide (addrs.getD l 0 < va + n) && decide (va < addrs.getD l 0 + size)
    | .mat _ => (scaleReads g.core o).any fun r => decide (r.1 < va + n) && decide (va < r.1 + r.2)
    | _ => false

/-- Memory link error and uncorrectable data found at completion (R145): 0x0C qualifies for the restart. -/
def dataFault (c va : Nat) : Res := if c = 0x0C then .qualified (trapAt c va) else .trap (trapAt c va)

/-- LDU waits for what narrow FENCEs order before it, or by a free choice goes ahead of it (16 R322; log entry 84). -/
def execLdu (d : UReg) (a : Fin 192) (b : BitVec 8) (s : State) : Host.Outcome State Fault Refusal :=
  issue (.ldu d a b) s (fun _ _ => Plan.all [planUspan a.val 2, planUdst d]) fun s x =>
    let va := uniAddr x.g a b
    let ks := narrowOpen x.g x.p.mask x.p.marks.narrow false
    let (c, s') := takeFree s
    if memHeld x.g x.p .load || storeOverlap x.g x.p.mask s.nextOp va 4 || loadOverlap x.g x.p.mask s.nextOp va 4
        || locked x.g.locks x.p.mask false x.g.asid va 4 then .hold
    else if !ks.isEmpty && !(mayPass x.g s.nextOp x.p.mask ks && c % 4 < 2) then .holdWith s'
    else
      match check145 s x.g.core x.g.asid .read 4 va 4 with
      | .error e => memFail s x (va, e)
      | .ok _ =>
        let (n, s) := takeFree (memOpen s x)
        let s := passFences s x.gid (x.grp s) x.p.mask [(x.g.asid, va, 4)] false ks
        match plainRead s x.g.core x.g.asid s.nextOp va 4 (n % 2 = 1 && ks.all fun k => !scopeWide k.sc) with
        | (.ok bs, s) => .done (x.onGroup s fun g => g.setUs d (BitVec.ofNat 32 (leNat bs)))
        | (.error e, s) => parkOr x s va e fun c => dataFault c va

def execStu (d : UReg) (a : Fin 192) (b : BitVec 8) (s : State) : Host.Outcome State Fault Refusal :=
  issue (.stu d a b) s (fun _ _ => Plan.all [planUspan a.val 2, planU d]) fun s x =>
    let va := uniAddr x.g a b
    memOp s x .store .write 4 1 [va] fun s =>
      storeContrib (x.add s 1 (.store false false false 4 [va] [(x.g.us d).toNat])) x 4 1 [va] [(x.g.us d).toNat]

/-! ## ATOM (R151) -/

/-- To HOST ranges only .add, .exch and .cas are legal. -/
def hostAtom : AOp → Bool
  | .add | .exch | .cas => true
  | _ => false

/-- An atomic is a commit point: it holds until nothing before it can fault, and the next word begins a region (R88). -/
def atomOp (i : Instr) (s : State) (ok : Word → Bool) (op : Word → AOp) (ord : AtOrd) (d : VReg) (pl : Group → Path → Plan)
    (ys : Group → List Nat) (base : BitVec 6) (b : VSrc) : Host.Outcome State Fault Refusal :=
  issue i s (fun g p => Plan.all [planIllegal (!ok g.mode), memPlan base b g p, pl g p])
    fun s x =>
      let m := active x.g x.p
      let addrs := laneAddrs (x.base base) m (srcVals x.g x.p b)
      let o := op x.g.mode
      if commitHold x then .hold
      else if m = 0 then .done (entryNext x s)
      else
        memOp s x .both (.atom (hostAtom o)) 4 m addrs fun s =>
          x.add (entryNext x s) m (.atom o ord addrs ((srcVals x.g x.p (dsrc d)).map (·.toNat)) (ys x.g) (dstAddr x.g d) 0 [])

/-- The one-operand forms: v[d] is the operand and receives the old value. -/
def atomOne (i : Instr) (s : State) (ok : Word → Bool) (op : Word → AOp) (ord : AtOrd) (d : VReg) (base : BitVec 6) (b : VSrc) :=
  atomOp i s ok op ord d (fun g p => planRW g (active g p) d) (fun _ => []) base b

def signedMode (m : Word) : Bool := modeType m = 0

def execAtomAdd (d : VReg) (o : AtOrd) (base : BitVec 6) (b : VSrc) (s : State) := atomOne (.atomAdd d o base b) s okAny (fun _ => .add) o d base b
def execAtomMin (d : VReg) (o : AtOrd) (base : BitVec 6) (b : VSrc) (s : State) := atomOne (.atomMin d o base b) s okCmp (fun m => .min (signedMode m)) o d base b
def execAtomMax (d : VReg) (o : AtOrd) (base : BitVec 6) (b : VSrc) (s : State) := atomOne (.atomMax d o base b) s okCmp (fun m => .max (signedMode m)) o d base b
def execAtomAnd (d : VReg) (o : AtOrd) (base : BitVec 6) (b : VSrc) (s : State) := atomOne (.atomAnd d o base b) s okAny (fun _ => .and) o d base b
def execAtomOr (d : VReg) (o : AtOrd) (base : BitVec 6) (b : VSrc) (s : State) := atomOne (.atomOr d o base b) s okAny (fun _ => .or) o d base b
def execAtomXor (d : VReg) (o : AtOrd) (base : BitVec 6) (b : VSrc) (s : State) := atomOne (.atomXor d o base b) s okAny (fun _ => .xor) o d base b
def execAtomExch (d : VReg) (o : AtOrd) (base : BitVec 6) (b : VSrc) (s : State) := atomOne (.atomExch d o base b) s okAny (fun _ => .exch) o d base b
def execAtomFadd (d : VReg) (o : AtOrd) (base : BitVec 6) (b : VSrc) (s : State) := atomOne (.atomFadd d o base b) s okAny (fun _ => .fadd) o d base b

/-- .cas compares with v[d] and stores v[d + 1], which keeps its value. -/
def execAtomCas (d : Fin 248) (o : AtOrd) (base : BitVec 6) (b : VSrc) (s : State) :=
  atomOp (.atomCas d o base b) s okAny (fun _ => .cas) o (.reg d)
    (fun g p => (planSpan g (active g p) d.val 2).and (planDstN g (active g p) d.val 1))
    (fun g => (g.v (d.val + 1)).map (·.toNat)) base b

/-! ## FENCE and RPREF (R152, R153) -/

/-- Wider than CORE. -/
def fenceWide : FenceScope → Bool
  | .sys => true
  | .at sc => scopeWide sc

/-- The scope, where it is narrower than PKG. -/
def fenceNarrow : FenceScope → Option Scope
  | .sys => none
  | .at sc => if scopeNarrow sc then some sc else none

/-- The marks after a FENCE with the next operation number `n`. One narrower than PKG holds nothing at issue: its mark says what it
orders for the agents of its domain (16 R322). -/
def fenceMarks (m : Marks) (k : FenceKind) (sc : FenceScope) (n : Nat) : Marks :=
  let m := { m with acqWide := m.acqWide || (fenceAcq k && fenceWide sc), fenced := m.fenced || fenceRel k }
  match fenceNarrow sc with
  | some c => { m with narrow := ⟨c, k, n⟩ :: m.narrow.filter fun e => !(e.sc = c && e.kind = k) }
  | none =>
    { m with
        acq := if fenceAcq k then n else m.acq
        rel := if fenceRel k then n else m.rel
        ar := if fenceAcq k && fenceRel k then n else m.ar }

/-- FENCE leaves its marks and goes on. -/
def execFence (k : FenceKind) (sc : FenceScope) (s : State) : Host.Outcome State Fault Refusal :=
  plainOp (.fence k sc) s fun s x => x.onPath s fun p => { p with marks := fenceMarks p.marks k sc s.nextOp }

/-- The chunks of a range that a window meets, ascending. -/
def windowChunks (d : Desc) (lo hi : Nat) : List Nat :=
  (List.range d.chunks).filter fun c =>
    decide (d.vbase + 65536 * c < hi) && decide (lo < d.vbase + (if 65536 * (c + 1) < d.length then 65536 * (c + 1) else d.length))

/-- Start the migration of every ABSENT range with AUTO-MIGRATE that the window meets (R153, R303). -/
def hintWindow (s : State) (iod asid lo hi : Nat) : State :=
  let r := s.root iod asid
  if !r.valid then s
  else
    (List.range r.count).foldl (fun s i =>
      let a := r.desc + 64 * i
      let d := s.desc a
      let cs := windowChunks d lo hi
      if d.state = 2 && d.auto && !cs.isEmpty then startMigration s asid a (cs.headD 0) [] cs else s) s

/-- RPREF is a hint and never traps or parks. -/
def execRpref (a : Fin 192) (b : Bool) (s : State) : Host.Outcome State Fault Refusal :=
  issue (.rpref a b) s (fun _ _ => planUspan a.val 2) fun s x =>
    let lo := (x.g.u a.val).toNat + 2 ^ 32 * ((x.g.u (a.val + 1)).toNat % 2 ^ 24)
    let n := (x.g.u (a.val + 1)).toNat / 2 ^ 24 + 1
    .done (hintWindow s (iodOf x.g.core) x.g.asid lo (lo + 65536 * n))

end Sys2Proof.Machine
end

