-- ==== Sys2Proof/Machine/Launch.lean ====
section
/-! DEFINITION. Launching from a kernel (spec/09_core_instructions.md R212, R213, spec/12 R248, spec/13 R277). -/
namespace Sys2Proof.Machine

/-! ## The launch record (R212) -/

def launchRecOfBytes (b : List Byte) : LaunchRec :=
  let f (o n : Nat) := leNat ((b.drop o).take n)
  { kdesc := f 0 8, args := BitVec.ofNat 64 (f 8 8), cohorts := f 16 4, lastlanes := f 20 1, prio := f 21 1, flags := f 22 2
    signal := f 24 8, sigadd := f 32 8, bquad := f 40 2, bdie := f 42 2, bpkg := f 44 4, bpod := f 48 4 }

/-- The limits of R248 on bquad. -/
def bquadOk (r : LaunchRec) (k : KDesc) : Bool :=
  r.bquad = 0 || (r.bquad % k.groups = 0 && decide (r.bquad ≤ 4 * k.groups) && r.cohorts * k.groups % r.bquad = 0)

/-- Byte offset of the first field that breaks R212 or R248; `k` is the installed descriptor that kdesc names.
The signal's alignment is judged where the signal is used, with flags bit 0 set (log entry 80). -/
def recBreak (r : LaunchRec) (rest : List Byte) (k : Option KDesc) : Option Nat :=
  match k with
  | none => some 0
  | some k =>
    if r.cohorts = 0 || 2 ^ 24 ≤ r.cohorts then some 16
    else if r.lastlanes = 0 || 64 < r.lastlanes then some 20
    else if 3 < r.prio then some 21
    else if 1 < r.flags then some 22
    else if r.flags = 1 && r.signal % 8 ≠ 0 then some 24
    else if !bquadOk r k then some 40
    else if rest.any (· ≠ 0) then some 52
    else none

/-! ## The pending-launch store (13 R277) -/

def fromDie (l : Launch) (die : Nat) : Bool :=
  match l.source with
  | .device d _ => d = die
  | .queue .. => false

/-- Entries held on a die, reserved ones included; of one tenant. -/
def entriesHeld (s : State) (die : Nat) : Nat :=
  (s.launches.filter fun e => e.2.holdsEntry && fromDie e.2 die).length + ((s.die die).lwaits.filter (·.reserved)).length

def entriesOf (s : State) (die t : Nat) : Nat :=
  (s.launches.filter fun e => e.2.holdsEntry && fromDie e.2 die && e.2.tenant = t).length
    + ((s.die die).lwaits.filter fun w => w.reserved && w.tenant = t).length

/-- The tenant may hold another entry. -/
def underCap (s : State) (die t : Nat) : Bool := decide (entriesOf s die t < (s.tenant t).lcap)

/-- The free entries that blocked LAUNCHes await, by tenant: in the order they blocked, within each tenant's cap. -/
def entriesOwed (s : State) (die : Nat) : List Nat :=
  (s.die die).lwaits.foldl (fun ts w =>
    if !w.reserved && decide (entriesOf s die w.tenant + (ts.filter (· = w.tenant)).length < (s.tenant w.tenant).lcap) then ts ++ [w.tenant]
    else ts) []

/-- Full for a tenant: no free entry, or its cap reached; an entry that a blocked LAUNCH awaits is not free. -/
def storeFull (s : State) (die t : Nat) : Bool :=
  let owed := entriesOwed s die
  decide (2048 ≤ entriesHeld s die + owed.length)
    || decide ((s.tenant t).lcap ≤ entriesOf s die t + (owed.filter (· = t)).length)

/-- Enqueue a launch of the group's tenant; a tenant without a valid descriptor loses it with an event of type 3 (20 R375). -/
def enqueueLaunch (s : State) (x : Ctx) (r : LaunchRec) (k : KDesc) (addr : Nat) : State :=
  let die := x.g.core / 256
  let t := s.tenantOf x.g.asid
  let l : Launch :=
    { rcd := r, kd := k, asid := x.g.asid, tenant := t, source := .device die addr, dies := [die], order := s.nextOp,
      nextCohort := 0, live := 0, holdsEntry := true, killed := false, aborted := false, headSince := none }
  if (s.tenant t).valid then { s with launches := kset s.launches s.nextOp l, nextOp := s.nextOp + 1 }
  else launchEvent s l 3 0x09 0xFFFFFFFF

def dropWait (s : State) (x : Ctx) : State :=
  let d := s.die (x.g.core / 256)
  s.setDie (x.g.core / 256) { d with lwaits := d.lwaits.filter fun w => !(w.gid = x.gid && w.uid = x.p.uid) }

/-- A wait of this path for an entry. -/
def myWait (s : State) (x : Ctx) : Option LWait := (s.die (x.g.core / 256)).lwaits.find? fun w => w.gid = x.gid && w.uid = x.p.uid

/-- Read the record and check it, then go on with it (R213). -/
def withRecord (s : State) (x : Ctx) (a : Nat) (k : LaunchRec → KDesc → Nat → Res) : Res :=
  let va := x.g.upair a
  match check145 s x.g.core x.g.asid .read 64 va 64 with
  | .error e => memFail s x (va, e)
  | .ok _ =>
    match vread s x.g.core x.g.asid va 64 with
    | .error e => parkOr x s va e.err fun c => dataFault c va
    | .ok b =>
      let r := launchRecOfBytes b
      let kd := kdescAt s x.g.core x.g.asid r.kdesc
      match recBreak r (b.drop 52) kd, kd with
      | some o, _ => .trap (trapCause 0x16 o)
      | none, some kd => k r kd va
      | none, none => .trap (trapCause 0x16 0)

/-- LAUNCH: its own region; with the store full it blocks until an entry is reserved for it, and then reads and judges its record again (log
entry 97). -/
def execLaunch (a : Fin 192) (s : State) : Host.Outcome State Fault Refusal :=
  issue (.launch a) s (fun _ _ => planUspan a.val 2) fun s x => atOwnEntry s x fun s x =>
    withRecord s x a.val fun r k va =>
      let die := x.g.core / 256
      let t := s.tenantOf x.g.asid
      match myWait s x with
      | some w =>
        if w.reserved then .done (entryNext x (enqueueLaunch (dropWait s x) x r k va)) else .block s .launch
      | none =>
        if (s.tenant t).valid && storeFull s die t then
          .block (s.setDie die { s.die die with lwaits := (s.die die).lwaits ++ [⟨x.gid, x.p.uid, t, false⟩] }) .launch
        else .done (entryNext x (enqueueLaunch s x r k va))

/-- LAUNCHT: a commit point; p[d] says whether the launch was enqueued. The record is read after the path's earlier stores (06
R146). -/
def execLauncht (d : Fin 8) (a : Fin 192) (s : State) : Host.Outcome State Fault Refusal :=
  issue (.launcht d a) s (fun g p => Plan.all [planUspan a.val 2, planPdst (pathLanes g p) d.val]) fun s x =>
    if !storesDone x.g x.p then .hold
    else withRecord s x a.val fun r k va =>
      if !accessesDone x.g x.p || commitHold x then .hold
      else
        let t := s.tenantOf x.g.asid
        let full := (s.tenant t).valid && storeFull s (x.g.core / 256) t
        let s := if full then s else enqueueLaunch s x r k va
        let m := pathLanes x.g x.p
        .done (entryNext x (x.onGroup s fun g => g.setPred d.val m (if full then 0 else m)))

end Sys2Proof.Machine
end

