-- ==== Sys2Proof/Machine/Scratch.lean ====
section
/-! DEFINITION. Scratchpad access and the tile table (spec/09_core_instructions.md R193 to R198, spec/08_core.md R167 to R170,
spec/12_quad.md R253). -/
namespace Sys2Proof.Machine

/-! ## The rows of R169 -/

/-- Whether a tile's state lets an instruction act; a trap carries its cause. -/
inductive TileVerdict where
  | go (tile : Nat)
  | hold
  | trap (cause : Nat)
  deriving DecidableEq, Repr

def stateNum : TState → Nat
  | .empty => 0
  | .filling => 1
  | .ready => 2
  | .draining => 3

/-- The rows: what reads a tile, SPST, what fills it, COPYO, TREL, TCLAIM. -/
inductive TileRow where
  | read | spst | fill | copyo | trel | claim
  deriving DecidableEq, Repr

/-- FILLING by the group's own soft claim. -/
def ownSoft (g : Group) (t : Tile) : Bool := t.state = .filling && t.soft && t.owner = g.grpidx

/-- `some true` proceeds, `some false` holds, `none` traps. -/
def rowSays (g : Group) (t : Tile) (r : TileRow) : Option Bool :=
  match t.state, r with
  | .empty, .fill | .empty, .claim => some true
  | .empty, _ => none
  | .filling, .spst | .filling, .trel => some (ownSoft g t)
  | .filling, .read | .filling, .copyo => if ownSoft g t then none else some false
  | .filling, _ => none
  | .ready, .claim => none
  | .ready, _ => some true
  | .draining, .read => some true
  | .draining, .copyo => some (decide (t.drains < 7))
  | .draining, .claim => none
  | .draining, _ => some false

/-- A publication of the tile stands, or its own chain hop is in flight (R253, R257). -/
def tilePublished (s : State) (core tile : Nat) : Bool := (s.quad (core / 4)).pubs.any fun e => e.2.tile = ⟨core, tile⟩

/-- The scratchpad tile a location word names (10 R227). -/
def locTile (s : State) (g : Group) (w : Word) : Option Nat :=
  if w.toNat / 256 % 2 = 1 then (s.tilesOf g)[w.toNat % 256]? else none

/-- The scratchpad tiles a matrix operation reads on its core. -/
def opTiles (s : State) (g : Group) (o : Op) : List Nat :=
  match o.kind with
  | .mat (.mma form _ lo hi ..) =>
    (locTile s g lo).toList ++ (match form with
      | .solo => (locTile s g hi).toList
      | .pair => if g.core % 2 = 0 then (locTile s g hi).toList else []
      | _ => [])
  | _ => []

/-- A matrix operation of the core that has yet to fetch reads the tile (10 R223). -/
def tileRead (s : State) (core k : Nat) : Bool :=
  (s.core core).mq.any fun e => match s.group e.1 with
    | some g => (kget g.ops e.2).any fun o => o.todo ≠ 0 && (opTiles s g o).contains k
    | none => false

/-- The group's tile x under a row: no such tile, a pending release of the group, the row, and the hold of a publication. -/
def tileCheck (s : State) (gid : Nat) (g : Group) (x : Nat) (r : TileRow) : TileVerdict :=
  match (s.tilesOf g)[x]? with
  | none => .trap 6
  | some k =>
    let t := (s.core g.core).tile k
    if t.relBy.any (·.1 = gid) then .trap 4
    else
      match rowSays g t r with
      | none => .trap (stateNum t.state)
      | some false => .hold
      | some true =>
        if (match r with
          | .fill | .spst | .trel => true
          | _ => false) && tilePublished s g.core k then .hold
        else if (match r with
          | .fill | .trel => true
          | _ => false) && tileRead s g.core k then .hold
        else .go k

/-- Change a tile-table entry. -/
def setTileAt (s : State) (core k : Nat) (f : Tile → Tile) : State :=
  s.setCore core ((s.core core).setTile k (f ((s.core core).tile k)))

/-- The scratchpad leaves retention; the access that asks holds meanwhile (15 R316). -/
def exitScr (s : State) (core : Nat) : State := s.setCore core { s.core core with retScr := false }

/-- An instruction on a tile: the check, then its effect. -/
def withTile (s : State) (x : Ctx) (n : Nat) (r : TileRow) (k : Nat → Res) : Res :=
  match tileCheck s x.gid x.g n r with
  | .trap c => .trap (trapCause 0x13 c)
  | .hold => .hold
  | .go t => if (s.core x.g.core).retScr then .holdWith (exitScr s x.g.core) else k t

/-! ## SPLD and SPST (R193) -/

/-- The lanes' offsets, read unsigned. -/
def spOffs (g : Group) (p : Path) (b : VSrc) : List Nat := (srcVals g p b).map (·.toNat)

/-- The lane checks of R193, in their order; daddr is the offset for a range fault. -/
def offTrap (m : Mask) (offs : List Nat) : Option TrapInfo :=
  let ls := lanesOf m
  if ls.any fun l => offs.getD l 0 % 4 ≠ 0 then some (trapOf 0x0A)
  else (ls.find? fun l => decide (4096 ≤ offs.getD l 0)).map fun l => trapAt 0x07 (offs.getD l 0)

/-- What SPLD does, for SPLD and for an SPRD of the issuing core (R254). -/
def spldBody (s : State) (x : Ctx) (d : VReg) (tile : Nat) (b : VSrc) : Res :=
  withTile s x tile .read fun k =>
    let m := active x.g x.p
    let offs := spOffs x.g x.p b
    match offTrap m offs with
    | some t => .trap t
    | none =>
      if m = 0 then .done s
      else if spfHeld x.g x.p || memHeld x.g x.p .load || full x.g isLoad then .hold
      else .done (x.add (memOpen s x) m (.spld ⟨x.g.core, k⟩ offs (dstAddr x.g d)))

def execSpld (d : VReg) (a : Fin 192) (b : VSrc) (s : State) : Host.Outcome State Fault Refusal :=
  issue (.spld d a b) s
    (fun g p => Plan.all [planGuard g p, planSrc g p (active g p) b, planDst g (active g p) d])
    fun s x => spldBody s x d a.val b

/-- The current region writes tile `k`, or slot `k - 4096` (08 R181). -/
def noteFill (x : Ctx) (k : Nat) (s : State) : State :=
  x.onPath s fun p => { p with fills := if p.fills.contains k then p.fills else k :: p.fills }

def execSpst (d : VSrc) (a : Fin 192) (b : VSrc) (s : State) : Host.Outcome State Fault Refusal :=
  issue (.spst d a b) s
    (fun g p => Plan.all [planGuard g p, planSrc g p (active g p) b, planSrc g p (active g p) d])
    fun s x =>
      withTile s x a.val .spst fun k =>
        let m := active x.g x.p
        let offs := spOffs x.g x.p b
        match offTrap m offs with
        | some t => .trap t
        | none =>
          if m = 0 then .done s
          else if memHeld x.g x.p .store || full x.g isStore then .hold
          else .done (noteFill x k <| x.add (memOpen s x) m (.spst ⟨x.g.core, k⟩ offs ((srcVals x.g x.p d).map (·.toNat))))

/-! ## Claims, releases, status, SPFENCE (R195 to R198) -/

/-- A tile claimed anew is no longer one that an earlier SPFENCE of the group makes READY (R169). -/
def unfence (g : Group) (k : Nat) : Group :=
  { g with
      paths := g.paths.map fun e => (e.1, { e.2 with spfence := e.2.spfence.filter (· ≠ k) })
      fenceLeft := { g.fenceLeft with tiles := g.fenceLeft.tiles.filter (· ≠ k) }
      handler := g.handler.map fun h => { h with fenceLeft := { h.fenceLeft with tiles := h.fenceLeft.tiles.filter (· ≠ k) } } }

def execTclaim (d : Fin 192) (s : State) : Host.Outcome State Fault Refusal :=
  issue (.tclaim d) s (fun _ _ => Plan.none) fun s x =>
    withTile s x d.val .claim fun k =>
      let s := setTileAt s x.g.core k fun t => { t with state := .filling, soft := true, owner := x.g.grpidx }
      .done (x.onPath (x.onGroup s fun g => unfence g k) fun p => { p with claims := k :: p.claims })

/-- The release is pending until the path's next region entry (R196). -/
def execTrel (d : Fin 192) (s : State) : Host.Outcome State Fault Refusal :=
  issue (.trel d) s (fun _ _ => Plan.none) fun s x =>
    withTile s x d.val .trel fun k =>
      let s := setTileAt s x.g.core k fun t => { t with relBy := (x.gid, x.pid) :: t.relBy }
      .done (x.onPath s fun p => { p with trel := k :: p.trel })

/-- The entry as TSTAT reads it (08 R168). -/
def tileWord (t : Tile) : Word :=
  BitVec.ofNat 32 (stateNum t.state + (if t.soft then 4 else 0) + 8 * (t.drains % 8) + 256 * (t.owner % 16))

def execTstat (d : UReg) (a : Fin 192) (s : State) : Host.Outcome State Fault Refusal :=
  issue (.tstat d a) s (fun _ _ => planUdst d) fun s x =>
    match (s.tilesOf x.g)[a.val]? with
    | none => .trap (trapCause 0x13 6)
    | some k => .done (x.onGroup s fun g => g.setUs d (tileWord ((s.core x.g.core).tile k)))

/-- The tiles that the group holds FILLING by its own soft claim. -/
def softTiles (s : State) (g : Group) : List Nat :=
  (s.tilesOf g).filter fun k =>
    let t := (s.core g.core).tile k
    t.state = .filling && t.soft && t.owner = g.grpidx

def execSpfence (s : State) : Host.Outcome State Fault Refusal :=
  plainOp .spfence s fun s x =>
    let c := s.core x.g.core
    let n := s.nextOp
    let s := s.setCore x.g.core { c with otags := c.otags.filter fun t => t.asid ≠ x.g.asid }
    x.onPath s fun p => { p with spfence := p.spfence ++ softTiles s x.g, marks := { p.marks with spf := n } }

end Sys2Proof.Machine
end

