-- ==== Sys2Proof/Machine/Copies.lean ====
section
/-! DEFINITION. The copy instructions and PUBLISH (spec/09_core_instructions.md R199 to R206, spec/15 R292, R300, R301). The
transfers themselves are steps of the copy engines. -/
namespace Sys2Proof.Machine

/-! ## Operand words (R199) -/

def shapePitch (w : Word) : Nat := w.toNat % 2 ^ 24
def shapeRows (w : Word) : Nat := w.toNat / 2 ^ 24 % 64
def shapeOk (w : Word) : Bool := decide (w.toNat < 2 ^ 30) && decide (1 ≤ shapeRows w) && decide (shapeRows w ≤ 32)

def gatherSize (w : Word) : Nat := w.toNat % 65536
def gatherCount (w : Word) : Nat := w.toNat / 65536
def gatherOk (w : Word) : Bool :=
  gatherSize w % 4 = 0 && decide (4 ≤ gatherSize w) && decide (1 ≤ gatherCount w) && decide (gatherCount w ≤ 1024)
    && decide (gatherCount w * gatherSize w ≤ 4096)

def handleSlot (h : Word) : Nat := h.toNat % 64
def handleOff (h : Word) : Nat := h.toNat / 64 % 512
def handleOk (h : Word) : Bool := decide (h.toNat < 2 ^ 15)

def lengthOk (h l : Word) : Bool :=
  l.toNat % 64 = 0 && decide (64 ≤ l.toNat) && decide (l.toNat ≤ 32768) && decide (handleOff h * 64 + l.toNat ≤ 32768)

/-! ## Checks of bytes -/

/-- The check of a row, with the address that fails: the first byte past its range, where the row leaves it (R292). -/
def spanFail (s : State) (core asid : Nat) (k : AKind) (va n : Nat) : Nat × Except MErr Unit :=
  match translate s core asid va with
  | some (_, d) => (if d.vbase + d.length < va + n then d.vbase + d.length else va, checkSpan s core asid k va n)
  | none => (va, checkSpan s core asid k va n)

/-- The row addresses of a shape. -/
def rowAddrs (addr pitch rows : Nat) : List Nat := (List.range rows).map fun i => (addr + i * pitch) % 2 ^ 64

/-- The first failing check over the rows of 128 bytes. -/
def checkRows (s : State) (x : Ctx) (k : AKind) (addr : Nat) (w : Word) : Option (Nat × MErr) :=
  firstFailure ((rowAddrs addr (shapePitch w) (shapeRows w)).map fun va => spanFail s x.g.core x.g.asid k va 128)

/-- The checks of COPY and COPYO in their order, then `ok`. -/
def shapeChecks (s : State) (x : Ctx) (k : AKind) (addr : Nat) (w : Word) (ok : Res) : Res :=
  if addr % 16 ≠ 0 then .trap (trapAt 0x0A addr)
  else if shapePitch w % 16 ≠ 0 then .trap (trapOf 0x0A)
  else if !shapeOk w then .trap (trapOf 0x06)
  else
    match checkRows s x k addr w with
    | some f => memFail s x f
    | none => ok

/-- A tile begins to fill from a copy. -/
def startFill (s : State) (core k : Nat) : State :=
  setTileAt s core k fun t => { t with state := .filling, soft := false }

def execCopy (d a : Fin 192) (b : UReg) (s : State) : Host.Outcome State Fault Refusal :=
  issue (.copy d a b) s (fun _ _ => Plan.all [planUspan a.val 2, planU b]) fun s x =>
    let addr := x.g.upair a.val
    let w := x.g.us b
    shapeChecks s x .read addr w <|
      withTile s x d.val .fill fun k =>
        if full x.g isCopy then .hold
        else .done (noteFill x k <| x.add (startFill s x.g.core k) (lanesBelow (shapeRows w))
          (.copy ⟨x.g.core, k⟩ addr (shapePitch w) (shapeRows w)))

/-- The bytes of a gather list, byte by byte (R201). -/
def checkList (s : State) (x : Ctx) (va n : Nat) : Option (Nat × MErr) :=
  match checkBytes s x.g.core x.g.asid .read (n / 256 + 2) va n with
  | .error e => some (e.va, e.err)
  | .ok _ => none

def execCopyg (d a : Fin 192) (b : UReg) (s : State) : Host.Outcome State Fault Refusal :=
  issue (.copyg d a b) s (fun _ _ => Plan.all [planUspan a.val 2, planU b]) fun s x =>
    let list := x.g.upair a.val
    let w := x.g.us b
    if list % 8 ≠ 0 then .trap (trapAt 0x0A list)
    else if !gatherOk w then .trap (trapOf 0x06)
    else
      match checkList s x list (8 + 4 * gatherCount w) with
      | some f => memFail s x f
      | none =>
        withTile s x d.val .fill fun k =>
          if full x.g isCopy then .hold
          else .done (noteFill x k <| x.add (startFill s x.g.core k) 1
            (.copyg ⟨x.g.core, k⟩ list (gatherSize w) (gatherCount w) [] (List.range (gatherCount w))))

/-- COPYO is a commit point (R202). -/
def execCopyo (d a : Fin 192) (b : UReg) (s : State) : Host.Outcome State Fault Refusal :=
  issue (.copyo d a b) s (fun _ _ => Plan.all [planUspan d.val 2, planU b]) fun s x =>
    let addr := x.g.upair d.val
    let w := x.g.us b
    shapeChecks s x .write addr w <|
      withTile s x a.val .copyo fun k =>
        if full x.g isCopy || commitHold x then .hold
        else
          let s := setTileAt s x.g.core k fun t => { t with state := .draining, drains := t.drains + 1 }
          .done (x.add (entryNext x s) (lanesBelow (shapeRows w)) (.copyo ⟨x.g.core, k⟩ addr (shapePitch w) (shapeRows w)))

/-! ## COPYW (R203, 08 R176) -/

/-- A slot's next generation; its operand-cache entries go (08 R178). -/
def raiseGen (c : Core) (n : Nat) : Core :=
  let sl := c.slot n
  { (c.setSlot n { sl with gen := (sl.gen + 1) % 65536 }) with otags := c.otags.filter fun t => t.slot ≠ n }

/-- The slot that the B operand of an operation names, while it has not been fetched: on the issuing core for MMAW, on the lead
core for MMAQ (10 R233). -/
def opSlot (core : Nat) (o : Op) : Option Nat :=
  match o.kind with
  | .mat (.mma .weight _ _ hi ..) => if o.todo ≠ 0 then some (handleSlot hi) else none
  | .mat (.mma .quad _ _ hi ..) => if o.todo ≠ 0 && core % 4 = 0 then some (handleSlot hi) else none
  | _ => none

/-- A queued matrix operation of the core has yet to fetch its B operand from the slot. -/
def slotReaders (s : State) (core n : Nat) : Bool :=
  (s.core core).mq.any fun e => match (s.group e.1).bind fun g => kget g.ops e.2 with
    | some o => opSlot core o = some n
    | none => false

def execCopyw (d : UReg) (a : Fin 192) (b : UReg) (s : State) : Host.Outcome State Fault Refusal :=
  issue (.copyw d a b) s (fun _ _ => Plan.all [planU d, planUspan a.val 2, planU b]) fun s x =>
    let h := x.g.us d
    let addr := x.g.upair a.val
    let l := x.g.us b
    let c := s.core x.g.core
    let sl := c.slot (handleSlot h)
    if !handleOk h || !lengthOk h l then .trap (trapOf 0x06)
    else if addr % 64 ≠ 0 then .trap (trapAt 0x0A addr)
    else if !sl.valid || sl.asid ≠ x.g.asid then .trap (trapOf 0x08)
    else
      match spanFail s x.g.core x.g.asid .read addr l.toNat with
      | (va, .error e) => memFail s x (va, e)
      | (_, .ok _) =>
        if sl.retained then .holdWith (s.setCore x.g.core (c.setSlot (handleSlot h) { sl with retained := false }))
        else if sl.busy || !sl.pend.isEmpty || slotReaders s x.g.core (handleSlot h) || full x.g isCopy then .hold
        else
          let c := raiseGen c (handleSlot h)
          let c := c.setSlot (handleSlot h) { c.slot (handleSlot h) with busy := true }
          .done (noteFill x (4096 + handleSlot h) <| x.add (s.setCore x.g.core c) (lanesBelow ((l.toNat + 511) / 512))
            (.copyw (handleSlot h) (64 * handleOff h) addr l.toNat))

/-! ## PUBLISH (R206, 15 R300, R301) -/

/-- Flip the current half of a range; no later read returns the old half, so its cached lines go (R301, 16 R329). -/
def flipHalf (s : State) (asid a : Nat) (d : Desc) : State :=
  dropLines (s.setAux a { s.aux a with half := !(s.aux a).half }) asid d.vbase d.length

def execPublish (a : Fin 192) (s : State) : Host.Outcome State Fault Refusal :=
  issue (.publish a) s (fun _ _ => planUspan a.val 2) fun s x =>
    let va := x.g.upair a.val
    match check145 s x.g.core x.g.asid .write 1 va 1 with
    | .error e => memFail s x (va, e)
    | .ok _ =>
      match translate s x.g.core x.g.asid va with
      | none => .trap (trapAt 0x07 va)
      | some (r, d) =>
        if !d.pair then .trap (trapAt 0x08 va)
        else if !accessesDone x.g x.p || countOps x.g isCopy ≠ 0 || commitHold x then .hold
        else .done (entryNext x (flipHalf s x.g.asid r d))

end Sys2Proof.Machine
end

