-- ==== Sys2Proof/Machine/Fetch.lean ====
section
/-! DEFINITION. Fetching a word (spec/01 R8, R19, R21) and the moves of the agents outside the package that the agenda may hold:
stores of the host to its own memory, traffic from other packages, upsets of stored bits, and the passing of time. -/
namespace Sys2Proof.Machine

/-- The word at `pc`, or why it cannot be fetched (R19). At a pc that is not word-aligned the fetch is misaligned, 0x0A (log entry 118). -/
def fetchWord (s : State) (core asid : Nat) (pc : Addr) : Except MErr Word :=
  let va := pc.toNat
  match check145 s core asid .fetch 4 va 4 with
  | .error e => .error e
  | .ok _ =>
    match readUnit s core asid va 4 with
    | .error e => .error e
    | .ok [b0, b1, b2, b3] => .ok (wordOfBytes b0 b1 b2 b3)
    | .ok _ => .error (.trap 0x07)

/-- A path that cannot fetch, or whose word is no instruction, traps at the word; an absent chunk parks it (R304). -/
def noWord (s : State) (gid pid : Nat) (word : Word) (e : MErr) : State :=
  match s.group gid with
  | none => s
  | some g =>
    match g.path pid with
    | none => s
    | some p =>
      match beforeWord s gid g with
      | some t => t
      | none =>
        if p.entryDue.isSome && !drained g p then s
        else
          let s := match p.entryDue with
            | some idx => enterRegion s gid pid idx
            | none => s
          let x : Ctx := ⟨gid, pid, g, p, word⟩
          match e with
          | .trap 0x0C => faultOrRestart s gid pid (trapOf 0x0C) false p.pc.toNat word
          | .trap c => trapEnter s gid (trapOf c) pid false p.pc.toNat word
          | .start a => finish x Plan.none (askChunk s g.asid p.pc.toNat e)
              (.block (askChunk s g.asid p.pc.toNat e) (.chunk a ((p.pc.toNat - (s.desc a).vbase) / 65536)))
          | .chunk a c => finish x Plan.none s (.block (askChunk s g.asid p.pc.toNat e) (.chunk a c))
          | .held => s

/-- Cycles pass: the time base runs, and each resident group that is runnable counts them (13 R279). -/
def runnable (g : Group) : Bool := g.status = .resident && g.paths.any fun e => match e.2.status with
  | .blocked _ => false
  | _ => true

def elapse (s : State) (n : Nat) : State :=
  { s with
      now := s.now + n
      groups := s.groups.map fun e => if runnable e.2 then (e.1, { e.2 with stall := e.2.stall + n }) else e }

/-- Fill a lookaside entry from the walk (15 R292); the oldest of 128 goes. -/
def rlbFill (s : State) (core asid va : Nat) : State :=
  match walk s (iodOf core) asid va with
  | none => s
  | some (a, d) =>
    let c := s.core core
    if c.rlb.any fun e => e.asid = asid && e.vbase = d.vbase then s
    else s.setCore core { c with rlb := (⟨asid, d.vbase, d.length, d.gen, a⟩ :: c.rlb).take 128 }

/-! ## Data errors (08 R191, 15 R315; error counters spec/20 R355) -/

def addTo (l : List Nat) (n : Nat) : List Nat := if l.contains n then l else n :: l

/-- The error counters saturate. -/
def oneMore (n : Nat) : Nat := if n < 2 ^ 32 - 1 then n + 1 else n

/-- An uncorrectable error in an array of a core is counted on its die. -/
def countUncorr (s : State) (core : Nat) : State :=
  s.setDie (core / 256) { s.die (core / 256) with errUncorr := oneMore (s.die (core / 256)).errUncorr }

/-- A corrected error of a die's arrays is counted and has no other effect. -/
def countCorr (s : State) (die : Nat) : State := s.setDie die { s.die die with errCorr := oneMore (s.die die).errCorr }

/-- A read of HBM that corrects an error counts it at the home die of the address (15 R287, R315). -/
def countHbm (s : State) (pa : Nat) : State :=
  if hbmLimit ≤ pa then s
  else s.setDie (homeDie pa) { s.die (homeDie pa) with hbmCorr := oneMore (s.die (homeDie pa)).hbmCorr }

/-- A word of register space goes bad. -/
def poisonWord (s : State) (gid w : Nat) : State :=
  match s.group gid with
  | none => s
  | some g => countUncorr (s.setGroup gid { g with regPoison := addTo g.regPoison w }) g.core

/-- A scratchpad byte goes bad. -/
def poisonTile (s : State) (core b : Nat) : State :=
  countUncorr (s.setCore core { s.core core with scrPoison := addTo (s.core core).scrPoison b }) core

/-- A unit of the weight store goes bad. -/
def poisonSlot (s : State) (core u : Nat) : State :=
  countUncorr (s.setCore core { s.core core with wsPoison := addTo (s.core core).wsPoison u }) core

/-- An accumulator element goes bad. -/
def poisonBank (s : State) (core b e : Nat) : State :=
  countUncorr (s.setCore core { s.core core with
    banks := kupd (s.core core).banks b fun x => { x with poison := addTo x.poison e } }) core

end Sys2Proof.Machine
end

