-- ==== Sys2Proof/Machine/Barrier.lean ====
section
/-! DEFINITION. Waiting on memory and barriers (spec/09_core_instructions.md R207 to R211, spec/18 R345). -/
namespace Sys2Proof.Machine

/-! ## WAITM (R207) -/

/-- Conditions compare unsigned (01 R26). -/
def wcondHolds (c : WCond) (m v : Nat) : Bool :=
  match c with
  | .eq => m = v
  | .ne => m ≠ v
  | .geu => decide (v ≤ m)
  | .gtu => decide (v < m)
  | .ltu => decide (m < v)
  | .leu => decide (m ≤ v)
  | .andnz => m &&& v ≠ 0
  | .andz => m &&& v = 0

/-- The operand: a word, or a pair. -/
def waitmOperand (g : Group) (wide : Bool) (b : UReg) : Nat :=
  match wide, b with
  | true, .reg n => g.upair n.val
  | _, b => (g.us b).toNat

/-- WAITM completes with an acquire: the load cache goes, and the next word begins a region. -/
def waitmDone (x : Ctx) (s : State) : State := entryNext x (dropCache s x.g.core)

/-- WAITM; one that an evaluation of the memory side has met in its resident group completes without another (R208; log entry 78). -/
def execWaitm (c : WCond) (wide : Bool) (a : Fin 192) (b : UReg) (s : State) : Host.Outcome State Fault Refusal :=
  issue (.waitm c wide a b) s
    (fun _ _ => Plan.all [planUspan a.val 2, match wide, b with
      | true, .reg n => planUspan n.val 2
      | _, b => planU b])
    fun s x => atOwnEntry s x fun s x =>
      let va := x.g.upair a.val
      let n := if wide then 8 else 4
      match check145 s x.g.core x.g.asid .read n va n with
      | .error e => memFail s x (va, e)
      | .ok _ =>
        if x.p.status = .woken then .done (waitmDone x s)
        else if locked x.g.locks x.p.mask false x.g.asid va n then .hold
        else
          match readUnit s x.g.core x.g.asid va n with
          | .error e => parkOr x s va e fun c => dataFault c va
          | .ok bs =>
            let v := waitmOperand x.g wide b
            if wcondHolds c (leNat bs) v then .done (waitmDone x s) else .block s (.waitm va c wide v [])

/-! ## BAR, BARA, BARW (R209 to R211) -/

/-- The scope of the issuing group's launch has an expected count (R209). -/
def barCounted (s : State) (x : Ctx) (sc : Scope) : Bool :=
  match sc with
  | .group | .core => true
  | _ => ((kget s.launches (s.launchOf x.g)).map fun l => recordCount l.rcd sc).getD 0 ≠ 0

/-- A quad arrival waits for the group's SPRDs of a publication at the index (12 R253). -/
def barHeld (s : State) (x : Ctx) (sc : Scope) (idx : Nat) : Bool :=
  arrivalOpen s x sc idx || (sc = .quad && sprdOpen x.g idx)

/-- The second part of BAR, and BARW: block until the group's last arrival has completed; a drifting phase traps each group
once; else the wait is over. -/
def waitFor (s : State) (x : Ctx) (sc : Scope) (idx : Nat) : Res :=
  let g := x.grp s
  if waitOpen s x.gid g sc idx then .block s (.bar sc idx)
  else
    match driftDue s x.gid g sc idx with
    | some (b, ph, d) => .trapWith (s.setBarrier { b with told := (x.gid, ph) :: b.told }) (driftInfo d)
    | none =>
      let s := x.onGroup s fun g => { g with made := kdel g.made x.pid }
      .done (entryNext x (if scopeWide sc then dropCache s x.g.core else s))

/-- BAR arrives once, then waits; re-executed it completes without arriving again (08 R182). -/
def execBar (d : BitVec 8) (b : Scope) (s : State) : Host.Outcome State Fault Refusal :=
  issue (.bar d b) s (fun _ _ => Plan.none) fun s x => atOwnEntry s x fun s x =>
    if !barCounted s x b then .trap (trapOf 0x16)
    else if (kget x.g.made x.pid).isSome then waitFor s x b d.toNat
    else if barHeld s x b d.toNat then .hold
    else
      let s := arrive s x b d.toNat
      waitFor (x.onGroup s fun g => { g with made := kset g.made x.pid x.p.pc.toNat }) x b d.toNat

/-- BARA is a commit point; its arrival waits for the path's stores and atomics (R211). -/
def execBara (d : BitVec 8) (b : Scope) (s : State) : Host.Outcome State Fault Refusal :=
  issue (.bara d b) s (fun _ _ => Plan.none) fun s x =>
    if !barCounted s x b then .trap (trapOf 0x16)
    else if barHeld s x b d.toNat || commitHold x || !storesDone x.g x.p then .hold
    else .done (entryNext x (arrive s x b d.toNat))

def execBarw (d : BitVec 8) (b : Scope) (s : State) : Host.Outcome State Fault Refusal :=
  issue (.barw d b) s (fun _ _ => Plan.none) fun s x => atOwnEntry s x fun s x =>
    if !barCounted s x b then .trap (trapOf 0x16) else waitFor s x b d.toNat

end Sys2Proof.Machine
end

