-- ==== Sys2Proof/Machine/Monitor.lean ====
section
/-! DEFINITION. The monitor instructions (spec/18_conservation_monitors.md R339 to R341, R346 to R350). -/
namespace Sys2Proof.Machine

/-! ## The configuration block (R341) -/

def blockWord (ws : List Word) (k : Nat) : Nat := (ws.getD k 0).toNat

/-- The block in six words, where its fields keep their limits. -/
def monCfgOf (ws : List Word) : Option MonCfg :=
  let w (k : Nat) : Nat := blockWord ws k
  let f (k lo n : Nat) : Nat := w k / 2 ^ lo % 2 ^ n
  match scopeOf (f 4 5 3) with
  | .error _ => none
  | .ok sc =>
    let c : MonCfg :=
      { base := w 0 + 2 ^ 32 * f 1 0 24, length := w 2, stride := f 3 0 16, offset := f 3 16 16, type := f 4 0 5, scope := sc
        idx := f 4 8 4, be := f 5 0 8, bm := f 5 8 8 }
    if c.base % 4 = 0 && f 1 24 8 = 0 && decide (4 ≤ c.length) && c.stride % 4 = 0 && decide (4 ≤ c.stride)
        && c.offset % 4 = 0 && decide (c.offset < c.stride) && (c.type = 0 || c.type = 1 || c.type = 8) && c.scope ≠ .group
        && decide (c.idx < barIndices c.scope) && f 4 12 20 = 0 && decide (c.be ≤ 254) && f 5 16 16 = 0
    then some c else none

/-- Six uniforms from `a` on. -/
def uniWords (g : Group) (a n : Nat) : List Word := (List.range n).map fun i => g.u (a + i)

/-- The wide value in six words (R348). -/
def wideOfWords (ws : List Word) : BitVec 192 :=
  BitVec.ofNat 192 (ws.foldr (fun w acc => w.toNat + 2 ^ 32 * acc) 0)

/-- The six words of a wide value. -/
def wordsOfWide (v : BitVec 192) : List Word := (List.range 6).map fun k => v.extractLsb' (32 * k) 32

/-- A monitor just bound (R339). -/
def monBound (c : MonCfg) (launch : Nat) : Monitor :=
  { cfg := c, launch := launch, open_ := accZero, next := accZero, total := accZero, ref := 0, partial_ := false,
    mismatch := false, drift := false, gathered := false }

/-! ## Shared rules (R346) -/

def planMon : Plan := { Plan.none with parted := true }

/-- Monitor `d` of the issuing core, where the issuing launch binds it; the traps of causes 65 and 64 otherwise. -/
def withMon (s : State) (x : Ctx) (d : BitVec 2) (k : Monitor → Res) : Res :=
  match kget (s.core x.g.core).mons d.toNat with
  | none => .trap (trapCause 0x16 65)
  | some m => if m.launch ≠ s.launchOf x.g then .trap (trapCause 0x16 64) else k m

/-- A group of the binding launch on the core has an incomplete arrival at the monitor's barrier. -/
def monHeld (s : State) (core : Nat) (m : Monitor) : Bool :=
  s.groups.any fun e => e.2.core = core && s.launchOf e.2 = m.launch && waitOpen s e.1 e.2 m.cfg.scope m.cfg.idx

def putMon (s : State) (core n : Nat) (m : Monitor) : State :=
  s.setCore core { s.core core with mons := kset (s.core core).mons n m }

/-- MONSET binds a free monitor; a block that differs, or another launch's monitor, traps (R347). -/
def execMonset (d : BitVec 2) (a : Fin 192) (s : State) : Host.Outcome State Fault Refusal :=
  issue (.monset d a) s (fun _ _ => planMon.and (planUspan a.val 6)) fun s x =>
    match monCfgOf (uniWords x.g a.val 6) with
    | none => .trap (trapOf 0x06)
    | some c =>
      if !barCounted s x c.scope then .trap (trapOf 0x06)
      else
        match kget (s.core x.g.core).mons d.toNat with
        | none =>
          if commitHold x then .hold
          else .done (entryNext x (putMon s x.g.core d.toNat (monBound c (s.launchOf x.g))))
        | some m =>
          if m.launch ≠ s.launchOf x.g then .trap (trapCause 0x16 64)
          else if m.cfg ≠ c then .trap (trapCause 0x16 66)
          else if commitHold x then .hold
          else .done (entryNext x s)

/-- Set the reference. -/
def setRef (s : State) (x : Ctx) (d : BitVec 2) (f : Monitor → BitVec 192) : Res :=
  withMon s x d fun m =>
    if monHeld s x.g.core m || commitHold x then .hold
    else .done (entryNext x (putMon s x.g.core d.toNat { m with ref := f m }))

def execMonref (d : BitVec 2) (a : Fin 192) (s : State) : Host.Outcome State Fault Refusal :=
  issue (.monref d a) s (fun _ _ => planMon.and (planUspan a.val 6)) fun s x =>
    setRef s x d fun _ => wideOfWords (uniWords x.g a.val 6)

def execMonrefLast (d : BitVec 2) (s : State) : Host.Outcome State Fault Refusal :=
  issue (.monrefLast d) s (fun _ _ => planMon) fun s x => setRef s x d fun m => m.total.v

/-- What MONRD reads: a wide value with its flags, none for the reference. -/
def monSelected (m : Monitor) : MonSel → Acc
  | .sum => m.open_
  | .total => m.total
  | .ref => ⟨m.ref, false, false, false⟩

/-- Word 6 of MONRD (R349). -/
def monStatus (m : Monitor) (a : Acc) : Word :=
  BitVec.ofNat 32 ((if a.ovf then 1 else 0) + (if a.unf then 2 else 0) + (if a.nan then 4 else 0)
    + (if m.partial_ then 8 else 0) + (if m.mismatch then 16 else 0) + (if m.drift then 32 else 0))

/-- Write the uniforms from `n` on. -/
def setUs (g : Group) (n : Nat) : List Word → Group
  | [] => g
  | w :: ws => setUs (g.setU n w) (n + 1) ws

def execMonrd (d : Fin 192) (a : BitVec 2) (b : MonSel) (s : State) : Host.Outcome State Fault Refusal :=
  issue (.monrd d a b) s (fun _ _ => planUdstSpan d.val 7) fun s x =>
    withMon s x a fun m =>
      let v := monSelected m b
      .done (x.onGroup s fun g => setUs g d.val (wordsOfWide v.v ++ [monStatus m v]))

/-- Unbind monitor `n` of a core and drop what its paths, those set aside for a handler among them, have yet to
commit to it (R340, R350). -/
def unbindMon (s : State) (core n launch : Nat) : State :=
  let drop (p : Path) : Path := { p with contrib := kdel p.contrib n, partials := p.partials.filter (· ≠ n) }
  let s := s.setCore core { s.core core with mons := kdel (s.core core).mons n }
  let drops (l : List (Nat × Path)) : List (Nat × Path) := l.map fun q => (q.1, drop q.2)
  let left (g : Group) : Group :=
    { g with
        paths := drops g.paths, lastPath := g.lastPath.map fun q => (q.1, drop q.2)
        handler := g.handler.map fun h => { h with paths := drops h.paths } }
  { s with groups := s.groups.map fun e =>
      if e.2.core = core && s.launchOf e.2 = launch then (e.1, left e.2) else e }

def execMonclr (d : BitVec 2) (s : State) : Host.Outcome State Fault Refusal :=
  issue (.monclr d) s (fun _ _ => planMon) fun s x =>
    withMon s x d fun m =>
      if monHeld s x.g.core m || commitHold x then .hold
      else .done (entryNext x (unbindMon s x.g.core d.toNat m.launch))

end Sys2Proof.Machine
end

