-- ==== Sys2Proof/Machine/QuadInstr.lean ====
section
/-! DEFINITION. The quad's instructions (spec/12_quad.md R249, R252, R254, R258). -/
namespace Sys2Proof.Machine

/-- QMAP: logical numbers; the chain bit of the quad (R249). -/
def qmapWord (s : State) (core : Nat) (byCore : Bool) : Word :=
  if byCore then BitVec.ofNat 32 (core % 4)
  else BitVec.ofNat 32 (core / 4 % 64 + 64 * (core / 256) + (if (s.quad (core / 4)).chain then 2 ^ 31 else 0))

def execQmap (d : UReg) (b : Bool) (s : State) : Host.Outcome State Fault Refusal :=
  issue (.qmap d b) s (fun _ _ => planUdst d) fun s x => .done (x.onGroup s fun g => g.setUs d (qmapWord s x.g.core b))

/-- The launch's cohort on a core (R248). -/
def cohortOn (s : State) (launch core : Nat) : Option Cohort :=
  (s.cohorts.find? fun e => e.2.launch = launch && e.2.core = core).map (·.2)

/-- The publication that holds a tile: core within the quad and index, with its entry. Of two that hold one tile it is that with the lower
index (log entry 98). -/
def pubOf (s : State) (core tile : Nat) : Option (Nat × Pub) :=
  (s.quad (core / 4)).pubs.find? fun e => e.2.tile = ⟨core, tile⟩ && !e.2.withdrawn

/-- Hops from the publisher to the reading core. -/
def hopsTo (p c : Nat) : Nat := (c + 4 - p) % 4

/-- The reading core's chain buffer is still FILLING (R257): not reached, and not poisoned (R259). -/
def bufFilling (e : Pub) (dist : Nat) : Bool := e.chained && decide (e.hops < dist) && e.poisonedFrom.all fun k => decide (dist < k)

/-- Chain buffer (p, i) of core `c`: one of 24 names, 192 to 215, for the tiles the mode reserves out of the core's 192. No
specifier names them (R256), and cohorts hold at most 168 tiles while the mode is on. -/
def bufTile (c p i : Nat) : Nat := 192 + 8 * (hopsTo p (c % 4) - 1) + i

/-- Where an SPRD reads a publication: the publisher's tile, or the reading core's own buffer of its chain (R257). -/
def pubTile (core key : Nat) (e : Pub) : TileRef :=
  if e.chained then ⟨core, bufTile core (key / 8) (key % 8)⟩ else e.tile

/-- The chain buffer that hop `k` of a publication fills begins to fill. -/
def startHop (s : State) (quad key k : Nat) : State :=
  if 3 ≤ k then s
  else
    let c := 4 * quad + (key / 8 + k + 1) % 4
    setTileAt s c (bufTile c (key / 8) (key % 8)) fun t => { t with state := .filling, soft := false }

/-- SPRD of a remote core (R254). -/
def sprdRemote (s : State) (x : Ctx) (d : VReg) (c tile : Nat) (b : VSrc) : Res :=
  let core := x.g.core / 4 * 4 + c
  match (cohortOn s (s.launchOf x.g) core).bind fun h => h.tiles[tile]? with
  | none => .trap (trapCause 0x13 6)
  | some k =>
    match pubOf s core k with
    | none => .trap (trapCause 0x13 5)
    | some (key, e) =>
      let m := active x.g x.p
      let offs := spOffs x.g x.p b
      match offTrap m offs with
      | some t => .trap t
      | none =>
        if m = 0 then .done s
        else if (s.core core).retScr then .holdWith (exitScr s core)
        else if bufFilling e (hopsTo c (x.g.core % 4)) || spfHeld x.g x.p || memHeld x.g x.p .load || full x.g isLoad then .hold
        else .done (x.add (memOpen s x) m (.sprd (pubTile x.g.core key e) offs (dstAddr x.g d) (some (c, key % 8))))

def execSprd (d : VReg) (a : UReg) (b : VSrc) (s : State) : Host.Outcome State Fault Refusal :=
  issue (.sprd d a b) s
    (fun g p => Plan.all [planGuard g p, planU a, planSrc g p (active g p) b, planDst g (active g p) d])
    fun s x =>
      let w := (x.g.us a).toNat
      if 1024 ≤ w then .trap (trapOf 0x06)
      else if w / 256 = x.g.core % 4 then spldBody s x d (w % 256) b
      else sprdRemote s x d (w / 256) (w % 256) b

/-- QPUB publishes and arrives (R252); in chain-stitch mode its chain starts (R257). -/
def execQpub (d : Fin 192) (a : UReg) (s : State) : Host.Outcome State Fault Refusal :=
  issue (.qpub d a) s (fun _ _ => planU a) fun s x =>
    let w := (x.g.us a).toNat
    if !barCounted s x .quad then .trap (trapOf 0x16)
    else if 8 ≤ w then .trap (trapOf 0x06)
    else
      withTile s x d.val .read fun k =>
        let qn := x.g.core / 4
        let q := s.quad qn
        let key := 8 * (x.g.core % 4) + w
        match kget q.pubs key with
        | some e => if e.withdrawn then .hold else .trap (trapCause 0x13 7)
        | none =>
          if barHeld s x .quad w || commitHold x || !storesDone x.g x.p then .hold
          else
            let b := s.barrier .quad w (s.launchOf x.g) qn
            let e : Pub :=
              { tile := ⟨x.g.core, k⟩, spec := d.val, cohort := x.g.cohort, phase := b.phase, hops := 0, fails := 0,
                poisonedFrom := none, chained := q.chain, withdrawn := false }
            let s := s.setQuad qn { q with pubs := kset q.pubs key e }
            .done (entryNext x (arrive (if q.chain then startHop s qn key 0 else s) x .quad w))

/-- A hop of the publication is in flight into or out of core `c` of the quad. -/
def hopTouches (key : Nat) (e : Pub) (c : Nat) : Bool :=
  e.chained && decide (e.hops < 3) && e.poisonedFrom.isNone
    && ((key / 8 + e.hops) % 4 = c || (key / 8 + e.hops + 1) % 4 = c)

/-- CHAINW holds for the hops of the launch's publications whose source specifier is d (R258). -/
def execChainw (d : Fin 192) (s : State) : Host.Outcome State Fault Refusal :=
  issue (.chainw d) s (fun _ _ => Plan.none) fun s x =>
    let q := s.quad (x.g.core / 4)
    let hop := q.pubs.any fun e =>
      e.2.spec = d.val && (kget s.cohorts e.2.cohort).any (fun c => c.launch = s.launchOf x.g)
        && hopTouches e.1 e.2 (x.g.core % 4)
    if q.chain && hop then .hold else .done s

end Sys2Proof.Machine
end

