-- ==== Sys2Proof/Machine/LoadStore.lean ====
section
/-! DEFINITION. Loads bound and stores performed (spec/06_group_vector_memory.md R146 to R151, spec/08_core.md R164, R166, R181,
spec/16_memory_model.md R320 to R329, spec/20 R357, R368): the steps by which the accesses in flight take effect, lane by lane. -/
namespace Sys2Proof.Machine

/-! ## Operations in flight -/

def State.updGroup (s : State) (gid : Nat) (f : Group → Group) : State :=
  match s.group gid with
  | none => s
  | some g => s.setGroup gid (f g)

def State.updOp (s : State) (gid n : Nat) (f : Op → Op) : State := s.updGroup gid fun g => { g with ops := kupd g.ops n f }
def State.dropOp (s : State) (gid n : Nat) : State :=
  s.updGroup gid fun g => { g with ops := kdel g.ops n }

/-- The operation ends without being performed whole: what of it readers have seen stays written, with what was posted at its blocks
(16 R327, R328). -/
def State.failOp (s : State) (gid n : Nat) : State :=
  let seenAt (q : Post) : Bool := s.posts.any fun p =>
    p.gid = gid && p.op = n && !p.landed && p.remote = q.remote && p.addr / 64 = q.addr / 64
  let s := landPosts s seenAt
  { s.dropOp gid n with posts := s.posts.filter fun p => !(p.gid = gid && p.op = n) }

/-- The operation, with its group. -/
def State.opAt (s : State) (gid n : Nat) : Option (Group × Op) := (s.group gid).bind fun g => (kget g.ops n).map (g, ·)

/-- The issuing path is live. -/
def opLive (g : Group) (o : Op) : Bool := (g.path o.path).any fun p => p.uid = o.uid

/-- The region that issued the operation has written tile `k`, or slot `k - 4096` (R181). -/
def opFilled (g : Group) (o : Op) (k : Nat) : Bool := (g.path o.path).any fun p => p.uid = o.uid && p.fills.contains k

/-- A load or store fault found at completion: the trap of the issuing path, or the restart where it qualifies. Of a path that
has ended there is none to charge. -/
def accessFault (s : State) (gid : Nat) (o : Op) (i : TrapInfo) (qual : Bool) : State :=
  match s.group gid with
  | none => s
  | some g =>
    if g.status ≠ .resident || g.stopping.isSome then s
    else if opLive g o then
      if i.cls = 0x0C && qual then faultOrRestart s gid o.path i false o.pc.toNat o.word
      else trapEnter s gid i o.path false o.pc.toNat o.word
    else trapEnter s gid i 0xFFFF false o.pc.toNat o.word

/-- An earlier SPST of the path to the word is not performed. -/
def spstOverlap (g : Group) (mask : Mask) (num : Nat) (t : TileRef) (off : Nat) : Bool :=
  before g num mask fun o => match o.kind with
    | .spst t' offs _ => t' = t && (lanesOf o.todo).any fun l => offs.getD l 0 = off
    | _ => false

/-! ## Serving lanes -/

/-- Serve lanes in ascending order until one fails: the lanes served, and the failure. -/
def serveLanes (f : State → Nat → Except MErr State) : State → List Nat → State × Mask × Option (Nat × MErr)
  | s, [] => (s, 0, none)
  | s, l :: ls =>
    match f s l with
    | .error e => (s, 0, some (l, e))
    | .ok s' =>
      let (t, m, e) := serveLanes f s' ls
      (t, m ||| BitVec.ofNat 64 (2 ^ l), e)

/-- The words of a lane's load data go to the register space. -/
def putLaneWords (r : List (Nat × Word)) (w : Nat) : List Nat → List (Nat × Word)
  | [] => r
  | v :: vs => putLaneWords (mset 0 r w (BitVec.ofNat 32 v)) (w + 64) vs

def Group.putLane (g : Group) (dst : Option Nat) (l : Nat) (bs : List Byte) : Group :=
  match dst with
  | none => g
  | some a =>
    let ws := leWords ((bs.length + 3) / 4) bs
    { g with
        regs := putLaneWords g.regs (a / 4 + l) ws
        regPoison := g.regPoison.filter fun w => !((List.range ws.length).any fun k => w = a / 4 + l + 64 * k) }

/-- Bytes of a tile. -/
def tileBytes (c : Core) (k off n : Nat) : List Byte := mgetList 0 c.scr (4096 * k + off) n
def setTileBytes (c : Core) (k off : Nat) (bs : List Byte) : Core :=
  { c with
      scr := msetList 0 c.scr (4096 * k + off) bs
      scrPoison := c.scrPoison.filter fun b => !(decide (4096 * k + off ≤ b) && decide (b < 4096 * k + off + bs.length)) }
def tilePoisoned (c : Core) (k off n : Nat) : Bool :=
  c.scrPoison.any fun b => decide (4096 * k + off ≤ b) && decide (b < 4096 * k + off + n)

/-- A read of a poisoned chain buffer (12 R259). -/
def bufPoisoned (s : State) (core : Nat) (pub : Option (Nat × Nat)) : Bool :=
  match pub with
  | none => false
  | some (c, i) => (kget (s.quad (core / 4)).pubs (8 * c + i)).any fun e =>
      e.chained && e.poisonedFrom.any fun k => decide (k ≤ hopsTo c (core % 4))

/-- The bytes of a memory load at `va`, and the state with the load cache's line filled or gone. A gather bypasses the load cache (R149);
so does a plain load that issued before the discard which an acquiring FENCE ahead of it owes. -/
def readLane (g : Group) (n : Nat) (o : Op) (strong gather cached : Bool) (s : State) (va size : Nat) : Except MErr (List Byte) × State :=
  if strong then (readIn s g.core g.asid va size false (translateFor s g.core g.asid n va), s)
  else if gather then bypassRead s g.core g.asid n va size
  else plainRead s g.core g.asid n va size (cached && o.narrow.all fun k => !scopeWide k.sc)

/-- One lane of a load: its bytes, with the words of a HOST double that it has read before. -/
def loadLane (g : Group) (n : Nat) (o : Op) (cached : Bool) (s : State) (l : Nat) : Except MErr (List Byte) × State :=
  match o.kind with
  | .load _ strong gather size addrs _ =>
    let (r, s) := readLane g n o strong gather cached s (addrs.getD l 0) size
    (r.map (withTaken o.taken l (addrs.getD l 0)), s)
  | .spld t offs _ =>
    let c := s.core t.core
    (if tilePoisoned c t.tile (offs.getD l 0) 4 then .error (.trap 0x0C) else .ok (tileBytes c t.tile (offs.getD l 0) 4), s)
  | .sprd t offs _ pub =>
    let c := s.core t.core
    (if bufPoisoned s g.core pub || tilePoisoned c t.tile (offs.getD l 0) 4 then .error (.trap 0x0C)
     else .ok (tileBytes c t.tile (offs.getD l 0) 4), s)
  | .atom _ _ _ _ _ _ _ res => (.ok (leBytes 4 ((kget res l).getD 0).toNat), s)
  | _ => (.ok [], s)

def opDst : OpKind → Option Nat
  | .load _ _ _ _ _ d | .spld _ _ d | .sprd _ _ d _ | .atom _ _ _ _ _ d _ _ => d
  | _ => none

/-- The address or offset of a lane. -/
def laneAddr (k : OpKind) (l : Nat) : Nat :=
  match k with
  | .load _ _ _ _ a _ | .store _ _ _ _ a _ | .atom _ _ a _ _ _ _ _ | .spld _ a _ | .sprd _ a _ _ | .spst _ a _ => a.getD l 0
  | _ => 0

/-- Uncorrectable data of the operation qualifies for the restart (R181): memory and remote tiles are re-read, a word of an own
tile only where the region wrote it, a chain buffer never: it holds the same word again (12 R259). -/
def loadQualifies (g : Group) (o : Op) : Bool :=
  match o.kind with
  | .load .. => true
  | .spld t _ _ => opFilled g o t.tile
  | .sprd t _ _ _ => decide (t.tile < 192)
  | _ => false

/-- The lanes that have been served leave the operation; with none left it ends: an acquire discards the load cache (R147), and a
barrier arrival may have waited for an SPRD (12 R253). -/
def lanesDone (s : State) (gid n : Nat) (core : Nat) (m : Mask) : State :=
  match s.opAt gid n with
  | none => s
  | some (_, o) =>
    let left := o.todo &&& ~~~ m
    let acq : Bool := match o.kind with
      | .load a .. => a
      | .atom _ ord .. => ord = .acq || ord = .ar
      | _ => false
    if left = 0 then
      let s := s.dropOp gid n
      match o.kind with
      | .sprd .. => settleGroup s gid
      | _ => if acq then dropCache s core else s
    else s.updOp gid n fun o => { o with todo := left }

/-- What a failing lane brings: a wait asks for its chunk; a fault ends with the group's trap. -/
def laneFails (s : State) (gid : Nat) (g : Group) (o : Op) (l : Nat) (e : MErr) (qual : Bool) : State :=
  match e with
  | .trap c => accessFault s gid o (trapAt c (laneAddr o.kind l)) qual
  | w => askChunk s g.asid (laneAddr o.kind l) w

/-! ## The two words of a HOST double (14 R283) -/

/-- An access of `size` bytes at `va` by operation `n` may show its two words apart. -/
def hostDouble (s : State) (g : Group) (n va size : Nat) : Bool :=
  size = 8 && va % 8 = 0 && (translateFor s g.core g.asid n va).any fun e => e.2.type = 2

/-- The parts in which a lane is stored, by number: offset and length. -/
def laneParts (s : State) (g : Group) (n va size : Nat) : List (Nat × Nat × Nat) :=
  if hostDouble s g n va size then [(0, 0, 4), (1, 4, 4)] else [(0, 0, size)]

/-! ## Loads -/

/-- The order a load's lanes respect (R146, R323, R325). -/
def loadReady (g : Group) (n : Nat) (o : Op) (m : Mask) : Bool :=
  match o.kind with
  | .load _ strong _ size addrs _ =>
    !(strong && before g n o.mask (unboundStrong g.core)) && (narrowOpen g o.mask o.narrow false).isEmpty && (lanesOf m).all fun l =>
      !storeOverlap g o.mask n (addrs.getD l 0) size && !loadOverlap g o.mask n (addrs.getD l 0) size
        && !locked g.locks o.mask false g.asid (addrs.getD l 0) size
  | .spld t offs _ | .sprd t offs _ _ =>
    !before g n o.mask (unboundStrong g.core) && (narrowOpen g o.mask o.narrow false).isEmpty && (lanesOf m).all fun l =>
      !spstOverlap g o.mask n t (offs.getD l 0) && !spotLocked g.locks o.mask false (tileSpot t (offs.getD l 0))
  | .atom _ _ _ _ _ _ performed _ => m &&& ~~~ performed = 0
  | _ => false

/-- Bind lanes of a load and write their data; a group past its end discards what fails. -/
def bindLanes (s : State) (gid n : Nat) (g : Group) (o : Op) (m : Mask) (cached : Bool) : State :=
  let one (s : State) (l : Nat) : Except MErr State :=
    match loadLane g n o cached s l with
    | (.ok bs, s) => .ok (s.updGroup gid fun g => g.putLane (opDst o.kind) l bs)
    | (.error e, s) => if g.status = .resident then .error e else .ok s
  let (s, done, e) := serveLanes one s (lanesOf m)
  let s := lanesDone s gid n g.core done
  match e with
  | none => s
  | some (l, e) => laneFails s gid g o l e (loadQualifies g o)

/-- LOAD_COMPLETE: the data of lanes of a load, of an atomic already performed, or of a scratchpad read arrives. A dropped load's
response is discarded (08 R182); that of a path which has ended is gone with it (12 R254). -/
def execLoadComplete (gid op : Nat) (lanes : Mask) (cached : Bool) (s : State) : Host.Outcome State Fault Refusal :=
  match s.opAt gid op with
  | none => .next s
  | some (g, o) =>
    if o.dropped then
      if opEnded g o && o.await &&& ~~~ lanes = 0 then .next (settleGroup (s.dropOp gid op) gid)
      else .next (s.updOp gid op fun o => { o with await := o.await &&& ~~~ lanes })
    else
      let m := lanes &&& o.todo
      if m = 0 || !loadReady g op o m then .next s else .next (bindLanes s gid op g o m cached)

/-! ## Stores and atomics -/

/-- No lane outside the set that comes before one inside writes the same place: the highest lane's data stands (R146). -/
def lanesClosed (todo m : Mask) (addrs : List Nat) : Bool :=
  (lanesOf m).all fun l => (lanesOf (todo &&& ~~~ m)).all fun k => !(decide (k < l) && addrs.getD k 0 = addrs.getD l 0)

/-- SPSTs of a core are performed in issue order (R323). -/
def spstFirst (s : State) (core n : Nat) : Bool :=
  s.groups.all fun e => e.2.core ≠ core || e.2.ops.all fun q => !(decide (q.1 < n) && isSpst q.2)

/-- The order a store's lanes respect (R146, R148, R323, R325). -/
def storeReady (s : State) (g : Group) (n : Nat) (o : Op) (m : Mask) : Bool :=
  let rel : Bool := match o.kind with
    | .store r .. => r
    | .atom _ ord .. => ord = .rel || ord = .ar
    | _ => false
  !before g n o.mask (unbound g.core) && !(rel && before g n o.mask isStore) && (narrowOpen g o.mask o.narrow true).isEmpty && match o.kind with
    | .store _ _ _ size addrs _ =>
      lanesClosed o.todo m addrs && !before g n o.mask isSpst && (lanesOf m).all fun l =>
        !storeOverlap g o.mask n (addrs.getD l 0) size && !locked g.locks o.mask true g.asid (addrs.getD l 0) size
    | .atom _ _ addrs _ _ _ performed _ =>
      lanesClosed (o.todo &&& ~~~ performed) m addrs && !before g n o.mask isSpst && (lanesOf m).all fun l =>
        !storeOverlap g o.mask n (addrs.getD l 0) 4 && !locked g.locks o.mask true g.asid (addrs.getD l 0) 4
          && !locked g.locks o.mask false g.asid (addrs.getD l 0) 4
    | .spst t offs _ =>
      lanesClosed o.todo m offs && spstFirst s g.core n && (lanesOf m).all fun l => !spotLocked g.locks o.mask true (tileSpot t (offs.getD l 0))
    | _ => false

/-- A store of the core updates a matching line (08 R166). -/
def updateLine (s : State) (core asid va : Nat) (bs : List Byte) : State :=
  match kget (s.core core).lines (lineKey asid va) with
  | none => s
  | some old => s.setCore core { s.core core with
      lines := kset (s.core core).lines (lineKey asid va) (old.take (va % 128) ++ bs ++ old.drop (va % 128 + bs.length)) }

/-- The new value of an atomic (R151); none where .cas does not write. -/
def atomNew (op : AOp) (m x y : Nat) : Option Nat :=
  match op with
  | .add => some ((m + x) % 2 ^ 32)
  | .min true => some (if signedOf 32 m ≤ signedOf 32 x then m else x)
  | .min false => some (if m ≤ x then m else x)
  | .max true => some (if signedOf 32 x ≤ signedOf 32 m then m else x)
  | .max false => some (if x ≤ m then m else x)
  | .and => some (m &&& x)
  | .or => some (m ||| x)
  | .xor => some (m ^^^ x)
  | .exch => some x
  | .cas => if m = x then some y else none
  | .fadd => some (f32Add m x)

/-- The contribution of an atomic's new value (18 R342): working while the path's next entry is due, committed where a restart
has recorded that entry already, since the atomic is not performed again. -/
def atomContrib (s : State) (gid : Nat) (o : Op) (va v : Nat) : State :=
  match s.group gid with
  | none => s
  | some g => (s.core g.core).mons.foldl (fun s e =>
      if e.2.launch ≠ s.launchOf g || !monHit e.2.cfg va then s
      else if (g.path o.path).any fun p => p.uid = o.uid && p.entryDue.isSome then
        s.updGroup gid fun g => { g with paths := kupd g.paths o.path fun p => addContrib p e.1 [monVal e.2.cfg v] false }
      else commitMon s gid g e.1 [monVal e.2.cfg v] false) s

/-- An atomic reaches HOST memory through a window of this package itself with an operation that HOST refuses (06 R151, 20 R368). -/
def ownHostRefuses (s : State) (asid : Nat) (op : AOp) (va : Nat) (t : Option (Nat × Desc)) : Bool :=
  match t with
  | none => false
  | some (a, d) =>
    match place s asid a d true va 4 with
    | .ok (.peer node w off eng) =>
      !hostAtom op && node = s.nodeNum && match ownPlace s w off 4 eng (.atom true) with
        | some (.host _ _) => true
        | _ => false
    | _ => false

/-- Perform one lane of an atomic: read, compute, write, keep the old value for the result. -/
def atomLane (gid n : Nat) (g : Group) (o : Op) (op : AOp) (va x y : Nat) (l : Nat) (s : State) : Except MErr State :=
  let t := translateFor s g.core g.asid n va
  if ownHostRefuses s g.asid op va t then .error (.trap 0x0B)
  else match readIn s g.core g.asid va 4 true t with
  | .error e => .error e
  | .ok bs =>
    let m := leNat bs
    let done (s : State) : State := s.updOp gid n fun o =>
      { o with kind := match o.kind with
        | .atom op ord a xs ys d p r => .atom op ord a xs ys d (p ||| BitVec.ofNat 64 (2 ^ l)) (kset r l (BitVec.ofNat 32 m))
        | k => k }
    match atomNew op m x y with
    | none => .ok (done s)
    | some v =>
      match writeIn s g.asid va (leBytes 4 v) t with
      | .error e => .error e
      | .ok s => .ok (atomContrib (done (updateLine s g.core g.asid va (leBytes 4 v))) gid o va v)

/-- A posted write of a lane, still listed. -/
def postOf (s : State) (gid n l : Nat) : Option Post := s.posts.find? fun p => p.gid = gid && p.op = n && p.lane = l

/-- The posted writes of a lane that satisfy `f` are performed, with those posted before them at the same blocks, and leave the list. -/
def landLane (s : State) (gid n l : Nat) (f : Post → Bool) : State :=
  let own (p : Post) : Bool := p.gid = gid && p.op = n && p.lane = l && f p
  let s := (s.posts.filter fun p => own p && !p.landed).foldl (fun t p =>
    -- the list is in the order of posting: `p` and those before it
    let upTo := (s.posts.takeWhile (· ≠ p)) ++ [p]
    landPosts t fun q => q.remote = p.remote && q.addr / 64 = p.addr / 64 && upTo.any fun r => { r with landed := q.landed } = q) s
  { s with posts := s.posts.filter fun q => !own q }

/-- Write the given parts of a lane. -/
def writeLaneParts (n : Nat) (g : Group) (va : Nat) (bs : List Byte) : State → List (Nat × Nat × Nat) → Except MErr State
  | s, [] => .ok s
  | s, k :: ks =>
    match writeIn s g.asid (va + k.2.1) ((bs.drop k.2.1).take k.2.2) (translateFor s g.core g.asid n va) with
    | .error e => .error e
    | .ok s => writeLaneParts n g va bs s ks

/-- The parts of a lane that satisfy `f` and are not performed yet take effect: those posted as they were posted. -/
def performParts (s : State) (gid n : Nat) (g : Group) (o : Op) (va l : Nat) (bs : List Byte) (f : Nat → Bool) : Except MErr State :=
  let posted := s.posts.filterMap fun p => if p.gid = gid && p.op = n && p.lane = l then some p.part else none
  let left := (laneParts s g n va bs.length).filter fun k => f k.1 && !o.pieces.contains (l, k.1) && !posted.contains k.1
  writeLaneParts n g va bs (landLane s gid n l fun p => f p.part) left

/-- A store lane's bytes take effect. -/
def performStore (s : State) (gid n : Nat) (g : Group) (o : Op) (va l : Nat) (bs : List Byte) : Except MErr State :=
  if (postOf s gid n l).isNone && o.pieces.all (·.1 ≠ l) then writeIn s g.asid va bs (translateFor s g.core g.asid n va)
  else performParts s gid n g o va l bs fun _ => true

/-- The place of a store lane outside the package, by key. -/
def outPlace (s : State) (g : Group) (n va k : Nat) : Option (Bool × Nat) :=
  match translateFor s g.core g.asid n va with
  | none => none
  | some (a, d) =>
    match place s g.asid a d true va k with
    | .ok (.host bus port) => if (s.pciePort port).down || s.hostBad.contains (bus / 64) then none else some (false, bus)
    | .ok (.peer node w off eng) =>
      if node ≠ s.nodeNum && !(s.eng eng).deaf && (s.remWin node w).any fun r => r.write && decide (off + k ≤ r.length) then
        some (true, remKey node w off)
      else none
    | _ => none

/-- The store is no release: it has no suffix, and no FENCE.rel comes before it (16 R321). -/
def relaxedStore (o : Op) : Bool :=
  match o.kind with
  | .store rel .. => !rel && !o.release
  | _ => false

/-- One lane of a store, an atomic or an SPST. -/
def storeLane (gid n : Nat) (g : Group) (o : Op) (s : State) (l : Nat) : Except MErr State :=
  match o.kind with
  | .store _ _ _ size addrs data =>
    let bs := leBytes size (data.getD l 0)
    match performStore s gid n g o (addrs.getD l 0) l bs with
    | .error e => .error e
    | .ok s => .ok (updateLine s g.core g.asid (addrs.getD l 0) bs)
  | .atom op _ addrs xs ys _ _ _ => atomLane gid n g o op (addrs.getD l 0) (xs.getD l 0) (ys.getD l 0) l s
  | .spst t offs data => .ok (s.setCore t.core (setTileBytes (s.core t.core) t.tile (offs.getD l 0) (leBytes 4 (data.getD l 0))))
  | _ => .ok s

/-- Perform lanes of a store. A lane that fails ends the operation: its group traps, where it still can. -/
def performLanes (s : State) (gid n : Nat) (g : Group) (o : Op) (m : Mask) : State :=
  let (s, done, e) := serveLanes (storeLane gid n g o) s (lanesOf m)
  let s := if isAtom o.kind then s else lanesDone s gid n g.core done
  match e with
  | none => s
  | some (l, .trap c) => accessFault (s.failOp gid n) gid o (trapAt c (laneAddr o.kind l)) (!isAtom o.kind)
  | some (l, w) => askChunk s g.asid (laneAddr o.kind l) w

/-- The lanes of an operation that are yet to be written. -/
def unwritten (o : Op) : Mask :=
  match o.kind with
  | .store .. | .spst .. => o.todo
  | .atom _ _ _ _ _ _ performed _ => o.todo &&& ~~~ performed
  | _ => 0

/-- STORE_PERFORMED: lanes of a store, an atomic or an SPST take effect. -/
def execStorePerformed (gid op : Nat) (lanes : Mask) (s : State) : Host.Outcome State Fault Refusal :=
  match s.opAt gid op with
  | none => .next s
  | some (g, o) =>
    let m := lanes &&& unwritten o
    if m = 0 || !storeReady s g op o m then .next s else .next (performLanes s gid op g o m)

/-- A relaxed store lane to HOST or PEER memory, ready to be performed, reaches the agents behind its I/O die before the others
(16 R330): whole, or one word of a HOST double (14 R283). -/
def postLane (s : State) (gid n l k : Nat) : State :=
  match s.opAt gid n with
  | none => s
  | some (g, o) =>
    let m := BitVec.ofNat 64 (2 ^ l) &&& unwritten o
    match o.kind with
    | .store _ _ _ size addrs data =>
      let posted := s.posts.any fun p => p.gid = gid && p.op = n && p.lane = l && p.part = k
      if m = 0 || !relaxedStore o || !storeReady s g n o m || posted || o.pieces.contains (l, k) then s
      else
        match (laneParts s g n (addrs.getD l 0) size).find? (·.1 = k) with
        | none => s
        | some e =>
          match outPlace s g n (addrs.getD l 0 + e.2.1) e.2.2 with
          | some (remote, a) =>
            { s with posts := s.posts ++
                [⟨iodOf g.core, remote, a, ((leBytes size (data.getD l 0)).drop e.2.1).take e.2.2, gid, n, l, k, false⟩] }
          | none => s
    | _ => s

/-- Of a lane that stores a HOST double one word is performed before the other (14 R283). -/
def storeWord (s : State) (gid n l k : Nat) : State :=
  match s.opAt gid n with
  | none => s
  | some (g, o) =>
    let m := BitVec.ofNat 64 (2 ^ l) &&& unwritten o
    match o.kind with
    | .store _ _ _ size addrs data =>
      let va := addrs.getD l 0
      let bs := leBytes size (data.getD l 0)
      if m = 0 || 2 ≤ k || !hostDouble s g n va size || !storeReady s g n o m || o.pieces.contains (l, k) then s
      else
        match performParts s gid n g o va l bs (· = k) with
        | .error _ => s
        | .ok s => (updateLine s g.core g.asid (va + 4 * k) ((bs.drop (4 * k)).take 4)).updOp gid n fun o => { o with pieces := (l, k) :: o.pieces }
    | _ => s

/-- What a lane that loads a HOST double may read before the rest: address and length (14 R283). -/
def doubleWords (s : State) (g : Group) (n : Nat) (o : Op) (l : Nat) : List (Nat × Nat) :=
  match o.kind with
  | .load _ _ _ size addrs _ =>
    if !o.dropped && bit o.todo l && hostDouble s g n (addrs.getD l 0) size && loadReady g n o (BitVec.ofNat 64 (2 ^ l)) then
      [(addrs.getD l 0, 4), (addrs.getD l 0 + 4, 4)]
    else []
  | _ => []

/-- The operation has read the bytes at an address. -/
def noteTaken (gid n : Nat) (t : Taken) (s : State) : State := s.updOp gid n fun o => { o with taken := t :: o.taken }

/-- A lane that loads a HOST double reads word `k` of it. -/
def takeWord (s : State) (gid n l k : Nat) : State :=
  match s.opAt gid n with
  | none => s
  | some (g, o) =>
    match (doubleWords s g n o l)[k]?, o.kind with
    | some r, .load _ strong _ _ _ _ =>
      if o.taken.any fun t => t.unit = l && t.addr = r.1 then s
      else
        match readLane g n o strong true false s r.1 r.2 with
        | (.ok bs, s) => noteTaken gid n ⟨l, r.1, bs⟩ s
        | (.error _, _) => s
    | _, _ => s

/-! ## Links -/

/-- Lanes of an operation whose addresses lie in ranges of a type. -/
def lanesOfType (s : State) (g : Group) (n : Nat) (o : Op) (t : Nat) : Mask :=
  match o.kind with
  | .load .. | .store .. | .atom .. => maskOf fun l => bit o.todo l && typeFor s g.core g.asid n (laneAddr o.kind l) = t
  | _ => 0

/-- An access in flight completes with a memory link error: a store or an atomic is over, a load is dropped by the trap. -/
def linkFault (s : State) (gid op : Nat) (o : Op) (l : Nat) : State :=
  let s := match o.kind with
    | .store .. | .atom .. => s.failOp gid op
    | _ => s
  accessFault s gid o (trapAt 0x0B (laneAddr o.kind l)) false

/-- PEER_REQUEST: lanes to a PEER range travel as single-packet requests and are served at the remote window, or fail after the
last try (20 R368). -/
def execPeerRequest (gid op : Nat) (lanes : Mask) (fail : Bool) (s : State) : Host.Outcome State Fault Refusal :=
  match s.opAt gid op with
  | none => .next s
  | some (g, o) =>
    let m := lanes &&& lanesOfType s g op o 1
    if m = 0 || o.dropped then .next s
    else if fail then .next (linkFault s gid op o ((lanesOf m).headD 0))
    else
      let w := m &&& unwritten o
      if w ≠ 0 then (if storeReady s g op o w then .next (performLanes s gid op g o w) else .next s)
      else if loadReady g op o m then .next (bindLanes s gid op g o m false) else .next s

/-- PCIE_COMPLETION_TIMEOUT of an access to a HOST range (20 R357). -/
def execPcieCompletionTimeout (gid op : Nat) (s : State) : Host.Outcome State Fault Refusal :=
  match s.opAt gid op with
  | none => .next s
  | some (g, o) =>
    let m := lanesOfType s g op o 2
    if m = 0 || o.dropped then .next s else .next (linkFault s gid op o ((lanesOf m).headD 0))

/-! ## Waits -/

/-- The word at which a path is blocked. -/
def wordAt (s : State) (g : Group) (pc : Addr) : Word :=
  match fetchWord s g.core g.asid pc with
  | .ok w => w
  | .error _ => 0

/-- WAITM_REEVALUATION: the memory side looks at the watched word; an evaluation that meets the condition ends the wait, to be
taken at the path's next issue (09 R208). -/
def execWaitmReevaluation (gid path : Nat) (s : State) : Host.Outcome State Fault Refusal :=
  match s.group gid with
  | none => .next s
  | some g =>
    match g.path path with
    | none => .next s
    | some p =>
      match p.status with
      | .blocked (.waitm va c wide v ts) =>
        if locked g.locks p.mask false g.asid va (if wide then 8 else 4) then .next s
        else match readUnit s g.core g.asid va (if wide then 8 else 4) with
        | .ok bs =>
          if wcondHolds c (leNat (withTaken ts 0 va bs)) v then
            .next (s.setGroup gid { g with paths := kset g.paths path { p with status := .woken } })
          else if ts.isEmpty then .next s
          else .next (s.setGroup gid { g with paths := kset g.paths path { p with status := .blocked (.waitm va c wide v []) } })
        | .error (.trap cls) =>
          if g.status ≠ .resident then .next (s.setGroup gid { g with paths := kset g.paths path { p with status := .run } })
          else
            let w := wordAt s g p.pc
            if cls = 0x0C then .next (faultOrRestart s gid path (trapAt cls va) false p.pc.toNat w)
            else .next (trapEnter s gid (trapAt cls va) path false p.pc.toNat w)
        | .error e => .next (askChunk s g.asid va e)
      | _ => .next s

/-- The next evaluation of a WAITM.d reads word `k` of the HOST double it watches before the other (14 R283). -/
def takeWait (s : State) (gid path k : Nat) : State :=
  match s.group gid with
  | none => s
  | some g =>
    match g.path path with
    | none => s
    | some p =>
      match p.status with
      | .blocked (.waitm va c true v ts) =>
        let a := va + 4 * k
        if 2 ≤ k || rangeType s g.core g.asid va ≠ 2 || locked g.locks p.mask false g.asid va 8 || ts.any (·.addr = a) then s
        else
          match readUnit s g.core g.asid a 4 with
          | .ok bs => s.setGroup gid { g with paths := kset g.paths path { p with status := .blocked (.waitm va c true v (⟨0, a, bs⟩ :: ts)) } }
          | .error _ => s
      | _ => s

/-- A load that the path issued or inherited, to PEER, HOST or CAP memory, has been outstanding for more than 2 µs (08 R182), whatever
counters the WAIT examines (log entry 72). -/
def slowLoad (s : State) (g : Group) (p : Path) (n : Nat) (o : Op) : Bool :=
  ofPath p o && !o.dropped && decide (o.at_ + 2400 < s.now) && match o.kind with
    | .load .. => (lanesOf o.todo).any fun l => typeFor s g.core g.asid n (laneAddr o.kind l) ≠ 0
    | _ => false

/-- WAIT_REMOTE_LOAD_TIMEOUT: a held WAIT becomes blocked. -/
def execWaitRemoteLoadTimeout (gid path : Nat) (s : State) : Host.Outcome State Fault Refusal :=
  match s.group gid with
  | none => .next s
  | some g =>
    match g.path path with
    | none => .next s
    | some p =>
      if g.status = .resident && p.waiting && p.status = .run && g.ops.any fun e => slowLoad s g p e.1 e.2 then
        .next (s.setGroup gid { g with paths := kset g.paths path { p with status := .blocked .wait, since := s.now } })
      else .next s

/-- A path recorded by a YIELD has issued, ended or is no longer ready. -/
def hasIssued (s : State) (r : Nat × Nat) : Bool :=
  s.groups.all fun e => e.2.paths.all fun q => q.2.uid ≠ r.1 || q.2.icount ≠ r.2 || !isReady q.2

/-- YIELD_EXPIRY: after 64 cycles, or once every other path that was ready has issued (09 R214). -/
def execYieldExpiry (gid path : Nat) (s : State) : Host.Outcome State Fault Refusal :=
  match s.group gid with
  | none => .next s
  | some g =>
    match g.path path with
    | none => .next s
    | some p =>
      match p.status with
      | .yielded rs =>
        if p.since + 64 ≤ s.now || rs.all (hasIssued s) then
          .next (s.setGroup gid { g with paths := kset g.paths path { p with status := .run } })
        else .next s
      | _ => .next s

end Sys2Proof.Machine
end

