-- ==== Sys2Proof/Machine/CopyEngine.lean ====
section
/-! DEFINITION. The copy engines (spec/09_core_instructions.md R200 to R205, spec/16 R332): units of a transfer, its completion,
and its faults. -/
namespace Sys2Proof.Machine

/-- What an engine meets: a fault, with whether uncorrectable data qualifies for the restart, or a wait for residency. -/
inductive EErr where
  | fault (i : TrapInfo) (qual : Bool)
  | wait (va : Nat) (e : MErr)
  deriving DecidableEq, Repr

def eerrAt (va : Nat) (e : MErr) : EErr :=
  match e with
  | .trap c => .fault (trapAt c va) true
  | w => .wait va w

def eerrOf (e : AErr) : EErr := eerrAt e.va e.err

/-- A copy or matrix fault waits for the group's next instruction boundary; a group past its end has none and keeps the class
(R185, R205). -/
def engineFault (s : State) (gid : Nat) (o : Op) (i : TrapInfo) (qual : Bool) : State :=
  s.updGroup gid fun g =>
    match g.status with
    | .ending _ => { g with endFault := some (g.endFault.getD i.cls) }
    | _ => { g with pending := g.pending ++ [⟨i, o.path, o.uid, o.pc, o.word, qual⟩] }

/-! ## Units -/

/-- A copy starts after the path's earlier stores and atomics (R204). -/
def copyReady (g : Group) (n : Nat) (o : Op) : Bool := !before g n o.mask isStore

/-- The bytes of a gather's list: the base and the indices (R201). -/
def listLen (count : Nat) : Nat := 8 + 4 * count

/-- The rows of a gather: the base, each index, and the check of each row (R201); `ts` are blocks of the list already read. -/
def gatherRows (s : State) (g : Group) (ts : List Taken) (list size count : Nat) : Except EErr (List Nat) :=
  match (vread s g.core g.asid list (listLen count)).map (withTaken ts 0 list) with
  | .error e => .error (eerrOf e)
  | .ok b =>
    let base := leNat (b.take 8)
    if base % 4 ≠ 0 then .error (.fault (trapAt 0x0A base) true)
    else
      let rows := (leWords count (b.drop 8)).map fun i => (base + i * size) % 2 ^ 64
      match rows.findSome? fun va => match spanFail s g.core g.asid .read va size with
        | (a, .error e) => some (a, e)
        | _ => none with
      | some (a, e) => .error (eerrAt a e)
      | none => .ok rows

/-- A read of bytes as they are stored: a packed range's slots are not expanded (R203). -/
def rawUnit (s : State) (core asid va n : Nat) : Except MErr (List Byte) :=
  match translate s core asid va with
  | none => .error (.trap 0x07)
  | some (a, d) =>
    match place s asid a { d with attr := if d.packed then d.attr - 128 else d.attr } false va n with
    | .error e => .error e
    | .ok p =>
      (readPlace s core p n false).mapError .trap

/-- `k` pieces of 64 bytes as they are stored. -/
def rawBytes (s : State) (core asid : Nat) : Nat → Nat → Except AErr (List Byte)
  | 0, _ => .ok []
  | k + 1, va =>
    match rawUnit s core asid va 64 with
    | .error e => .error ⟨e, va⟩
    | .ok bs =>
      match rawBytes s core asid k (va + 64) with
      | .ok r => .ok (bs ++ r)
      | .error e => .error e

/-- Read `n` bytes at `va` into a tile. -/
def fillTile (s : State) (g : Group) (t : TileRef) (va n off : Nat) : State × Option EErr :=
  match vread s g.core g.asid va n with
  | .ok bs => (s.setCore t.core (setTileBytes (s.core t.core) t.tile off bs), none)
  | .error e => (s, some (eerrOf e))

def setSlotBytes (c : Core) (slot off : Nat) (bs : List Byte) : Core :=
  { c with
      ws := msetList 0 c.ws (32768 * slot + off) bs
      wsPoison := unpoison c.wsPoison (32768 * slot + off) bs.length }

/-- The units that are left: rows of a gather, rows of a shape, or pieces of 512 bytes. -/
def unitsLeft (o : Op) : List Nat :=
  match o.kind with
  | .copyg _ _ _ _ _ left => left
  | _ => lanesOf o.todo

/-- Unit `u` has been served. -/
def unitServed (u : Nat) (o : Op) : Op :=
  match o.kind with
  | .copyg t l z c rows left => { o with kind := .copyg t l z c rows (left.filter (· ≠ u)) }
  | _ => { o with todo := o.todo &&& ~~~ BitVec.ofNat 64 (2 ^ u) }

/-- The 64-byte blocks that `n` bytes at `va` meet, as offset and length of the bytes in each: a block is served at one moment, the blocks
of a unit in any order (16 R328, R332). -/
def blockCuts (va n : Nat) : List (Nat × Nat) :=
  (List.range (n / 64 + 2)).filterMap fun i =>
    let lo := 64 * i - va % 64
    let hi := if n < 64 * (i + 1) - va % 64 then n else 64 * (i + 1) - va % 64
    if lo < hi then some (lo, hi - lo) else none

/-- Where unit `u` lies in memory: address and length. -/
def unitSpan (o : Op) (rows : List Nat) (u : Nat) : Nat × Nat :=
  match o.kind with
  | .copy _ src pitch _ => ((src + u * pitch) % 2 ^ 64, 128)
  | .copyg _ _ size _ _ _ => (rows.getD u 0, size)
  | .copyo _ dst pitch _ => ((dst + u * pitch) % 2 ^ 64, 128)
  | .copyw _ _ src len => (src + 512 * u, if len - 512 * u < 512 then len - 512 * u else 512)
  | _ => (0, 0)

/-- The blocks of unit `u` that are left, by number. -/
def blocksLeft (o : Op) (rows : List Nat) (u : Nat) : List (Nat × Nat × Nat) :=
  let cuts := blockCuts (unitSpan o rows u).1 (unitSpan o rows u).2
  ((List.range cuts.length).zip cuts).filter fun e => !o.pieces.contains (u, e.1)

/-- The bytes of unit `u` from `lo` on, `k` of them: they lie in one block. -/
def copyPiece (s : State) (g : Group) (o : Op) (rows : List Nat) (u lo k : Nat) : State × Option EErr :=
  let va := (unitSpan o rows u).1 + lo
  match o.kind with
  | .copy t _ _ _ => fillTile s g t va k (128 * u + lo)
  | .copyg t _ size _ _ _ => fillTile s g t va k (u * size + lo)
  | .copyo t _ _ _ =>
    let c := s.core t.core
    if tilePoisoned c t.tile (128 * u + lo) k then (s, some (.fault (trapOf 0x0C) (opFilled g o t.tile)))
    else
      match vwrite s g.core g.asid va (tileBytes c t.tile (128 * u + lo) k) with
      | (s, none) => (s, none)
      | (s, some e) => (s, some (eerrOf e))
  | .copyw slot off _ _ =>
    match rawBytes s g.core g.asid 1 va with
    | .ok bs => (s.setCore g.core (setSlotBytes (s.core g.core) slot (off + 512 * u + lo) bs), none)
    | .error e => (s, some (eerrOf e))
  | _ => (s, none)

/-- The given blocks of a unit in turn, until one fails. -/
def copyPieces (g : Group) (o : Op) (rows : List Nat) (u : Nat) : State → List (Nat × Nat × Nat) → State × Option EErr
  | s, [] => (s, none)
  | s, e :: es =>
    match copyPiece s g o rows u e.2.1 e.2.2 with
    | (s, none) => copyPieces g o rows u s es
    | r => r

/-- Unit `u` of the transfer; the state keeps what was written before an error. Bad data that a COPYO finds in its own tile has no
memory address: its daddr is invalid (log entry 77). -/
def copyUnit (s : State) (g : Group) (o : Op) (rows : List Nat) (u : Nat) : State × Option EErr :=
  match o.kind with
  | .copy t src pitch _ => fillTile s g t ((src + u * pitch) % 2 ^ 64) 128 (128 * u)
  | .copyg t _ size _ _ _ => fillTile s g t (rows.getD u 0) size (u * size)
  | .copyo t dst pitch _ =>
    let c := s.core t.core
    if tilePoisoned c t.tile (128 * u) 128 then (s, some (.fault (trapOf 0x0C) (opFilled g o t.tile)))
    else
      match vwrite s g.core g.asid ((dst + u * pitch) % 2 ^ 64) (tileBytes c t.tile (128 * u) 128) with
      | (s, none) => (s, none)
      | (s, some e) => (s, some (eerrOf e))
  | .copyw slot off src len =>
    let n := if len - 512 * u < 512 then len - 512 * u else 512
    match rawBytes s g.core g.asid (n / 64) (src + 512 * u) with
    | .ok bs => (s.setCore g.core (setSlotBytes (s.core g.core) slot (off + 512 * u) bs), none)
    | .error e => (s, some (eerrOf e))
  | _ => (s, none)

/-- The rows of a gather, read once; of other copies none. -/
def copyRows (s : State) (g : Group) (o : Op) : Except EErr (List Nat) :=
  match o.kind with
  | .copyg _ list size count [] _ => gatherRows s g o.taken list size count
  | .copyg _ _ _ _ rows _ => .ok rows
  | _ => .ok []

def keepRows (s : State) (gid n : Nat) (rows : List Nat) : State :=
  s.updOp gid n fun o => { o with kind := match o.kind with
    | .copyg t l z c _ left => .copyg t l z c rows left
    | k => k }

/-- Rows that overlap are written in ascending order: with pitch 0 the last row stands (R202). -/
def unitInOrder (o : Op) (u : Nat) : Bool :=
  match o.kind with
  | .copyo _ _ pitch _ => decide (128 ≤ pitch) || o.todo &&& lanesBelow u = 0
  | _ => true

/-- Of unit `u`, `n` bytes written at `va`, the blocks below `stop` have been written. -/
def writtenBelow (u va n stop : Nat) (o : Op) : Op :=
  let cuts := blockCuts va n
  { o with pieces := (((List.range cuts.length).zip cuts).filterMap fun e =>
      if va + e.2.1 < stop && !o.pieces.contains (u, e.1) then some (u, e.1) else none) ++ o.pieces }

/-- A COPYO that waits in the middle of a unit does not write again what it has written of it. -/
def unitStops (s : State) (gid n : Nat) (o : Op) (rows : List Nat) (u : Nat) (e : EErr) : State :=
  match o.kind, e with
  | .copyo .., .wait va _ => s.updOp gid n (writtenBelow u (unitSpan o rows u).1 (unitSpan o rows u).2 va)
  | _, _ => s

/-- Serve units in ascending order until one fails. -/
def serveUnits (gid n : Nat) (g : Group) (o : Op) (rows : List Nat) : State → List Nat → State × Option EErr
  | s, [] => (s, none)
  | s, u :: us =>
    match (if o.pieces.any (·.1 = u) then copyPieces g o rows u s (blocksLeft o rows u) else copyUnit s g o rows u) with
    | (s, none) => serveUnits gid n g o rows (s.updOp gid n (unitServed u)) us
    | (s, some e) => (unitStops s gid n o rows u e, some e)

/-- Serve the given units of a copy, the list of a gather first. -/
def runCopy (s : State) (gid n : Nat) (g : Group) (o : Op) (us : List Nat) : State × Option EErr :=
  match copyRows s g o with
  | .error e => (s, some e)
  | .ok rows => serveUnits gid n g o rows (keepRows s gid n rows) us

/-! ## Completion and faults -/

def drainOne (s : State) (t : TileRef) : State :=
  setTileAt s t.core t.tile fun e =>
    { e with drains := e.drains - 1, state := if e.drains ≤ 1 then .ready else .draining }

/-- The last unit is written: the tile turns READY, its rest zero; a drain or a busy slot ends. -/
def copyDone (s : State) (gid n : Nat) (g : Group) (o : Op) : State :=
  let s := s.dropOp gid n
  let ready (s : State) (t : TileRef) (used : Nat) : State :=
    setTileAt (s.setCore t.core (setTileBytes (s.core t.core) t.tile used (zeros (4096 - used)))) t.core t.tile fun e =>
      { e with state := .ready, soft := false }
  match o.kind with
  | .copy t _ _ rows => ready s t (128 * rows)
  | .copyg t _ size count _ _ => ready s t (count * size)
  | .copyo t _ _ _ => drainOne s t
  | .copyw slot _ _ _ =>
    let c := s.core g.core
    s.setCore g.core (c.setSlot slot { c.slot slot with busy := false, poisoned := false })
  | _ => s

/-- A copy fault (R205). A COPYO's region is not over: RESUME performs the copy again. -/
def copyFails (s : State) (gid n : Nat) (g : Group) (o : Op) (i : TrapInfo) (qual : Bool) : State :=
  let s := s.dropOp gid n
  let s := match o.kind with
    | .copy t _ _ _ | .copyg t _ _ _ _ _ => setTileAt s t.core t.tile fun e => { e with state := .empty, soft := false }
    | .copyo t _ _ _ => s.updGroup gid (fun g => { g with paths := kupd g.paths o.path fun p =>
        if p.uid = o.uid && p.pc = o.pc + 4 then { p with entryDue := none, behind := false } else p }) |> (drainOne · t)
    | .copyw slot _ _ _ =>
      let c := s.core g.core
      s.setCore g.core (c.setSlot slot { c.slot slot with busy := false, poisoned := true })
    | _ => s
  engineFault s gid o i qual

/-- The fault is of a malformed block: every stream of the ASID in the core's engine is drained with errors, and no new one starts
until system software clears the context (15 R312). -/
def drainStreams (s : State) (g : Group) (i : TrapInfo) : State :=
  if i.cls = 0x0C && i.daddr.any (malformedAt s g.core g.asid) then
    let hit := s.groups.flatMap fun e =>
      if e.2.core = g.core && e.2.asid = g.asid then (e.2.ops.filter fun o => isCopy o.2).map fun o => (e.1, e.2, o) else []
    let s := hit.foldl (fun s h => copyFails s h.1 h.2.2.1 h.2.1 h.2.2.2 (trapOf 0x0C) true) s
    s.haltContext (engCore g.core) g.asid
  else s

/-- What an error brings. -/
def copyErr (s : State) (gid n : Nat) (g : Group) (o : Op) (e : EErr) : State :=
  match e with
  | .fault i q => drainStreams (copyFails s gid n g o i q) g i
  | .wait va w => askChunk s g.asid va w

/-- Serve what is left and complete. -/
def finishCopy (s : State) (gid n : Nat) (g : Group) (o : Op) : State :=
  match runCopy s gid n g o (unitsLeft o) with
  | (s, none) => copyDone s gid n g o
  | (s, some e) => copyErr s gid n g o e

/-- A copy of the group in flight that may run. -/
def runningCopy (s : State) (gid n : Nat) : Option (Group × Op) :=
  (s.opAt gid n).filter fun e => isCopy e.2 && copyReady e.1 n e.2 && !s.contextHalted (engCore e.1.core) e.1.asid

/-- COPY_FILL_COMPLETE of a COPY or a COPYG. -/
def execCopyFillComplete (gid op : Nat) (s : State) : Host.Outcome State Fault Refusal :=
  match runningCopy s gid op with
  | none => .next s
  | some (g, o) =>
    match o.kind with
    | .copy .. | .copyg .. => .next (finishCopy s gid op g o)
    | _ => .next s

/-- COPYO_COMPLETE. -/
def execCopyoComplete (gid op : Nat) (s : State) : Host.Outcome State Fault Refusal :=
  match runningCopy s gid op with
  | none => .next s
  | some (g, o) =>
    match o.kind with
    | .copyo .. => .next (finishCopy s gid op g o)
    | _ => .next s

/-- COPYW_COMPLETE. -/
def execCopywComplete (gid op : Nat) (s : State) : Host.Outcome State Fault Refusal :=
  match runningCopy s gid op with
  | none => .next s
  | some (g, o) =>
    match o.kind with
    | .copyw .. => .next (finishCopy s gid op g o)
    | _ => .next s

/-- The memory address of the first unit left. -/
def copyAddr (o : Op) : Nat :=
  let u := (unitsLeft o).headD 0
  match o.kind with
  | .copy _ src pitch _ => (src + u * pitch) % 2 ^ 64
  | .copyg _ list _ _ rows _ => rows.getD u list
  | .copyo _ dst pitch _ => (dst + u * pitch) % 2 ^ 64
  | .copyw _ _ src _ => src + 512 * u
  | _ => 0

/-- COPY_FAULT: what the engine meets in its next units, or a link error on memory beyond the HBM stacks. -/
def execCopyFault (gid op : Nat) (link : Bool) (s : State) : Host.Outcome State Fault Refusal :=
  match runningCopy s gid op with
  | none => .next s
  | some (g, o) =>
    if link then
      if rangeType s g.core g.asid (copyAddr o) ≠ 0 then
        .next (copyFails s gid op g o (trapAt 0x0B (copyAddr o)) false)
      else .next s
    else
      match runCopy s gid op g o (unitsLeft o) with
      | (t, some (.fault i q)) => .next (drainStreams (copyFails t gid op g o i q) g i)
      | _ => .next s

/-- Block `b` of a unit has been served. -/
def pieceServed (u b : Nat) (o : Op) : Op := { o with pieces := (u, b) :: o.pieces }

/-- A copy engine serves one 64-byte block of a unit before the rest (16 R332). -/
def copyBlock (s : State) (gid n u b : Nat) : State :=
  match runningCopy s gid n with
  | none => s
  | some (g, o) =>
    if (unitsLeft o).contains u && unitInOrder o u then
      match copyRows s g o with
      | .error e => copyErr s gid n g o e
      | .ok rows =>
        match (blocksLeft o rows u).find? (·.1 = b) with
        | none => s
        | some e =>
          match copyPiece (keepRows s gid n rows) g o rows u e.2.1 e.2.2 with
          | (s, none) => s.updOp gid n (pieceServed u b)
          | (s, some e) => copyErr s gid n g o e
    else s

/-- An engine serves one unit before the rest. -/
def engineUnit (s : State) (gid n u : Nat) : State :=
  match runningCopy s gid n with
  | none => s
  | some (g, o) =>
    if (unitsLeft o).contains u && unitInOrder o u then
      match runCopy s gid n g o [u] with
      | (s, none) => s
      | (s, some e) => copyErr s gid n g o e
    else s

end Sys2Proof.Machine
end

