-- ==== Sys2Proof/Machine/IntVec.lean ====
section
/-! DEFINITION. Vector integer instructions (spec/05_group_integer_control.md R93 to R106). -/
namespace Sys2Proof.Machine

/-! ## Arithmetic, minimum and maximum (R96, R97) -/

def execIadd (d : VReg) (a b : VSrc) (s : State) := laneOp (.iadd d a b) s okInt d [a, b] [] fun m => satOp m (· + ·)
def execIaddS (d : VReg) (a : VSrc) (b : UReg) (s : State) := laneOp (.iaddS d a b) s okInt d [a] [b] fun m => satOp m (· + ·)
def execIsub (d : VReg) (a b : VSrc) (s : State) := laneOp (.isub d a b) s okInt d [a, b] [] fun m => satOp m (· - ·)
def execIsubS (d : VReg) (a : VSrc) (b : UReg) (s : State) := laneOp (.isubS d a b) s okInt d [a] [b] fun m => satOp m (· - ·)
def execImul (d : VReg) (a b : VSrc) (s : State) := laneOp (.imul d a b) s okInt d [a, b] [] fun m => satOp m (· * ·)
def execImulS (d : VReg) (a : VSrc) (b : UReg) (s : State) := laneOp (.imulS d a b) s okInt d [a] [b] fun m => satOp m (· * ·)

/-- The high half of the exact product: floor(x * y / 2^w). -/
def mulHigh (t : Ty) (x y : Int) : Int := (x * y) / ((2 ^ tyWidth t : Nat) : Int)

def execImulh (d : VReg) (a b : VSrc) (s : State) := laneOp (.imulh d a b) s okInt d [a, b] [] fun m => wrapOp m mulHigh

/-- The addend is the destination's own element; one narrowing of the exact sum (R97). -/
def madOp (m : Word) (ws : List Word) : Word × Bool :=
  let t := modeTy m
  mapElemsOf t (fun vs => satPat (modeSat m) t
    (elemVal t (vs.getD 2 0) + elemVal t (vs.getD 0 0) * elemVal t (vs.getD 1 0))) ws

def execImad (d : VReg) (a b : VSrc) (s : State) := laneOp (.imad d a b) s okInt d [a, b, dsrc d] [] madOp

def execImin (d : VReg) (a b : VSrc) (s : State) :=
  laneOp (.imin d a b) s okInt d [a, b] [] fun m => wrapOp m fun _ x y => if x ≤ y then x else y
def execImax (d : VReg) (a b : VSrc) (s : State) :=
  laneOp (.imax d a b) s okInt d [a, b] [] fun m => wrapOp m fun _ x y => if x ≤ y then y else x

/-! ## Shifts and rotation (R98) -/

def shlPat (w x c : Nat) : Nat := if w ≤ c then 0 else (x * 2 ^ c) % 2 ^ w
def shrPat (w x c : Nat) : Nat := if w ≤ c then 0 else x / 2 ^ c
def sraPat (w x c : Nat) : Nat := patOf w (signedOf w x / ((2 ^ (if w ≤ c then w else c) : Nat) : Int))
def rotPat (w x c : Nat) : Nat := (x * 2 ^ (c % w) + x / 2 ^ (w - c % w)) % 2 ^ w

def execShl (d : VReg) (a b : VSrc) (s : State) := laneOp (.shl d a b) s okInt d [a, b] [] fun m => patOp m shlPat
def execShr (d : VReg) (a b : VSrc) (s : State) := laneOp (.shr d a b) s okInt d [a, b] [] fun m => patOp m shrPat
def execSra (d : VReg) (a b : VSrc) (s : State) := laneOp (.sra d a b) s okInt d [a, b] [] fun m => patOp m sraPat
def execRot (d : VReg) (a b : VSrc) (s : State) := laneOp (.rot d a b) s okInt d [a, b] [] fun m => patOp m rotPat

/-! ## Bitwise operations and select (R99) -/

def execAnd (d : VReg) (a b : VSrc) (s : State) := laneOp (.and d a b) s okAny d [a, b] [] fun _ => wordOp (· &&& ·)
def execOr (d : VReg) (a b : VSrc) (s : State) := laneOp (.or d a b) s okAny d [a, b] [] fun _ => wordOp (· ||| ·)
def execXor (d : VReg) (a b : VSrc) (s : State) := laneOp (.xor d a b) s okAny d [a, b] [] fun _ => wordOp (· ^^^ ·)
def execAndn (d : VReg) (a b : VSrc) (s : State) := laneOp (.andn d a b) s okAny d [a, b] [] fun _ => wordOp fun x y => x &&& ~~~ y

/-- SEL reads the guard as its selector and writes every lane of the path (R15, R99). -/
def execSel (d : VReg) (a b : VSrc) (s : State) : Host.Outcome State Fault Refusal :=
  issue (.sel d a b) s
    (fun g p => Plan.all [planGuard g p, planSrc g p (pathLanes g p) a, planSrc g p (pathLanes g p) b, planDst g (pathLanes g p) d])
    fun s x =>
      let ra := srcVals x.g x.p a
      let rb := srcVals x.g x.p b
      let sel := guardMask x.g
      let m := pathLanes x.g x.p
      .done (putLanes s x d m (laneMap m fun l => ((if bit sel l then ra else rb).getD l 0, false)))

/-! ## Compare (R100) -/

/-- The conditions of ICMP on integers. -/
def icondHolds (c : ICond) (x y : Int) : Bool :=
  match c with
  | .eq => x = y
  | .ne => x ≠ y
  | .lt => x < y
  | .le => x ≤ y
  | .gt => y < x
  | .ge => y ≤ x

def cmpOp (c : ICond) (m : Word) (ws : List Word) : Bool :=
  let v (i : Nat) : Int := elemVal (modeTy m) (ws.getD i 0).toNat
  icondHolds c (v 0) (v 1)

def execIcmp (p : Fin 8) (c : ICond) (a b : VSrc) (s : State) := predOp (.icmp p c a b) s okCmp p [a, b] [] (cmpOp c)
def execIcmpS (p : Fin 8) (c : ICond) (a : VSrc) (b : UReg) (s : State) := predOp (.icmpS p c a b) s okCmp p [a] [b] (cmpOp c)

/-! ## Address arithmetic and bit fields (R101, R102) -/

def execLea (d : VReg) (a : VSrc) (sub : BitVec 5) (s : State) :=
  laneOp (.lea d a sub) s okAny d [a, dsrc d] [] fun _ => wordOp fun x y => y + (x <<< sub.toNat)

/-- Position and effective length of a field (R102). -/
def fieldOf (b : Word) : Nat × Nat :=
  let pos := b.toNat % 32
  let len := b.toNat / 256 % 64
  let len := if 32 < len then 32 else len
  (pos, if len < 32 - pos then len else 32 - pos)

def bfxOp (a b : Word) : Word :=
  let (pos, m) := fieldOf b
  let f := a.toNat / 2 ^ pos % 2 ^ m
  if b.toNat / 2 ^ 16 % 2 = 1 && m ≠ 0 then BitVec.ofInt 32 (signedOf m f) else BitVec.ofNat 32 f

def bfiOp (d a b : Word) : Word :=
  let (pos, m) := fieldOf b
  let mask : Word := BitVec.ofNat 32 ((2 ^ m - 1) * 2 ^ pos)
  (d &&& ~~~ mask) ||| ((a <<< pos) &&& mask)

def execBfx (d : VReg) (a b : VSrc) (s : State) := laneOp (.bfx d a b) s okAny d [a, b] [] fun _ => wordOp bfxOp
def execBfi (d : VReg) (a b : VSrc) (s : State) :=
  laneOp (.bfi d a b) s okAny d [a, b, dsrc d] [] fun _ ws => (bfiOp (ws.getD 2 0) (ws.getD 0 0) (ws.getD 1 0), false)

/-! ## Unary operations (R103) -/

def execIabs (d : VReg) (a : VSrc) (s : State) :=
  laneOp (.iabs d a) s okInt d [a] [] fun m => satOp m fun x _ => if x < 0 then -x else x
def execIneg (d : VReg) (a : VSrc) (s : State) := laneOp (.ineg d a) s okInt d [a] [] fun m => satOp m fun x _ => -x

def clzOf (w : Word) : Nat := if w = 0 then 32 else 31 - Nat.log2 w.toNat
def popcOf (w : Word) : Nat := ((List.range 32).filter fun k => w.toNat / 2 ^ k % 2 = 1).length
def brevOf (w : Word) : Nat := ((List.range 32).map fun k => w.toNat / 2 ^ k % 2 * 2 ^ (31 - k)).sum

def execClz (d : VReg) (a : VSrc) (s : State) := laneOp (.clz d a) s okAny d [a] [] fun _ => wordOp fun x _ => BitVec.ofNat 32 (clzOf x)
def execPopc (d : VReg) (a : VSrc) (s : State) := laneOp (.popc d a) s okAny d [a] [] fun _ => wordOp fun x _ => BitVec.ofNat 32 (popcOf x)
def execBrev (d : VReg) (a : VSrc) (s : State) := laneOp (.brev d a) s okAny d [a] [] fun _ => wordOp fun x _ => BitVec.ofNat 32 (brevOf x)

/-! ## Immediates and moves (R104, R105) -/

def execIaddi (d : VReg) (imm : BitVec 16) (s : State) :=
  laneOp (.iaddi d imm) s okAny d [dsrc d] [] fun _ => wordOp fun x _ => x + imm.signExtend 32
def execLli (d : VReg) (imm : BitVec 16) (s : State) := laneOp (.lli d imm) s okAny d [] [] fun _ => wordOp fun _ _ => imm.setWidth 32
def execLui (d : VReg) (imm : BitVec 16) (s : State) :=
  laneOp (.lui d imm) s okAny d [dsrc d] [] fun _ => wordOp fun x _ => imm ++ x.setWidth 16
def execMovv (d : VReg) (a : VSrc) (s : State) := laneOp (.movv d a) s okAny d [a] [] fun _ => wordOp fun x _ => x

/-! ## Indirect moves (R71, R73, R106) -/

/-- Where a word of the register space or of the accumulator view is. -/
inductive IndPlace where
  | reg (w : Nat)
  | elem (bank e k : Nat)      -- word k of the element's 192 bits
  | flags (bank e : Nat)       -- four flag bytes from element e
  deriving DecidableEq, Repr

/-- The checks of R73 with w = 4 on an address: the place (of its word), or the trap class; an access inside the window of a bank
that the group does not own is misuse, wherever in the window it lies. -/
def indPlace (g : Group) (a : Nat) : Except Nat IndPlace :=
  if a + 4 ≤ g.regbytes then .ok (.reg (a / 4))
  else
    let av := g.views.avbase.toNat
    if a < av || av + 0x80000 ≤ a then .error 0x02
    else
      let bank := (a - av) / 0x8000
      let off := (a - av) % 0x8000
      if !g.banks.contains bank then .error 0x12
      else if off + 4 ≤ 0x6000 then .ok (.elem bank (off / 24) (off % 24 / 4))
      else if decide (0x6000 ≤ off) && decide (off + 4 ≤ 0x6400) then .ok (.flags bank (off - 0x6000))
      else .error 0x02

/-- The place's word for R90. -/
def indKey : IndPlace → Nat × Mask
  | .reg w => (w / 64, BitVec.ofNat 64 (2 ^ (w % 64)))
  | .elem b e k => avBlock b (24 * e + 4 * k)
  | .flags b e => avBlock b (0x6000 + e)

def flagByte (a : Acc) : Nat := (if a.ovf then 1 else 0) + (if a.unf then 2 else 0) + (if a.nan then 4 else 0)

/-- The value an access of the path of creation `u` reads: the working half where its region has written the element, else the
committed one (R71, R172). -/
def liveElem (b : Bank) (u e : Nat) : Acc := ((kget b.elems e).getD elemZero).seen u

/-- Write a working value. -/
def putElem (b : Bank) (u e : Nat) (v : Acc) : Bank :=
  let x := (kget b.elems e).getD elemZero
  { b with elems := kset b.elems e { x with work := kset x.work u v } }

def bankOf (s : State) (core n : Nat) : Bank := (kget (s.core core).banks n).getD ⟨0, [], []⟩
def setBank (s : State) (core n : Nat) (b : Bank) : State := s.setCore core { s.core core with banks := kset (s.core core).banks n b }

def readInd (s : State) (g : Group) (u : Nat) : IndPlace → Word
  | .reg w => mget 0 g.regs w
  | .elem b e k => (liveElem (bankOf s g.core b) u e).v.extractLsb' (32 * k) 32
  | .flags b e => BitVec.ofNat 32 (leNat ((List.range 4).map fun i => BitVec.ofNat 8 (flagByte (liveElem (bankOf s g.core b) u (e + i)))))

/-- Flags from a flag byte; bits [7:3] are ignored (R71). -/
def setFlagsOf (a : Acc) (f : Nat) : Acc := { a with ovf := f % 2 = 1, unf := f / 2 % 2 = 1, nan := f / 4 % 2 = 1 }

def writeInd (s : State) (x : Ctx) (v : Word) : IndPlace → State
  | .reg w => x.onGroup s fun g => { g with regs := mset 0 g.regs w v, regPoison := g.regPoison.filter (· ≠ w) }
  | .elem b e k =>
    let bk := bankOf s x.g.core b
    let a := liveElem bk x.p.uid e
    let mask : BitVec 192 := BitVec.ofNat 192 (0xFFFFFFFF * 2 ^ (32 * k))
    setBank s x.g.core b (putElem bk x.p.uid e { a with v := (a.v &&& ~~~ mask) ||| (v.setWidth 192 <<< (32 * k)) })
  | .flags b e =>
    setBank s x.g.core b ((List.range 4).foldl (fun bk i =>
      putElem bk x.p.uid (e + i) (setFlagsOf (liveElem bk x.p.uid (e + i)) (v.toNat / 256 ^ i % 256))) (bankOf s x.g.core b))

/-- The lanes' addresses A = v[a] + v[b] modulo 2^32. -/
def indAddrs (g : Group) (p : Path) (a b : VSrc) : List Nat :=
  (List.range 64).map fun l => ((srcVals g p a).getD l 0 + (srcVals g p b).getD l 0).toNat

/-- The failing check over the active lanes (R106): R73, whose range class goes before misuse where lanes fail both (01 R21), then
alignment. -/
def indTrap (g : Group) (m : Mask) (addrs : List Nat) : Option Nat :=
  let ls := lanesOf m
  let fails (c : Nat) : Bool := ls.any fun l => match indPlace g (addrs.getD l 0) with
    | .error k => k = c
    | .ok _ => false
  if fails 0x02 then some 0x02
  else if fails 0x12 then some 0x12
  else if ls.any fun l => addrs.getD l 0 % 4 ≠ 0 then some 0x0A else none

/-- The places of the active lanes that pass R73. -/
def indPlaces (g : Group) (m : Mask) (addrs : List Nat) : List (Nat × IndPlace) :=
  (lanesOf m).filterMap fun l => match indPlace g (addrs.getD l 0) with
    | .ok pl => some (l, pl)
    | .error _ => none

/-- Register-space blocks that an indirect access touches. -/
def indBlocks (pls : List (Nat × IndPlace)) : List Nat :=
  pls.filterMap fun e => match e.2 with
    | .reg w => some (w / 64)
    | _ => none

/-- An earlier matrix operation of the group names the bank (R173). -/
def bankBusy (g : Group) (bank : Nat) : Bool :=
  g.ops.any fun e => match e.2.kind with
    | .mat (.aczero b) | .mat (.mma _ b ..) | .mat (.acld b ..) | .mat (.acst b ..) => b = bank
    | _ => false

def indBanksBusy (g : Group) (pls : List (Nat × IndPlace)) : Bool :=
  pls.any fun e => match e.2 with
    | .elem b _ _ | .flags b _ => bankBusy g b
    | _ => false

/-- The elements that an access through AV reads, a partial write included, as bank and element. -/
def indElems (pls : List (Nat × IndPlace)) : List (Nat × Nat) :=
  pls.flatMap fun e => match e.2 with
    | .elem b k _ => [(b, k)]
    | .flags b k => (List.range 4).map fun i => (b, k + i)
    | .reg _ => []

/-- Uncorrectable data in an element that the access reads (08 R191): a word that the region wrote qualifies for the restart, an
input of the region traps at once (08 R181). -/
def indBad (s : State) (x : Ctx) (pls : List (Nat × IndPlace)) : Option Res :=
  let bad := (indElems pls).filter fun e => (bankOf s x.g.core e.1).poison.contains e.2
  if bad.isEmpty then none
  else
    let own (e : Nat × Nat) : Bool := (kget ((kget (bankOf s x.g.core e.1).elems e.2).getD elemZero).work x.p.uid).isSome
    some (if bad.all own then .qualified (trapOf 0x0C) else .trap (trapOf 0x0C))

/-- The lanes whose words the plan reads without uncorrectable data. -/
def soundLanes (g : Group) (pl : Plan) : Mask :=
  maskOf fun l => !g.regPoison.any fun w => decide (w % 64 = l) && pl.reads.any fun e => e.1 = w / 64

/-- The reads of the guard and of the address, and the range check of the lanes whose address is sound (R73). -/
def moviPlan (g : Group) (p : Path) (a b : VSrc) : Plan :=
  let pl := Plan.all [planGuard g p, planSrc g p (active g p) a, planSrc g p (active g p) b]
  { pl with range := indTrap g (active g p &&& soundLanes g pl) (indAddrs g p a b) = some 0x02 }

def execMovi (d : VReg) (a b : VSrc) (s : State) : Host.Outcome State Fault Refusal :=
  issue (.movi d a b) s
    (fun g p =>
      let pls := indPlaces g (active g p) (indAddrs g p a b)
      Plan.all [moviPlan g p a b, { Plan.none with touch := indBlocks pls, reads := pls.map fun e => indKey e.2 },
        planDst g (active g p) d])
    fun s x =>
      let m := active x.g x.p
      let addrs := indAddrs x.g x.p a b
      let pls := indPlaces x.g m addrs
      match indTrap x.g m addrs with
      | some c => .trap (trapOf c)
      | none =>
        if indBanksBusy x.g pls then .hold
        else
          (indBad s x pls).getD <| .done (putLanes s x d m (laneMap m fun l => match kget pls l with
            | some pl => (readInd s x.g x.p.uid pl, false)
            | none => (0, false)))

def execMoviw (d a b : VSrc) (s : State) : Host.Outcome State Fault Refusal :=
  issue (.moviw d a b) s
    (fun g p =>
      let pls := indPlaces g (active g p) (indAddrs g p a b)
      Plan.all [moviPlan g p a b, planSrc g p (active g p) d,
        { Plan.none with wtouch := indBlocks pls, writes := pls.map fun e => indKey e.2 }])
    fun s x =>
      let m := active x.g x.p
      let addrs := indAddrs x.g x.p a b
      let pls := indPlaces x.g m addrs
      let vs := srcVals x.g x.p d
      match indTrap x.g m addrs with
      | some c => .trap (trapOf c)
      | none =>
        if indBanksBusy x.g pls then .hold
        else (indBad s x pls).getD <| .done (pls.foldl (fun s e => writeInd s x (vs.getD e.1 0) e.2) s)

end Sys2Proof.Machine
end

