-- ==== Sys2Proof/Machine/Matrix.lean ====
section
/-! DEFINITION. Matrix and seeded-weight instructions at issue (spec/10_matrix_instructions.md R219 to R241): banks by rank, the
location and format words, and what joins the matrix queue. The operations run as steps of the engine. -/
namespace Sys2Proof.Machine

/-! ## Banks (R219, R224, R225) -/

/-- The core bank of a rank. -/
def rankBank (g : Group) (n : Nat) : Option Nat := g.banks[n]?

def bankTrap : Res := .trap (trapOf 0x12)

/-- Banks neither owned nor reserved for a request. -/
def bankFree (c : Core) (n : Nat) : Bool :=
  (kget c.banks n).isNone && c.acreqs.all fun r => r.first.all fun f => !(decide (f ≤ n) && decide (n < f + r.count))

/-- The lowest-numbered run of `n` free banks (08 R171). -/
def freeRun (c : Core) (n : Nat) : Option Nat :=
  (List.range 17).find? fun f => decide (f + n ≤ 16) && (List.range n).all fun i => bankFree c (f + i)

/-- The requests but those of the issuing path. -/
def othersReqs (c : Core) (x : Ctx) : List AcReq := c.acreqs.filter fun r => !(r.gid = x.gid && r.uid = x.p.uid)

/-- The banks become the group's, zero and with clear flags. -/
def takeBanks (s : State) (x : Ctx) (d : UReg) (f n : Nat) : State :=
  let c := s.core x.g.core
  let c := { c with
    banks := (List.range n).foldl (fun m i => kset m (f + i) ⟨x.gid, [], []⟩) c.banks
    acreqs := othersReqs c x }
  x.onGroup (s.setCore x.g.core c) fun g => { g.setUs d (BitVec.ofNat 32 f) with banks := g.banks ++ (List.range n).map (f + ·) }

/-- ACALLOC: its own region; requests are granted in the order they issued. -/
def execAcalloc (d : UReg) (b : BitVec 8) (s : State) : Host.Outcome State Fault Refusal :=
  issue (.acalloc d b) s (fun _ _ => planUdst d) fun s x =>
    let n := b.toNat
    if 16 - x.g.banks.length < n then bankTrap
    else atOwnEntry s x fun s x =>
      let c := s.core x.g.core
      if c.retAccs then .holdWith (s.setCore x.g.core { c with retAccs := false })
      else match c.acreqs.find? fun r => r.gid = x.gid && r.uid = x.p.uid && r.count = n with
      | some r =>
        match r.first with
        | some f => .done (entryNext x (takeBanks s x d f n))
        | none => .block s .acalloc
      | none =>
        match (othersReqs c x).isEmpty, freeRun { c with acreqs := othersReqs c x } n with
        | true, some f => .done (entryNext x (takeBanks s x d f n))
        | _, _ => .block (s.setCore x.g.core { c with acreqs := othersReqs c x ++ [⟨x.gid, x.p.uid, n, none⟩] }) .acalloc

/-- ACFREE: after every earlier matrix operation that names the banks; a commit point. -/
def execAcfree (d : Fin 16) (b : BitVec 8) (s : State) : Host.Outcome State Fault Refusal :=
  issue (.acfree d b) s (fun _ _ => { Plan.none with parted := true }) fun s x =>
    let n := b.toNat
    if x.g.banks.length < d.val + n then bankTrap
    else
      let gone := (x.g.banks.drop d.val).take n
      if gone.any (bankBusy x.g) || commitHold x then .hold
      else
        let c := s.core x.g.core
        let s := s.setCore x.g.core { c with banks := c.banks.filter fun e => !gone.contains e.1 }
        .done (entryNext x (x.onGroup s fun g => { g with banks := g.banks.filter fun k => !gone.contains k }))

/-! ## Joining the queue (R165, R174) -/

/-- An operation joins the core's queue and the group's open batch; `todo` is set while it has operands to fetch. -/
def joinQueue (s : State) (x : Ctx) (todo : Mask) (m : MatOp) : Res :=
  let c := s.core x.g.core
  if decide (8 ≤ c.mq.length) || full x.g isMat then .hold
  else
    let n := s.nextOp
    let s := x.add s todo (.mat m)
    .done (s.setCore x.g.core ((s.core x.g.core).withQueue ((s.core x.g.core).mq ++ [(x.gid, n)]) s.now))

/-- What every converged instruction of the class consults. -/
def planConv : Plan := { Plan.none with converge := true }

def execAczero (d : Fin 16) (s : State) : Host.Outcome State Fault Refusal :=
  issue (.aczero d) s (fun _ _ => planConv) fun s x =>
    match rankBank x.g d.val with
    | none => bankTrap
    | some k => joinQueue s x 0 (.aczero k)

/-! ## The location and format words (R227 to R232) -/

def encScales (e : Nat) : List Nat :=
  if e = 9 || e = 10 then [0, 2] else if e = 16 then [1, 3] else [0, 1, 2, 3]

/-- Start and pitch are multiples of this (R230). -/
def encAlign (f : OpFmt) : Nat :=
  if f.enc = 14 || f.enc = 15 then 1 else if f.enc = 16 then 32 else if f.enc = 17 then 8
  else if encClass f.enc = 2 && f.scale = 1 then 64 else 2

/-- A half is accepted (R228, R229). -/
def fmtOk (f : OpFmt) (isB handle : Bool) : Bool :=
  f.rsv = 0 && decide (f.wrap ≤ 1) && encClass f.enc ≠ 0 && (isB || f.enc ≠ 17) && (encScales f.enc).contains f.scale
    && (handle || (f.scale ≠ 3 && f.wrap = 0 && f.lay = 0))

/-- A tile word's layout and extent (R227, R230). -/
def tileLayoutOk (w : Word) (f : OpFmt) : Bool :=
  decide (w.toNat < 2 ^ 31) && locStart w % encAlign f = 0 && locPitch w % encAlign f = 0
    && decide (locStart w + 31 * locPitch w + encRow f.enc ≤ 8192)

/-- Column pitch of a weight-store operand in bytes. -/
def colPitch (f : OpFmt) : Nat := 32 * 2 ^ f.lay

/-- A handle's layout and extent (R231). -/
def handleLayoutOk (h : Word) (f : OpFmt) : Bool :=
  let base := 64 * handleOff h
  handleOk h && decide (encRow f.enc / 2 ≤ colPitch f) && decide (base + 31 * colPitch f + encRow f.enc / 2 ≤ 32768)
    && (f.scale ≠ 3 || decide (base + 32 * colPitch f + scaleBytes f ≤ 32768))

/-- Step 3 of R220. -/
def mmaLayoutOk (form : MmaForm) (core : Nat) (lo hi fmt : Word) : Bool :=
  let a := fmtA fmt
  let b := fmtB fmt
  fmtOk a false false && tileLayoutOk lo a
    && (!suppliesB form core || (fmtOk b true (formHandle form) && encClass a.enc = encClass b.enc
      && (if formHandle form then handleLayoutOk hi b else tileLayoutOk hi b)))

/-- A lane vote: every lane holds lane 0's word (R221). -/
def voteFails (vs : List Word) : Bool := vs.any fun w => w ≠ vs.headD 0

/-- The check of one scale array. -/
def scaleFail (s : State) (x : Ctx) (f : OpFmt) (base : Nat) : Option (Nat × MErr) :=
  if f.scale = 1 || f.scale = 2 then
    match checkBytes s x.g.core x.g.asid .read (scaleBytes f / 256 + 2) base (scaleBytes f) with
    | .error e => some (e.va, e.err)
    | .ok _ => none
  else none

/-- The check of the scale arrays that the operation reads: the byte that fails first in the order of R145, of A's array before B's. -/
def scalesFail (s : State) (x : Ctx) (sup : Bool) (fmt : Word) : Option (Nat × MErr) :=
  match scaleFail s x (fmtA fmt) x.g.sa.toNat, if sup then scaleFail s x (fmtB fmt) x.g.sb.toNat else none with
  | some f, some h => if errRank f.2 ≤ errRank h.2 then some f else some h
  | some f, none => some f
  | none, r => r

/-- Step 4 of R220 for the operands of a multiplication, then `ok`. -/
def locateOperands (s : State) (x : Ctx) (form : MmaForm) (lo hi fmt : Word) (ok : Res) : Res :=
  let sup := suppliesB form x.g.core
  let ops := (lo, fmtA fmt) :: (if sup && !formHandle form then [(hi, fmtB fmt)] else [])
  let tiles := ops.map (·.1)
  let bad (w : Word) : Bool := !locScratch w && decide (x.g.views.tvcount.toNat ≤ locIndex w)
  let checks := (tiles.filter locScratch).map fun w => tileCheck s x.gid x.g (locIndex w) .read
  if tiles.any bad then .trap (trapOf 0x02)
  else
    match checks.findSome? fun v => match v with
      | .trap c => some c
      | _ => none with
    | some c => .trap (trapCause 0x13 c)
    | none =>
      if checks.any (· = .hold) then .hold
      else
        let sl := (s.core x.g.core).slot (handleSlot hi)
        if formHandle form && sup && (!sl.valid || sl.asid ≠ x.g.asid) then .trap (trapOf 0x08)
        else
          match scalesFail s x sup fmt with
          | some f => memFail s x f
          | none =>
            if pendingHit x.g { Plan.none with touch := ops.flatMap fun o => operandBlocks x.g.views o.1 o.2 }
                || ((tiles.any locScratch) && spfHeld x.g x.p) then .hold
            else ok

/-- The words of the location double and the format word, as lane 0 holds them. -/
def mmaWords (g : Group) (p : Path) (a : Fin 248) (b : VSrc) : Word × Word × Word :=
  ((g.v a.val).getD 0 0, (g.v (a.val + 1)).getD 0 0, (srcVals g p b).getD 0 0)

/-- The tile words that the operation reads, for R90. -/
def mmaReads (g : Group) (p : Path) (form : MmaForm) (a : Fin 248) (b : VSrc) : List (Nat × Mask) :=
  let (lo, hi, fmt) := mmaWords g p a b
  operandReads g.views lo (fmtA fmt)
    ++ (if suppliesB form g.core && !formHandle form then operandReads g.views hi (fmtB fmt) else [])

/-- A multiplication joins the queue; its reads of scale arrays are accesses of the path, which an acquire holds (16 R324). -/
def joinMma (s : State) (x : Ctx) (form : MmaForm) (fmt : Word) (m : MatOp) : Res :=
  if memScaled form x.g.core fmt then
    (if memHeld x.g x.p .load then .hold else joinQueue (memOpen s x) x 1 m)
  else joinQueue s x 1 m

/-- The four multiplications (R233). -/
def mmaOp (i : Instr) (s : State) (form : MmaForm) (d : Fin 16) (a : Fin 248) (b : VSrc) : Host.Outcome State Fault Refusal :=
  issue i s
    (fun g p => Plan.all [planConv, planSpan g allLanes a.val 2, planSrc g p allLanes b,
      { Plan.none with treads := mmaReads g p form a b }])
    fun s x =>
      match rankBank x.g d.val with
      | none => bankTrap
      | some k =>
        let (lo, hi, fmt) := mmaWords x.g x.p a b
        if voteFails (x.g.v a.val) || voteFails (x.g.v (a.val + 1)) || voteFails (srcVals x.g x.p b) then .trap (trapOf 0x05)
        else if !mmaLayoutOk form x.g.core lo hi fmt then .trap (trapOf 0x06)
        else locateOperands s x form lo hi fmt (joinMma s x form fmt (.mma form k lo hi fmt x.g.views x.g.sa x.g.sb))

def execMma (d : Fin 16) (a : Fin 248) (b : VSrc) (s : State) := mmaOp (.mma d a b) s .solo d a b
def execMmap (d : Fin 16) (a : Fin 248) (b : VSrc) (s : State) := mmaOp (.mmap d a b) s .pair d a b
def execMmaq (d : Fin 16) (a : Fin 248) (b : VSrc) (s : State) := mmaOp (.mmaq d a b) s .quad d a b
def execMmaw (d : Fin 16) (a : Fin 248) (b : VSrc) (s : State) := mmaOp (.mmaw d a b) s .weight d a b

/-! ## Batches (R165, R236, R237) -/

def execMfence (d : UReg) (s : State) : Host.Outcome State Fault Refusal :=
  issue (.mfence d) s (fun _ _ => planUdst d) fun s x =>
    .done (x.onGroup s fun g => { g.setUs d (BitVec.ofNat 32 (g.batch % 65536)) with batch := g.batch + 1 })

/-- WAITB holds for the operations of the named batch and of those before it, however long ago; of every batch where the number names none. -/
def waitbHeld (g : Group) (n : Nat) : Bool :=
  let δ := (g.batch % 65536 + 65536 - n % 65536) % 65536
  g.ops.any fun e => isMat e.2 &&
    (δ = 0 || decide (32768 < δ) || decide (δ ≤ g.batch - e.2.batch))

def execWaitb (a : UReg) (s : State) : Host.Outcome State Fault Refusal :=
  issue (.waitb a) s (fun _ _ => planU a) fun s x =>
    if waitbHeld x.g (x.g.us a).toNat then .hold else .done s

/-! ## Reading out (R238) -/

/-- Target codes of ACLD and ACST. -/
def readCode (c : Nat) : Bool := decide (c ≤ 5) || (decide (8 ≤ c) && decide (c ≤ 10)) || (decide (12 ≤ c) && decide (c ≤ 15))

/-- They consult round, sat, nov and flush. -/
def okRead (m : Word) : Bool := okRound m && okNov m

/-- Width in bits of a target element. -/
def readWidth (fmt : Word) : Nat := tyWidth ((tyOfCode (fmt.toNat % 32)).getD .i32)

/-- Register words that ACLD writes in a tile block: the first `w` words of each row of 32. -/
def acldMask (w : Nat) : Mask := maskOf fun l => decide (l % 32 < w)

/-- Blocks of tile register k. -/
def tileRegBlocks (g : Group) (k : Nat) : List Nat := (List.range 16).map (g.taddr k / 256 + ·)

def planTileDst (g : Group) (k : Nat) (m : Mask) : Plan :=
  { Plan.none with tiles := [k], wtouch := tileRegBlocks g k, writes := (tileRegBlocks g k).map fun b => (b, m) }

/-- A tile register that an engine reads in these spans. -/
def planTileSrc (g : Group) (k : Nat) (spans : List (Nat × Nat)) : Plan :=
  let r := spanReads (g.taddr k) spans
  { Plan.none with tiles := [k], touch := r.map (·.1), treads := r }

def execAcld (d : Fin 248) (a : Fin 16) (b : VSrc) (s : State) : Host.Outcome State Fault Refusal :=
  issue (.acld d a b) s
    (fun g p => Plan.all [planIllegal (!okRead g.mode), planConv, planSrc g p allLanes b,
      planTileDst g d.val (acldMask (readWidth ((srcVals g p b).getD 0 0)))])
    fun s x =>
      let vs := srcVals x.g x.p b
      let fmt := vs.getD 0 0
      match rankBank x.g a.val with
      | none => bankTrap
      | some k =>
        if voteFails vs then .trap (trapOf 0x05)
        else if !readCode (fmt.toNat % 32) || fmt.toNat / 32 ≠ 0 then .trap (trapOf 0x06)
        else joinQueue s x 0 (.acld k (x.g.taddr d.val) fmt x.g.mode)

def execAcst (d : Fin 192) (a : Fin 16) (b : VSrc) (s : State) : Host.Outcome State Fault Refusal :=
  issue (.acst d a b) s
    (fun g p => Plan.all [planIllegal (!okRead g.mode), planConv, planUspan d.val 2, planSrc g p allLanes b])
    fun s x =>
      let vs := srcVals x.g x.p b
      let fmt := vs.getD 0 0
      let pitch := fmt.toNat / 65536
      let w := readWidth fmt
      let addr := x.g.upair d.val
      match rankBank x.g a.val with
      | none => bankTrap
      | some k =>
        if voteFails vs then .trap (trapOf 0x05)
        else if !readCode (fmt.toNat % 32) || fmt.toNat / 32 % 2048 ≠ 0 || pitch % 16 ≠ 0 || decide (pitch < 4 * w) then
          .trap (trapOf 0x06)
        else if addr % 16 ≠ 0 then .trap (trapAt 0x0A addr)
        else
          let n := 31 * pitch + 4 * w
          match checkBytes s x.g.core x.g.asid .write (n / 256 + 2) addr n with
          | .error e => memFail s x (e.va, e.err)
          | .ok _ => joinQueue s x 0 (.acst k addr pitch fmt x.g.mode)

/-! ## Seeds and tiles (R239 to R241) -/

/-- SEEK's new word for slice c; none leaves the slice's lanes unchanged. -/
def seekWord (g : Group) (dw : Nat) (a : Fin 248) (start count c : Nat) : Option Word :=
  let w := (List.range 16).map fun i => ((g.v (a.val + i % 4)).getD (4 * c + i / 4) 0).toNat
  (seekBlock dw w start count).map (BitVec.ofNat 32)

def execSeek (d : VReg) (a : Fin 248) (b : UReg) (s : State) : Host.Outcome State Fault Refusal :=
  issue (.seek d a b) s
    (fun g _ => Plan.all [planConv, planSpan g allLanes a.val 4, planU b, planRW g allLanes d])
    fun s x =>
      let n := (x.g.us b).toNat
      if 256 < n / 65536 then .trap (trapOf 0x06)
      else
        let dv := srcVals x.g x.p (dsrc d)
        let ws := (List.range 16).map fun c => seekWord x.g (dv.getD (4 * c) 0).toNat a (n % 65536) (n / 65536) c
        .done (x.onGroup s fun g => g.setV d allLanes (rowOf fun l => (ws.getD (l / 4) none).getD (dv.getD l 0)))

def execSeedx (d : Fin 248) (a : Fin 248) (b : UReg) (s : State) : Host.Outcome State Fault Refusal :=
  issue (.seedx d a b) s
    (fun g _ => Plan.all [planIllegal (!okRound g.mode), planConv, planU b, planTileSrc g a.val (seedSpans (g.us b)), planTileDst g d.val allLanes])
    fun s x =>
      let w := x.g.us b
      if 2048 ≤ w.toNat then .trap (trapOf 0x06)
      else joinQueue s x 1 (.seedx (x.g.taddr d.val) (x.g.taddr a.val) w x.g.mode)

def tsizeBytes : TSize → Nat
  | .b1 => 1
  | .b2 => 2
  | .b4 => 4

def execTtrans (d : Fin 248) (a : Fin 248) (b : TSize) (s : State) : Host.Outcome State Fault Refusal :=
  issue (.ttrans d a b) s (fun g _ => Plan.all [planConv, planTileSrc g a.val fullSpans, planTileDst g d.val allLanes]) fun s x =>
    joinQueue s x 1 (.ttrans (x.g.taddr d.val) (x.g.taddr a.val) (tsizeBytes b))

end Sys2Proof.Machine
end

