-- ==== Sys2Proof/Machine/MatrixEngine.lean ====
section
/-! DEFINITION. The matrix engine (spec/08_core.md R171 to R178, spec/10_matrix_instructions.md R222, R223, R229 to R241, spec/12
R260): operands fetched through the chain of R175, the multiplications, pairings, read-outs, and the engine's faults. -/
namespace Sys2Proof.Machine

/-! ## Places an operand comes from -/

/-- Bytes of an operand's home, by offset. -/
abbrev Bytes := Nat → Nat

/-- Nibble `n` (R227). -/
def nibble (f : Bytes) (n : Nat) : Nat := f (n / 2) / 16 ^ (n % 2) % 16

/-- `c` nibbles from `n` on, as one code. -/
def nibbles (f : Bytes) : Nat → Nat → Nat
  | _, 0 => 0
  | n, c + 1 => nibble f n + 16 * nibbles f (n + 1) c

/-- Code of element `k` of operand row `r`. -/
def elemCode (f : Bytes) (start pitch r k c : Nat) : Nat := nibbles f (start + r * pitch + k * c) c

/-- Row `r` of an operand: its K values, and whether an I4X block was exceeded (R229 to R232). `sc` gives the scale bytes. -/
def operandRow (f : Bytes) (start pitch : Nat) (o : OpFmt) (sc : Nat → Nat) (r : Nat) : List Exact × Bool :=
  if o.enc = 16 then
    let bs := (List.range 8).map fun b =>
      i4xDecode ((List.range 32).map fun t => nibble f (start + r * pitch + 32 * b + t)) (sc (2 * (8 * r + b))) (sc (2 * (8 * r + b) + 1))
    (bs.flatMap (·.1), bs.any (·.2))
  else if o.enc = 17 then
    let e := if o.scale = 0 then 127 else if o.scale = 2 then sc 0 else sc r
    ((List.range 8).flatMap fun q => seedBlock (nibbles f (start + r * pitch + 8 * q) 8) e, false)
  else
    let t := (tyOfCode o.enc).getD .i8
    let nb := encK o.enc / 32
    ((List.range (encK o.enc)).map fun k =>
      let c := elemCode f start pitch r k (encClass o.enc)
      if o.scale = 0 then decodeTy t false c else scaledElem t (if o.scale = 2 then sc 0 else sc (nb * r + k / 32)) c, false)

/-- The 32 rows, and whether OX is set. -/
def operandRows (f : Bytes) (start pitch : Nat) (o : OpFmt) (sc : Nat → Nat) : List (List Exact) × Bool :=
  let rs := (List.range 32).map (operandRow f start pitch o sc)
  (rs.map (·.1), rs.any (·.2))

/-! ## Uncorrectable data (R181) -/

/-- A fault of uncorrectable data with no address. -/
def badData (qual : Bool) : EErr := .fault (trapOf 0x0C) qual

/-- Poisoned register words among the bytes of a tile register at `addr`. -/
def regBad (g : Group) (o : Op) (addr : Nat) (spans : List (Nat × Nat)) : Option EErr :=
  let ws := g.regPoison.filter fun w => decide (addr ≤ 4 * w) && (List.range 4).any fun i => inSpans spans (4 * w + i - addr)
  if ws.isEmpty then none
  else some (badData ((g.path o.path).any fun p =>
    p.uid = o.uid && ws.all fun w => bit (mget 0 p.written (w / 64)) (w % 64)))

def scrBad (c : Core) (g : Group) (o : Op) (k : Nat) (spans : List (Nat × Nat)) : Option EErr :=
  if c.scrPoison.any fun b => decide (4096 * k ≤ b) && decide (b < 4096 * k + 4096) && inSpans spans (b - 4096 * k) then
    some (badData (opFilled g o k))
  else none

/-! ## Fetching -/

/-- A fetched operand: rows, and OX. -/
abbrev Operand := List (List Exact) × Bool

/-- A scale array of `k` bytes may not be read yet (R232): the fetch waits for the path's earlier stores, as a relaxed strong read for its
earlier strong loads and loads of the same bytes (16 R323), for what a narrow FENCE orders before it, and while its group leaves the
place alone (16 R325). -/
def scalesHeld (g : Group) (n : Nat) (o : Op) (base k : Nat) : Bool :=
  before g n o.mask isStore || before g n o.mask (unboundStrong g.core) || loadOverlap g o.mask n base k
    || !(narrowOpen g o.mask o.narrow false).isEmpty || locked g.locks o.mask false g.asid base k

/-- Scale bytes of memory (R232), with the blocks read before. In a chunk of a MIGRATING range that is not present the engine waits, as a
copy engine does (R204; log entry 121). -/
def memScales (s : State) (g : Group) (n : Nat) (o : Op) (f : OpFmt) (base : Nat) : Except EErr (List Byte) :=
  if farScales f then
    if scalesHeld g n o base (scaleBytes f) then .error (.wait base (.trap 0))
    else
      match vread s g.core g.asid base (scaleBytes f) with
      | .ok bs => .ok (withTaken o.taken 0 base bs)
      | .error e => .error (eerrOf e)
  else .ok []

def scaleFn (bs : List Byte) (i : Nat) : Nat := (bs.getD i 0).toNat

/-- The last stages of an operand whose data has been read: the scales, then the expansion (R175). -/
def scaleOperand (s : State) (g : Group) (n : Nat) (o : Op) (f : OpFmt) (base : Nat) (k : List Byte → Operand) :
    Except EErr Operand :=
  match memScales s g n o f base with
  | .error e => .error e
  | .ok sc => .ok (k sc)

/-- A tile operand (R227, R230): its data, then its scales. -/
def fetchTile (s : State) (g : Group) (n : Nat) (o : Op) (v : Views) (w : Word) (f : OpFmt) (base : Nat) : Except EErr Operand :=
  let spans := rowSpans (locStart w) (locPitch w) f
  let rows (b : Bytes) : Except EErr Operand :=
    scaleOperand s g n o f base fun sc => operandRows b (locStart w) (locPitch w) f (scaleFn sc)
  if locScratch w then
    match locTile s g w with
    | none => .error (.fault (trapCause 0x13 6) false)
    | some k =>
      match scrBad (s.core g.core) g o k spans with
      | some e => .error e
      | none => rows fun b => (mget 0 (s.core g.core).scr (4096 * k + b)).toNat
  else
    let a := v.tvbase.toNat + locIndex w * v.tvstride.toNat
    match regBad g o a spans with
    | some e => .error e
    | none => rows fun b => (regByte g (a + b)).toNat

/-- Byte spans of a weight-store operand within its slot (R231). -/
def slotSpans (h : Word) (f : OpFmt) : List (Nat × Nat) :=
  let base := 64 * handleOff h
  (List.range 32).map (fun j => (base + j * colPitch f, encRow f.enc / 2))
    ++ (if f.scale = 3 then [(base + 32 * colPitch f, scaleBytes f)] else [])

/-- The 2 KiB blocks of a slot that the spans touch. -/
def spanBlocks (spans : List (Nat × Nat)) : List Nat :=
  (List.range 16).filter fun n => spans.any fun e => decide (e.1 < 2048 * (n + 1)) && decide (2048 * n < e.1 + e.2)

/-- Whether a unit of the slot that the spans read holds uncorrectable data. -/
def slotBad (c : Core) (slot : Nat) (f : OpFmt) (spans : List (Nat × Nat)) : Bool :=
  c.wsPoison.any fun u =>
    let lo := 64 * u
    decide (32768 * slot ≤ lo) && decide (lo < 32768 * slot + 32768) &&
      (if f.wrap = 1 then (spanBlocks spans).contains ((lo - 32768 * slot) / 2048)
       else spans.any fun e => decide (e.1 < lo - 32768 * slot + 64) && decide (lo - 32768 * slot < e.1 + e.2))

/-- The expanded blocks of a packed slot; none for a malformed one (R175 stage 2). -/
def slotBlocks (c : Core) (slot : Nat) : List Nat → Option (List (Nat × List Byte))
  | [] => some []
  | n :: ns =>
    match blockDecode (mgetList 0 c.ws (32768 * slot + 2048 * n) 2048), slotBlocks c slot ns with
    | some b, some r => some ((n, b) :: r)
    | _, _ => none

/-- The bytes of a slot as the operand reads them. -/
def slotFn (c : Core) (slot : Nat) (f : OpFmt) (spans : List (Nat × Nat)) : Option Bytes :=
  if f.wrap = 1 then
    (slotBlocks c slot (spanBlocks spans)).map fun bl b => ((((bl.find? fun e => e.1 = b / 2048).map (·.2)).getD []).getD (b % 2048) 0).toNat
  else some fun b => (mget 0 c.ws (32768 * slot + b)).toNat

/-- A weight-store operand (R231, R203): its data and wrapper, then its scales. A busy slot, or one whose tag write is pending, makes it wait;
once that write has taken effect the operation reads the zeroed slot, whatever its new tag (log entry 95). -/
def fetchSlot (s : State) (g : Group) (n : Nat) (o : Op) (h : Word) (f : OpFmt) (sb : Nat) : Except EErr Operand :=
  let c := s.core g.core
  let sl := c.slot (handleSlot h)
  if sl.busy || sl.pend.any (fun p => decide (p.2 ≤ n)) then .error (.wait 0 (.trap 0))
  else
    let spans := slotSpans h f
    let q := opFilled g o (4096 + handleSlot h)
    if sl.poisoned then .error (badData true)
    else if slotBad c (handleSlot h) f spans then .error (badData q)
    else
      match slotFn c (handleSlot h) f spans with
      | none => .error (badData q)
      | some fn => scaleOperand s g n o f sb fun sc =>
          operandRows fn (128 * handleOff h) (2 * colPitch f) f
            (if f.scale = 3 then fun i => fn (64 * handleOff h + 32 * colPitch f + i) else scaleFn sc)

/-- The A operand of an operation. -/
def fetchA (s : State) (g : Group) (n : Nat) (o : Op) : Except EErr Operand :=
  match o.kind with
  | .mat (.mma _ _ lo _ fmt v sa _) => fetchTile s g n o v lo (fmtA fmt) sa.toNat
  | _ => .ok ([], false)

/-- The B operand, from the core that supplies it. -/
def fetchB (s : State) (g : Group) (n : Nat) (o : Op) : Except EErr Operand :=
  match o.kind with
  | .mat (.mma form _ _ hi fmt v _ sb) =>
    if formHandle form then fetchSlot s g n o hi (fmtB fmt) sb.toNat else fetchTile s g n o v hi (fmtB fmt) sb.toNat
  | _ => .ok ([], false)

/-- The operand-cache entry of a weight-store operand (R178). -/
def noteOTag (s : State) (g : Group) (o : Op) : State :=
  match o.kind with
  | .mat (.mma form _ _ hi fmt _ _ _) =>
    if formHandle form then
      let c := s.core g.core
      let t : OTag := ⟨g.asid, handleSlot hi, handleOff hi, (c.slot (handleSlot hi)).gen, fmt.extractLsb' 16 16⟩
      if c.otags.contains t then s else s.setCore g.core { c with otags := c.otags ++ [t] }
    else s
  | _ => s

/-! ## Banks -/

def Core.bank (c : Core) (k : Nat) : Bank := (kget c.banks k).getD ⟨0, [], []⟩
def elemOf (b : Bank) (e : Nat) : Elem := (kget b.elems e).getD elemZero
/-- What an operation of the path of creation `u` reads of an element (R172). -/
def elemRead (b : Bank) (u e : Nat) : Acc := (elemOf b e).seen u

/-- Every element takes a working value. -/
def writeBank (b : Bank) (u : Nat) (f : Nat → Acc) : Bank :=
  { b with elems := (List.range 1024).map fun e => (e, ⟨(elemOf b e).com, kset (elemOf b e).work u (f e)⟩), poison := [] }

/-- AddTerm over ascending k (R233). -/
def dotAdd (a : Acc) : List Exact → List Exact → Acc
  | x :: xs, y :: ys => dotAdd (addTerm a (exactMul x y)) xs ys
  | _, _ => a

/-- The multiplication on one bank: element (i, j) is number 32 i + j. -/
def mmaBank (b : Bank) (u : Nat) (A B : List (List Exact)) : Bank :=
  writeBank b u fun e => dotAdd (elemRead b u e) (A.getD (e / 32) []) (B.getD (e % 32) [])

/-- Uncorrectable data in the bank's elements; what the region wrote qualifies. -/
def bankBad (b : Bank) (u : Nat) : Option EErr :=
  if b.poison.isEmpty then none else some (badData (b.poison.all fun e => (kget (elemOf b e).work u).isSome))

def opBank : OpKind → Nat
  | .mat (.aczero k) | .mat (.mma _ k ..) | .mat (.acld k ..) | .mat (.acst k ..) => k
  | _ => 0

def putBank (s : State) (core k : Nat) (b : Bank) : State :=
  s.setCore core { s.core core with banks := kset (s.core core).banks k b }

/-! ## Faults (R222) -/

/-- The operation leaves the queue and the group; its fault waits for the next instruction boundary. -/
def matrixFails (s : State) (core gid n : Nat) (o : Op) (i : TrapInfo) (qual : Bool) : State :=
  let s := s.dropOp gid n
  let c := s.core core
  let c := c.withQueue (c.mq.filter (· ≠ (gid, n))) s.now
  let s := s.setCore core { c with running := if c.running = some (gid, n) then none else c.running }
  engineFault s gid o i qual

/-- A participant of an operation: core, group, number, and the two themselves. -/
structure Part where
  core : Nat
  gid : Nat
  n : Nat
  g : Group
  o : Op
  deriving DecidableEq, Repr

def partAt (s : State) (e : Nat × Nat) : Option Part := (s.opAt e.1 e.2).map fun (g, o) => ⟨g.core, e.1, e.2, g, o⟩

/-- The pairing that holds an operation. -/
def pairingOf (s : State) (e : Nat × Nat) : Option (Nat × List (Nat × Nat)) := s.pairings.find? fun p => p.2.contains e

/-! ## Starting -/

def isPaired (k : OpKind) : Bool :=
  match k with
  | .mat (.mma .pair ..) | .mat (.mma .quad ..) => true
  | _ => false

/-- An operation leaves the queue and runs. -/
def beginRun (s : State) (p : Part) (todo : Mask) : State :=
  let c := s.core p.core
  let c := c.withQueue (c.mq.filter (· ≠ (p.gid, p.n))) s.now
  (s.setCore p.core { c with running := some (p.gid, p.n) }).updOp p.gid p.n fun o => { o with todo := todo }

/-- A multiplication on every participant, with one B. -/
def mmaPart (B : Operand) (s : State) (p : Part) : Except EErr State :=
  match fetchA s p.g p.n p.o, bankBad ((s.core p.core).bank (opBank p.o.kind)) p.o.uid with
  | .error e, _ => .error e
  | .ok _, some e => .error e
  | .ok A, none =>
    let s := putBank s p.core (opBank p.o.kind) (mmaBank ((s.core p.core).bank (opBank p.o.kind)) p.o.uid A.1 B.1)
    .ok (beginRun (s.updGroup p.gid fun g => g.setFlag flagOx A.2) p 0)

/-- The participants in turn; the one that fails is named. -/
def mmaParts (B : Operand) : State → List Part → Except (Part × EErr) State
  | s, [] => .ok s
  | s, p :: ps =>
    match mmaPart B s p with
    | .error e => .error (p, e)
    | .ok s => mmaParts B s ps

/-- Start a multiplication of its participants, the supplier of B first. -/
def startMma (s : State) (ps : List Part) : Except (Part × EErr) State :=
  match ps with
  | [] => .ok s
  | p :: _ =>
    match fetchB s p.g p.n p.o with
    | .error e => .error (p, e)
    | .ok B => mmaParts B ((noteOTag s p.g p.o).updGroup p.gid fun g => g.setFlag flagOx B.2) ps

/-- Start an operation that has its core to itself. -/
def startSolo (s : State) (p : Part) : Except (Part × EErr) State :=
  match p.o.kind with
  | .mat (.aczero k) => .ok (beginRun (putBank s p.core k (writeBank ((s.core p.core).bank k) p.o.uid fun _ => accZero)) p 0)
  | .mat (.acst ..) => if before p.g p.n p.o.mask isStore then .error (p, .wait 0 (.trap 0)) else .ok (beginRun s p (lanesBelow 32))
  | .mat (.acld ..) => .ok (beginRun s p 0)
  | .mat (.mma ..) => startMma s [p]
  | _ => .ok (beginRun s p p.o.todo)

/-- The participants at the head of their idle cores' queues. -/
def readyParts (s : State) (es : List (Nat × Nat)) : Option (List Part) :=
  let ps := es.filterMap (partAt s)
  if ps.length = es.length && ps.all fun p => (s.core p.core).mq.head? = some (p.gid, p.n) && (s.core p.core).running.isNone
  then some ps else none

/-- The head of a core's queue and what would start with it. -/
def headParts (s : State) (core : Nat) : Option (List Part) :=
  match (s.core core).mq.head? with
  | none => none
  | some h =>
    match partAt s h with
    | none => none
    | some p =>
      if isPaired p.o.kind then (pairingOf s h).bind fun e => readyParts s e.2 else readyParts s [h]

/-- The start of the head: next state, or who fails. -/
def startHead (s : State) (ps : List Part) : Except (Part × EErr) State :=
  match ps with
  | [p] => startSolo s p
  | ps => startMma s ps

/-- A retained slot that the supplier reads leaves retention first (15 R316). -/
def retainedSlot (s : State) (ps : List Part) : Option (Nat × Nat) :=
  ps.findSome? fun p => match opSlot p.core p.o with
    | some k => if ((s.core p.core).slot k).retained then some (p.core, k) else none
    | none => none

/-- MATRIX_OP_START: the head of the queue fetches its operands and runs, an instance on all its cores in lockstep (R174,
R234). -/
def execMatrixOpStart (core : Nat) (s : State) : Host.Outcome State Fault Refusal :=
  match headParts s core with
  | none => .next s
  | some ps =>
    if ps.any fun p => decide (s.now < (s.core p.core).spaced) then .next s
    else match retainedSlot s ps with
    | some (c, k) => .next (s.setCore c ((s.core c).setSlot k { (s.core c).slot k with retained := false }))
    | none =>
      match startHead s ps with
      | .ok t => .next t
      | .error (p, .fault i q) => .next (matrixFails s p.core p.gid p.n p.o i q)
      | .error (p, .wait va w) => .next (askChunk s p.g.asid va w)

/-! ## Completing -/

/-- Codes of one row packed at `w` bits (R46, R238). -/
def packRow (w : Nat) (cs : List Nat) : List Byte := leBytes (4 * w) (packElems w cs)

/-- The 32 rows of a read-out, and SAT. -/
def readOut (b : Bank) (u : Nat) (fmt mode : Word) : List (List Byte) × Bool :=
  let t := (tyOfCode (fmt.toNat % 32)).getD .i32
  let rs := (List.range 32).map fun i => (List.range 32).map fun j => accRead t (numMode mode) (elemRead b u (32 * i + j))
  (rs.map fun r => packRow (tyWidth t) (r.map (·.1)), rs.any fun r => r.any (·.2))

/-- Write rows to a tile register, 128 bytes apart. -/
def setTileRows (g : Group) (a : Nat) : List (List Byte) → Group
  | [] => g
  | r :: rs => setTileRows (g.setBytes a r) (a + 128) rs

/-- The blocks of a row at `va` that are left, by number, with the bytes each takes. -/
def rowPieces (ps : List (Nat × Nat)) (i va : Nat) (row : List Byte) : List (Nat × Nat × List Byte) :=
  let cuts := blockCuts va row.length
  (((List.range cuts.length).zip cuts).filter fun e => !ps.contains (i, e.1)).map fun e => (e.1, va + e.2.1, (row.drop e.2.1).take e.2.2)

/-- Write bytes at their addresses, until a write fails. -/
def storePieces (g : Group) : State → List (Nat × Nat × List Byte) → State × Option EErr
  | s, [] => (s, none)
  | s, e :: es =>
    match vwrite s g.core g.asid e.2.1 e.2.2 with
    | (s, none) => storePieces g s es
    | (s, some e) => (s, some (eerrOf e))

/-- Row `i` of an ACST, at `va`, is written; where it waits in the middle, what is written of it is not written again. -/
def storeRow (s : State) (p : Part) (i va : Nat) (row : List Byte) : State × Option EErr :=
  match storePieces p.g s (if p.o.pieces.any (·.1 = i) then rowPieces p.o.pieces i va row else [(0, va, row)]) with
  | (s, none) => (s.updOp p.gid p.n (unitServed i), none)
  | (s, some (.wait wa w)) => (s.updOp p.gid p.n (writtenBelow i va row.length wa), some (.wait wa w))
  | r => r

/-- Write the rows of an ACST that are left to memory: row `i` at `addr + i * pitch`. -/
def storeRows (p : Part) (addr pitch : Nat) (rows : List (List Byte)) : State → List Nat → State × Option EErr
  | s, [] => (s, none)
  | s, i :: is =>
    match storeRow s p i (addr + i * pitch) (rows.getD i []) with
    | (s, none) => storeRows p addr pitch rows s is
    | r => r

/-- The rows of SEEDX (R240). -/
def seedxRows (g : Group) (src : Nat) (w mode : Word) : List (List Byte) :=
  (List.range 32).map fun j =>
    let ws := (List.range 4).map fun q => leNat (regBytes g (src + 128 * j + 16 * (w.toNat / 256 % 8) + 4 * q) 4)
    leBytes 128 (packElems 16 ((ws.flatMap fun x => seedBlock x (w.toNat % 256)).map (roundToTy .bf16 (numMode mode))))

/-- The bytes of row `j` of TTRANS (R241). -/
def transRow (g : Group) (src z j : Nat) : List Byte :=
  (List.range (4 / z)).flatMap fun β => (List.range 32).flatMap fun i => regBytes g (src + 128 * i + z * (32 * β + j)) z

/-- What the end of a running operation does: the state, or the error. -/
def matResult (s : State) (p : Part) : State × Option EErr :=
  match p.o.kind with
  | .mat (.acld k dst fmt mode) =>
    let b := (s.core p.core).bank k
    match bankBad b p.o.uid with
    | some e => (s, some e)
    | none =>
      let (rows, sat) := readOut b p.o.uid fmt mode
      (s.updGroup p.gid fun g => (setTileRows g dst rows).noteSat sat, none)
  | .mat (.acst k addr pitch fmt mode) =>
    let b := (s.core p.core).bank k
    match bankBad b p.o.uid with
    | some e => (s, some e)
    | none =>
      let (rows, sat) := readOut b p.o.uid fmt mode
      storeRows p addr pitch rows (s.updGroup p.gid fun g => g.noteSat sat) (lanesOf p.o.todo)
  | .mat (.seedx dst src w mode) =>
    match regBad p.g p.o src (seedSpans w) with
    | some e => (s, some e)
    | none => (s.updGroup p.gid fun g => setTileRows g dst (seedxRows p.g src w mode), none)
  | .mat (.ttrans dst src z) =>
    match regBad p.g p.o src fullSpans with
    | some e => (s, some e)
    | none => (s.updGroup p.gid fun g => setTileRows g dst ((List.range 32).map (transRow p.g src z)), none)
  | _ => (s, none)

/-- A running operation ends. -/
def matEnd (s : State) (p : Part) : State :=
  let s := s.dropOp p.gid p.n
  s.setCore p.core { s.core p.core with running := none, spaced := s.now + (s.die (p.core / 256)).gap }

def dropPairing (s : State) (id : Nat) : State := { s with pairings := kdel s.pairings id }

/-- MATRIX_OP_COMPLETE: the results are in the bank, the tile or memory; an instance ends on all its cores. -/
def execMatrixOpComplete (core : Nat) (s : State) : Host.Outcome State Fault Refusal :=
  match (s.core core).running with
  | none => .next s
  | some r =>
    match pairingOf s r with
    | some (id, es) =>
      let ps := es.filterMap (partAt s)
      if ps.length = es.length then .next (ps.foldl matEnd (dropPairing s id)) else .next s
    | none =>
      match partAt s r with
      | none => .next s
      | some p =>
        match matResult s p with
        | (t, none) => .next (matEnd t p)
        | (t, some (.fault i q)) => .next (matrixFails t p.core p.gid p.n p.o i q)
        | (t, some (.wait va w)) => .next (askChunk t p.g.asid va w)

/-- One row of a running ACST is written before the rest: its accesses are mutually unordered (16 R332). -/
def acstUnit (s : State) (gid n u : Nat) : State :=
  match partAt s (gid, n) with
  | none => s
  | some p =>
    match p.o.kind with
    | .mat (.acst k addr pitch fmt mode) =>
      if (s.core p.core).running = some (gid, n) && bit p.o.todo u && (bankBad ((s.core p.core).bank k) p.o.uid).isNone then
        match storeRow s p u (addr + u * pitch) ((readOut ((s.core p.core).bank k) p.o.uid fmt mode).1.getD u []) with
        | (t, none) => t
        | (t, some (.fault i q)) => matrixFails t p.core gid n p.o i q
        | (t, some (.wait va w)) => askChunk t p.g.asid va w
      else s
    | _ => s

/-- One 64-byte block of a row of a running ACST is written before the rest. -/
def acstBlock (s : State) (gid n u b : Nat) : State :=
  match partAt s (gid, n) with
  | none => s
  | some p =>
    match p.o.kind with
    | .mat (.acst k addr pitch fmt mode) =>
      if (s.core p.core).running = some (gid, n) && bit p.o.todo u && (bankBad ((s.core p.core).bank k) p.o.uid).isNone then
        let row := (readOut ((s.core p.core).bank k) p.o.uid fmt mode).1.getD u []
        match (rowPieces p.o.pieces u (addr + u * pitch) row).find? (·.1 = b) with
        | none => s
        | some e =>
          match storePieces p.g s [e] with
          | (t, none) => t.updOp gid n (pieceServed u b)
          | (t, some (.fault i q)) => matrixFails t p.core gid n p.o i q
          | (t, some (.wait va w)) => askChunk t p.g.asid va w
      else s
    | _ => s

/-- An engine serves one unit of a transfer before the rest. -/
def serveUnit (s : State) (gid n u : Nat) : State := acstUnit (engineUnit s gid n u) gid n u

/-- An engine serves one block of a unit before the rest. -/
def servePiece (s : State) (gid n u b : Nat) : State := acstBlock (copyBlock (storeWord s gid n u b) gid n u b) gid n u b

/-- What an engine may read of an operation before the rest, address and length: blocks of the list of a gather, and blocks of the scale
arrays at the head of the matrix queue (16 R332). -/
def engineReads (s : State) (gid n : Nat) (g : Group) (o : Op) : List (Nat × Nat) :=
  let blocks (r : Nat × Nat) : List (Nat × Nat) := (blockCuts r.1 r.2).map fun c => (r.1 + c.1, c.2)
  match o.kind with
  | .copyg _ list _ count [] _ => if (runningCopy s gid n).isSome then blocks (list, listLen count) else []
  | .mat _ =>
    if (s.core g.core).mq.head? = some (gid, n) then
      ((scaleReads g.core o).filter fun r => !scalesHeld g n o r.1 r.2).flatMap blocks
    else []
  | _ => []

/-- An engine reads the `b`-th of these. -/
def takeBlock (s : State) (gid n b : Nat) : State :=
  match s.opAt gid n with
  | none => s
  | some (g, o) =>
    match (engineReads s gid n g o)[b]? with
    | none => s
    | some r =>
      if o.taken.any (·.addr = r.1) then s
      else
        match readUnit s g.core g.asid r.1 r.2 with
        | .ok bs => noteTaken gid n ⟨0, r.1, bs⟩ s
        | .error _ => s

/-- Bytes are read before the rest of what the operation reads: a word of a HOST double that lane `u` loads (14 R283), or a block. -/
def takeEarly (s : State) (gid n u b : Nat) : State := takeWord (takeBlock s gid n b) gid n u b

/-- A memory place of the operation beyond the HBM stacks: a scale array, or the destination of ACST. -/
def linkAddr (s : State) (p : Part) : Option Nat :=
  let far (a : Nat) : Option Nat := if rangeType s p.g.core p.g.asid a ≠ 0 then some a else none
  let scaled (f : OpFmt) (a : Nat) : Option Nat := if f.scale = 1 || f.scale = 2 then far a else none
  match p.o.kind with
  | .mat (.mma form _ _ _ fmt _ sa sb) =>
    (scaled (fmtA fmt) sa.toNat).or (if suppliesB form p.core then scaled (fmtB fmt) sb.toNat else none)
  | .mat (.acst _ a ..) => far a
  | _ => none

/-- What is at work on a core: the running operation, else the head of the queue. -/
def atWork (s : State) (core : Nat) : Option Part :=
  match (s.core core).running with
  | some r => partAt s r
  | none => ((s.core core).mq.head?).bind (partAt s)

/-- MATRIX_FAULT: what the engine finds in the operation at work, or a link error on memory beyond the HBM stacks. -/
def execMatrixFault (core : Nat) (link : Bool) (s : State) : Host.Outcome State Fault Refusal :=
  match atWork s core with
  | none => .next s
  | some p =>
    if link then
      match linkAddr s p with
      | some a => .next (matrixFails s p.core p.gid p.n p.o (trapAt 0x0B a) false)
      | none => .next s
    else if (s.core core).running.isSome then
      match matResult s p with
      | (t, some (.fault i q)) => .next (matrixFails t p.core p.gid p.n p.o i q)
      | _ => .next s
    else
      match (headParts s core).map (startHead s) with
      | some (.error (q, .fault i b)) => .next (matrixFails s q.core q.gid q.n q.o i b)
      | _ => .next s

/-! ## Pairings (R234, R235, 12 R260) -/

/-- The cores of an instance that begins at core `first` of the quad, by the operation at its head. -/
def instanceCores (k : OpKind) (quad first : Nat) : List Nat :=
  match k with
  | .mat (.mma .pair ..) => if first = 0 || first = 2 then [4 * quad + first, 4 * quad + first + 1] else []
  | .mat (.mma .quad ..) => if first = 0 then (List.range 4).map (4 * quad + ·) else []
  | _ => []

def sameForm (a b : OpKind) : Bool :=
  match a, b with
  | .mat (.mma f ..), .mat (.mma g ..) => f = g
  | _, _ => false

def opFmtWord : OpKind → Word
  | .mat (.mma _ _ _ _ fmt _ _ _) => fmt
  | _ => 0

/-- The heads that would form an instance: one operation of the form on every core, free, of groups of one launch. -/
def instanceParts (s : State) (quad first : Nat) : Option (List Part) :=
  match ((s.core (4 * quad + first)).mq.head?).bind (partAt s) with
  | none => none
  | some p =>
    let cores := instanceCores p.o.kind quad first
    let ps := cores.filterMap fun c => ((s.core c).mq.head?).bind (partAt s)
    if !cores.isEmpty && ps.length = cores.length && ps.all fun q =>
        sameForm q.o.kind p.o.kind && s.launchOf q.g = s.launchOf p.g && (pairingOf s (q.gid, q.n)).isNone
    then some ps else none

/-- PAIRING_INSTANCE_FORM: the heads meet; format words that differ are a matrix fault of each. -/
def execPairingInstanceForm (quad first : Nat) (s : State) : Host.Outcome State Fault Refusal :=
  match instanceParts s quad first with
  | none => .next s
  | some ps =>
    let f := (ps.map fun p => opFmtWord p.o.kind).headD 0
    if ps.any fun p => opFmtWord p.o.kind ≠ f then
      .next (ps.foldl (fun s p => matrixFails s p.core p.gid p.n p.o (trapOf 0x05) false) s)
    else .next { s with pairings := kset s.pairings (kfresh s.pairings) (ps.map fun p => (p.gid, p.n)) }

/-- PAIRING_TIMEOUT: a head that has formed no instance within 4096 cycles. -/
def execPairingTimeout (core : Nat) (s : State) : Host.Outcome State Fault Refusal :=
  match ((s.core core).mq.head?).bind (partAt s) with
  | none => .next s
  | some p =>
    if isPaired p.o.kind && (pairingOf s (p.gid, p.n)).isNone && decide ((s.core core).headAt + 4096 ≤ s.now) then
      .next (matrixFails s p.core p.gid p.n p.o (trapOf 0x14) false)
    else .next s

/-- INSTANCE_CANCEL: a participant has lost its operation; the others restart their regions. -/
def execInstanceCancel (inst : Nat) (s : State) : Host.Outcome State Fault Refusal :=
  match kget s.pairings inst with
  | none => .next s
  | some es =>
    let live := es.filterMap (partAt s)
    if live.length = es.length then .next s
    else .next (live.foldl (fun s p => restartSoon s p.gid) (dropPairing s inst))

/-- A beat of the shuttle bus fails its check: uncorrectable data on every participant (12 R260). -/
def shuttleError (s : State) (core : Nat) : State :=
  match atWork s core with
  | none => s
  | some p =>
    match pairingOf s (p.gid, p.n) with
    | none => s
    | some (id, es) =>
      (es.filterMap (partAt s)).foldl (fun s p => matrixFails s p.core p.gid p.n p.o (trapOf 0x0C) true) (dropPairing s id)

/-! ## ACALLOC_GRANT (R171) -/

/-- Banks are reserved for the first request that has none, in the order they issued. -/
def execAcallocGrant (core : Nat) (s : State) : Host.Outcome State Fault Refusal :=
  let c := s.core core
  let set (f : Nat) : List AcReq → List AcReq := fun l =>
    l.takeWhile (·.first.isSome) ++ match l.dropWhile (·.first.isSome) with
      | r :: rs => { r with first := some f } :: rs
      | [] => []
  match c.acreqs.find? (·.first.isNone) with
  | none => .next s
  | some r =>
    match freeRun c r.count with
    | none => .next s
    | some f => .next (s.setCore core { c with acreqs := set f c.acreqs })

end Sys2Proof.Machine
end

