-- ==== Sys2Proof/Machine/NetInstr.lean ====
section
/-! DEFINITION. The network instructions (spec/20_fabric_and_system.md R362, R363, R367, R370 to R373). -/
namespace Sys2Proof.Machine

/-! ## Queue and counter words (R362, R370) -/

def Eng.sq (e : Eng) (q : Nat) : SendQ := (kget e.sqs q).getD SendQ.zero
def Eng.setSq (e : Eng) (q : Nat) (v : SendQ) : Eng := { e with sqs := kset e.sqs q v }
def State.sendQ (s : State) (e q : Nat) : SendQ := (s.eng e).sq q
def State.setSendQ (s : State) (e q : Nat) (v : SendQ) : State := s.setEng e ((s.eng e).setSq q v)

def queueEng (w : Word) : Nat := w.toNat % 16
def queueNum (w : Word) : Nat := w.toNat / 16 % 256

def netTrap (cause code : Nat) : Res := .trap ⟨0x15, cause, code, none, []⟩

/-- Cause 1. -/
def queueOk (s : State) (g : Group) (w : Word) : Bool :=
  let q := s.sendQ (queueEng w) (queueNum w)
  decide (w.toNat < 4096) && q.en && q.tenant = s.tenantOf g.asid && q.asid = g.asid

/-- Cause 5: the word, and the counter's owner in the counter table (R367). -/
def counterOwner (s : State) (n : Nat) : Nat := (mget 255 s.counterTen n).toNat
def counterOk (s : State) (g : Group) (w : Word) : Bool :=
  decide (w.toNat < 4096) && counterOwner s w.toNat = s.tenantOf g.asid && counterOwner s w.toNat ≠ 255

def State.counter (s : State) (n : Nat) : Word := mget 0 s.counters n

/-! ## Work requests (R363) -/

def workReqOfBytes (b : List Byte) : WorkReq :=
  let f (o n : Nat) := leNat ((b.drop o).take n)
  { flags := f 1 1, window := f 2 2, node := f 4 2, lcounter := f 6 2, src := f 8 8, offset := f 16 8, length := f 24 4
    tag := BitVec.ofNat 64 (f 32 8) }

/-- The fields keep R363; `t` is the queue's tenant. -/
def workReqOk (s : State) (t : Nat) (b : List Byte) : Bool :=
  let r := workReqOfBytes b
  leNat (b.take 1) = 1 && decide (r.flags < 8) && decide (r.window < 4096) && decide (r.node < 1024) && decide (r.lcounter < 4096)
    && (r.flags % 2 = 0 || (counterOwner s r.lcounter = t && t ≠ 255)) && r.offset % 4 = 0 && r.length % 4 = 0
    && decide (4 ≤ r.length) && decide (r.length ≤ 2 ^ 30) && ((b.drop 28).take 4).all (· = 0)
    && ((b.drop 40).take 24).all (· = 0)

/-- A walk over the ranges that hold `[va, va + n)`: `f` judges each; a gap ends it with `gap`. -/
def overRanges {β : Type} (s : State) (core asid : Nat) (gap : Nat → Option β) (f : Nat → Nat → Desc → Option β) :
    Nat → Nat → Nat → Option β
  | 0, _, _ => none
  | fuel + 1, va, n =>
    if n = 0 then none
    else
      match translate s core asid va with
      | none => gap va
      | some (_, d) =>
        let k := if d.vbase + d.length - va < n then d.vbase + d.length - va else n
        match f va k d with
        | some r => some r
        | none => overRanges s core asid gap f fuel (va + k) (n - k)

/-- Every range of the source is of type HBM; gaps are left to R145 (cause 4). -/
def sourceHbm (s : State) (core asid va n : Nat) : Bool :=
  (overRanges s core asid (fun _ => none) (fun _ _ d => if d.type = 0 then none else some ()) (n + 1) va n).isNone

/-- R145 over the source's bytes, range by range: as in `checkBytes` the first check that some byte fails decides, and of its bytes the
lowest. -/
def sourceFail (s : State) (core asid : Nat) : Nat → Nat → Nat → Option (Nat × MErr)
  | 0, _, _ => none
  | fuel + 1, va, n =>
    if n = 0 then none
    else
      match translate s core asid va with
      | none => some (va, .trap 0x07)
      | some (_, d) =>
        let k := if d.vbase + d.length - va < n then d.vbase + d.length - va else n
        match checkSpan s core asid .read va k, sourceFail s core asid fuel (va + k) (n - k) with
        | .ok _, r => r
        | .error e, some f => if errRank e ≤ errRank f.2 then some (va, e) else some f
        | .error e, none => some (va, e)

/-- Why a request is not posted. -/
inductive ReqFail where
  | net (cause code : Nat)
  | mem (va : Nat) (e : MErr)

/-- The checks of the requests in their order (R371). -/
def reqsFail (s : State) (x : Ctx) (t : Nat) : Nat → List (List Byte) → Option ReqFail
  | _, [] => none
  | k, b :: bs =>
    let r := workReqOfBytes b
    if !workReqOk s t b then some (.net 3 k)
    else if !sourceHbm s x.g.core x.g.asid r.src r.length then some (.net 4 k)
    else
      match sourceFail s x.g.core x.g.asid (r.length + 1) r.src r.length with
      | some (va, e) => some (.mem va e)
      | none => reqsFail s x t (k + 1) bs

/-! ## Posting (R362, R371) -/

def freeSlots (q : SendQ) : Nat := 2 ^ q.lsize - (q.wpos - q.spos)

/-- Place the requests in the ring from the write position on. -/
def placeReqs (s : State) (q : SendQ) : Nat → List (List Byte) → State
  | _, [] => s
  | pos, b :: bs =>
    placeReqs (vwrite s (ioCore 0) q.asid (q.base + 64 * (pos % 2 ^ q.lsize)) b).1 q (pos + 1) bs

def postReqs (s : State) (gid : Nat) (w : Word) (bs : List (List Byte)) : State :=
  let q := s.sendQ (queueEng w) (queueNum w)
  let s := placeReqs s q q.wpos bs
  s.setSendQ (queueEng w) (queueNum w) { q with
    wpos := q.wpos + bs.length, posted := q.posted ++ (List.range bs.length).map fun i => (q.wpos + i, gid) }

/-- A request that the group posted waits in a ring, or its message is on its way (08 R185); one that has failed is over unless go sends it
again (log entry 114). -/
def postsOpen (s : State) (gid : Nat) : Bool :=
  s.engines.any fun e => (e.2.sqs.any fun q => q.2.posted.any (·.2 = gid))
    || e.2.msgs.any fun m => m.2.gid = some gid && !m.2.finished && (m.2.failed.isNone || m.2.again)

/-- NPOST is a commit point; it holds for the path's earlier accesses and for free slots, and reads the batch after the path's
earlier stores (06 R146). -/
def execNpost (d : UReg) (a : Fin 192) (s : State) : Host.Outcome State Fault Refusal :=
  issue (.npost d a) s (fun _ _ => (planU d).and (planUspan a.val 3)) fun s x =>
    let w := x.g.us d
    let va := x.g.upair a.val
    let n := (x.g.u (a.val + 2)).toNat
    if !queueOk s x.g w then netTrap 1 0
    else if n = 0 || 64 < n then netTrap 2 0
    else if va % 64 ≠ 0 then .trap (trapAt 0x0A va)
    else
      match checkBytes s x.g.core x.g.asid .read (n + 1) va (64 * n) with
      | .error e => memFail s x (e.va, e.err)
      | .ok _ =>
        if !storesDone x.g x.p then .hold
        else match vread s x.g.core x.g.asid va (64 * n) with
        | .error e => parkOr x s e.va e.err fun c => dataFault c e.va
        | .ok b =>
          let reqs := chunksOf 64 n b
          match reqsFail s x (s.tenantOf x.g.asid) 0 reqs with
          | some (.net c k) => netTrap c k
          | some (.mem va e) => memFail s x (va, e)
          | none =>
            if !accessesDone x.g x.p || commitHold x || freeSlots (s.sendQ (queueEng w) (queueNum w)) < n then .hold
            else .done (entryNext x (postReqs s x.gid w reqs))

/-! ## NWAIT, NCNT, NQSTAT (R372, R373) -/

/-- (C - v) mod 2^32 < 2^31. -/
def nwaitHolds (c v : Word) : Bool := decide ((c - v).toNat < 2 ^ 31)

def execNwait (d a : UReg) (s : State) : Host.Outcome State Fault Refusal :=
  issue (.nwait d a) s (fun _ _ => (planU d).and (planU a)) fun s x =>
    let w := x.g.us d
    if !counterOk s x.g w then netTrap 5 0
    else atOwnEntry s x fun s x =>
      if nwaitHolds (s.counter w.toNat) (x.g.us a) then .done (entryNext x (dropCache s x.g.core))
      else .block s (.nwait w.toNat (x.g.us a))

def execNcnt (d a : UReg) (s : State) : Host.Outcome State Fault Refusal :=
  issue (.ncnt d a) s (fun _ _ => (planU a).and (planUdst d)) fun s x =>
    let w := x.g.us a
    if !counterOk s x.g w then netTrap 5 0
    else .done (x.onGroup (dropCache s x.g.core) fun g => g.setUs d (s.counter w.toNat))

/-- Requests posted and not completed locally: in the ring, in flight, or failed. -/
def pendReqs (e : Eng) (q : Nat) : Nat :=
  (e.sq q).wpos - (e.sq q).spos + (e.msgs.filter fun m => m.2.queue = q && !m.2.finished).length

/-- The status word of a queue (R373). -/
def queueStatus (e : Eng) (q : Nat) : Word :=
  let sq := e.sq q
  let p := pendReqs e q
  let st := if !sq.en then 0 else if sq.halted.isSome then 3 else if p = 0 then 1 else 2
  BitVec.ofNat 32 (st + 256 * sq.halted.getD 0 + 65536 * (p % 65536))

def execNqstat (d a : UReg) (s : State) : Host.Outcome State Fault Refusal :=
  issue (.nqstat d a) s (fun _ _ => (planU a).and (planUdst d)) fun s x =>
    let w := x.g.us a
    if !queueOk s x.g w then netTrap 1 0
    else .done (x.onGroup s fun g => g.setUs d (queueStatus (s.eng (queueEng w)) (queueNum w)))

end Sys2Proof.Machine
end

