-- ==== Sys2Proof/Machine/Ending.lean ====
section
/-! DEFINITION. The ends of groups, cohorts and launches (spec/08_core.md R185, spec/09 R212, spec/12 R253, spec/13 R268 to R271),
the halt of a queue and the kill of a launch (spec/13 R280). -/
namespace Sys2Proof.Machine

/-! ## Queues, as far as an end asks -/

def Die.queue (d : Die) (q : Nat) : Queue := (kget d.queues q).getD Queue.zero
def State.queue (s : State) (d q : Nat) : Queue := (s.die d).queue q
def State.setQueue (s : State) (d q : Nat) (v : Queue) : State :=
  s.setDie d { s.die d with queues := kset (s.die d).queues q v }

/-- A queue halts (13 R270): state 4, the code, the slot of the packet; a record of type 1. -/
def haltQueue (s : State) (d q code slot : Nat) (tag : Word) : State :=
  let s := s.setQueue d q { s.queue d q with halted := some code, haltSlot := slot }
  appendEvent s (s.queue d q).tenant (eventBytes s 1 code q d slot tag.toNat 0xFFFFFFFF)

/-- A packet completes; its interrupt is the queue's completion vector (13 R267). -/
def packetDone (s : State) (d q k : Nat) : State :=
  match kget (s.queue d q).pkts k with
  | none => s
  | some p =>
    let s := s.setQueue d q { s.queue d q with pkts := kdel (s.queue d q).pkts k, progress := s.now }
    if p.intr then sendOut s (.msix (p.tenant + 1) 1) else s

/-- A started packet fails: it is done with, and the queue halts naming its first slot (13 R270). -/
def packetFails (s : State) (d q k code : Nat) : State :=
  match kget (s.queue d q).pkts k with
  | none => s
  | some p =>
    let s := s.setQueue d q { s.queue d q with pkts := kdel (s.queue d q).pkts k, progress := s.now }
    haltQueue s d q code p.slot p.tag

/-- The halt code of an operand access that met a trap class (13 R269). -/
def haltCode (cls : Nat) : Nat := if cls = 0x0B || cls = 0x0C then 0x0E else 0x08

/-! ## The end of a group (08 R185) -/

/-- An SPRD of one of the cohort's publications is in flight. -/
def sprdOf (s : State) (core cid : Nat) : Bool :=
  s.groups.any fun e => e.2.core / 4 = core / 4 && e.2.ops.any fun o => match o.2.kind with
    | .sprd _ _ _ (some (c, i)) => (kget (s.quad (core / 4)).pubs (8 * c + i)).any (·.cohort = cid)
    | _ => false

/-- A publication of the cohort whose own hop is in flight (12 R257). -/
def hopOf (s : State) (core cid : Nat) : Bool :=
  (s.quad (core / 4)).pubs.any fun e =>
    e.2.cohort = cid && e.2.chained && e.2.hops = 0 && e.2.poisonedFrom.isNone

/-- The group's accesses are over, and, unless its cohort is aborted (09 R217), its network posts; the last of a cohort waits for the reads of
its publications (12 R253). -/
def groupReady (s : State) (gid : Nat) (g : Group) : Bool :=
  g.ops.isEmpty && (g.status = .ending true || !postsOpen s gid) &&
    (match kget s.cohorts g.cohort with
    | none => true
    | some c => c.groups ≠ [gid] || (!sprdOf s c.core g.cohort && !hopOf s c.core g.cohort))

/-- CORE instances of the cohort: an ended group whose arrival counts in this phase stays in its count (09 R209). -/
def coreEnds (s : State) (gid cid : Nat) : State :=
  s.barriers.foldl (fun s b =>
    if b.scope = .core && b.domain = cid then
      let b := s.barrier .core b.idx b.owner cid
      tryComplete s { b with ended := b.ended + (if kget b.last gid = some b.phase then 1 else 0), parts := kdel b.parts gid }
    else s) s

/-- Tiles of an ended cohort: bytes zero, entries EMPTY (08 R167). -/
def freeTiles (c : Core) (tiles : List Nat) : Core :=
  { c with
      scr := tiles.foldl (fun m t => mclear m (4096 * t) (4096 * t + 4096)) c.scr
      scrPoison := c.scrPoison.filter fun a => !tiles.contains (a / 4096)
      tiles := c.tiles.filter fun e => !tiles.contains e.1 }

/-- Monitors that the launch binds on a core where it has no cohort left (18 R340). -/
def freeMons (s : State) (lid core : Nat) : State :=
  if s.cohorts.any fun e => e.2.launch = lid && e.2.core = core then s
  else (List.range 4).foldl (fun s n =>
    if (kget (s.core core).mons n).any (·.launch = lid) then unbindMon s core n lid else s) s

/-- A quad is bound until the bound launch's last cohort there has ended (12 R248). -/
def freeQuad (s : State) (lid qn : Nat) : State :=
  if (s.quad qn).bound ≠ some lid || s.cohorts.any fun e => e.2.launch = lid && e.2.core / 4 = qn then s
  else s.setQuad qn { s.quad qn with bound := none }

/-- The record of a cohort that ended aborted: type 2 or 5, none of its own after a kill (13 R271). -/
def cohortRecord (s : State) (c : Cohort) : State :=
  match c.aborted, kget s.launches c.launch with
  | some code, some l => if c.event = 0 then s else launchEvent s l c.event code c.index
  | _, _ => s

/-- The end of a cohort. -/
def endCohort (s : State) (cid : Nat) : State :=
  match kget s.cohorts cid with
  | none => s
  | some c =>
    let qn := c.core / 4
    let s := s.setQuad qn { s.quad qn with pubs := (s.quad qn).pubs.filter fun e => e.2.cohort ≠ cid }
    let s := s.setCore c.core (freeTiles (s.core c.core) c.tiles)
    let s := { s with
      cohorts := kdel s.cohorts cid
      barriers := s.barriers.filter fun b => !(b.scope = .core && b.domain = cid)
      launches := kupd s.launches c.launch fun l => { l with live := l.live - 1, aborted := l.aborted || c.aborted.isSome } }
    let s := freeQuad (freeMons s c.launch c.core) c.launch qn
    noteProgress (cohortRecord s c) c.launch

/-- The group's places are freed: banks, register space and slot with the record itself, the trap-frame slot. -/
def freeGroup (s : State) (gid : Nat) (g : Group) : State :=
  let t := s.tenantOf g.asid
  let c := s.core g.core
  let s := s.setCore g.core { c with banks := c.banks.filter fun e => e.2.owner ≠ gid }
  { s with
      groups := kdel s.groups gid
      frames := kset s.frames t (((kget s.frames t).getD []).filter (· ≠ g.frame))
      barriers := s.barriers.filter fun b => !(b.scope = .group && b.domain = gid) }

/-- The arrivals of the last path as its group ends. Lanes that ended count as arrived at GROUP scope; at a wider one the group
arrives only where the path itself had, and a group that merely ends does not (09 R209, R210). -/
def settleEnd (s : State) (gid : Nat) (g : Group) (p : Path) : State :=
  s.barriers.foldl (fun s b =>
    let b := s.barrier b.scope b.idx b.owner b.domain
    let m := partOf b gid
    let lanes := p.mask &&& lanesBelow g.lanes
    if m = 0 || (b.scope ≠ .group && m &&& lanes ≠ lanes) then s
    else match s.group gid with
      | some g => settleParts s gid g b
      | none => s) s

/-- The contributions that the paths set aside for a handler still carry commit with the group's end (R185, 18 R343). -/
def commitSaved (s : State) (gid : Nat) (g : Group) : State :=
  match g.handler with
  | some h => h.paths.foldl (fun s e => commitMons s gid g e.2) s
  | none => s

/-- What the last path has left to the group's end: its contributions commit and count before the group's arrivals, then its
releases and a pending SPFENCE take effect (R185, 18 R343). -/
def settleLast (s : State) (gid : Nat) (g : Group) : State :=
  let s := commitSaved s gid g
  let s := match g.lastPath with
    | some (pid, p) =>
      let s := settleEnd (commitMons s gid g p) gid g p
      if p.trel.isEmpty then s else applyTrels s gid pid g.core
    | none => s
  if g.fenceLeft.tiles.isEmpty then s else applySpfence s g g.fenceLeft.tiles

/-- The end of a group whose accesses are over. -/
def endGroup (s : State) (gid : Nat) (g : Group) : State :=
  let s := freeGroup (settleLast s gid g) gid g
  let late (c : Cohort) : Cohort := match g.endFault, c.aborted with
    | some cls, none => { c with aborted := some cls, event := 2 }
    | _, _ => c
  let s := { s with cohorts := kupd s.cohorts g.cohort fun c => { late c with groups := c.groups.filter (· ≠ gid) } }
  let s := coreEnds s gid g.cohort
  if (kget s.cohorts g.cohort).any (·.groups.isEmpty) then endCohort s g.cohort else s

/-- GROUP_END (08 R185). -/
def execGroupEnd (gid : Nat) (s : State) : Host.Outcome State Fault Refusal :=
  match s.group gid with
  | none => .next s
  | some g =>
    match g.status with
    | .ending _ => if groupReady s gid g then .next (endGroup s gid g) else .next s
    | _ => .next s

/-! ## Completion of a launch (09 R212, 13 R268) -/

/-- A command processor leaves the place alone for a path's sake (16 R322); of those behind one I/O die any will do. -/
def cpLocked (s : State) (write : Bool) (asid va n : Nat) : Bool := s.dies.any fun d => locked d.2.locks 0 write asid va n

/-- Add to a 64-bit word at the atomic unit (15 R294); or the trap class, or a wait for residency. -/
def addNow (s : State) (core asid va n : Nat) : Except MErr State :=
  match check145 s core asid (.atom true) 8 va 8 with
  | .error e => .error e
  | .ok _ =>
    match atomUnit s core asid va 8 with
    | .error e => .error e
    | .ok b => writeUnit s core asid va (leBytes 8 (leNat b + n))

/-- The same as a release of a command processor. -/
def addWord (s : State) (core asid va n : Nat) : Except MErr State :=
  if cpLocked s true asid va 8 then .error .held else addNow s core asid va n

/-- Every cohort has been placed, or none will be any more, and all have ended. -/
def launchOver (l : Launch) : Bool := (l.nextCohort = l.rcd.cohorts || l.killed) && l.live = 0

/-- The launch is gone, with the barriers it owned. -/
def forgetLaunch (s : State) (lid : Nat) : State :=
  { s with
      launches := kdel s.launches lid
      barriers := s.barriers.filter fun b => !(b.owner = lid && b.scope ≠ .pod) }

def sourceCore (l : Launch) : Nat := ioCore (if sourceDie l.source < 8 then 0 else 1)

/-- The launch completes, its packet with it. -/
def launchDone (s : State) (lid : Nat) (l : Launch) : State :=
  let s := forgetLaunch s lid
  match l.source with
  | .queue d q k _ _ => packetDone s d q k
  | .device _ _ => s

/-- The signal could not be added: an operand error of the packet. -/
def launchFails (s : State) (lid : Nat) (l : Launch) (cls : Nat) : State :=
  let s := forgetLaunch s lid
  match l.source with
  | .queue d q k _ _ => packetFails s d q k (haltCode cls)
  | .device _ _ => s

/-- LAUNCH_COMPLETION_SIGNAL: every cohort has ended, aborted or not; the addend is added as a release, in an
address space of the launch's tenant (20 R376): in another's it fails (log entry 106). -/
def execLaunchCompletionSignal (lid : Nat) (s : State) : Host.Outcome State Fault Refusal :=
  match kget s.launches lid with
  | none => .next s
  | some l =>
    if !launchOver l then .next s
    else if l.rcd.flags % 2 = 0 then .next (launchDone s lid l)
    else
      if s.tenantOf l.asid ≠ l.tenant then .next (launchFails s lid l 0x08) else
      match addWord s (sourceCore l) l.asid l.rcd.signal l.rcd.sigadd with
      | .ok s => .next (launchDone s lid l)
      | .error (.trap c) => .next (launchFails s lid l c)
      | .error e => .next (askChunk s l.asid l.rcd.signal e)

/-! ## Killing a launch (13 R280) -/

/-- The die counts a kill, and reports a fault when `cpesc` kills fall within one second. -/
def countKill (s : State) (die : Nat) : State :=
  let d := s.die die
  let ts := s.now :: d.killTimes.filter fun t => decide (s.now < t + 1200000000)
  let hit : Bool := d.cpesc ≠ 0 && decide (d.cpesc ≤ ts.length)
  let s := s.setDie die { d with
    kills := if d.kills < 65535 then d.kills + 1 else d.kills, killTimes := ts, fault := d.fault || hit }
  if hit then
    -- a system event of PF 0; which of its eight vectors the spec does not say (log entry 2)
    let (v, s) := takeFree s
    sendOut (sendOut s (.report die)) (.msix 0 (v % 8))
  else s

/-- Every running cohort of the launch ends as ABORT ends one, with no record of its own; the queue halts with 0x0B and a record of type
4 is written. -/
def killLaunch (s : State) (die lid : Nat) : State :=
  match kget s.launches lid with
  | none => s
  | some l =>
    let mine := (s.cohorts.filter fun e => e.2.launch = lid && e.2.aborted.isNone).map (·.1)
    if l.killed && mine.isEmpty then s
    else
      let s := mine.foldl (fun s c => abortCohort s c 0 0) s
      let s := { s with launches := kset s.launches lid { l with killed := true, aborted := true, holdsEntry := false } }
      let s := match l.source with
        | .queue d q _ slot tag => haltQueue s d q 0x0B slot tag
        | .device _ _ => s
      countKill (launchEvent s l 4 0x0B 0xFFFFFFFF) die

end Sys2Proof.Machine
end

