-- ==== Sys2Proof/Machine/Placement.lean ====
section
/-! DEFINITION. The distributor, eviction and restoration (spec/13_die.md R272 to R277, spec/12 R248, R256, spec/08 R182 to
R184). -/
namespace Sys2Proof.Machine

/-! ## Room on a core (R273) -/

def occupies (g : Group) : Bool :=
  match g.status with
  | .evicted _ _ => false
  | _ => true

def residents (s : State) (core : Nat) : List (Nat × Group) := s.groups.filter fun e => e.2.core = core && occupies e.2

def regsFree (s : State) (core : Nat) : Nat := 2097152 - ((residents s core).map fun e => e.2.regbytes).sum
def slotsFree (s : State) (core : Nat) : Nat := 256 - (residents s core).length
def tilesUsed (s : State) (core : Nat) : List Nat := s.cohorts.flatMap fun e => if e.2.core = core then e.2.tiles else []

/-- Tiles that cohorts of the core may use (12 R256). -/
def tileLimit (s : State) (core : Nat) : Nat := if (s.quad (core / 4)).chain then 168 else 192

/-- The `n` lowest numbers below `lim` that are not in use. -/
def lowestFree (used : List Nat) (lim n : Nat) : List Nat := ((List.range lim).filter fun k => !used.contains k).take n

def framesUsed (s : State) (t : Nat) : List Nat := (kget s.frames t).getD []
def framesFree (s : State) (t : Nat) : Nat := (s.tenant t).tfcount - (framesUsed s t).length

/-- Stable insertion by a test `lt`. -/
def insertBy {α : Type} (lt : α → α → Bool) (x : α) : List α → List α
  | [] => [x]
  | y :: ys => if lt x y then x :: y :: ys else y :: insertBy lt x ys

def sortBy {α : Type} (lt : α → α → Bool) : List α → List α
  | [] => []
  | x :: xs => insertBy lt x (sortBy lt xs)

/-! ## Wake conditions (08 R182, R184) -/

/-- The chunk is present, or the range no longer waits for it. -/
def chunkThere (s : State) (a c : Nat) : Bool :=
  let d := s.desc a
  match s.rstate a d with
  | 3 => mget 0 (s.aux a).pres c ≠ 0
  | 2 => !d.auto
  | _ => true

def pathWakes (s : State) (gid : Nat) (g : Group) (pid : Nat) (p : Path) : Bool :=
  match p.status with
  | .run | .woken | .yielded _ => true
  | .blocked (.bar sc i) => !waitOpen s gid g sc i
  | .blocked (.waitm ..) => false
  | .blocked (.nwait c v) => nwaitHolds (s.counter c) v
  | .blocked .launch => (s.die (g.core / 256)).lwaits.any fun w => w.gid = gid && (g.path pid).any (·.uid = w.uid) && w.reserved
  | .blocked .acalloc => (s.core g.core).acreqs.any fun r => r.gid = gid && (g.path pid).any (·.uid = r.uid) && r.first.isSome
  | .blocked (.chunk a c) => chunkThere s a c
  | .blocked .wait => g.ops.all fun e => !ofPath p e.2 || !e.2.dropped || e.2.await = 0

/-- The group's wake condition holds as soon as that of one of its paths does. -/
def groupWakes (s : State) (gid : Nat) (g : Group) : Bool := g.paths.any fun e => pathWakes s gid g e.1 e.2

/-- The place of an evicted group in the order in which wake conditions came true, once its own has (R275). -/
def wokeAt (g : Group) : Option Nat :=
  match g.status with
  | .evicted _ w => w
  | _ => none

/-- The last place given. -/
def lastWake (s : State) : Nat := s.groups.foldl (fun m e => Nat.max m ((wokeAt e.2).getD 0)) 0

/-- The wake condition of an evicted group has just come true. -/
def wakesNow (s : State) (gid : Nat) (g : Group) : Bool :=
  match g.status with
  | .evicted _ none => groupWakes s gid g
  | _ => false

/-- Every evicted group whose wake condition has come true takes its place, the one that has been evicted longest first. -/
def noteWakes (s : State) : State :=
  let since (e : Nat × Group) : Nat := match e.2.status with
    | .evicted t _ => t
    | _ => 0
  (sortBy (fun a b => decide (since a < since b)) (s.groups.filter fun e => wakesNow s e.1 e.2)).foldl (fun s e =>
    s.setGroup e.1 { e.2 with status := .evicted (since e) (some (lastWake s + 1)) }) s

/-- An evicted group of the core whose wake condition has come true (R275). -/
def restorable (s : State) (core : Nat) : Bool := s.groups.any fun e => e.2.core = core && (wokeAt e.2).isSome

/-! ## The launches of a distributor -/

/-- Cohorts placed together: a quad set, or one (12 R248). -/
def setSize (l : Launch) : Nat := if l.rcd.bquad = 0 then 1 else l.rcd.bquad / l.kd.groups

/-- The die that places the launch's next cohort or quad set (R268). -/
def unitDie (l : Launch) : Option Nat := l.dies[l.nextCohort / setSize l % l.dies.length]?

def waitsHere (die : Nat) (l : Launch) : Bool :=
  decide (l.nextCohort < l.rcd.cohorts) && !l.killed && unitDie l = some die

/-- A tenant's weight as its descriptor has it now; 0 counts as 1. -/
def weightNow (s : State) (t : Nat) : Nat := if (s.tenant t).weight = 0 then 1 else (s.tenant t).weight

/-- A round that begins now with the turn of tenant `t`. -/
def newRound (s : State) (t : Nat) : Round := ⟨t % 64, 0, [], (List.range 64).map (weightNow s)⟩

/-- The round of a priority at a die. -/
def roundOf (s : State) (die prio : Nat) : Round := (kget (s.die die).rounds prio).getD (newRound s 0)

/-- Distance of a tenant from the one in turn. -/
def turnDist (s : State) (die : Nat) (l : Launch) : Nat := (l.tenant + 64 - (roundOf s die l.rcd.prio).tenant % 64) % 64

/-- The order of R272: priority, the tenants' turns, arrival. The turns follow by number from the one in progress round, so a launch whose
tenant's number the round has passed waits behind tenants that come first from there, though these have had their turn (log entry 103). -/
def ranksBefore (s : State) (die : Nat) (a b : Nat × Launch) : Bool :=
  if a.2.rcd.prio ≠ b.2.rcd.prio then decide (b.2.rcd.prio < a.2.rcd.prio)
  else if turnDist s die a.2 ≠ turnDist s die b.2 then decide (turnDist s die a.2 < turnDist s die b.2)
  else decide (a.2.order < b.2.order)

/-- The distributor's launches, the highest-ranked first; a tenant without a valid descriptor gets no placement (20 R375). -/
def ranked (s : State) (die : Nat) : List (Nat × Launch) :=
  sortBy (ranksBefore s die) (s.launches.filter fun e => waitsHere die e.2 && (s.tenant e.2.tenant).valid)

/-! ## Where a cohort fits -/

/-- The core takes cohorts at all. -/
def coreOpen (s : State) (core : Nat) : Bool :=
  !(s.quad (core / 4)).offline && !(s.quad (core / 4)).draining

/-- The cohort fits the core as it stands (R273, R275). -/
def coreFits (s : State) (k : KDesc) (core : Nat) : Bool :=
  coreOpen s core && decide (k.groups ≤ slotsFree s core) && decide (k.groups * k.regbytes ≤ regsFree s core)
    && decide ((tilesUsed s core).length + k.scratch / 4096 ≤ tileLimit s core) && !restorable s core

/-- The cohort would fit the core were it empty. -/
def coreCould (s : State) (k : KDesc) (core : Nat) : Bool :=
  !(s.quad (core / 4)).offline && decide (k.groups * k.regbytes ≤ 2097152) && decide (k.scratch / 4096 ≤ tileLimit s core)

def dieCores (die : Nat) : List Nat := (List.range 256).map (256 * die + ·)
def dieQuads (die : Nat) : List Nat := (List.range 64).map (64 * die + ·)
def quadCores (q : Nat) : List Nat := (List.range 4).map (4 * q + ·)

/-- Most free register space first, ties by number: the list comes in ascending order. -/
def byRoom (s : State) (cores : List Nat) : List Nat :=
  sortBy (fun a b => decide (regsFree s b < regsFree s a) || (regsFree s a = regsFree s b && decide (a < b))) cores

def roomSum (s : State) (cores : List Nat) : Nat := (cores.map (regsFree s)).sum

/-- The best of a list of choices by `better`, the first of equals. -/
def bestOf {α : Type} (better : α → α → Bool) : List α → Option α
  | [] => none
  | x :: xs =>
    match bestOf better xs with
    | none => some x
    | some y => some (if better y x then y else x)

/-- A quad free for the launch's set (12 R248): unbound, or bound to it with none of its cohorts there. -/
def quadFree (s : State) (lid q : Nat) : Bool :=
  ((s.quad q).bound.isNone || (s.quad q).bound = some lid) && !s.cohorts.any fun e => e.2.launch = lid && e.2.core / 4 = q

/-- The cores that the launch's next unit takes, in the order of its cohorts (R273). -/
def chooseCores (s : State) (die lid : Nat) (l : Launch) : Option (List Nat) :=
  let n := setSize l
  if framesFree s l.tenant < n * l.kd.groups then none
  else if l.rcd.bquad = 0 then ((byRoom s ((dieCores die).filter (coreFits s l.kd))).head?).map fun c => [c]
  else
    let sets := ((dieQuads die).filter (quadFree s lid)).filterMap fun q =>
      let cs := (byRoom s ((quadCores q).filter (coreFits s l.kd))).take n
      if cs.length = n then some cs else none
    bestOf (fun a b => decide (roomSum s b < roomSum s a)) sets

/-- The launch's next unit can be placed on the die when it is empty (R273, R276, R277). -/
def couldFit (s : State) (die : Nat) (l : Launch) : Bool :=
  decide (setSize l * l.kd.groups ≤ (s.tenant l.tenant).tfcount)
    && (if l.rcd.bquad = 0 then (dieCores die).any (coreCould s l.kd)
        else (dieQuads die).any fun q => decide (setSize l ≤ ((quadCores q).filter (coreCould s l.kd)).length))

/-! ## Placing -/

/-- One group at launch (04 R68). -/
def launchGroup (s : State) (l : Launch) (cid core index i slot frame : Nat) (spill : Dbl) : Group :=
  let m := lanesBelow (if index + 1 = l.rcd.cohorts && i + 1 = l.kd.groups then l.rcd.lastlanes else 64)
  let pc : Addr := BitVec.ofNat 56 l.kd.entry
  let r : Region :=
    { pc := pc, regidx := 0xFFFF, mask := m, sigs := (slicesOf m).map fun c => (c, 0), depths := (slicesOf m).map fun c => (c, 0)
      mode := l.kd.mode, views := l.kd.views, spill := spill, sa := 0, sb := 0 }
  { asid := l.asid, core := core, slot := slot, cohort := cid, grpidx := i
    lanes := if index + 1 = l.rcd.cohorts && i + 1 = l.kd.groups then l.rcd.lastlanes else 64
    frame := frame, status := .resident, exited := 0, regbytes := l.kd.regbytes, regs := [], regPoison := []
    uni := mset 0 (mset 0 [] 0 (l.rcd.args.extractLsb' 0 32)) 1 (l.rcd.args.extractLsb' 32 32)
    preds := [], mode := l.kd.mode, views := l.kd.views, flags := 0, spill := spill, spillBytes := l.kd.spill, sa := 0, sb := 0
    spc := (List.range 16).foldl (fun acc c => mset 0 acc c pc) [], sig := [], ret := [], stack := [], spilled := 0
    spillOpen := [], paths := [(pathNumber m, freshPath s.nextOp m pc .none r s.now)], banks := [], ops := [], batch := 0
    handler := none, pending := [], stopping := none, made := [], stall := 0, fenceLeft := SpFence.none, left := [], lastPath := none, clockLast := 0
    endFault := none, locks := (s.die (core / 256)).locks }

/-- Place group `i` of the cohort: the lowest free slot and trap-frame slot. -/
def placeGroup (s : State) (l : Launch) (cid core index i : Nat) (spill : Dbl) : State :=
  let slot := ((lowestFree ((residents s core).map fun e => e.2.slot) 256 1).head?).getD 0
  let used := framesUsed s l.tenant
  let frame := ((lowestFree used (used.length + 1) 1).head?).getD 0
  let gid := s.nextOp + 1
  let sp := if l.kd.spill = 0 then 0 else spill + BitVec.ofNat 64 (l.kd.spill * i)
  let g := launchGroup s l cid core index i slot frame sp
  { s with
      groups := kset s.groups gid g, frames := kset s.frames l.tenant (used ++ [frame]), nextOp := s.nextOp + 2
      cohorts := kupd s.cohorts cid fun c => { c with groups := c.groups ++ [gid] } }

/-- Place cohort `index` on a core: its tiles are zero and EMPTY (08 R167), and the core's load cache is discarded, so that its groups
see every access from before the launch (09 R213, 13 R268). -/
def placeCohort (s : State) (lid : Nat) (l : Launch) (core index : Nat) (spill : Dbl) : State :=
  let cid := s.nextOp
  let tiles := lowestFree (tilesUsed s core) 192 (l.kd.scratch / 4096)
  let c : Cohort := { launch := lid, index := index, core := core, tiles := tiles, groups := [], aborted := none, event := 0 }
  let s := s.setCore core { freeTiles (s.core core) tiles with lines := [] }
  let s := { s with cohorts := kset s.cohorts cid c, nextOp := s.nextOp + 1 }
  (List.range l.kd.groups).foldl (fun s i => placeGroup s l cid core index i spill) s

/-- Place the cohorts of a unit, from `index` on, on the chosen cores. -/
def placeUnit (lid : Nat) (l : Launch) (spill : Dbl) : State → Nat → List Nat → State
  | s, _, [] => s
  | s, k, c :: cs =>
    placeUnit lid l spill (placeCohort s lid l c k (spill + BitVec.ofNat 64 (l.kd.spill * l.kd.groups * (k - l.nextCohort)))) (k + 1) cs

/-- The tenants that have a launch to place on the die at the priority of `l`. -/
def turnTenants (s : State) (die : Nat) (l : Launch) : List Nat :=
  (List.range 64).filter fun t => s.launches.any fun e =>
    waitsHere die e.2 && (s.tenant e.2.tenant).valid && e.2.rcd.prio = l.rcd.prio && e.2.tenant = t

/-- The round after `n` placements of the tenant of `l` (R272): the turns of those before it end early; with its weight used up its
own turn ends; the round ends when every tenant has had its turn, and the next begins with the weights as they then are. -/
def nextRound (s : State) (die : Nat) (l : Launch) (n : Nat) : Round :=
  let r := roundOf s die l.rcd.prio
  let r := if r.had.contains l.tenant then newRound s l.tenant else r
  let ts := turnTenants s die l
  let early := ts.filter fun t => decide ((t + 64 - r.tenant) % 64 < (l.tenant + 64 - r.tenant) % 64)
  let had := r.had ++ early.filter fun t => !r.had.contains t
  let k := if r.tenant = l.tenant then r.placed + n else n
  if r.weights.getD l.tenant 1 ≤ k then
    let had := had ++ [l.tenant]
    if ts.all had.contains then newRound s (l.tenant + 1) else { r with tenant := (l.tenant + 1) % 64, placed := 0, had := had }
  else { r with tenant := l.tenant, placed := k, had := had }

/-- The launch's next unit goes on the chosen cores. -/
def placeNext (s : State) (die lid : Nat) (l : Launch) (cores : List Nat) (spill : Dbl) : State :=
  let n := cores.length
  let s' := placeUnit lid l spill s l.nextCohort cores
  let s' := if l.rcd.bquad = 0 then s'
    else match cores with
      | c :: _ => s'.setQuad (c / 4) { s'.quad (c / 4) with bound := some lid }
      | [] => s'
  let s' := s'.setDie die { s'.die die with rounds := kset (s'.die die).rounds l.rcd.prio (nextRound s die l n) }
  let placed (l : Launch) : Launch :=
    { l with
        nextCohort := l.nextCohort + n, live := l.live + n, headSince := none
        holdsEntry := l.holdsEntry && decide (l.nextCohort + n < l.rcd.cohorts) }
  { s' with launches := kupd s'.launches lid placed }

/-- A launch that can never fit: its queue halts, a device launch is dropped with a record of type 3; no further cohort is
placed and no signal is given (R273, R277). -/
def dropLaunch (s : State) (lid : Nat) (l : Launch) : State :=
  let l' : Launch := { l with killed := true, holdsEntry := false, rcd := { l.rcd with flags := 0 } }
  let s := { s with launches := kset s.launches lid l' }
  match l.source with
  | .queue d q k slot tag =>
    let s := s.setQueue d q { s.queue d q with pkts := kupd (s.queue d q).pkts k fun p => { p with intr := false } }
    haltQueue s d q 0x09 slot tag
  | .device _ _ => launchEvent s l 3 0x09 0xFFFFFFFF

/-- The first launch in rank that fits; the head, where it has waited 1 ms, lets nothing of lower rank pass (R273). -/
def firstFit (s : State) (die : Nat) : List (Nat × Launch) → Option (Nat × Launch × List Nat)
  | [] => none
  | (lid, l) :: rest =>
    match chooseCores s die lid l with
    | some cs => some (lid, l, cs)
    | none => firstFit s die rest

/-- The head of the highest-ranked launch has waited 1 ms. -/
def headLate (s : State) (l : Launch) : Bool := l.headSince.any fun t => decide (t + 1200000 ≤ s.now)

/-- The head begins to wait. -/
def headWaits (s : State) (lid : Nat) : State :=
  { s with launches := kupd s.launches lid fun l => { l with headSince := some (l.headSince.getD s.now) } }

/-- COHORT_PLACEMENT on a die (R272); `spill` is the address of the unit's spill area, which the command processor assigns
(04 R75). -/
def execCohortPlacement (die : Nat) (spill : Dbl) (s : State) : Host.Outcome State Fault Refusal :=
  match ranked s die with
  | [] => .next s
  | (lid, l) :: rest =>
    match ((lid, l) :: rest).find? fun e => !couldFit s die e.2 with
    | some e => .next (dropLaunch s e.1 e.2)
    | none =>
      match chooseCores s die lid l with
      | some cs => .next (placeNext s die lid l cs spill)
      | none =>
        let s := headWaits s lid
        match if headLate s l then none else firstFit s die rest with
        | some (lid', l', cs) => .next (placeNext s die lid' l' cs spill)
        | none => .next s

/-- PENDING_LAUNCH_ENTRY_FREE: a freed entry goes to the LAUNCH that has waited longest, within its tenant's cap (R277). -/
def execPendingLaunchEntryFree (die : Nat) (s : State) : Host.Outcome State Fault Refusal :=
  if 2048 ≤ entriesHeld s die then .next s
  else
    let d := s.die die
    match d.lwaits.find? fun w => !w.reserved && underCap s die w.tenant with
    | none => .next s
    | some w =>
      let ws := d.lwaits.map fun v => if v.gid = w.gid && v.uid = w.uid then { v with reserved := true } else v
      .next (s.setDie die { d with lwaits := ws })

/-- A path of this creation stands in the group: it waits, or executes its blocking word again. A trap sets the group's paths aside. -/
def standsIn (s : State) (gid uid : Nat) : Bool := (s.group gid).any fun g => g.paths.any fun e => e.2.uid = uid

/-- A LAUNCH or an ACALLOC that is blocked no longer, its group having trapped or ended, gives up its place and what is reserved for it (R277,
08 R171). -/
def settleRequests (s : State) : State :=
  { s with
      dies := s.dies.map fun d => (d.1, { d.2 with lwaits := d.2.lwaits.filter fun w => standsIn s w.gid w.uid })
      cores := s.cores.map fun c => (c.1, { c.2 with acreqs := c.2.acreqs.filter fun r => standsIn s r.gid r.uid }) }

/-! ## Eviction (R274, 08 R183) -/

/-- Every live path is blocked. -/
def allBlocked (g : Group) : Bool :=
  g.status = .resident && !g.paths.isEmpty && g.paths.all fun e => match e.2.status with
    | .blocked _ => true
    | _ => false

def blockedSince (g : Group) : Nat := g.paths.foldl (fun m e => if m < e.2.since then e.2.since else m) 0

/-- Groups that may be evicted from a core, longest blocked first, ties to the lowest slot; `wait` is how long they must have been
blocked. -/
def victimsOn (s : State) (core wait : Nat) : List (Nat × Group) :=
  sortBy (fun a b => decide (blockedSince a.2 < blockedSince b.2)
      || (blockedSince a.2 = blockedSince b.2 && decide (a.2.slot < b.2.slot)))
    (s.groups.filter fun e => e.2.core = core && allBlocked e.2 && decide (blockedSince e.2 + wait ≤ s.now))

/-- The victims, in order, that make room for so many slots and bytes; none where not even all of them do. -/
def victimsFor (slots regs : Nat) : Nat → Nat → List (Nat × Group) → Option (List Nat)
  | fs, fr, [] => if slots ≤ fs && regs ≤ fr then some [] else none
  | fs, fr, (gid, g) :: rest =>
    if slots ≤ fs && regs ≤ fr then some []
    else (victimsFor slots regs (fs + 1) (fr + g.regbytes) rest).map (gid :: ·)

/-- A way to make room on a core: the victims, and the register space free once they are gone. -/
structure RoomPlan where
  core : Nat
  victims : List Nat
  free : Nat

def regsOf (s : State) (gid : Nat) : Nat := ((s.group gid).map (·.regbytes)).getD 0

/-- Room for a cohort on a core by evicting groups blocked for 10 µs. -/
def planOn (s : State) (k : KDesc) (core : Nat) : Option RoomPlan :=
  if !coreOpen s core || restorable s core || tileLimit s core < (tilesUsed s core).length + k.scratch / 4096 then none
  else (victimsFor k.groups (k.groups * k.regbytes) (slotsFree s core) (regsFree s core) (victimsOn s core 12000)).map fun v =>
    ⟨core, v, regsFree s core + (v.map (regsOf s)).sum⟩

def planBetter (a b : RoomPlan) : Bool :=
  decide (a.victims.length < b.victims.length) || (a.victims.length = b.victims.length && decide (b.free < a.free))

/-- Fewest evictions first, then as R273 ranks what would be left. -/
def setBetter (a b : List RoomPlan) : Bool :=
  let n (l : List RoomPlan) : Nat := (l.map fun p => p.victims.length).sum
  let f (l : List RoomPlan) : Nat := (l.map fun p => p.free).sum
  decide (n a < n b) || (n a = n b && decide (f b < f a))

/-- Where the distributor makes room for the unit at its head. -/
def roomFor (s : State) (die lid : Nat) (l : Launch) : List RoomPlan :=
  let n := setSize l
  if framesFree s l.tenant < n * l.kd.groups then []
  else if l.rcd.bquad = 0 then (bestOf planBetter ((dieCores die).filterMap (planOn s l.kd))).toList
  else
    let sets := ((dieQuads die).filter (quadFree s lid)).filterMap fun q =>
      let ps := (sortBy planBetter ((quadCores q).filterMap (planOn s l.kd))).take n
      if ps.length = n then some ps else none
    (bestOf setBetter sets).getD []

/-- The group is the next victim for the cohort that the distributor has chosen. -/
def victimOfHead (s : State) (gid die : Nat) : Bool :=
  match ranked s die with
  | [] => false
  | (lid, l) :: _ => (chooseCores s die lid l).isNone && (roomFor s die lid l).any fun p => p.victims.head? = some gid

/-- The group is the next victim for a group of its core whose wake condition holds and that has no room there. -/
def victimOfRestore (s : State) (gid core : Nat) : Bool :=
  s.groups.any fun e =>
    e.2.core = core && (wokeAt e.2).isSome
      && (match victimsFor 1 e.2.regbytes (slotsFree s core) (regsFree s core) (victimsOn s core 0) with
        | some (v :: _) => v = gid
        | _ => false)

/-- The queues of a tenant, by die and number. -/
def tenantQueues (s : State) (t : Nat) : List (Nat × Nat × Queue) :=
  s.dies.flatMap fun d => d.2.queues.filterMap fun q => if q.2.tenant = t then some (d.1, q.1, q.2) else none

/-- The unit of the I/O dies through which a die's command processor reaches memory. -/
def cpCore (die : Nat) : Nat := ioCore (if die < 8 then 0 else 1)

/-- The packet at the read pointer of a queue is a CHECKPOINT of tenant `t`. -/
def checkpointNext (s : State) (die : Nat) (x : Queue) (t : Nat) : Bool :=
  x.en && x.halted.isNone && decide (2 ≤ (x.wptr + 2 ^ 32 - x.rptr) % 2 ^ 32)
    && (match vread s (cpCore die) x.asid (x.base + 64 * (x.rptr % 2 ^ x.lsize)) 64 with
      | .ok b => leNat (b.take 1) = 7 && leNat ((b.drop 8).take 1) = t
      | .error _ => false)

/-- The tenant is being quiesced for a checkpoint (R274, 15 R317): a queue is about to start one, and every other queue of the
tenant is disabled or halted. -/
def quiescing (s : State) (t : Nat) : Bool :=
  s.dies.any fun d => d.2.queues.any fun q =>
    checkpointNext s d.1 q.2 t && (tenantQueues s t).all fun e => (e.1 = d.1 && e.2.1 = q.1) || !e.2.2.en || e.2.2.halted.isSome

/-- One of the reasons of R274 holds. -/
def evictReason (s : State) (gid : Nat) (g : Group) : Bool :=
  victimOfRestore s gid g.core || victimOfHead s gid (g.core / 256) || (s.quad (g.core / 4)).draining
    || quiescing s (s.tenantOf g.asid)

/-- The group leaves its core: its loads are dropped, those of a live path's WAIT kept as replay records, the working values of its
regions discarded; its paths stay blocked. An arrival that waited for a dropped SPRD of an ended path is looked at again. -/
def evict (s : State) (gid : Nat) (g : Group) : State :=
  let s := (restartGroup s gid).updGroup gid fun h =>
    { h with
        status := .evicted s.now none
        paths := h.paths.map fun e => match g.path e.1 with
          | some p => (e.1, { e.2 with status := p.status, since := p.since })
          | none => e
        ops := (h.ops.filter fun e => !opEnded h e.2).map fun e => (e.1, { e.2 with dropped := true, await := e.2.todo, taken := [] }) }
  settleGroup s gid

/-- Stores, copies and matrix operations first complete (08 R183), and copies that drain its claims (R170; log entry 91). -/
def mayLeave (s : State) (g : Group) : Bool :=
  allBlocked g && !drainsOut s g && g.pending.isEmpty && g.stopping.isNone && g.ops.all fun e => isLoad e.2 && !isStore e.2

/-- GROUP_EVICT (R274). -/
def execGroupEvict (gid : Nat) (s : State) : Host.Outcome State Fault Refusal :=
  match s.group gid with
  | none => .next s
  | some g => if mayLeave s g && evictReason s gid g then .next (evict s gid g) else .next s

/-! ## Restoration (R275, 08 R184) -/

/-- A restored path executes its word again: a WAITM whose wake condition was met evaluates once more (08 R182). -/
def restoredPath (p : Path) : Path :=
  match p.status with
  | .blocked _ | .woken => { p with status := .run }
  | _ => p

/-- The group returns to the core it left, each path at its region entry; the loads of a blocked WAIT are issued again. -/
def restore (s : State) (gid : Nat) (g : Group) : State :=
  let slot := ((lowestFree ((residents s g.core).map fun e => e.2.slot) 256 1).head?).getD 0
  s.setGroup gid { g with
    status := .resident, slot := slot, paths := g.paths.map fun e => (e.1, restoredPath e.2)
    ops := g.ops.map fun e => (e.1, { e.2 with dropped := false, await := 0, at_ := s.now }) }

/-- The group's wake condition came true before that of every other restorable group of its core (R275). -/
def wokeFirst (s : State) (g : Group) : Bool :=
  match wokeAt g with
  | none => false
  | some k => s.groups.all fun e => e.2.core ≠ g.core || (wokeAt e.2).all fun j => decide (k ≤ j)

/-- GROUP_RESTORE: the evicted group of its core whose wake condition came true first, where the core has room. -/
def execGroupRestore (gid : Nat) (s : State) : Host.Outcome State Fault Refusal :=
  match s.group gid with
  | none => .next s
  | some g =>
    if wokeFirst s g && decide (0 < slotsFree s g.core) && decide (g.regbytes ≤ regsFree s g.core)
        && !(s.quad (g.core / 4)).draining then .next (restore s gid g)
    else .next s

end Sys2Proof.Machine
end

