-- ==== Sys2Proof/Machine/Queues.lean ====
section
/-! DEFINITION. The hardware queues: enable and disable, the write pointer, and the packets (spec/13_die.md R264 to R270). -/
namespace Sys2Proof.Machine

/-! ## Enabling (R264, R265) -/

/-- The bytes lie in ranges of the address space that satisfy `f`. -/
def inRanges (s : State) (core asid va n : Nat) (f : Desc → Bool) : Bool :=
  (overRanges s core asid (fun _ => some ()) (fun _ _ d => if f d then none else some ()) (n + 1) va n).isNone

/-- The queue's address space belongs to its tenant (20 R376). -/
def queueOwns (s : State) (x : Queue) : Bool := s.tenantOf x.asid = x.tenant

/-- What setting en requires. -/
def enableOk (s : State) (die : Nat) (x : Queue) : Bool :=
  queueOwns s x &&
  decide (4 ≤ x.lsize) && decide (x.lsize ≤ 16) && x.base % 4096 = 0 && decide (x.base < 2 ^ 56) && x.ptrblk % 128 = 0
    && inRanges s (cpCore die) x.asid x.base (64 * 2 ^ x.lsize) Desc.rd
    && inRanges s (cpCore die) x.asid x.ptrblk 128 fun d => d.rd && d.wr

/-- The fields of a QCTL word while en is 0. -/
def qctlFields (x : Queue) (v : Word) : Queue :=
  { x with
      lsize := v.toNat % 32, prio := v.toNat / 32 % 4, tenant := v.toNat / 256 % 64, asid := v.toNat / 2 ^ 14 % 1024 }

/-- QUEUE_ENABLE: a write of QCTL that sets en; the read position is the read pointer in the block at that moment. A write that
does not meet the conditions leaves en as it is. -/
def execQueueEnable (die q : Nat) (v : Word) (s : State) : Host.Outcome State Fault Refusal :=
  let x := s.queue die q
  if 16 ≤ die || 128 ≤ q || x.en || v.toNat / 128 % 2 = 0 then .next s
  else
    let old := x.tenant
    let x := qctlFields x v
    match enableOk s die x, vread s (cpCore die) x.asid (x.ptrblk + 64) 4 with
    | true, .ok b =>
      .next (quotaMoved (s.setQueue die q
        { x with en := true, halted := none, resumed := false, rptr := leNat b, wptr := leNat b, progress := s.now }) old x.tenant)
    | _, _ => .next (quotaMoved (s.setQueue die q x) old x.tenant)

/-- QUEUE_DISABLE: a write of QCTL that clears en; only prio changes beside it. Started packets run on. -/
def execQueueDisable (die q : Nat) (v : Word) (s : State) : Host.Outcome State Fault Refusal :=
  let x := s.queue die q
  if !x.en || v.toNat / 128 % 2 = 1 then .next s
  else .next (s.setQueue die q { x with en := false, halted := none, prio := v.toNat / 32 % 4 })

/-- QRESUME_GO: a halted queue leaves the halt; the packet at the read pointer is read again (R270). -/
def execQresumeGo (die q : Nat) (s : State) : Host.Outcome State Fault Refusal :=
  let x := s.queue die q
  if x.en && x.halted.isSome then .next (s.setQueue die q { x with halted := none, resumed := true }) else .next s

/-! ## Reading a packet (R266, R267, R269) -/

/-- Packet types with a 128-byte form, and those that start as with bar. -/
def typeLong (t : Nat) : Bool := t = 2 || t = 7
def typeBar (t : Nat) : Bool := t = 5 || t = 7 || t = 8

def pf (b : List Byte) (o n : Nat) : Nat := leNat ((b.drop o).take n)
def zeroFrom (b : List Byte) (o n : Nat) : Bool := ((b.drop o).take n).all (· = 0)

/-- The reserved bytes of a body are zero (R268, 15 R317); those of a launch record belong to R212. -/
def bodyZero (t : Nat) (b : List Byte) : Bool :=
  match t with
  | 1 => zeroFrom b 8 56
  | 2 => zeroFrom b 10 54
  | 3 => decide (pf b 20 1 < 2) && zeroFrom b 21 43
  | 4 => zeroFrom b 28 36
  | 5 => zeroFrom b 25 39
  | 6 => zeroFrom b 48 16
  | 7 => decide (pf b 9 1 < 4) && zeroFrom b 10 6 && zeroFrom b 72 56
  | _ => zeroFrom b 16 48

/-- Misaligned addresses, lengths and counts out of range, values that are not listed (0x06). -/
def bodyBad (t : Nat) (b : List Byte) : Bool :=
  match t with
  | 3 => pf b 16 4 = 0 || decide (2 ^ 20 < pf b 16 4)
  | 4 => pf b 8 8 % 8 ≠ 0
  | 5 => pf b 8 8 % 8 ≠ 0 || decide (1 < pf b 24 1)
  | 6 => pf b 8 8 % 64 ≠ 0 || pf b 16 8 % 64 ≠ 0 || pf b 24 8 % 64 ≠ 0 || pf b 24 8 = 0 || decide (2 ^ 40 < pf b 24 8)
      || pf b 32 8 % 8 ≠ 0
  | 7 => decide (63 < pf b 8 1) || pf b 16 8 % 32 ≠ 0 || (pf b 9 1 % 2 = 0 && pf b 16 8 ≠ 0) || pf b 24 8 % 32 ≠ 0
      || pf b 32 8 % 64 ≠ 0 || pf b 48 8 % 8 ≠ 0
  | 8 => pf b 8 8 % 32 ≠ 0
  | _ => false

/-- The record in a LAUNCH packet, with its kernel descriptor, where it keeps R212 and R248 and the tenant is valid (0x05). -/
def packetRec (s : State) (die : Nat) (x : Queue) (b : List Byte) : Option (LaunchRec × KDesc) :=
  let r := launchRecOfBytes (b.drop 64)
  let k := kdescAt s (cpCore die) x.asid r.kdesc
  match recBreak r (b.drop 116) k, k with
  | none, some k => if (s.tenant x.tenant).valid then some (r, k) else none
  | _, _ => none

/-- The code of a malformed packet, in the order of R269's table (log entry 126). -/
def malformed (s : State) (die : Nat) (x : Queue) (b : List Byte) : Option Nat :=
  let t := pf b 0 1
  if decide (8 ≤ pf b 1 1) || !zeroFrom b 2 2 || !bodyZero t b then some 0x04
  else if t = 2 && (packetRec s die x b).isNone then some 0x05
  else if bodyBad t b then some 0x06
  else none

/-- What stands at the read pointer. -/
inductive Look where
  | none                       -- no packet to start now
  | ask (va : Nat) (e : MErr)  -- the ring waits for its chunk
  | bad (code : Nat) (tag : Word)
  | ready (b : List Byte)
  deriving DecidableEq, Repr

def tagOf (b : List Byte) : Word := BitVec.ofNat 32 (pf b 4 4)

/-- A slot of the ring. One that cannot be read halts the queue with 0x0D, whatever the reason (log entry 74). -/
def readSlot (s : State) (die : Nat) (x : Queue) (slot : Nat) : Except Look (List Byte) :=
  if !queueOwns s x then .error (.bad 0x0D 0) else
  match vread s (cpCore die) x.asid (x.base + 64 * slot) 64 with
  | .ok b => .ok b
  | .error ⟨.trap _, _⟩ => .error (.bad 0x0D 0)
  | .error ⟨e, va⟩ => .error (.ask va e)

/-- The tag of the packet at the read pointer; 0 where its slot cannot be read (R271). -/
def tagAt (s : State) (die : Nat) (x : Queue) : Word :=
  match readSlot s die x (x.rptr % 2 ^ x.lsize) with
  | .ok b => tagOf b
  | .error _ => 0

/-- A WAITSIG blocks the start of every later packet (R267). -/
def sigBlocked (x : Queue) : Bool := x.pkts.any fun e => match e.2.kind with
  | .waitsig .. => true
  | _ => false

/-- The packet at the read pointer, once both its slots are covered and its bar lets it start. -/
def lookAt (s : State) (die : Nat) (x : Queue) : Look :=
  let n := 2 ^ x.lsize
  let avail := (x.wptr + 2 ^ 32 - x.rptr) % 2 ^ 32
  let slot := x.rptr % n
  if !x.en || x.halted.isSome || sigBlocked x || avail = 0 || n < avail then .none
  else
    match readSlot s die x slot with
    | .error l => l
    | .ok b =>
      let t := pf b 0 1
      let tag := tagOf b
      if t = 0 || 8 < t then .bad 0x01 tag
      else if typeLong t ≠ (pf b 1 1 % 2 = 1) then .bad 0x02 tag
      else if typeLong t && avail < 2 then .none
      else if typeLong t && slot + 1 = n then .bad 0x03 tag
      else
        match if typeLong t then readSlot s die x (slot + 1) else .ok [] with
        | .error (.bad c _) => .bad c tag
        | .error l => l
        | .ok b2 =>
          if (typeBar t || pf b 1 1 / 2 % 2 = 1) && !x.pkts.isEmpty then .none
          else
            match malformed s die x (b ++ b2) with
            | some c => .bad c tag
            | none => .ready (b ++ b2)

/-- Act on the packet at the read pointer where it has type `t`; a packet that cannot start halts the queue. -/
def withPacket (s : State) (die q t : Nat) (k : Queue → List Byte → State) : State :=
  let x := s.queue die q
  match lookAt s die x with
  | .none => s
  | .ask va e => askChunk s x.asid va e
  | .bad c tag => haltQueue s die q c (x.rptr % 2 ^ x.lsize) tag
  | .ready b => if pf b 0 1 = t then k x b else s

/-- QUEUE_POINTER_POLL: the write pointer is read; an overrun halts the queue, and so does a malformed packet at the read
pointer. -/
def execQueuePointerPoll (die q : Nat) (s : State) : Host.Outcome State Fault Refusal :=
  let x := s.queue die q
  if !x.en || x.halted.isSome || locked (s.die die).locks 0 false x.asid x.ptrblk 4 then .next s
  else
    if !queueOwns s x then .next (haltQueue s die q 0x0D (x.rptr % 2 ^ x.lsize) (tagAt s die x)) else
    match vread s (cpCore die) x.asid x.ptrblk 4 with
    | .error ⟨.trap _, _⟩ => .next (haltQueue s die q 0x0D (x.rptr % 2 ^ x.lsize) (tagAt s die x))
    | .error e => .next (askChunk s x.asid e.va e.err)
    | .ok b =>
      let x := { x with wptr := leNat b }
      let s := s.setQueue die q x
      if 2 ^ x.lsize < (x.wptr + 2 ^ 32 - x.rptr) % 2 ^ 32 then
        .next (haltQueue s die q 0x07 (x.rptr % 2 ^ x.lsize) (tagAt s die x))
      else .next (withPacket s die q 0 fun _ _ => s)

/-! ## Starting (R266, R268) -/

/-- The read pointer passes the packet's slots and is written as a release; a write that fails is ignored (log entry 74). -/
def passPacket (s : State) (die q : Nat) (x : Queue) (b : List Byte) : State :=
  let r := (x.rptr + b.length / 64) % 2 ^ 32
  let s := s.setQueue die q { x with rptr := r, progress := s.now, resumed := false }
  (vwrite s (cpCore die) x.asid (x.ptrblk + 64) (leBytes 4 r)).1

def slotOf (x : Queue) : Nat := x.rptr % 2 ^ x.lsize
def wantsIntr (b : List Byte) : Bool := pf b 1 1 / 4 % 2 = 1

/-- A packet that completes at its start. -/
def startDone (s : State) (die q : Nat) (x : Queue) (b : List Byte) : State :=
  let s := passPacket s die q x b
  if wantsIntr b then sendOut s (.msix (x.tenant + 1) 1) else s

/-- A packet whose operand access fails at its start: the pointer has passed it. -/
def startFails (s : State) (die q : Nat) (x : Queue) (b : List Byte) (code : Nat) : State :=
  haltQueue (passPacket s die q x b) die q code (slotOf x) (tagOf b)

/-- A packet that stays in hand. -/
def startPacket (s : State) (die q : Nat) (x : Queue) (b : List Byte) (k : PktKind) : State :=
  let s := passPacket s die q x b
  let y := s.queue die q
  s.setQueue die q { y with
    pkts := kset y.pkts y.nextPkt ⟨k, x.asid, x.tenant, wantsIntr b, tagOf b, slotOf x⟩, nextPkt := y.nextPkt + 1 }

/-- Perform an access of a packet at its start: done, failed with a halt, or waiting for its chunk before it starts. -/
def startAccess (s : State) (die q : Nat) (x : Queue) (b : List Byte) (va : Nat) (r : Except MErr State) : State :=
  match r with
  | .ok s => startDone s die q x b
  | .error (.trap c) => startFails s die q x b (haltCode c)
  | .error e => askChunk s x.asid va e

def execPacketNop (die q : Nat) (s : State) : Host.Outcome State Fault Refusal :=
  .next (withPacket s die q 1 fun x b => startDone s die q x b)

/-- The dies of a mask; none names the queue's own (R268). -/
def maskDies (die m : Nat) : List Nat := if m = 0 then [die] else (List.range 16).filter fun d => m / 2 ^ d % 2 = 1

/-- Hand the launch to its distributors. -/
def startLaunch (s : State) (die q : Nat) (x : Queue) (b : List Byte) (r : LaunchRec) (k : KDesc) : State :=
  let lid := s.nextOp
  let l : Launch :=
    { rcd := r, kd := k, asid := x.asid, tenant := x.tenant, source := .queue die q x.nextPkt (slotOf x) (tagOf b)
      dies := maskDies die (pf b 8 2), order := lid, nextCohort := 0, live := 0, holdsEntry := false, killed := false
      aborted := false, headSince := none }
  startPacket { s with launches := kset s.launches lid l, nextOp := lid + 1 } die q x b (.launch lid)

def execPacketLaunch (die q : Nat) (s : State) : Host.Outcome State Fault Refusal :=
  .next (withPacket s die q 2 fun x b =>
    match packetRec s die x b with
    | some (r, k) => startLaunch s die q x b r k
    | none => s)

/-- A migration that the window asks for waits to start (15 R303). -/
def windowWaits (s : State) (iod asid lo hi : Nat) : Bool :=
  let r := s.root iod asid
  r.valid && (List.range r.count).any fun i =>
    let a := r.desc + 64 * i
    let d := s.desc a
    d.state = 2 && d.auto && (s.aux a).waiting && !(windowChunks d lo hi).isEmpty

/-- PREFETCH acts as RPREF on its window, and completes once the migrations have started: none of the window's ranges waits to start (log
entry 109). -/
def execPacketPrefetch (die q : Nat) (s : State) : Host.Outcome State Fault Refusal :=
  .next (withPacket s die q 3 fun x b =>
    let lo := pf b 8 8 / 65536 * 65536
    let hi := lo + 65536 * pf b 16 4
    let iod := iodOf (cpCore die)
    let s := hintWindow s iod x.asid lo hi
    if windowWaits s iod x.asid lo hi then startPacket s die q x b (.prefetch lo hi) else startDone s die q x b)

/-- The PREFETCH packets whose migrations have all started: die, queue and number. -/
def prefetchesOver (s : State) : List (Nat × Nat × Nat) :=
  s.dies.flatMap fun d => d.2.queues.flatMap fun q => q.2.pkts.filterMap fun p => match p.2.kind with
    | .prefetch lo hi => if windowWaits s (iodOf (cpCore d.1)) p.2.asid lo hi then none else some (d.1, q.1, p.1)
    | _ => none

def settlePrefetches (s : State) : State := (prefetchesOver s).foldl (fun s e => packetDone s e.1 e.2.1 e.2.2) s

/-! ## WAITSIG -/

/-- The signal word. -/
def readSignal (s : State) (die asid va : Nat) : Except MErr Nat :=
  match check145 s (cpCore die) asid .read 8 va 8 with
  | .error e => .error e
  | .ok _ =>
    if locked (s.die die).locks 0 false asid va 8 then .error .held else
    match readUnit s (cpCore die) asid va 8 with
    | .ok b => .ok (leNat b)
    | .error e => .error e

/-- WAITSIG completes at once where its signal stands at or above the value; else it stays in hand. -/
def execPacketWaitsig (die q : Nat) (s : State) : Host.Outcome State Fault Refusal :=
  .next (withPacket s die q 4 fun x b =>
    let k : PktKind := .waitsig (pf b 8 8) (pf b 16 8) (pf b 24 4) s.now
    match readSignal s die x.asid (pf b 8 8) with
    | .ok v => if pf b 16 8 ≤ v then startDone s die q x b else startPacket s die q x b k
    | .error (.trap c) => startFails s die q x b (haltCode c)
    | .error e => startPacket (askChunk s x.asid (pf b 8 8) e) die q x b k)

/-- The WAITSIG in hand: its packet's number and address space, and its operands. -/
def waitsigOf (x : Queue) : Option (Nat × Nat × Nat × Nat × Nat × Nat) :=
  x.pkts.findSome? fun e => match e.2.kind with
    | .waitsig a v t f => some (e.1, e.2.asid, a, v, t, f)
    | _ => none

/-- WAITSIG_REEVALUATION: as WAITM is re-evaluated. -/
def execWaitsigReevaluation (die q : Nat) (s : State) : Host.Outcome State Fault Refusal :=
  let x := s.queue die q
  match waitsigOf x with
  | none => .next s
  | some (k, as, a, v, _, _) =>
    if (kget x.pkts k).any fun p => s.tenantOf as ≠ p.tenant then .next (packetFails s die q k 0x08) else
    match readSignal s die as a with
    | .ok w => if v ≤ w then .next (packetDone s die q k) else .next s
    | .error (.trap c) => .next (packetFails s die q k (haltCode c))
    | .error e => .next (askChunk s as a e)

/-- WAITSIG_TIMEOUT: its timeout, in µs, has elapsed. -/
def execWaitsigTimeout (die q : Nat) (s : State) : Host.Outcome State Fault Refusal :=
  match waitsigOf (s.queue die q) with
  | none => .next s
  | some (k, _, _, _, t, f) => if t = 0 || s.now < f + 1200 * t then .next s else .next (packetFails s die q k 0x0A)

/-! ## SETSIG, MARKER -/

def execPacketSetsig (die q : Nat) (s : State) : Host.Outcome State Fault Refusal :=
  .next (withPacket s die q 5 fun x b =>
    let a := pf b 8 8
    startAccess s die q x b a (
      if pf b 24 1 = 1 then addWord s (cpCore die) x.asid a (pf b 16 8)
      else
        match check145 s (cpCore die) x.asid .write 8 a 8 with
        | .error e => .error e
        | .ok _ => if cpLocked s true x.asid a 8 then .error .held else writeUnit s (cpCore die) x.asid a ((b.drop 16).take 8)))

/-- The record of a MARKER. -/
def markerBytes (s : State) (die q slot : Nat) (b : List Byte) : List Byte :=
  (b.drop 4).take 4 ++ leBytes 2 q ++ leBytes 2 die ++ leBytes 8 s.now ++ leBytes 4 slot ++ zeros 12

def execPacketMarker (die q : Nat) (s : State) : Host.Outcome State Fault Refusal :=
  .next (withPacket s die q 8 fun x b =>
    let a := pf b 8 8
    startAccess s die q x b a (
      match check145 s (cpCore die) x.asid .write 32 a 32 with
      | .error e => .error e
      | .ok _ =>
        if cpLocked s true x.asid a 32 then .error .held
        else writeUnit s (cpCore die) x.asid a (markerBytes s die q (slotOf x) b)))

/-! ## COPY -/

/-- R145 over bytes that may span ranges; waits for residency are left to the engine (09 R204). -/
def operandBad (s : State) (core asid : Nat) (k : AKind) (va n : Nat) : Option Nat :=
  overRanges s core asid (fun _ => some 0x07) (fun a m _ => match checkSpan s core asid k a m with
    | .error (.trap c) => some c
    | _ => none) (n + 1) va n

def execPacketCopy (die q : Nat) (s : State) : Host.Outcome State Fault Refusal :=
  .next (withPacket s die q 6 fun x b =>
    let n := pf b 24 8
    let sig := pf b 32 8
    let bad := (operandBad s (cpCore die) x.asid .read (pf b 8 8) n).or
      ((operandBad s (cpCore die) x.asid .write (pf b 16 8) n).or
        (if sig = 0 then none else operandBad s (cpCore die) x.asid (.atom true) sig 8))
    match bad with
    | some c => startFails s die q x b (haltCode c)
    | none => startPacket s die q x b (.copy (pf b 8 8) (pf b 16 8) n 0 sig (pf b 40 8)))

/-- Move one unit of 64 bytes. -/
def moveUnit (s : State) (core asid src dst : Nat) : Except AErr State :=
  match readUnit s core asid src 64 with
  | .error e => .error ⟨e, src⟩
  | .ok b =>
    match writeUnit s core asid dst b with
    | .error e => .error ⟨e, dst⟩
    | .ok s => .ok s

/-- Move up to so many units: how far it came, and what stopped it. -/
def moveUnits (core asid : Nat) : Nat → State → Nat → Nat → Nat → State × Nat × Option AErr
  | 0, s, _, _, d => (s, d, none)
  | n + 1, s, src, dst, d =>
    match moveUnit s core asid (src + d) (dst + d) with
    | .error e => (s, d, some e)
    | .ok s => moveUnits core asid n s src dst (d + 64)

/-- A malformed block drains the ASID's copies in the die's engine with errors (15 R312). -/
def drainQueueCopies (s : State) (die asid cls va : Nat) : State :=
  if cls = 0x0C && malformedAt s (cpCore die) asid va then
    let hit := (s.die die).queues.flatMap fun e =>
      (e.2.pkts.filter fun p => p.2.asid = asid && match p.2.kind with
        | .copy .. => true
        | _ => false).map fun p => (e.1, p.1)
    (hit.foldl (fun s h => packetFails s die h.1 h.2 0x0E) s).haltContext (engDie die) asid
  else s

/-- The copy goes on for `n` units; at its end the addend is added to the signal as a release. A fault halts the queue and leaves
what is written. -/
def moveQueueCopy (s : State) (die q k : Nat) (n : Option Nat) : State :=
  match kget (s.queue die q).pkts k with
  | some ⟨.copy src dst len d sig add, as, t, intr, tag, slot⟩ =>
    if s.contextHalted (engDie die) as then s
    else if s.tenantOf as ≠ t then packetFails s die q k 0x08
    else
    let todo := (len - d) / 64
    let (s, d, e) := moveUnits (cpCore die) as (match n with
      | some n => if n < todo then n else todo
      | none => todo) s src dst d
    let y := s.queue die q
    let s := s.setQueue die q { y with pkts := kset y.pkts k ⟨.copy src dst len d sig add, as, t, intr, tag, slot⟩ }
    match e with
    | some ⟨.trap c, va⟩ => drainQueueCopies (packetFails s die q k (haltCode c)) die as c va
    | some e => askChunk s as e.va e.err
    | none =>
      if d < len || n.isSome then s
      else if sig = 0 then packetDone s die q k
      else
        match addWord s (cpCore die) as sig add with
        | .ok s => packetDone s die q k
        | .error (.trap c) => packetFails s die q k (haltCode c)
        | .error e => askChunk s as sig e
  | _ => s

/-- QUEUE_COPY_COMPLETE: the rest of the copy, and its signal. -/
def execQueueCopyComplete (die q pkt : Nat) (s : State) : Host.Outcome State Fault Refusal :=
  .next (moveQueueCopy s die q pkt none)

/-- One unit of a copy, before its completion. -/
def queueUnit (s : State) (die q pkt : Nat) : State := moveQueueCopy s die q pkt (some 1)

/-! ## QSTATUS (R264) -/

/-- State of R264: disabled, halted, waiting on a signal, idle with no packet started or waiting in the ring, running (the worked queue
of spec/13 reads 2 after a SETSIG and a MARKER that have completed, with a packet behind them; log entry 105). After go it is idle until a
packet starts (R270). -/
def queueState (x : Queue) : Nat :=
  if !x.en then 0 else if x.halted.isSome then 4 else if sigBlocked x then 3
  else if x.resumed || (x.pkts.isEmpty && x.wptr = x.rptr) then 1 else 2

/-- QSTATUS: the state, the error code while halted, and the slot of the packet at the read pointer, or of the packet that
halted. -/
def qstatus (x : Queue) : Word :=
  let halt := x.en && x.halted.isSome
  BitVec.ofNat 32 (queueState x + (if halt then 256 * (x.halted.getD 0 % 256) else 0)
    + 65536 * (if halt then x.haltSlot else slotOf x))

end Sys2Proof.Machine
end

