-- ==== Sys2Proof/Machine/Pods.lean ====
section
/-! DEFINITION. Barriers at POD scope: the root's count, the gathering of the members' sums, and the completion
(spec/20_fabric_and_system.md R369). -/
namespace Sys2Proof.Machine

/-- The member nodes of podlist; none where the ASID map does not give hwasid to the tenant (R376). -/
def podMembers (s : State) (t : Nat) : List Nat :=
  let d := s.tenant t
  if s.tenantOf d.hwasid ≠ t then [] else
  match vread s (ioCore 0) d.hwasid d.podlist (2 * d.podcount) with
  | .ok b => leWords2 d.podcount b
  | .error _ => []
where
  leWords2 : Nat → List Byte → List Nat
    | 0, _ => []
    | n + 1, b => leNat (b.take 2) :: leWords2 n (b.drop 2)

/-- The root counts an arrival with this bpod: of a group of its own, where one is on the way, or of another member's. -/
def arrivalFrom (s : State) (t idx : Nat) (a : PodArrival) : Option Pod :=
  let p := s.pod t idx
  if a.node = s.nodeNum then
    match p.own with
    | e :: rest => if e = a.expected then some { p with own := rest } else none
    | [] => none
  else if (podMembers s t).contains a.node then some p else none

/-- POD_BARRIER_ARRIVAL: an arrival of a node reaches the root, which counts it to the bpod it carries. -/
def execPodBarrierArrival (tenant idx : Nat) (a : PodArrival) (s : State) : Host.Outcome State Fault Refusal :=
  match arrivalFrom s tenant idx a with
  | none => .next s
  | some p =>
    if !isRoot s tenant || a.expected = 0 || (p.expected ≠ 0 && (p.expected ≠ a.expected || decide (p.expected ≤ p.arrivals))) then
      .next s
    else .next (s.setPod tenant idx { p with arrivals := p.arrivals + 1, expected := a.expected })

/-! ## Gathering -/

/-- This package's instance. -/
def podBarrier (s : State) (t idx : Nat) : Barrier := s.barrier .pod idx t 0

/-- Change this package's monitors of number `n` that the instance gathers. -/
def onPodMons (s : State) (t idx n : Nat) (f : Monitor → Monitor) : State :=
  (gatherMons s (podBarrier s t idx) n).foldl (fun s e =>
    s.setCore e.1 { s.core e.1 with mons := kset (s.core e.1).mons n (f e.2) }) s

/-- The open sum is taken: what is committed from now on belongs to the next phase (18 R343). -/
def takeSum (m : Monitor) : Monitor := { m with open_ := m.next, next := accZero, gathered := true }

def takeSums (s : State) (t idx : Nat) : State := (List.range 4).foldl (fun s n => onPodMons s t idx n takeSum) s

/-- Every other member has answered with its sums. -/
def sumsIn (s : State) (t : Nat) (p : Pod) : Bool :=
  (podMembers s t).all fun n => n = s.nodeNum || (kget p.sums n).isSome

/-- The monitors of number `n` at the phase, by logical core, lowest first (18 R345); at one number, this package's comes first. -/
def podMons (s : State) (t idx n : Nat) (p : Pod) : List (Nat × Monitor) :=
  sortBy (fun a b => decide (a.1 ≤ b.1)) (gatherMons s (podBarrier s t idx) n
    ++ p.sums.flatMap fun e => (e.2.filter fun m => m.mon = n).map fun m => (m.core, m.held))

/-- The judgement of 18 R344 for each number with a monitor. -/
def podVerdicts (s : State) (t idx : Nat) (p : Pod) : List PodVerdict :=
  (List.range 4).filterMap fun n =>
    let ms := podMons s t idx n p
    if ms.isEmpty then none
    else
      let total := sumAcc (ms.map fun e => e.2.open_)
      some ⟨n, total, judge n ms total⟩

/-- Some monitor of the instance has been gathered in the phase under way. -/
def podGathered (s : State) (t idx : Nat) : Bool :=
  (List.range 4).any fun n => (gatherMons s (podBarrier s t idx) n).any (·.2.gathered)

/-- What a member answers with: the monitors bound to the instance, by number and core. -/
def ownSums (s : State) (t idx : Nat) : List SentMon :=
  (List.range 4).flatMap fun n => (gatherMons s (podBarrier s t idx) n).map fun e => ⟨n, e.1, e.2⟩

/-- POD_MONITOR_GATHER: a member is asked for its open sums and answers; the root, once the arrivals reach the count and every member has
answered, judges and sends the completion with its verdict. -/
def execPodMonitorGather (tenant idx : Nat) (s : State) : Host.Outcome State Fault Refusal :=
  let p := s.pod tenant idx
  if !isRoot s tenant then
    if podGathered s tenant idx || p.verdict.isSome then .next s
    else
      .next (sendOut (takeSums s tenant idx)
        (.podSums ((s.tenant tenant).podroot % 1024) tenant idx (ownSums s tenant idx)))
  else if p.expected = 0 || p.arrivals < p.expected || p.verdict.isSome || !sumsIn s tenant p then .next s
  else
    let v := podVerdicts s tenant idx p
    .next (sendOut ((takeSums s tenant idx).setPod tenant idx { p with verdict := some v }) (.podDone tenant idx v))

/-! ## Completion -/

/-- A gathered monitor takes the total and the status bits of its number (18 R344); one bound since is left out. -/
def podReduced (v : PodVerdict) (m : Monitor) : Monitor :=
  if m.gathered then
    { m with
        total := v.total, drift := m.drift || v.drift.isSome, mismatch := m.mismatch || (v.drift.any fun d => d.cause = 3) }
  else m

/-- The phase changes: the next sum joins what has been committed to the new phase already. -/
def podPhase (m : Monitor) : Monitor := { m with open_ := sumAcc [m.open_, m.next], next := accZero, gathered := false }

/-- A verdict reaches this package's monitors of the instance. -/
def applyVerdict (t idx : Nat) (s : State) (v : PodVerdict) : State := onPodMons s t idx v.mon (podReduced v)

/-- POD_BARRIER_COMPLETION: a member receives the completion: the verdict reaches its monitors, and its groups' waits end. -/
def execPodBarrierCompletion (tenant idx : Nat) (s : State) : Host.Outcome State Fault Refusal :=
  match (s.pod tenant idx).verdict with
  | none => .next s
  | some v =>
    let own := (s.pod tenant idx).own
    let s := v.foldl (applyVerdict tenant idx) s
    let s := (List.range 4).foldl (fun s n => onPodMons s tenant idx n podPhase) s
    let s := closePhase s (podBarrier s tenant idx) (v.findSome? fun x => x.drift)
    .next (s.setPod tenant idx { Pod.zero with own := own })

/-- A member's open sums reach this root. -/
def podSums (s : State) (node t idx : Nat) (ms : List SentMon) : State :=
  if isRoot s t && node ≠ s.nodeNum then
    s.setPod t idx { s.pod t idx with sums := kset (s.pod t idx).sums node ms }
  else s

/-- The completion of a root elsewhere reaches this member. -/
def podVerdict (s : State) (t idx : Nat) (v : List PodVerdict) : State :=
  if isRoot s t then s else s.setPod t idx { s.pod t idx with verdict := some v }

end Sys2Proof.Machine
end

