-- ==== Sys2Proof/Machine/NetEvents.lean ====
section
/-! DEFINITION. The network engines: message starts, transmissions, placement, acknowledgement, retransmission and failure
(spec/20_fabric_and_system.md R360 to R367, spec/21 R387). -/
namespace Sys2Proof.Machine

/-! ## Registers as they act (R361) -/

def orOne (n : Nat) : Nat := if n = 0 then 1 else n
def Eng.payload (e : Eng) : Nat := if e.psize = 0 then 1024 else if e.psize = 1 then 2048 else 4096

def Eng.msg (e : Eng) (m : Nat) : Option Msg := kget e.msgs m
def State.setMsg (s : State) (e k : Nat) (m : Msg) : State := s.setEng e { s.eng e with msgs := kset (s.eng e).msgs k m }

def Msg.payload (m : Msg) : Nat := 1024 * 2 ^ m.psize
/-- Packet `i` carries bytes iP to min((i + 1)P, n) - 1. -/
def Msg.size (m : Msg) (i : Nat) : Nat :=
  if m.wr.length - i * m.payload < m.payload then m.wr.length - i * m.payload else m.payload

/-- Transmitted, not failed: its packets are still on their way. -/
def Msg.live (m : Msg) : Bool := m.failed.isNone && !m.finished
def Msg.inFlight (m : Msg) (q : Nat) : Bool := m.queue = q && m.live

/-! ## Counters (R367) -/

def State.countUp (s : State) (n : Nat) : State := { s with counters := mset 0 s.counters n (s.counter n + 1) }

/-! ## Failure (R366) -/

/-- The message fails: its queue halts with the code of the first that did; a record of type 7 with interrupt vector 2. -/
def failMsg (s : State) (e k code : Nat) : State :=
  match (s.eng e).msg k with
  | none => s
  | some m =>
    if !m.live then s
    else
      let s := s.setMsg e k { m with failed := some code, drop := none }
      let q := s.sendQ e m.queue
      let s := s.setSendQ e m.queue { q with halted := some (q.halted.getD code) }
      sendOut (appendEvent s q.tenant (eventBytes s 7 code (256 * e + m.queue) 0 0 (m.wr.tag.toNat % 2 ^ 32) 0xFFFFFFFF))
        (.msix (q.tenant + 1) 2)

/-- The source cannot be read. A malformed block drains the ASID's streams in the engine (15 R312). -/
def failSource (s : State) (e k asid cls va : Nat) : State :=
  if cls = 0x0C && malformedAt s (engIo e) asid va then
    let hit := (s.eng e).msgs.filter fun x => (s.sendQ e x.2.queue).asid = asid
    (hit.foldl (fun s x => failMsg s e x.1 5) s).haltContext (engNet e) asid
  else failMsg s e k 5

/-! ## Transmission (R365) -/

/-- The send queue's address space belongs to its tenant (R376). -/
def sendOwns (s : State) (q : SendQ) : Bool := s.tenantOf q.asid = q.tenant

/-- Packet `i` goes out: its source bytes are read now. A first transmission that NTEST names is discarded at egress (R361); a
chunk that is absent is waited for; a queue whose address space the ASID map has given to another tenant reads nothing, and its message
fails with 5 (log entry 106). -/
def transmit (s : State) (e k i : Nat) (again : Bool) : State :=
  let x := s.eng e
  match x.msg k with
  | none => s
  | some m =>
    match m.pkts[i]? with
    | none => s
    | some p =>
      let q := x.sq m.queue
      let off := i * m.payload
      if !sendOwns s q then failMsg s e k 5 else
      match vread s (engIo e) q.asid (m.wr.src + off) (m.size i) with
      | .error ⟨.trap c, va⟩ => failSource s e k q.asid c va
      | .error ⟨w, va⟩ => askChunk s q.asid va w
      | .ok bytes =>
        let p := { p with
          sent := true, dups := 0, first := if again then p.first else x.seq, last := x.seq, at_ := s.now
          tries := if again then p.tries + 1 else p.tries }
        let dropped : Bool := !again && m.drop = some i
        let m := { m with pkts := m.pkts.set i p, drop := if dropped then none else m.drop }
        let x := { x with
          seq := x.seq + 1, msgs := kset x.msgs k m, arm := x.arm && !dropped
          tdrops := if dropped && x.tdrops < 65535 then x.tdrops + 1 else x.tdrops
          rexmit := if again && x.rexmit < 65535 then x.rexmit + 1 else x.rexmit }
        let s := s.setEng e x
        if dropped then s
        else
          let w : Wire := .data s.nodeNum e k i m.wr.node m.wr.window (m.wr.offset + off) m.pkts.length (m.wr.flags / 2 % 2 = 1) bytes
          { s with wires := kset s.wires (kfresh s.wires) w }

/-- A packet is sent again, or exhausts its tries. -/
def resend (s : State) (e k i : Nat) : State :=
  match (s.eng e).msg k with
  | none => s
  | some m =>
    match m.pkts[i]? with
    | none => s
    | some p =>
      if !m.live || p.acked then s
      else if orOne (s.eng e).tries ≤ p.tries then failMsg s e k 4
      else transmit s e k i true

/-- The index of the first packet not yet sent. -/
def firstUnsent : Nat → List NPkt → Option Nat
  | _, [] => none
  | i, p :: ps => if p.sent then firstUnsent (i + 1) ps else some i

/-- First transmissions of an engine leave in the order of the messages' starts and of the packets (R387). -/
def nextToSend (x : Eng) : Option (Nat × Nat) :=
  x.msgs.findSome? fun e => if e.2.live then (firstUnsent 0 e.2.pkts).map fun i => (e.1, i) else none

/-- The engine makes its next first transmission. -/
def netSend (s : State) (e : Nat) : State :=
  match nextToSend (s.eng e) with
  | some (k, i) => transmit s e k i false
  | none => s

/-! ## Starting a message (R361, R362, R365) -/

/-- A message that waits to be sent again, the first in post order. -/
def againOf (x : Eng) (q : Nat) : Option (Nat × Msg) :=
  (x.msgs.filter fun e => e.2.queue = q && e.2.again).foldl (fun best e => match best with
    | some b => if e.2.order < b.2.order then some e else some b
    | none => some e) none

/-- The fence of the request lets it start. -/
def fenceOk (x : Eng) (q order flags : Nat) : Bool :=
  flags / 4 % 2 = 0 || !x.msgs.any fun e => e.2.queue = q && !e.2.finished && decide (e.2.order < order)

/-- NTEST is armed and no message has taken it. -/
def ntestFree (x : Eng) : Bool := x.arm && !x.msgs.any fun e => e.2.live && e.2.drop.isSome

/-- The message begins: its packets, its payload size, NTEST's claim on it. -/
def beginMsg (s : State) (e q : Nat) (r : WorkReq) (order : Nat) (gid : Option Nat) : State :=
  let x := s.eng e
  let n := (r.length + x.payload - 1) / x.payload
  let mine := ntestFree x && x.tqueue = q
  let m : Msg :=
    { queue := q, wr := r, psize := if x.psize = 3 then 2 else x.psize
      pkts := List.replicate n ⟨false, false, 0, 0, 0, 0, 0⟩, order := order
      drop := if mine && x.tpkt < n then some x.tpkt else none, failed := none, again := false, finished := false, gid := gid }
  s.setEng e { x with
    msgs := kset x.msgs x.nextMsg m, nextMsg := x.nextMsg + 1, arm := x.arm && !(mine && decide (n ≤ x.tpkt)) }

/-- The request at the start position begins; its slot is free. A request that cannot be read, or breaks R363, fails: its code is a free
value (log entry 63). -/
def beginRequest (s : State) (e q : Nat) (b : Option (List Byte)) : State :=
  let sq := s.sendQ e q
  let ok : Bool := match b with
    | some b => workReqOk s sq.tenant b
    | none => false
  let s := s.setSendQ e q { sq with spos := sq.spos + 1, posted := kdel sq.posted sq.spos }
  let k := (s.eng e).nextMsg
  let s := beginMsg s e q (workReqOfBytes (b.getD [])) sq.spos (kget sq.posted sq.spos)
  if ok then s
  else
    let (c, s) := takeFree s
    failMsg s e k (c % 256)

/-- What a start takes. -/
def canStart (s : State) (e q : Nat) : Bool :=
  let x := s.eng e
  let sq := x.sq q
  x.en && sq.en && sq.halted.isNone && decide ((x.msgs.filter fun m => m.2.inFlight q).length < 64)
    && !s.contextHalted (engNet e) sq.asid && sendOwns s sq

/-- NETWORK_MESSAGE_START: failed messages that go sends again come first, each whole, then the ring. -/
def execNetworkMessageStart (eng q : Nat) (s : State) : Host.Outcome State Fault Refusal :=
  let x := s.eng eng
  let sq := x.sq q
  if !canStart s eng q then .next s
  else
    match againOf x q with
    | some (k, m) =>
      if !fenceOk x q m.order m.wr.flags then .next s
      else
        let s := s.setMsg eng k { m with again := false, finished := true }
        .next (beginMsg s eng q m.wr m.order m.gid)
    | none =>
      if sq.wpos ≤ sq.spos then .next s
      else
        match vread s (engIo eng) sq.asid (sq.base + 64 * (sq.spos % 2 ^ sq.lsize)) 64 with
        | .ok b => if fenceOk x q sq.spos (workReqOfBytes b).flags then .next (beginRequest s eng q (some b)) else .next s
        | .error ⟨.trap _, _⟩ => .next (beginRequest s eng q none)
        | .error ⟨w, va⟩ => .next (askChunk s sq.asid va w)

/-! ## The receiver (R364 to R366) -/

/-- Why a packet is refused: the first applicable of codes 1 and 2. -/
def winRefuses (s : State) (w : RecvWin) (rcnt : Bool) (off n : Nat) : Option Nat :=
  if !w.valid || !w.write || s.tenantOf w.asid ≠ w.tenant || (rcnt && (counterOwner s w.counter ≠ w.tenant || w.tenant = 255)) then some 1
  else if w.length < off + n then some 2
  else none

/-- The message at its receiver. -/
def recvOf (s : State) (src e k : Nat) : RMsg :=
  (s.rmsgs.find? fun r => r.srcNode = src && r.eng = e && r.msg = k).getD ⟨src, e, k, [], false⟩

def putRecv (l : List RMsg) (r : RMsg) : List RMsg :=
  r :: l.filter fun x => !(x.srcNode = r.srcNode && x.eng = r.eng && x.msg = r.msg)

/-- The reply leaves for the sender. -/
def sendAck (s : State) (src e k i code : Nat) : State :=
  { s with wires := kset s.wires (kfresh s.wires) (.ack src e k i code) }

/-- A packet is placed; the message is when all of them are, and then its counter moves as a release at POD scope. -/
def placedPacket (s : State) (r : RMsg) (i total : Nat) (rcnt : Bool) (counter : Nat) : State :=
  let placed := i :: r.placed
  let all := decide (total ≤ placed.length)
  let s := { s with rmsgs := putRecv s.rmsgs { r with placed := if all then [] else placed, finished := all } }
  if all && rcnt then s.countUp counter else s

/-- A packet is refused with code 3: its placement fails. A malformed block halts the context of its ASID (15 R312). -/
def refusePlacement (s : State) (src e k i asid cls va : Nat) : State :=
  let s := if cls = 0x0C && malformedAt s (engIo e) asid va then s.haltContext (engNet e) asid else s
  sendAck s src e k i 3

/-- An arriving packet, already off the wire in `s`; `none` while a chunk of its destination is absent. -/
def receive (s : State) (src e k i window off total : Nat) (rcnt : Bool) (bytes : List Byte) : Except State State :=
  let r := recvOf s src e k
  if r.finished || r.placed.contains i then .ok (sendAck s src e k i 0)
  else
    let w := s.recvWin window
    match winRefuses s w rcnt off bytes.length with
    | some c => .ok (sendAck s src e k i c)
    | none =>
      let va := w.base + off
      if s.contextHalted (engNet e) w.asid then .ok (sendAck s src e k i 3)
      else
        match checkBytes s (engIo e) w.asid .write (bytes.length + 1) va bytes.length with
        | .error ⟨.trap _, _⟩ => .ok (sendAck s src e k i 3)
        | .error ⟨x, a⟩ => .error (askChunk s w.asid a x)
        | .ok _ =>
          match vwrite s (engIo e) w.asid va bytes with
          | (s, none) => .ok (sendAck (placedPacket s r i total rcnt w.counter) src e k i 0)
          | (s, some ⟨.trap c, a⟩) => .ok (refusePlacement s src e k i w.asid c a)
          | (s, some ⟨x, a⟩) => .error (askChunk s w.asid a x)

/-- A peer's request at a window of this package, translated in the window's ASID (R368); `none` while a chunk is absent. -/
def servePeer (s : State) (e : Nat) : PeerReq → Except State (State × Option (List Byte))
  | .load w off n =>
    let r := s.recvWin w
    if !winAdmits s r false off n then .ok (s, none)
    else
      match checkSpan s (engIo e) r.asid .read (r.base + off) n, vread s (engIo e) r.asid (r.base + off) n with
      | .error (.trap _), _ | _, .error ⟨.trap _, _⟩ => .ok (s, none)
      | .error x, _ => .error (askChunk s r.asid (r.base + off) x)
      | _, .error ⟨x, a⟩ => .error (askChunk s r.asid a x)
      | .ok _, .ok b => .ok (s, some b)
  | .store w off bytes =>
    let r := s.recvWin w
    if !winAdmits s r true off bytes.length then .ok (s, none)
    else
      match checkSpan s (engIo e) r.asid .write (r.base + off) bytes.length with
      | .error (.trap _) => .ok (s, none)
      | .error x => .error (askChunk s r.asid (r.base + off) x)
      | .ok _ =>
        match vwrite s (engIo e) r.asid (r.base + off) bytes with
        | (s, none) => .ok (s, some [])
        | (s, some ⟨.trap _, _⟩) => .ok (s, none)
        | (s, some ⟨x, a⟩) => .error (askChunk s r.asid a x)
  | .atom w off op x y =>
    let r := s.recvWin w
    let va := r.base + off
    if !winAdmits s r true off 4 then .ok (s, none)
    else
      match check145 s (engIo e) r.asid (.atom (hostAtom op)) 4 va 4, atomUnit s (engIo e) r.asid va 4 with
      | .error (.trap _), _ | .ok _, .error (.trap _) => .ok (s, none)
      | .error t, _ | .ok _, .error t => .error (askChunk s r.asid va t)
      | .ok _, .ok b =>
        match atomNew op (leNat b) x y with
        | none => .ok (s, some b)
        | some v =>
          match writeUnit s (engIo e) r.asid va (leBytes 4 v) with
          | .ok s => .ok (s, some b)
          | .error _ => .ok (s, none)

/-- NETWORK_PACKET_ARRIVAL: a packet on the wire reaches its receiver. While a chunk of its destination is absent the engine
keeps it. -/
def execNetworkPacketArrival (wire : Nat) (s : State) : Host.Outcome State Fault Refusal :=
  match kget s.wires wire with
  | some (.data src e k i dst window off total rcnt bytes) =>
    if dst ≠ s.nodeNum then .next s
    else
      match receive { s with wires := kdel s.wires wire } src e k i window off total rcnt bytes with
      | .ok s => .next s
      | .error s' => .next { s' with wires := s.wires }
  | some (.peer src dst e tag r) =>
    if dst ≠ s.nodeNum then .next s
    else
      match servePeer { s with wires := kdel s.wires wire } e r with
      | .ok (s, b) => .next (sendOut s (.peerAnswer src tag b))
      | .error s' => .next { s' with wires := s.wires }
  | _ => .next s

/-! ## Acknowledgement (R365, R387) -/

/-- The acknowledgement of a packet first sent as number `y` counts for this one. -/
def countsFor (y : Nat) (p : NPkt) : Bool := p.sent && !p.acked && decide (p.last < y)

/-- It counts for the packets of every message to the node that has not failed. -/
def countAck (node y : Nat) (m : Msg) : Msg :=
  if m.live && m.wr.node = node then
    { m with pkts := m.pkts.map fun p => if countsFor y p then { p with dups := p.dups + 1 } else p }
  else m

/-- The packets that have reached the threshold. -/
def overDup (x : Eng) (node y : Nat) : List (Nat × Nat) :=
  x.msgs.flatMap fun e =>
    if e.2.live && e.2.wr.node = node then
      (List.range e.2.pkts.length).filterMap fun i => match e.2.pkts[i]? with
        | some p => if countsFor y p && decide (orOne x.dup ≤ p.dups) then some (e.1, i) else none
        | none => none
    else []

/-- The message completes locally once every packet is acknowledged; its counter moves where lcnt is set. -/
def settleMsg (s : State) (e k : Nat) : State :=
  match (s.eng e).msg k with
  | none => s
  | some m =>
    if m.live && m.pkts.all (·.acked) then
      let s := s.setEng e { s.eng e with msgs := kdel (s.eng e).msgs k }
      if m.wr.flags % 2 = 1 then s.countUp m.wr.lcounter else s
    else s

/-- Packet `i` is acknowledged for the first time. -/
def acked (s : State) (e k i : Nat) (m : Msg) (p : NPkt) : State :=
  let x := s.eng e
  let x := { x with msgs := kset x.msgs k { m with pkts := m.pkts.set i { p with acked := true } } }
  let x := { x with msgs := x.msgs.map fun t => (t.1, countAck m.wr.node p.first t.2) }
  let s := (overDup x m.wr.node p.first).foldl (fun s t => resend s e t.1 t.2) (s.setEng e x)
  settleMsg s e k

/-- NETWORK_ACK_ARRIVAL: an acknowledgement, or a refusal, reaches the sender. -/
def execNetworkAckArrival (wire : Nat) (s : State) : Host.Outcome State Fault Refusal :=
  match kget s.wires wire with
  | some (.ack dst e k i code) =>
    if dst ≠ s.nodeNum then .next s
    else
      let s := { s with wires := kdel s.wires wire }
      match (s.eng e).msg k with
      | none => .next s
      | some m =>
        if code ≠ 0 then .next (failMsg s e k code)
        else
          match m.pkts[i]? with
          | some p => if p.acked || !p.sent then .next s else .next (acked s e k i m p)
          | none => .next s
  | _ => .next s

/-- RETRANSMISSION_TIMEOUT: rto µs have passed since the packet's latest transmission. -/
def execRetransmissionTimeout (eng msg pkt : Nat) (s : State) : Host.Outcome State Fault Refusal :=
  match (s.eng eng).msg msg with
  | none => .next s
  | some m =>
    match m.pkts[pkt]? with
    | some p =>
      if !m.live || !p.sent || p.acked || s.now < p.at_ + 1200 * orOne (s.eng eng).rto then .next s
      else .next (resend s eng msg pkt)
    | none => .next s

/-! ## The engines' registers with behaviour of their own (R361, R362, R366) -/

/-- NTEST_ARM: a write of NTEST; the register names the next message that starts. -/
def execNtestArm (eng : Nat) (v : Word) (s : State) : Host.Outcome State Fault Refusal :=
  if s.recovery then .next s else
  let x := s.eng eng
  .next (s.setEng eng { x with
    tqueue := v.toNat % 256, tpkt := v.toNat / 256 % 65536, arm := decide (v.toNat / 2 ^ 31 = 1)
    msgs := x.msgs.map fun e => (e.1, { e.2 with drop := none }) })

/-- The whole ring lies in PIN ranges of the ASID. -/
def ringPinned (s : State) (e : Nat) (q : SendQ) : Bool := pinned s (engIo e) q.asid q.base (64 * 2 ^ q.lsize)

/-- SEND_QUEUE_ENABLE: both positions go to slot 0. -/
def execSendQueueEnable (eng q : Nat) (s : State) : Host.Outcome State Fault Refusal :=
  if s.recovery then .next s else
  let x := s.sendQ eng q
  if x.en || x.lsize < 4 || 12 < x.lsize || x.base % 4096 ≠ 0 || !ringPinned s eng x then .next s
  else .next (s.setSendQ eng q { x with en := true, wpos := 0, spos := 0, posted := [] })

/-- SEND_QUEUE_DISABLE: no further message starts, and requests not yet started are discarded. -/
def execSendQueueDisable (eng q : Nat) (s : State) : Host.Outcome State Fault Refusal :=
  if s.recovery then .next s else
  let x := s.sendQ eng q
  if !x.en then .next s
  else
    let s := s.setSendQ eng q { x with en := false, spos := x.wpos, posted := [] }
    let y := s.eng eng
    .next (s.setEng eng { y with msgs := y.msgs.filter fun e => !(e.2.queue = q && e.2.again) })

/-- SEND_QUEUE_GO: a halted queue leaves the halt; every failed message is to be sent again, whole, in post order. -/
def execSendQueueGo (eng q : Nat) (s : State) : Host.Outcome State Fault Refusal :=
  let x := s.sendQ eng q
  if x.halted.isNone then .next s
  else
    let s := s.setSendQ eng q { x with halted := none }
    let y := s.eng eng
    .next (s.setEng eng { y with
      msgs := y.msgs.map fun e =>
        if e.2.queue = q && e.2.failed.isSome && !e.2.finished then (e.1, { e.2 with again := true }) else e })

end Sys2Proof.Machine
end

