-- ==== Sys2Proof/Machine/Checkpoint.lean ====
section
/-! DEFINITION. The CHECKPOINT packet (spec/15_package_memory.md R317, R318). -/
namespace Sys2Proof.Machine

/-! ## A quiesced tenant (R317) -/

/-- The descriptors of an address space, with their addresses, in table order. -/
def descsOf (s : State) (asid : Nat) : List (Nat × Desc) :=
  let r := s.root 0 asid
  if r.valid then (List.range r.count).map fun i => (r.desc + 64 * i, s.desc (r.desc + 64 * i)) else []

def asidsOf (s : State) (t : Nat) : List Nat := (List.range 1024).filter fun a => s.tenantOf a = t

/-- SLIDING, or MIGRATING and not stopped. -/
def rangeMoving (s : State) (e : Nat × Desc) : Bool :=
  s.rstate e.1 e.2 = 1 || (s.rstate e.1 e.2 = 3 && !e.2.stopped)

/-- No other queue of the tenant runs, none of its groups is resident, none of its ranges is on the move. -/
def quiesced (s : State) (t die q : Nat) : Bool :=
  ((tenantQueues s t).all fun e => (e.1 = die && e.2.1 = q) || !e.2.2.en || e.2.2.halted.isSome)
    && (s.groups.all fun e => !(s.tenantOf e.2.asid = t && occupies e.2))
    && ((asidsOf s t).all fun a => (descsOf s a).all fun e => !rangeMoving s e)

/-- CHECKPOINT starts; of a tenant that is not quiesced it halts the queue. -/
def execPacketCheckpoint (die q : Nat) (s : State) : Host.Outcome State Fault Refusal :=
  .next (withPacket s die q 7 fun x b =>
    if !quiesced s (pf b 8 1) die q then startFails s die q x b 0x0C
    else if (let t := rangeType s (cpCore die) x.asid (pf b 32 8); t ≠ 0 && t ≠ 3) then startFails s die q x b 0x06
    else startPacket s die q x b (.checkpoint b))

/-! ## Blocks and their hashes (R318) -/

/-- A block as stored: address space, range base, number, physical address, length. -/
structure CkBlock where
  asid : Nat
  vbase : Nat
  num : Nat
  pa : Nat
  len : Nat
  deriving DecidableEq, Repr

/-- The physical base that serves reads of a RESIDENT range. -/
def storedBase (s : State) (e : Nat × Desc) : Nat := if e.2.pair && (s.aux e.1).half then e.2.pbase2 else e.2.pbase

/-- The blocks of a range; a short last block ends with the range, in a PACKED one too, whose last slot is stored whole (log entry 122). -/
def rangeBlocks (s : State) (asid : Nat) (e : Nat × Desc) : List CkBlock :=
  (List.range ((e.2.length + 4095) / 4096)).map fun i =>
    ⟨asid, e.2.vbase, i, storedBase s e + 4096 * i, if 4096 * (i + 1) ≤ e.2.length then 4096 else e.2.length - 4096 * i⟩

/-- The block's chunk of a stopped migration is present. -/
def blockThere (s : State) (e : Nat × Desc) (b : CkBlock) : Bool := mget 0 (s.aux e.1).pres (b.num / 16) = 1

/-- The blocks to hash, and how many are skipped because their chunks are lost. -/
def ckBlocks (s : State) (t : Nat) : List CkBlock × Nat :=
  let ranges := (asidsOf s t).flatMap fun a => ((descsOf s a).filter fun e => e.2.type = 0).map fun e => (a, e)
  let full := ranges.flatMap fun r => match s.rstate r.2.1 r.2.2 with
    | 0 => rangeBlocks s r.1 r.2
    | 3 => (rangeBlocks s r.1 r.2).filter (blockThere s r.2)
    | _ => []
  let lost := (ranges.map fun r => if s.rstate r.2.1 r.2.2 = 3 then
    ((rangeBlocks s r.1 r.2).filter fun b => !blockThere s r.2 b).length else 0).sum
  (full, lost)

def blockData (s : State) (b : CkBlock) : List Byte := s.bytes b.pa b.len

/-- The 32-byte entry of a block. -/
def ckEntry (s : State) (b : CkBlock) : List Byte :=
  leBytes 2 b.asid ++ zeros 2 ++ leBytes 4 b.num ++ leBytes 8 b.vbase ++ shake256 16 (blockData s b)

/-- The sort key of an entry: ASID, vbase, block. -/
def entryKey (b : List Byte) : Nat := 2 ^ 96 * pf b 0 2 + 2 ^ 32 * pf b 8 8 + pf b 4 4

def keyBefore (a b : List Byte) : Bool := decide (entryKey a < entryKey b)

/-! ## The previous table -/

/-- An entry of the previous table, where it can be read and its key rises above the one before. -/
def prevEntry (s : State) (core asid va : Nat) (last : Option Nat) : Option (List Byte) :=
  match vread s core asid va 32 with
  | .error _ => none
  | .ok b => if last.all fun k => decide (k < entryKey b) then some b else none

/-- Read forward from `va` to the first entry whose key is not below `key`; `fuel` bounds the table. -/
def seekPrev (s : State) (core asid key : Nat) : Nat → Nat → Option Nat → Nat × Option Nat × Option (List Byte)
  | 0, va, last => (va, last, none)
  | fuel + 1, va, last =>
    match prevEntry s core asid va last with
    | none => (va, last, none)
    | some b => if entryKey b < key then seekPrev s core asid key fuel (va + 32) (some (entryKey b)) else (va, last, some b)

/-- The entries that the previous table does not hold with an equal hash. -/
def changedFrom (s : State) (core asid : Nat) : Nat → Option Nat → List (CkBlock × List Byte) → List (CkBlock × List Byte)
  | _, _, [] => []
  | va, last, e :: es =>
    let (va, last, b) := seekPrev s core asid (entryKey e.2) (2 ^ 32) va last
    let rest := changedFrom s core asid va last es
    if b = some e.2 then rest else e :: rest

/-! ## Tables and log -/

/-- Write at `va`, or the halt code; where a chunk would have to be awaited the code is 0x08 (log entry 123). -/
def ckWrite (s : State) (core asid va : Nat) (b : List Byte) : State × Option Nat :=
  match operandBad s core asid .write va b.length with
  | some c => (s, some (haltCode c))
  | none =>
    match vwrite s core asid va b with
    | (s, none) => (s, none)
    | (s, some ⟨.trap c, _⟩) => (s, some (haltCode c))
    | (s, some _) => (s, some 0x08)

/-- Append the changed blocks to the log while they fit: records written, and the code that stopped it. -/
def ckLog (s0 : State) (core asid log cap : Nat) : State → Nat → List (CkBlock × List Byte) → State × Nat × Option Nat
  | s, n, [] => (s, n, none)
  | s, n, e :: es =>
    if cap < 64 + 4128 * (n + 1) then (s, n, some 0x06)
    else
      match ckWrite s core asid (log + 64 + 4128 * n) (e.2 ++ blockData s0 e.1 ++ zeros (4096 - e.1.len)) with
      | (s, some c) => (s, n, some c)
      | (s, none) => ckLog s0 core asid log cap s (n + 1) es

/-- The header of the log. -/
def ckHeader (seq n skipped : Nat) : List Byte := leBytes 8 seq ++ leBytes 8 n ++ leBytes 8 (64 + 4128 * n) ++ leBytes 8 skipped ++ zeros 32

/-- The run of a checkpoint: the state, and the halt code where it fails. The previous table is read as it stood before the new one is written,
should they overlap (log entry 124). -/
def runCheckpoint (s : State) (core asid : Nat) (b : List Byte) : State × Option Nat :=
  let (blocks, skipped) := ckBlocks s (pf b 8 1)
  if blocks.any fun k => (memErr s k.pa k.len).isSome then (s, some 0x0E)
  else
    let es := sortBy (fun a b => keyBefore a.2 b.2) (blocks.map fun k => (k, ckEntry s k))
    let log := pf b 32 8
    let cap := pf b 40 8
    match ckWrite s core asid (pf b 24 8) (es.flatMap (·.2)) with
    | (s1, some c) => (s1, some c)
    | (s1, none) =>
      let changed := if pf b 9 1 % 2 = 0 then es else changedFrom s core asid (pf b 16 8) none es
      match ckLog s core asid log cap s1 0 changed with
      | (s2, n, c) =>
        if cap < 64 then (s2, some 0x06)
        else
          match c with
          | some c =>
            if c = 0x06 then ((ckWrite s2 core asid log (ckHeader (pf b 64 8) n skipped)).1, some c) else (s2, some c)
          | none =>
            match ckWrite s2 core asid log (ckHeader (pf b 64 8) n skipped) with
            | (s3, some c) => (s3, some c)
            | (s3, none) =>
              if pf b 9 1 / 2 % 2 = 0 then (s3, none)
              else
                match addNow s3 core asid (pf b 48 8) (pf b 56 8) with
                | .ok s4 => (s4, none)
                | .error (.trap c) => (s3, some (haltCode c))
                | .error _ => (s3, some 0x08)

/-- CHECKPOINT_COMPLETE: tables, log and signal; starts that waited for the checkpoint go on. -/
def execCheckpointComplete (die q : Nat) (s : State) : Host.Outcome State Fault Refusal :=
  let x := s.queue die q
  match x.pkts.findSome? fun e => match e.2.kind with
    | .checkpoint b => some (e.1, e.2.asid, b)
    | _ => none with
  | none => .next s
  | some (k, as, b) =>
    if (kget x.pkts k).any fun p => s.tenantOf as ≠ p.tenant then .next (startWaiting (packetFails s die q k 0x08)) else
    match runCheckpoint s (cpCore die) as b with
    | (s, none) => .next (startWaiting (packetDone s die q k))
    | (s, some c) => .next (startWaiting (packetFails s die q k c))

end Sys2Proof.Machine
end

