-- ==== Sys2Proof/Machine/HostAccess.lean ====
section
/-! DEFINITION. Accesses of the host to a tenant's memory window (spec/20_fabric_and_system.md R356, R378, spec/15 R304). -/
namespace Sys2Proof.Machine

/-- The I/O die's unit for host accesses. -/
def hostCore : Nat := ioCore 0

/-- The virtual address of offset `off` of a tenant's window. -/
def windowVa (s : State) (t off : Nat) : Nat := (s.tenant t).hwbase + off

/-- The parts of `[va, va + n)`, cut at range limits: address, length, the range. -/
def hostParts (s : State) (asid : Nat) : Nat → Nat → Nat → List (Nat × Nat × Option (Nat × Desc))
  | 0, _, _ => []
  | fuel + 1, va, n =>
    if n = 0 then []
    else
      match translate s hostCore asid va with
      | none =>
        -- up to the next multiple of 256, where a range may begin
        let k := if n < 256 - va % 256 then n else 256 - va % 256
        (va, k, none) :: hostParts s asid fuel (va + k) (n - k)
      | some (a, d) =>
        let k := if d.vbase + d.length - va < n then d.vbase + d.length - va else n
        (va, k, some (a, d)) :: hostParts s asid fuel (va + k) (n - k)

/-- Adjoining parts outside every range are one part. -/
def joinGaps : List (Nat × Nat × Option (Nat × Desc)) → List (Nat × Nat × Option (Nat × Desc))
  | (va, n, none) :: rest =>
    match joinGaps rest with
    | (_, m, none) :: r => (va, n + m, none) :: r
    | r => (va, n, none) :: r
  | p :: rest => p :: joinGaps rest
  | [] => []

/-- The window's address space belongs to the tenant (R376); else no range answers. -/
def partsOf (s : State) (t off n : Nat) : List (Nat × Nat × Option (Nat × Desc)) :=
  let asid := (s.tenant t).hwasid
  if s.tenantOf asid ≠ t then [(windowVa s t off, n, none)] else joinGaps (hostParts s asid (n + 1) (windowVa s t off) n)

/-- The range is ABSENT without AUTO-MIGRATE: Completer Abort, whatever the access (15 R303). -/
def hostAbsent (s : State) (a : Nat) (d : Desc) : Bool := s.rstate a d = 2 && !d.auto

/-- The range is LOST, or ABSENT without AUTO-MIGRATE. -/
def hostAway (s : State) (a : Nat) (d : Desc) : Bool := s.rstate a d = 4 || hostAbsent s a d

/-- What a host access comes to. -/
inductive HostRes where
  | done (s : State)
  | held (s : State) (va : Nat)   -- it waits at this address, whose chunk has been asked for
  | abort
  | unsupported

/-! ## Reads -/

/-- A read that meets an absent chunk in some part: which, and that no part aborts. -/
def readOutcome (s : State) (t off n : Nat) : HostRes × List Byte :=
  let asid := (s.tenant t).hwasid
  let ps := partsOf s t off n
  if ps.any fun p => match p.2.2 with
    | none => true
    | some (a, d) => !d.rd || hostAway s a d then (.abort, [])
  else
    match vread s hostCore asid (windowVa s t off) n with
    | .ok b => (.done s, b)
    | .error ⟨.trap _, _⟩ => (.abort, [])
    | .error ⟨e, va⟩ => (.held (askChunk s asid va e) va, [])

/-! ## Writes -/

/-- Record of a discarded access (R378): the function number and the offset. -/
def discarded (s : State) (t off : Nat) : State :=
  appendEvent s t (eventBytes s 6 0 (t + 1) 0 0 (off % 2 ^ 32) 0xFFFFFFFF)

/-- One part of a write, at offset `off` of the window. -/
def writePart (s : State) (t off : Nat) (r : Option (Nat × Desc)) (b : List Byte) : HostRes :=
  let asid := (s.tenant t).hwasid
  match r with
  | none => .done (discarded s t off)
  | some (a, d) =>
    if d.seeded then .unsupported
    else if hostAbsent s a d then .abort
    else if !d.wr || s.rstate a d = 4 then .done (discarded s t off)
    else
      match vwrite s hostCore asid (windowVa s t off) b with
      | (s, none) => .done s
      | (s, some ⟨.trap _, va⟩) => .done (discarded s t (va - (s.tenant t).hwbase))
      | (s, some ⟨e, va⟩) => .held (askChunk s asid va e) va

/-! ## AtomicOps -/

/-- The value after the operation on old value `o` (06 R151 at the AtomicOp's width). -/
def atomicNew (op : HostOp) (size o x y : Nat) : Nat :=
  match op with
  | .fetchAdd => (o + x) % 2 ^ (8 * size)
  | .swap => x % 2 ^ (8 * size)
  | .cas => if o = x % 2 ^ (8 * size) then y % 2 ^ (8 * size) else o

/-- An AtomicOp of 32 or 64 bits at the atomic unit, with the permissions of the ATOM it equals (06 R151): the old value is the
answer. -/
def atomicOutcome (s : State) (t off : Nat) (op : HostOp) (size x y : Nat) : HostRes × List Byte :=
  let asid := (s.tenant t).hwasid
  let va := windowVa s t off
  if !(size = 4 || size = 8) || va % size ≠ 0 then (.unsupported, [])
  else
    match (partsOf s t off size).head? with
    | some (_, _, some (a, d)) =>
      if d.seeded then (.unsupported, [])
      else if (permits d (.atom true)).isSome || hostAway s a d then (.abort, [])
      else
        match atomUnit s hostCore asid va size with
        | .error (.trap _) => (.abort, [])
        | .error e => (.held (askChunk s asid va e) va, [])
        | .ok b =>
          match writeUnit s hostCore asid va (leBytes size (atomicNew op size (leNat b) x y)) with
          | .ok s => (.done s, b)
          | .error _ => (.abort, [])
    | _ => (.abort, [])

/-! ## Answers -/

/-- Hold a request at the I/O die, under its number where that is free. -/
def holdHost (s : State) (key : Nat) (h : Held) : State :=
  { s with held := kset s.held (if (kget s.held key).isSome then kfresh s.held else key) h }

def isHostRead : HostReq → Bool
  | .read .. => true
  | _ => false

/-- A write that the port received earlier is held: what comes after it through the port waits (16 R333). -/
def portHeld (s : State) (key port : Nat) : Bool :=
  s.held.any fun e => decide (e.1 < key) && e.2.port = port && !isHostRead e.2.req

/-- Send the answer, or hold the request. -/
def answer (s : State) (key : Nat) (h : Held) (tag : Nat) : HostRes × List Byte → State
  | (.done s', b) => sendOut s' (.reply tag b)
  | (.held s' _, _) => holdHost s' key h
  | (.abort, _) => sendOut s (.completerAbort tag)
  | (.unsupported, _) => sendOut s (.unsupported tag)

/-- A part of a write; what of it is left at an absent chunk is held. A posted write has no tag, so its answer names the offset. -/
def runWrite (s : State) (key port t off : Nat) (r : Option (Nat × Desc)) (b : List Byte) : State :=
  match writePart s t off r b with
  | .done s => s
  | .held s va => holdHost s key ⟨t, va - (s.tenant t).hwbase, .write (b.drop (va - windowVa s t off)), port⟩
  | .abort => sendOut s (.completerAbort off)
  | .unsupported => sendOut s (.unsupported off)

/-- The parts of a write, each by its own row. -/
def writeParts (key port t : Nat) (bytes : List Byte) (va0 off : Nat) : State → List (Nat × Nat × Option (Nat × Desc)) → State
  | s, [] => s
  | s, (va, n, r) :: ps =>
    writeParts key port t bytes va0 off (runWrite s key port t (off + (va - va0)) r ((bytes.drop (va - va0)).take n)) ps

/-- An access of the host, numbered `key` in order of arrival. -/
def runHost (s : State) (key : Nat) (h : Held) : State :=
  if portHeld s key h.port then holdHost s key h
  else
    match h.req with
    | .read n tag => answer s key h tag (readOutcome s h.tenant h.off n)
    | .write b => writeParts key h.port h.tenant b (windowVa s h.tenant h.off) h.off s (partsOf s h.tenant h.off b.length)
    | .atom op size x y tag => answer s key h tag (atomicOutcome s h.tenant h.off op size x y)

/-- A new access of the host, through a port. -/
def hostAccess (s : State) (h : Held) : State := runHost s (kfresh s.held) h

/-- Held accesses are tried again in order of arrival, each once; those held again, and the parts of a write among them, are numbered
anew in that order (16 R333). -/
def serveHeld (s : State) : State := s.held.foldl (fun s e => hostAccess s e.2) { s with held := [] }

/-- The offsets lie in the tenant's window. -/
def inWindow (s : State) (t off n : Nat) : Bool :=
  let d := s.tenant t
  d.valid && decide (off + n ≤ 2 ^ d.hwsize)

/-- HOST_READ. -/
def execHostRead (via : HostVia) (off n tag : Nat) (s : State) : Host.Outcome State Fault Refusal :=
  if inWindow s via.tenant off n then .next (hostAccess s ⟨via.tenant, off, .read n tag, via.port⟩) else .next s

/-- HOST_WRITE. -/
def execHostWrite (via : HostVia) (off : Nat) (bytes : List Byte) (s : State) : Host.Outcome State Fault Refusal :=
  if inWindow s via.tenant off bytes.length then .next (hostAccess s ⟨via.tenant, off, .write bytes, via.port⟩) else .next s

/-- HOST_ATOMICOP; a CAS of 128 bits is an Unsupported Request. -/
def execHostAtomicop (via : HostVia) (off : Nat) (op : HostOp) (size x y tag : Nat) (s : State) : Host.Outcome State Fault Refusal :=
  if inWindow s via.tenant off size then .next (hostAccess s ⟨via.tenant, off, .atom op size x y tag, via.port⟩) else .next s

/-- HOST_ACCESS_TIMEOUT: the port's completion timeout passes for the held access with this number. -/
def execHostAccessTimeout (tag : Nat) (s : State) : Host.Outcome State Fault Refusal :=
  match kget s.held tag with
  | none => .next s
  | some h =>
    let s := { s with held := kdel s.held tag }
    .next (serveHeld (sendOut s (.completerAbort (match h.req with
      | .read _ t | .atom _ _ _ _ t => t
      | .write _ => h.off))))

end Sys2Proof.Machine
end

