-- ==== Sys2Proof/Machine/RangeUnit.lean ====
section
/-! DEFINITION. The range unit's commands, the darning engine, demotion and the fault unit (spec/15_package_memory.md R290, R291,
R295 to R307). Addresses in commands are physical. -/
namespace Sys2Proof.Machine

/-! ## Commands (R291) -/

/-- Address and contents of the descriptor that a command names. -/
def cmdDesc (s : State) (c : RangeCmd) : Option (Nat × Desc) :=
  let r := s.root 0 c.asid.toNat
  if 1024 ≤ c.asid.toNat || !r.valid || r.count ≤ c.idx.toNat then none
  else
    let a := r.desc + 64 * c.idx.toNat
    some (a, s.desc a)

/-- Code 4, short of the op itself. -/
def cmdMalformed (op : Nat) (c : RangeCmd) : Bool :=
  let k := c.chunk.toNat
  (k ≠ 0 && !(op = 3 && decide (6 ≤ k) && decide (k ≤ 12))) || c.pad ≠ 0

/-- Run a command: the checks in the order 4, 1, then `k`, which answers 2, 3 or the next state; a misaligned done address ends it
before anything. -/
def runCmd (s : State) (op : Nat) (c : RangeCmd) (k : Nat → Desc → Except Nat State) : State :=
  if c.done.toNat % 8 ≠ 0 then s
  else if cmdMalformed op c then cmdFails s c.done.toNat 4
  else
    match cmdDesc s c with
    | none => cmdFails s c.done.toNat 1
    | some (a, d) =>
      match k a d with
      | .ok s => s
      | .error e => cmdFails s c.done.toNat e

/-- MALFORMED_RANGE_COMMAND: an op outside 1 to 5, or a chunk byte or bytes 16 to 23 that no command has. -/
def execMalformedRangeCommand (op : Byte) (c : RangeCmd) (s : State) : Host.Outcome State Fault Refusal :=
  if s.recovery then .next s else
  if c.done.toNat % 8 ≠ 0 then .next s
  else if op.toNat = 0 || 5 < op.toNat || cmdMalformed op.toNat c then .next (cmdFails s c.done.toNat 4)
  else .next s

/-- An access in flight that was translated under an entry which the shootdown replaces. -/
def usesOld (j : Shootdown) (n : Nat) (o : Op) : Bool :=
  decide (n < j.mark) && !o.dropped && match o.kind with
    | .load .. | .store .. | .atom .. =>
      (lanesOf (if isLoad o then o.todo else unwritten o)).any fun l => j.old.any fun d =>
        decide (d.2.vbase ≤ laneAddr o.kind l) && decide (laneAddr o.kind l < d.2.vbase + d.2.length)
    | _ => false

/-- Every access translated under the old entries has been performed. -/
def shootOver (s : State) (j : Shootdown) : Bool :=
  s.groups.all fun g => g.2.asid ≠ j.asid || g.2.ops.all fun o => !usesOld j o.1 o.2

/-- SHOOTDOWN_COMPLETE: every access translated under the old entries is over; the done word says success. -/
def execShootdownComplete (id : Nat) (s : State) : Host.Outcome State Fault Refusal :=
  match kget s.shoots id with
  | none => .next s
  | some j =>
    if !shootOver s j then .next s
    else
      let s := { s with shoots := kdel s.shoots id }
      match j.done with
      | some d => .next (s.unitWrite d (leBytes 8 1))
      | none => .next s

/-! ## Replacing (R289 to R291, R300, R307) -/

/-- The physical extent of a base lies in its region: R286 gives an extent of its own to HBM only; a capacity address is decoded by the
ports, a window by its entry, at each access. -/
def extentOk (pa n : Nat) : Bool :=
  match pa / 2 ^ 48 with
  | 0 => decide (pa + n ≤ hbmLimit)
  | 1 | 2 | 3 => true
  | _ => false

/-- A physical extent of HBM. -/
def inHbm (pa n : Nat) : Bool := pa / 2 ^ 48 = 0 && decide (pa + n ≤ hbmLimit)

/-- The bases of a new descriptor fit its state and type (R286, R300, R303). -/
def basesOk (d : Desc) : Bool :=
  if d.state = 2 then
    d.type = 0 && d.pbase / 2 ^ 48 = 1 && d.pbase % 2048 = 0 && inHbm d.pbase2 d.length && (!d.packed || d.pbase2 % 2048 = 0)
  else regionOk d d.pbase && extentOk d.pbase d.length && (!d.pair || (d.type = 0 && inHbm d.pbase2 d.length))

/-- The fields of a new descriptor keep R286, R289, R36 and R300. An ABSENT range without AUTO-MIGRATE is accepted: R36 rejects one in an
object, and R302 and R303 have such ranges (log entry 92). -/
def newDescOk (b : List Byte) : Bool :=
  let d := descOfBytes b
  (d.state = 0 || d.state = 2 || d.state = 4) && d.vbase % 256 = 0 && decide (d.vbase < 2 ^ 56) && d.length % 256 = 0
    && decide (256 ≤ d.length) && decide (d.vbase + d.length ≤ 2 ^ 56) && d.pbase % 4 = 0 && decide (d.pbase < 2 ^ 52)
    && (!d.packed || d.pbase % 2048 = 0) && decide (d.attr < 1024) && decide (d.ctl < 64) && zeroFrom b 56 8
    && d.seam = 0 && (d.bmap = 0 || d.packed || d.state ≠ 0)
    && !(d.seeded && d.wr) && !(d.pin && d.auto) && !(d.pair && (d.seeded || d.auto || d.state = 2)) && basesOk d

/-- What an access translated under a descriptor goes by while its shootdown is under way: the place the old base gives. -/
def frozen (e : Nat × Desc) : Nat × Desc := (e.1, { e.2 with state := 0 })

/-- The descriptors that serve accesses: RESIDENT, or MIGRATING and stopped. -/
def serving (s : State) (e : Nat × Desc) : Bool := s.rstate e.1 e.2 = 0 || s.rstate e.1 e.2 = 3

/-- What the range keeps beside its descriptor: the current half, where it stays PUBLISH-PAIR. A migrate command that still waits for
the range to start has failed (log entry 104). -/
def keepHalf (s : State) (a : Nat) (keep : Bool) : State :=
  let s := doneFails s (s.aux a).done 2
  if keep && (s.aux a).half then s.setAux a { RAux.zero with half := true } else { s with raux := kdel s.raux a }

/-- REPLACE_DESCRIPTOR (op 1); a new descriptor that cannot be read has no good field (log entry 116). -/
def execReplaceDescriptor (c : RangeCmd) (s : State) : Host.Outcome State Fault Refusal :=
  if s.recovery then .next s else
  .next (runCmd s 1 c fun a d =>
    if rangeMoving s (a, d) then .error 2
    else
      let b := s.unitRead c.arg.toNat 64
      let n := descOfBytes (b.getD [])
      if !b.any newDescOk then .error 3
      else
        let asid := c.asid.toNat
        let old := if serving s (a, d) then [frozen (a, d)] else []
        let s := (keepHalf s a (d.pair && n.pair)).putDesc a { n with gen := d.gen }
        let s := dropLines (dropLines s asid d.vbase d.length) asid n.vbase n.length
        .ok (serveHeld (addShoot s asid d.vbase d.length (some c.done.toNat) old)))

/-- A PUBLISH-PAIR range of the old table with the same vbase and pbase keeps its half (R300). -/
def halfKept (s : State) (old : List (Nat × Desc)) (d : Desc) : Bool :=
  d.pair && old.any fun e => e.2.pair && e.2.vbase = d.vbase && e.2.pbase = d.pbase && (s.aux e.1).half

/-- A demotion of the ASID ends with an error. The spec names no code: 2 (log entry 46). -/
def demotionFails (s : State) (desc : Nat) (j : Demotion) : State :=
  cmdFails { s with demotions := kdel s.demotions desc } j.done 2

/-- Commands that wait for a range of the replaced table have failed (log entry 104). -/
def waitsFail (s : State) (e : Nat × Desc) : State :=
  let s := doneFails s (s.aux e.1).done 2
  match kget s.demotions e.1 with
  | some j => demotionFails s e.1 j
  | none => s

/-- The new table of an address space. -/
def newTable (s : State) (asid : Nat) (b : List Byte) : State :=
  let old := descsOf s asid
  let s := old.foldl waitsFail s
  let s' := s.physStore (s.rootAddr 0 asid) b
  let new := descsOf s' asid
  let s' := { s' with raux := s'.raux.filter fun e => !old.any fun o => o.1 = e.1 }
  new.foldl (fun t e => if halfKept s old e.2 then t.setAux e.1 { RAux.zero with half := true } else t) s'

/-- REPLACE_TABLE (op 2): the root entry at arg; only the entry itself is checked. -/
def execReplaceTable (c : RangeCmd) (s : State) : Host.Outcome State Fault Refusal :=
  if s.recovery then .next s else
  let asid := c.asid.toNat
  let done := c.done.toNat
  if done % 8 ≠ 0 then .next s
  else if cmdMalformed 2 c then .next (cmdFails s done 4)
  else if 1024 ≤ asid then .next (cmdFails s done 1)
  else if (descsOf s asid).any (rangeMoving s) then .next (cmdFails s done 2)
  else
    match s.unitRead c.arg.toNat 32 with
    | none => .next (cmdFails s done 3)
    | some b =>
      if pf b 12 4 % 2 = 1 && (pf b 0 8 % 64 ≠ 0 || decide (65536 < pf b 8 4)) then .next (cmdFails s done 3)
      else
        let old := ((descsOf s asid).filter (serving s)).map frozen
        .next (serveHeld (addShoot (dropLines (newTable s asid b) asid 0 0) asid 0 0 (some done) old))

/-! ## Sliding (R295 to R299) -/

/-- The bytes that a slide copies: the range, or the whole slots of a PACKED one (R310). -/
def Desc.extent (d : Desc) : Nat := if d.packed then (d.length + 2047) / 2048 * 2048 else d.length

/-- A slide command runs. -/
def startSlide (s : State) (c : RangeCmd) : State :=
  runCmd s 3 c fun a d =>
    let p := c.arg.toNat
    let log := if c.chunk = 0 then 8 else c.chunk.toNat
    if s.rstate a d ≠ 0 || d.type ≠ 0 || d.pin || d.pair then .error 2
    else if p / 2 ^ 48 ≠ 0 || p % 4 ≠ 0 || (d.packed && p % 2048 ≠ 0) || hbmLimit < p + d.extent then .error 3
    else
      let up : Bool := !decide (p < d.pbase)
      let d' : Desc := { d with
        state := 1, pbase2 := p, ctl := log + (if up then 16 else 0)
        seam := if up then (d.extent - 1) / 2 ^ log * 2 ^ log else 0 }
      let s := { s.putDesc a d' with slides := kset s.slides a ⟨c.asid.toNat, c.done.toNat⟩ }
      .ok (shootRange s c.asid.toNat d none)

/-- SLIDE (op 3). While a checkpoint of the tenant runs, no slide starts (R317): the command waits. -/
def execSlide (c : RangeCmd) (s : State) : Host.Outcome State Fault Refusal :=
  if s.recovery then .next s
  else if checkpointing s (s.tenantOf c.asid.toNat) then .next { s with slideWaits := s.slideWaits ++ [c] }
  else .next (startSlide s c)

/-- The slide commands whose checkpoint is over run, in the order they came. -/
def settleSlides (s : State) : State :=
  let held (c : RangeCmd) : Bool := checkpointing s (s.tenantOf c.asid.toNat)
  (s.slideWaits.filter fun c => !held c).foldl startSlide { s with slideWaits := s.slideWaits.filter held }

/-- Bursts of the destination that take a poisoned source byte along. -/
def movedPoison (s : State) (src dst n : Nat) : List Nat :=
  (blocksOf src n).flatMap fun b =>
    if s.poison.contains b then
      let lo := if 64 * b < src then src else 64 * b
      let hi := if 64 * b + 64 < src + n then 64 * b + 64 else src + n
      blocksOf (dst + (lo - src)) (hi - lo)
    else []

/-- Copy physical bytes whole, poison along with them. -/
def moveBytes (s : State) (src dst n : Nat) : State :=
  let bad := movedPoison s src dst n
  let s := s.physStore dst (s.bytes src n)
  { s with poison := bad ++ s.poison.filter fun b => !bad.contains b }

/-- The seam of the chunk after this one; none after the last. -/
def nextSeam (d : Desc) : Option Nat :=
  if d.up then (if d.chunk ≤ d.seam then some (d.seam - d.chunk) else none)
  else if d.seam + d.chunk < d.extent then some (d.seam + d.chunk) else none

/-- The last chunk has committed: the range is RESIDENT at the new base. -/
def slideFinish (s : State) (a : Nat) (d : Desc) (j : SlideJob) : State :=
  let s := { s.putDesc a { d with pbase := d.pbase2, pbase2 := 0, seam := 0, state := 0 } with slides := kdel s.slides a }
  shootRange s j.asid d (some j.done)

/-- SLIDE_CHUNK: the chunk at the seam is closed, copied and committed as one. -/
def execSlideChunk (desc : Nat) (s : State) : Host.Outcome State Fault Refusal :=
  match kget s.slides desc with
  | none => .next s
  | some j =>
    let d := s.desc desc
    if d.state ≠ 1 then .next s
    else
      let n := if d.seam + d.chunk ≤ d.extent then d.chunk else d.extent - d.seam
      let s := moveBytes s (d.pbase + d.seam) (d.pbase2 + d.seam) n
      match nextSeam d with
      | some x => .next (s.putSeam desc { d with seam := x })
      | none => .next (slideFinish s desc d j)

/-! ## Demotion (R302) -/

def demotable (s : State) (a : Nat) (d : Desc) : Bool := s.rstate a d = 0 && d.type = 0 && !d.wr && !d.pin && !d.pair

/-- DEMOTE (op 4): the fault unit begins to write the range to the capacity destination. -/
def execDemote (c : RangeCmd) (s : State) : Host.Outcome State Fault Refusal :=
  if s.recovery then .next s else
  .next (runCmd s 4 c fun a d =>
    if !demotable s a d || (kget s.demotions a).isSome then .error 2
    else if c.arg.toNat / 2 ^ 48 ≠ 1 || c.arg.toNat % 2048 ≠ 0 then .error 3
    else .ok { s with demotions := kset s.demotions a ⟨c.asid.toNat, c.arg.toNat, c.done.toNat⟩ })

/-- The bytes of block `n` of a range, zero past its length (R310), or none where they cannot be had. -/
def demoteBlock (s : State) (d : Desc) (n : Nat) : Option (List Byte) :=
  let k := if 2048 * (n + 1) ≤ d.length then 2048 else d.length - 2048 * n
  if d.packed then (blockBytes s (PSlot.whole (d.pbase + 2048 * n)) d.bmap n).toOption
  else if (memErr s (d.pbase + 2048 * n) k).isSome then none
  else some (s.bytes (d.pbase + 2048 * n) k ++ zeros (2048 - k))

/-- Write block `n` of the image: packed, or raw where its payload is too long; a block that cannot be read is written
poisoned. -/
def demoteSlot (s0 : State) (d : Desc) (dest : Nat) (s : State) (n : Nat) : State :=
  match demoteBlock s0 d n with
  | some b => s.physStore (dest + 2048 * n) ((blockEncode b).getD b)
  | none => s.spoil (dest + 2048 * n) 2048

/-- The slots of a range. -/
def Desc.slots (d : Desc) : List Nat := List.range ((d.length + 2047) / 2048)

/-! ## A malformed block in the fault unit (R312) -/

/-- The chunks that a migration has been asked for and has not moved: its streams in the engine. -/
def askedChunks (d : Desc) (x : RAux) : List Nat :=
  (x.trigger :: x.order ++ x.hints).filter fun c => decide (c < d.chunks) && mget 0 x.pres c = 0

/-- The streams of the ASID in the fault unit are drained with errors: the chunks asked for turn lost, demotions fail. -/
def drainFaultUnit (s : State) (asid : Nat) : State :=
  let s := s.raux.foldl (fun s e =>
    let d := s.desc e.1
    if e.2.asid = asid && s.rstate e.1 d = 3 && !d.stopped then
      s.setAux e.1 { e.2 with pres := (askedChunks d e.2).foldl (fun m c => mset 0 m c 2) e.2.pres }
    else s) s
  (s.demotions.filter fun e => e.2.asid = asid).foldl (fun s e => demotionFails s e.1 e.2) (s.haltContext engFault asid)

/-- DEMOTE_COMPLETE: the image is written; the range is ABSENT, its old base reserved as the next destination, and the done word
follows when every access translated under the old entry is over. A range that op 1
has changed meanwhile is not demoted; a malformed block of it drains the ASID's streams. -/
def execDemoteComplete (desc : Nat) (s : State) : Host.Outcome State Fault Refusal :=
  match kget s.demotions desc with
  | none => .next s
  | some j =>
    let d := s.desc desc
    if s.contextHalted engFault j.asid then .next s
    else if !demotable s desc d || capDown s j.dest d.length then .next (demotionFails s desc j)
    else if d.packed && d.slots.any fun n => slotMalformed s (PSlot.whole (d.pbase + 2048 * n)) d.bmap n then
      .next (serveHeld (drainFaultUnit s j.asid))
    else
      let s := { s with demotions := kdel s.demotions desc }
      let s := dropLines (d.slots.foldl (demoteSlot s d j.dest) s) j.asid d.vbase d.length
      .next (addShoot (s.putDesc desc { d with state := 2, pbase := j.dest, pbase2 := d.pbase }) j.asid d.vbase d.length
        (some j.done) [frozen (desc, d)])

/-! ## Migration (R303 to R307) -/

/-- MIGRATE (op 5): starts the migration of an ABSENT range, or resumes a stopped one. -/
def execMigrate (c : RangeCmd) (s : State) : Host.Outcome State Fault Refusal :=
  if s.recovery then .next s else
  .next (runCmd s 5 c fun a d =>
    let asid := c.asid.toNat
    let waits : State := s.setAux a { s.aux a with done := some c.done.toNat }
    if d.pin || d.pair || (s.aux a).done.isSome then .error 2
    else
      match s.rstate a d with
      | 2 => .ok (startMigration waits asid a 0 [] [])
      | 3 => if !d.stopped || capDown s d.pbase2 d.length then .error 2 else .ok (resumeMigration waits asid a)
      | _ => .error 2)

/-- The chunk that the fault unit moves next (R305): the triggering one, then those parked on, those hinted, the rest. -/
def nextChunk (d : Desc) (x : RAux) : Option Nat :=
  let n := d.chunks
  let all := x.trigger :: x.order ++ x.hints ++ (List.range n).map fun i => (x.trigger + i) % n
  all.find? fun c => decide (c < n) && mget 0 x.pres c = 0

/-- Block `n` of a migrating range from its image to its place; none where the block is malformed or cannot be read. -/
def moveSlot (s : State) (d : Desc) (n : Nat) : Option State :=
  let k := if 2048 * (n + 1) ≤ d.length then 2048 else d.length - 2048 * n
  match blockBytes s (PSlot.whole (d.pbase2 + 2048 * n)) d.bmap n with
  | .error _ => none
  | .ok b =>
    if d.packed then some (s.physStore (d.pbase + 2048 * n) (s.bytes (d.pbase2 + 2048 * n) 2048))
    else some (s.physStore (d.pbase + 2048 * n) (b.take k))

def moveSlots (d : Desc) : State → List Nat → Option State
  | s, [] => some s
  | s, n :: ns => (moveSlot s d n).bind fun s => moveSlots d s ns

/-- The blocks of a chunk. -/
def chunkSlots (d : Desc) (c : Nat) : List Nat := ((List.range 32).map (32 * c + ·)).filter fun n => decide (2048 * n < d.length)

/-- The range is RESIDENT once every chunk is present. -/
def migrationSettle (s : State) (a : Nat) : State :=
  let d := s.desc a
  let x := s.aux a
  if (List.range d.chunks).all fun c => mget 0 x.pres c = 1 then
    let s := { s.putDesc a { d with state := 0, pbase2 := 0 } with raux := kdel s.raux a }
    startWaiting (shootRange s x.asid d none)
  else s

/-- A chunk that cannot be moved is lost; a malformed block drains the ASID's streams in the fault unit (R312). -/
def chunkLost (s : State) (a c : Nat) (x : RAux) : State :=
  let d := s.desc a
  let mal := (chunkSlots d c).any fun n => slotMalformed s (PSlot.whole (d.pbase2 + 2048 * n)) d.bmap n
  let s := s.setAux a { x with pres := mset 0 x.pres c 2 }
  if mal then drainFaultUnit s x.asid else s

/-- MIGRATION_CHUNK_MOVE: the next chunk is written to HBM and set present; accesses of the host that waited
for it are served, other waiters find it at their next try. -/
def execMigrationChunkMove (desc : Nat) (s : State) : Host.Outcome State Fault Refusal :=
  let d := s.desc desc
  let x := s.aux desc
  if s.rstate desc d ≠ 3 || d.stopped || s.contextHalted engFault x.asid || capDown s d.pbase2 d.length then .next s
  else
    match nextChunk d x with
    | none => .next s
    | some c =>
      match moveSlots d s (chunkSlots d c) with
      | none => .next (serveHeld (chunkLost s desc c x))
      | some s => .next (serveHeld (migrationSettle (s.setAux desc { x with pres := mset 0 x.pres c 1 }) desc))

end Sys2Proof.Machine
end

