-- ==== Sys2Proof/Machine/Ports.lean ====
section
/-! DEFINITION. The links to the capacity tier and the host (spec/15_package_memory.md R306, spec/20 R357, R359), refresh,
weight-store tags and retention (spec/15 R314, R316, spec/08 R177). -/
namespace Sys2Proof.Machine

/-! ## Accesses through a port -/

/-- The CXL port that serves a capacity address. -/
def cxlPortOf (s : State) (pa : Nat) : Option Nat := if pa / 2 ^ 48 = 1 then (capPort s pa).map (·.1) else none

/-- The port through which operation `n` of the group reaches an address, under the entry that serves it: CXL ports by number, PCIe ports
from 8 up. A PACKED block is one slot of 2 KiB, behind one port. -/
def portOf (s : State) (g : Group) (n va : Nat) : Option Nat :=
  match translateFor s g.core g.asid n va with
  | none => none
  | some (a, d) =>
    match place s g.asid a d false va 1 with
    | .ok (.mem pa) => cxlPortOf s pa
    | .ok (.packed t _ _ _) => cxlPortOf s t.lo
    | .ok (.host _ p) => some (8 + p)
    | _ => none

/-- The first outstanding lane of an operation through the port. -/
def laneVia (s : State) (g : Group) (n : Nat) (o : Op) (port : Nat) : Option Nat :=
  match o.kind with
  | .load .. | .store .. | .atom .. => (lanesOf o.todo).find? fun l => portOf s g n (laneAddr o.kind l) = some port
  | _ => none

/-- The operations of a group with accesses through the port. -/
def opsVia (s : State) (g : Group) (port : Nat) : List (Nat × Op × Nat) :=
  g.ops.filterMap fun e => if e.2.dropped then none else (laneVia s g e.1 e.2 port).map fun l => (e.1, e.2, l)

/-- Loads, stores and atomics through the port complete with an error: each group with one takes the memory link error. -/
def failGroup (port : Nat) (s : State) (gid : Nat) : State :=
  match s.group gid with
  | none => s
  | some g =>
    match opsVia s g port with
    | [] => s
    | (n, o, l) :: rest =>
      let s := ((n, o, l) :: rest).foldl (fun s e => s.failOp gid e.1) s
      accessFault s gid o (trapAt 0x0B (laneAddr o.kind l)) false

def failPort (s : State) (port : Nat) : State := (s.groups.map (·.1)).foldl (failGroup port) s

/-! ## The capacity tier (15 R306) -/

/-- The image of a migrating range is read through the port. -/
def migratesVia (s : State) (d : Desc) (port : Nat) : Bool :=
  (List.range (if d.length ≤ 16384 then (d.length + 2047) / 2048 else 8)).any fun i =>
    (capPort s (d.pbase2 + 2048 * i)).any (·.1 = port)

/-- Every absent chunk is lost. -/
def loseAbsent (n : Nat) (m : List (Nat × Nat)) : List (Nat × Nat) :=
  (List.range n).foldl (fun m c => if mget 0 m c = 0 then mset 0 m c 2 else m) m

/-- The migration stops: present chunks stay, absent ones are lost, and it leaves the count of R303. -/
def stopMigration (port : Nat) (s : State) (a : Nat) : State :=
  let d := s.desc a
  if s.rstate a d ≠ 3 || d.stopped || !migratesVia s d port then s
  else (s.setAux a { s.aux a with pres := loseAbsent d.chunks (s.aux a).pres }).putDesc a { d with ctl := d.ctl + 32 }

/-- The link goes down, or a completion times out: accesses fail, migrations stop, system software is told. -/
def cxlFails (s : State) (port : Nat) : State :=
  let s := failPort s port
  sendOut (serveHeld <| startWaiting ((s.raux.map (·.1)).foldl (stopMigration port) s)) (.report (0x100 + port))

def execCxlLinkDown (port : Nat) (s : State) : Host.Outcome State Fault Refusal :=
  if 8 ≤ port then .next s
  else
    .next (cxlFails { s with cxl := kset s.cxl port { s.cxlPort port with down := true } } port)

def execCxlCompletionTimeout (port : Nat) (s : State) : Host.Outcome State Fault Refusal :=
  if 8 ≤ port then .next s else .next (cxlFails s port)

def execCxlLinkUp (port : Nat) (s : State) : Host.Outcome State Fault Refusal :=
  if 8 ≤ port then .next s else .next { s with cxl := kset s.cxl port { s.cxlPort port with down := false } }

/-! ## The host ports (20 R357) -/

def execPcieLinkDown (port : Nat) (s : State) : Host.Outcome State Fault Refusal :=
  if 2 ≤ port then .next s
  else
    .next (failPort { s with pcie := kset s.pcie port { s.pciePort port with down := true } } (8 + port))

def execPcieLinkUp (port : Nat) (s : State) : Host.Outcome State Fault Refusal :=
  if 2 ≤ port then .next s else .next { s with pcie := kset s.pcie port { s.pciePort port with down := false } }

/-! ## Refresh (15 R314) -/

/-- HBM_REFRESH: a forced all-bank refresh is a stall, seen by the latency monitors alone. -/
def execHbmRefresh (_stack _channel _pseudo : Nat) (s : State) : Host.Outcome State Fault Refusal := .next s

/-! ## Weight-store tags (08 R177) -/

/-- A matrix operation queued before number `m` has yet to fetch from the slot. -/
def tagReaders (s : State) (core slot m : Nat) : Bool :=
  (s.core core).mq.any fun e => decide (e.2 < m) && match (s.group e.1).bind fun g => kget g.ops e.2 with
    | some o => opSlot core o = some slot
    | none => false

/-- A tag write takes effect: contents zero, generation raised; `rest` are the writes behind it. -/
def assignSlot (s : State) (core slot : Nat) (v : Word) (rest : List (Word × Nat)) : State :=
  let c := raiseGen (s.core core) slot
  let c := { c with
    ws := mclear c.ws (32768 * slot) (32768 * slot + 32768)
    wsPoison := c.wsPoison.filter fun u => !(decide (512 * slot ≤ u) && decide (u < 512 * slot + 512)) }
  let old := if (c.slot slot).valid then s.tenantOf (c.slot slot).asid else 255
  let sl := { c.slot slot with
    asid := v.toNat % 1024, valid := decide (v.toNat / 32768 % 2 = 1), poisoned := false, pend := rest }
  quotaMoved (s.setCore core (c.setSlot slot sl)) old (if sl.valid then s.tenantOf sl.asid else 255)

/-- The slot's pending writes take effect in order, each once the readers queued before it have fetched and no COPYW is in flight. -/
def applyTags (s : State) (core slot : Nat) : List (Word × Nat) → State
  | [] => s
  | (v, m) :: r =>
    if ((s.core core).slot slot).busy || tagReaders s core slot m then s else applyTags (assignSlot s core slot v r) core slot r

/-- Pending tag writes whose hold is over take effect, in every slot. -/
def settleTags (s : State) : State :=
  s.cores.foldl (fun s c => c.2.slots.foldl (fun s n => applyTags s c.1 n.1 ((s.core c.1).slot n.1).pend) s) s

/-- The slot's asid and valid as the writes before the next one leave them (log entry 113). -/
def tagNow (sl : Slot) : Nat × Bool :=
  match sl.pend.getLast? with
  | some (v, _) => (v.toNat % 1024, decide (v.toNat / 32768 % 2 = 1))
  | none => (sl.asid, sl.valid)

/-- WS_TAG_WRITE: a write that changes asid or valid waits for the readers queued before it and for a COPYW in flight. -/
def execWsTagWrite (core slot : Nat) (v : Word) (s : State) : Host.Outcome State Fault Refusal :=
  let sl := (s.core core).slot slot
  if s.recovery || 4096 ≤ core || 64 ≤ slot || tagNow sl = (v.toNat % 1024, decide (v.toNat / 32768 % 2 = 1)) then .next s
  else
    let p := sl.pend ++ [(v, s.nextOp)]
    .next (applyTags (s.setCore core ((s.core core).setSlot slot { sl with pend := p })) core slot p)

/-! ## Retention (15 R316) -/

/-- The array is idle. -/
def arrayIdle (s : State) (core : Nat) : Array3 → Bool
  | .regs | .scratch => (residents s core).isEmpty && (tilesUsed s core).isEmpty
  | .accs => (s.core core).banks.isEmpty && (s.core core).acreqs.all fun r => r.first.isNone
  | .slot n => (s.die (core / 256)).wsidle ≠ 0 && !((s.core core).slot n).busy && !slotReaders s core n

/-- ARRAY_RETENTION_ENTRY: an idle array is re-encoded at lower voltage; its contents are kept. That a slot has gone unread for
WSIDLE µs is the step's own condition. -/
def execArrayRetentionEntry (core : Nat) (arr : Array3) (s : State) : Host.Outcome State Fault Refusal :=
  if !arrayIdle s core arr then .next s
  else
    let c := s.core core
    .next (s.setCore core (match arr with
      | .regs => { c with retRegs := true }
      | .scratch => { c with retScr := true }
      | .accs => { c with retAccs := true }
      | .slot n => c.setSlot n { c.slot n with retained := true }))

end Sys2Proof.Machine
end

