-- ==== Sys2Proof/Machine/Watch.lean ====
section
/-! DEFINITION. The watchdog tree (spec/13_die.md R278 to R280, spec/12 R261, R262) and the quad's own steps (spec/12_quad.md R250,
R251, R256 to R259). -/
namespace Sys2Proof.Machine

/-! ## Quad counts and escalation (12 R261, R262) -/

def sat255 (n : Nat) : Nat := if n < 255 then n else 255

def quadSum (q : Quad) : Nat := q.stalls + q.btos

/-- A new count; reaching `esc` kills the bound launch, or each launch whose groups raised the counted traps. Only a new count escalates: a
write that lowers `esc` to the standing sum does not (log entry 102). -/
def countQuad (s : State) (qn : Nat) (q : Quad) : State :=
  let old := quadSum (s.quad qn)
  if q.esc ≠ 0 && decide (old < q.esc) && decide (q.esc ≤ quadSum q) then
    let s := s.setQuad qn { q with escd := true }
    match q.bound with
    | some lid => killLaunch s (qn / 64) lid
    | none => q.stallBy.foldl (fun s lid => killLaunch s (qn / 64) lid) s
  else s.setQuad qn q

/-- A stall-watchdog trap on a core of the quad. -/
def countStall (s : State) (qn lid : Nat) : State :=
  let q := s.quad qn
  countQuad s qn { q with
    stalls := sat255 (q.stalls + 1), stallBy := if q.stallBy.contains lid then q.stallBy else q.stallBy ++ [lid] }

/-! ## Groups (R279) -/

def pathRunnable (p : Path) : Bool :=
  match p.status with
  | .blocked _ => false
  | _ => true

/-- GROUP_WATCHDOG_EXPIRY: the group has been runnable for gcyc cycles without a retired instruction. -/
def execGroupWatchdogExpiry (gid : Nat) (s : State) : Host.Outcome State Fault Refusal :=
  match s.group gid with
  | none => .next s
  | some g =>
    let n := (s.die (g.core / 256)).gcyc
    if n = 0 || g.stall < n || g.status ≠ .resident then .next s
    else
      match g.paths.find? fun e => pathRunnable e.2 with
      | none => .next s
      | some (pid, p) =>
        let lid := s.launchOf g
        let s := s.setGroup gid { g with stall := 0 }
        .next (countStall (trapEnter s gid (trapOf 0x0F) pid false p.pc.toNat (wordAt s g p.pc)) (g.core / 4) lid)

/-! ## Queues (R280) -/

def pktLaunch (p : Pkt) : Option Nat :=
  match p.kind with
  | .launch lid => some lid
  | _ => none

def pktWaits (p : Pkt) : Bool :=
  match p.kind with
  | .waitsig .. => true
  | _ => false

/-- CP_WATCHDOG_EXPIRY: a started, incomplete packet and no progress for cpms ms; the oldest incomplete launch is killed. -/
def execCpWatchdogExpiry (die q : Nat) (s : State) : Host.Outcome State Fault Refusal :=
  let n := (s.die die).cpms
  let x := s.queue die q
  if n = 0 || x.pkts.isEmpty || x.pkts.any (fun e => pktWaits e.2) || s.now < x.progress + 1200000 * n then .next s
  else
    match x.pkts.findSome? fun e => pktLaunch e.2 with
    | none => .next s
    | some lid => .next (killLaunch s die lid)

/-! ## Quad barriers (12 R261) -/

/-- QUAD_BARRIER_TIMEOUT: a phase with an arrival has not completed bto µs after its first; counted once. -/
def execQuadBarrierTimeout (quad idx : Nat) (s : State) : Host.Outcome State Fault Refusal :=
  let q := s.quad quad
  match s.barriers.find? fun b => b.scope = .quad && b.idx = idx && b.domain = quad && b.arrivals ≠ 0 && !b.timedOut with
  | none => .next s
  | some b =>
    if q.bto = 0 || s.now < b.firstAt + 1200 * q.bto then .next s
    else .next (countQuad (s.setBarrier { b with timedOut := true }) quad
      { q with btos := sat255 (q.btos + 1), lastbar := idx % 8 })

/-- QWCTL_CLR: a write of QWCTL with clr zeroes the counts; bto and esc take the written values. -/
def execQwctlClr (quad : Nat) (v : Word) (s : State) : Host.Outcome State Fault Refusal :=
  if s.recovery then .next s else
  if v.toNat / 2 ^ 24 % 2 = 0 || 1024 ≤ quad then .next s
  else .next (s.setQuad quad { s.quad quad with
    bto := v.toNat % 65536, esc := v.toNat / 65536 % 256, stalls := 0, btos := 0, stallBy := [] })

/-! ## Repair (12 R250, R251) -/

def quadEmpty (s : State) (quad : Nat) : Bool := (quadCores quad).all fun c => (residents s c).isEmpty

/-- Every slot's generation rises by one, and no operand-cache entry is left. -/
def movedCore (c : Core) : Core :=
  { (List.range 64).foldl (fun (c : Core) n => c.setSlot n { c.slot n with gen := ((c.slot n).gen + 1) % 65536 }) c with otags := [] }

/-- The physical quad serves another logical quad of the die. -/
def physUsed (s : State) (quad phys : Nat) : Bool := (dieQuads (quad / 64)).any fun q => q ≠ quad && (s.quad q).phys = phys

/-- QUAD_REMAP: placement on the quad stops; once no group is resident the map switches to the spare, with everything the cores
hold, and placement resumes. -/
def execQuadRemap (quad phys : Nat) (s : State) : Host.Outcome State Fault Refusal :=
  if s.recovery then .next s else
  if 1024 ≤ quad || 66 ≤ phys || physUsed s quad phys then .next s
  else if !quadEmpty s quad then .next (s.setQuad quad { s.quad quad with draining := true })
  else
    let s := (quadCores quad).foldl (fun s c => s.setCore c (movedCore (s.core c))) s
    .next (s.setQuad quad { s.quad quad with phys := phys, draining := false })

/-- QUAD_OFFLINE: a write of QCFG.offline; no cohort is placed on an offline quad. Cohorts that are on it run on, and their evicted groups are
restored (log entry 101). -/
def execQuadOffline (quad : Nat) (off : Bool) (s : State) : Host.Outcome State Fault Refusal :=
  if s.recovery || decide (1024 ≤ quad) then .next s else
  .next (s.setQuad quad { s.quad quad with offline := off })

/-- A launch with a cohort on a quad that failed is aborted whole. -/
def abortLaunch (s : State) (lid : Nat) : State :=
  let mine := (s.cohorts.filter fun e => e.2.launch = lid && e.2.aborted.isNone).map (·.1)
  let s := mine.foldl (fun s c => abortCohort s c 2 0) s
  { s with launches := kupd s.launches lid fun l => { l with killed := true, aborted := true, holdsEntry := false } }

/-- QUAD_FAILURE: no spare is left; the quad goes offline, and the launches with cohorts there are aborted. The records of the
cohorts' ends interrupt the tenant. -/
def execQuadFailure (quad : Nat) (s : State) : Host.Outcome State Fault Refusal :=
  let lids := (s.launches.filter fun l => s.cohorts.any fun c => c.2.launch = l.1 && c.2.core / 4 = quad).map (·.1)
  .next (lids.foldl abortLaunch (s.setQuad quad { s.quad quad with offline := true }))

/-! ## Chain-stitch mode (12 R256 to R259) -/

/-- The reserved tiles fit: 24 of a core's 192 become its chain buffers only where cohorts, evicted ones included, hold at most
168, and they go back to cohorts only once no chained publication stands. -/
def chainRoom (s : State) (quad : Nat) (on : Bool) : Bool :=
  if on then (quadCores quad).all fun c => decide ((tilesUsed s c).length ≤ 168)
  else (s.quad quad).pubs.all fun e => !e.2.chained

/-- CHAIN_MODE_SET: the change takes effect once no group is resident on the quad and the reserved tiles fit. A quad that is
empty but short of tiles is opened again, and the change waits for another command. A publication that stands keeps the mode it
was made in (log entry 99). -/
def execChainModeSet (quad : Nat) (on : Bool) (s : State) : Host.Outcome State Fault Refusal :=
  if s.recovery || decide (1024 ≤ quad) then .next s else
  let q := s.quad quad
  if quadEmpty s quad then
    .next (s.setQuad quad { q with
      chain := if chainRoom s quad on then on else q.chain, wantChain := on, draining := false })
  else .next (s.setQuad quad { q with wantChain := on, draining := q.draining || on ≠ q.chain })

/-- A hop of the publication is in flight into core `core`. -/
def hopInto (e : Pub) (pub core : Nat) : Bool :=
  e.chained && decide (e.hops < 3) && e.poisonedFrom.isNone && (pub + e.hops + 1) % 4 = core % 4

/-- The publication after its hop has arrived or failed a check: the fourth failed try poisons the receiving buffer and those
downstream (R259; log entry 127). -/
def hopResult (e : Pub) (fail : Bool) : Pub :=
  if fail then
    if 3 ≤ e.fails then { e with poisonedFrom := some (e.hops + 1), fails := 0 } else { e with fails := e.fails + 1 }
  else { e with hops := e.hops + 1, fails := 0 }

/-- The bytes of a tile, with their errors, copied to another. -/
def copyTile (s : State) (src dst : TileRef) : State :=
  let c := s.core src.core
  let bad := c.scrPoison.filterMap fun b => if b / 4096 = src.tile then some (4096 * dst.tile + b % 4096) else none
  let s := s.setCore dst.core (setTileBytes (s.core dst.core) dst.tile 0 (tileBytes c src.tile 0 4096))
  s.setCore dst.core { s.core dst.core with scrPoison := bad ++ (s.core dst.core).scrPoison }

/-- Hop `k` of a publication has arrived: the receiving buffer is READY, and forwards it. -/
def hopArrives (s : State) (quad key k : Nat) (e : Pub) : State :=
  let buf (k : Nat) : TileRef :=
    let c := 4 * quad + (key / 8 + k) % 4
    if k = 0 then e.tile else ⟨c, bufTile c (key / 8) (key % 8)⟩
  let s := copyTile s (buf k) (buf (k + 1))
  startHop (setTileAt s (buf (k + 1)).core (buf (k + 1)).tile fun t => { t with state := .ready }) quad key (k + 1)

/-- CHAIN_HOP_COMPLETE: the hop of publication `idx` of core `pub` into core `core` ends, or fails a check. A withdrawn
publication's entry goes once its own hop is over, its buffers free. -/
def execChainHopComplete (core pub idx : Nat) (fail : Bool) (s : State) : Host.Outcome State Fault Refusal :=
  let quad := core / 4
  let q := s.quad quad
  let key := 8 * (pub % 4) + idx % 8
  match kget q.pubs key with
  | none => .next s
  | some e =>
    if !hopInto e (pub % 4) core then .next s
    else
      let e' := hopResult e fail
      let gone := e'.withdrawn && (e'.hops ≠ 0 || e'.poisonedFrom.isSome)
      let s := if fail || e.withdrawn then s else hopArrives s quad key e.hops e
      .next (s.setQuad quad { q with
        pubs := if gone then kdel q.pubs key else kset q.pubs key e', hop := q.hop || e'.poisonedFrom.isSome })

end Sys2Proof.Machine
end

