-- ==== Sys2Proof/Machine/Tenants.lean ====
section
/-! DEFINITION. Tenants: setting a descriptor valid, and the resets (spec/20_fabric_and_system.md R374, R375, R379, R382, R380). -/
namespace Sys2Proof.Machine

/-- PF 0 accepts the access: in recovery mode it takes only a new image (R380). -/
def pf0 (s : State) (f : State → State) : State := if s.recovery then s else f s

/-! ## Setting valid (R374, R375) -/

/-- The descriptor's fields keep R374. -/
def tenantFieldsOk (d : Tenant) : Bool :=
  decide (1 ≤ d.weight) && decide (1 ≤ d.lcap) && decide (d.lcap ≤ 2048) && decide (d.hwasid < 1024) && decide (30 ≤ d.hwsize)
    && decide (d.hwsize ≤ 40) && d.hwbase % 2 ^ d.hwsize = 0 && decide (d.hwbase < 2 ^ 56) && decide (d.hdesc < 2 ^ 56)
    && d.tfbase % 8192 = 0 && decide (d.tfbase < 2 ^ 56) && decide (1 ≤ d.tfcount) && d.evbase % 32 = 0
    && (if d.evbase = 0 then d.evlog = 0 && d.evptr = 0 else decide (4 ≤ d.evlog) && decide (d.evlog ≤ 16))
    && decide (d.podroot < 1024) && decide (d.podcount ≤ 1024) && d.zerosOk

/-- What R375 asks of hwasid: the handler's descriptor, and the pinned ranges. -/
def tenantRangesOk (s : State) (d : Tenant) : Bool :=
  let io := ioCore 0
  let pins (va n : Nat) : Bool := inRanges s io d.hwasid va n Desc.pin
  (match kdescAt s io d.hwasid d.hdesc with
    | some k => k.flags / 8 % 2 = 1 && pins k.entry 4
    | none => false)
    && pins d.tfbase (8192 * d.tfcount)
    && (d.evbase = 0 || (pins d.evbase (32 * 2 ^ d.evlog) && pins d.evptr 8))

/-- TENANT_VALID_SET: system software sets valid in the descriptor; the write is refused where a check fails. -/
def execTenantValidSet (tenant : Nat) (s : State) : Host.Outcome State Fault Refusal :=
  let d := s.tenant tenant
  if 64 ≤ tenant || s.phys (s.tenantAddr tenant) 1 ≠ 0 || !tenantFieldsOk d || !tenantRangesOk s d then .next s
  else .next (sendOut (s.physStore (s.tenantAddr tenant) [1]) (.msix (tenant + 1) 3))

/-! ## The reset of a tenant (R379) -/

/-- A queue of the tenant halts. The spec gives the halt no code: it is a free value (log entry 2). -/
def haltForReset (s : State) (e : Nat × Nat × Queue) : State :=
  let (die, q, x) := e
  if !x.en || x.halted.isSome then s
  else
    let (c, s) := takeFree s
    let tag : Word := match readSlot s die x (slotOf x) with
      | .ok b => tagOf b
      | .error _ => 0
    haltQueue s die q (c % 256) (slotOf x) tag

def haltSendQueues (s : State) (t : Nat) : State :=
  (List.range 16).foldl (fun s e =>
    (s.eng e).sqs.foldl (fun s q =>
      if q.2.tenant = t && q.2.en && q.2.halted.isNone then
        let (c, s) := takeFree s
        s.setSendQ e q.1 { s.sendQ e q.1 with halted := some (c % 256) }
      else s) s) s

/-- Every cohort of the tenant is aborted (09 R217). -/
def abortTenant (s : State) (t : Nat) : State :=
  let mine := s.cohorts.filter fun c => c.2.aborted.isNone && (kget s.launches c.2.launch).any fun l => l.tenant = t
  mine.foldl (fun s c => abortCohort s c.1 2 0) s

/-- A launch of the tenant places no further cohort; one with no cohort left is gone, and its packet with it, a device launch with a
record of type 3 (13 R271). -/
def dropPending (s : State) (e : Nat × Launch) : State :=
  let (lid, l) := e
  if l.live ≠ 0 then
    { s with launches := kset s.launches lid { l with killed := true, aborted := true, holdsEntry := false } }
  else
    let s' := forgetLaunch s lid
    match l.source with
    | .queue d q k _ _ => s'.setQueue d q { s'.queue d q with pkts := kdel (s'.queue d q).pkts k }
    | .device _ _ => if l.nextCohort < l.rcd.cohorts && !l.killed then launchEvent s' l 3 0x09 0xFFFFFFFF else s'

def dropLaunches (s : State) (t : Nat) : State := (s.launches.filter fun l => l.2.tenant = t).foldl dropPending s

/-- The monitors that the tenant's launches bind. -/
def unbindTenant (s : State) (t : Nat) : State :=
  s.cores.foldl (fun s c => c.2.mons.foldl (fun s m =>
    if (kget s.launches m.2.launch).any fun l => l.tenant = t then unbindMon s c.1 m.1 m.2.launch else s) s) s

/-- Steps 1 to 4 of R379. The monitors go before the launches that name their tenant. -/
def beginReset (s : State) (t : Nat) : State :=
  if s.resetting.contains t then s
  else
    let s := (tenantQueues s t).foldl haltForReset s
    let s := haltSendQueues s t
    let s := abortTenant s t
    let s := unbindTenant s t
    let s := dropLaunches s t
    { s with resetting := t :: s.resetting }

def runsOn (p : Pkt) : Bool :=
  match p.kind with
  | .copy .. | .checkpoint _ => true
  | _ => false

/-- The tenant's copies, matrix operations and messages are over. -/
def tenantQuiet (s : State) (t : Nat) : Bool :=
  (s.groups.all fun g => s.tenantOf g.2.asid ≠ t || g.2.ops.all fun o => !isCopy o.2 && !isMat o.2)
    && ((tenantQueues s t).all fun e => e.2.2.pkts.all fun p => !runsOn p.2)
    && s.engines.all fun e => e.2.msgs.all fun m => !m.2.live || (e.2.sq m.2.queue).tenant ≠ t

/-- Zero the tenant's counters. -/
def zeroCounters (s : State) (t : Nat) : State :=
  { s with counters := s.counters.filter fun e => counterOwner s e.1 ≠ t }

/-- Zero the tenant's weight-store slots; the generation rises with the contents. -/
def zeroSlots (s : State) (t : Nat) (c : Core) : Core :=
  c.slots.foldl (fun c e =>
    if e.2.valid && s.tenantOf e.2.asid = t then
      let c := raiseGen c e.1
      { c with ws := mclear c.ws (32768 * e.1) (32768 * e.1 + 32768)
               wsPoison := c.wsPoison.filter fun u => !(decide (512 * e.1 ≤ u) && decide (u < 512 * e.1 + 512)) }
    else c) c

/-- Steps 5 to 7: once the tenant is quiet, its counters and slots are zeroed, the bit set and vector 3 signalled. -/
def settleReset (s : State) (t : Nat) : State :=
  if !s.resetting.contains t || !tenantQuiet s t then s
  else
    let s := zeroCounters s t
    let s := { s with
      cores := s.cores.map fun e => (e.1, zeroSlots s t e.2)
      rststat := s.rststat ||| BitVec.ofNat 64 (2 ^ t), resetting := s.resetting.filter (· ≠ t) }
    sendOut s (.msix (t + 1) 3)

def resetTenant (s : State) (t : Nat) : State := if 64 ≤ t then s else settleReset (beginReset s t) t

/-- TENANT_RESET: RESETCMD of PF 0. A reset that waits for the tenant's work ends at the step that finds it over. -/
def execTenantReset (tenant : Nat) (s : State) : Host.Outcome State Fault Refusal := .next (pf0 s fun s => resetTenant s tenant)

/-- FUNCTION_LEVEL_RESET of the tenant's virtual function. -/
def execFunctionLevelReset (tenant : Nat) (s : State) : Host.Outcome State Fault Refusal := .next (resetTenant s tenant)

/-! ## Reset of the package (R380, R382) -/

/-- The links train. -/
def linksUp (s : State) : State :=
  { s with
      cxl := s.cxl.map fun e => (e.1, { e.2 with down := false })
      pcie := s.pcie.map fun e => (e.1, { e.2 with down := false }) }

/-- The quad repair maps are programmed: each logical quad to its factory map (12 R261); a quad that moves takes no weights along. -/
def repairMaps (s : State) : State :=
  s.quads.foldl (fun s e =>
    let f := (Quad.zero e.1).phys
    if e.2.phys = f then s
    else
      let s := (quadCores e.1).foldl (fun s c => s.setCore c (movedCore (s.core c))) s
      s.setQuad e.1 { s.quad e.1 with phys := f }) s

/-- Once every tenant's reset is over, the warm reset repeats steps 3 to 5, and ready shows. -/
def finishWarm (s : State) : State :=
  if s.warm && s.resetting.isEmpty then { linksUp (repairMaps s) with ready := true, warm := false } else s

/-- What a reset under way makes of a step: the resets of tenants whose work is over end. -/
def settleResets (s : State) : State := if s.resetting.isEmpty && !s.warm then s else finishWarm (s.resetting.foldl settleReset s)

/-- WARM_RESET acts on every tenant as R379 does, then repeats steps 3 to 5. -/
def execWarmReset (s : State) : Host.Outcome State Fault Refusal :=
  .next (pf0 s fun s =>
    if s.warm then s else settleResets { (List.range 64).foldl beginReset s with ready := false, warm := true })

/-- COLD_RESET: the state after reset; the outside stays as it is. An image that does not verify leaves recovery mode. -/
def execColdReset (s : State) : Host.Outcome State Fault Refusal :=
  let ok := Config.bootVerified s.fresh
  .next { State.reset with
    agenda := s.agenda, fresh := s.fresh + 1, hostMem := s.hostMem, remMem := s.remMem, remWins := s.remWins, wires := s.wires
    outputs := s.outputs, fwDigests := s.fwDigests, ready := ok, recovery := !ok }

/-- FIRMWARE_UPDATE: the image is verified, and accepted or rejected; an accepted one ends recovery mode, and its digest is that of its
body (R380). -/
def execFirmwareUpdate (s : State) : Host.Outcome State Fault Refusal :=
  let image := s.bytes s.fwAddr.toNat s.fwLen.toNat
  let ok := Config.firmwareAccepted image
  .next { s with
    fwDone := true, fwRejected := !ok, ready := s.ready || (ok && s.recovery), recovery := s.recovery && !ok
    fwDigests := if ok then kset s.fwDigests (Config.imageKind image % 4) (shake256 32 (Config.imageBody image)) else s.fwDigests }

/-! ## Attestation (R381) -/

/-- The digest of firmware image `n`. -/
def fwDigest (s : State) (n : Nat) : List Byte := (((kget s.fwDigests n).getD (Config.reportDigest n)) ++ zeros 32).take 32

/-- The execute range of hwasid that holds the handler's entry: the handler's .text. -/
def handlerText (s : State) (t : Nat) : List Byte :=
  let d := s.tenant t
  if s.tenantOf d.hwasid ≠ t then [] else
  match (kdescAt s (ioCore 0) d.hwasid d.hdesc).bind fun k => translate s (ioCore 0) d.hwasid k.entry with
  | none => []
  | some (_, r) =>
    match vread s (ioCore 0) d.hwasid r.vbase r.length with
    | .ok b => b
    | .error _ => []

/-- The fifth digest: of the tenant's descriptor with its handler's .text; PF 0 names no tenant. -/
def tenantDigest (s : State) (req : Nat) : List Byte :=
  if req < 64 then shake256 32 (s.bytes (s.tenantAddr req) 128 ++ handlerText s req)
  else (Config.reportDigest 4 ++ zeros 32).take 32

/-- Bytes 0 to 207 of the report; `req` is the requesting tenant, or 0xFFFF. -/
def reportBody (s : State) (req : Nat) (nonce : BitVec 256) : List Byte :=
  [0x4C, 0x57, 0x41, 0x54] ++ leBytes 4 1 ++ leBytes 2 s.nodeNum ++ leBytes 2 req ++ zeros 4
    ++ (List.range 4).flatMap (fwDigest s) ++ tenantDigest s req ++ leBytes 32 nonce.toNat

def reportBytes (s : State) (req : Nat) (nonce : BitVec 256) : List Byte :=
  let b := reportBody s req nonce
  b ++ (Config.reportSignature b ++ zeros 29792).take 29792

/-- ATTESTATION_REQUEST through PF 0 (function 0), at a physical address, or through a virtual function, in hwasid. -/
def execAttestationRequest (fn : Nat) (nonce : BitVec 256) (addr : Dbl) (s : State) : Host.Outcome State Fault Refusal :=
  if fn = 0 then
    .next (pf0 s fun s =>
      { s.unitWrite addr.toNat (reportBytes s 0xFFFF nonce) with attNonce := nonce, attAddr := addr, attDone := true })
  else if 64 < fn then .next s
  else .next (tenantWrite s (fn - 1) addr.toNat (reportBytes s (fn - 1) nonce))

end Sys2Proof.Machine
end

