-- ==== Sys2Proof/Machine/Registers.lean ====
section
/-! DEFINITION. Writes of control registers that only store a value, or store it in part (spec/20_fabric_and_system.md R355 and
the rules it names). Reserved bits are not stored. -/
namespace Sys2Proof.Machine

/-- Bits `lo` to `lo + n - 1` of a written value. -/
def fld (v : Dbl) (lo n : Nat) : Nat := v.toNat / 2 ^ lo % 2 ^ n
def low32 (v : Dbl) : Word := BitVec.ofNat 32 v.toNat

/-- A completion timeout: 1 to 64, other values read as 64 (15 R306). -/
def ctoOf (v : Dbl) : Nat := if fld v 0 7 = 0 || 64 < fld v 0 7 then 64 else fld v 0 7

/-- A word of a host-window entry (R357). -/
def winWord (w : HostWin) (k : Nat) (v : Dbl) : HostWin :=
  match k with
  | 0 => { w with hbase := v.toNat }
  | 1 => { w with hsize := v.toNat }
  | 2 => { w with valid := fld v 0 1 = 1, port := fld v 1 1, tenant := fld v 8 8 }
  | _ => w

/-- The fields of a peer-window entry (R368). -/
def peerMask : Dbl := 0x8000003F0FFF03FF

/-- The package block. -/
def writePackage (s : State) (v : Dbl) : CtlReg → State
  | .node => { s with node := fld v 0 10 }
  | .pwrcap => if 1 ≤ fld v 0 32 && decide (fld v 0 32 ≤ 3600) then { s with pwrcap := low32 v } else s
  | .tenbase => { s with tenbase := v }
  | .nwinbase => { s with nwinbase := v }
  | .capdec => { s with capdec := BitVec.ofNat 32 (fld v 0 8 + 2048 * fld v 11 1) }
  | .rststat => { s with rststat := s.rststat &&& ~~~v }
  | .attestNonce k =>
    if 4 ≤ k then s
    else { s with attNonce := (s.attNonce &&& ~~~(BitVec.ofNat 256 ((2 ^ 64 - 1) * 2 ^ (64 * k)))) ||| BitVec.ofNat 256 (v.toNat * 2 ^ (64 * k)) }
  | .attestAddr => { s with attAddr := v }
  | _ => s

/-- The tables of PF 0: ASID map, windows, counters, links, range units. -/
def writeTable (s : State) (v : Dbl) : CtlReg → State
  | .asidMap a => if a < 1024 then { s with asidMap := mset 255 s.asidMap a (BitVec.ofNat 8 v.toNat) } else s
  | .hostWin i k => if i < 256 then { s with hostWins := kset s.hostWins i (winWord (s.hostWin i) k v) } else s
  | .peerWin i => if i < 128 then { s with peerWins := mset 0 s.peerWins i (v &&& peerMask) } else s
  | .counterVal i => if i < 4096 then { s with counters := mset 0 s.counters i (low32 v) } else s
  | .counterTenant i => if i < 4096 then { s with counterTen := mset 255 s.counterTen i (BitVec.ofNat 8 v.toNat) } else s
  | .pcieCto p => if p < 2 then { s with pcie := kset s.pcie p { s.pciePort p with cto := ctoOf v } } else s
  | .cxlCto p => if p < 8 then { s with cxl := kset s.cxl p { s.cxlPort p with cto := ctoOf v } } else s
  | .asidtb i => if i < 2 then { s with asidtb := mset 0 s.asidtb i v } else s
  | _ => s

/-- A send queue's fields may be changed only while en is 0 (R362). -/
def setSqField (s : State) (e q : Nat) (f : SendQ → SendQ) : State :=
  if 16 ≤ e || 256 ≤ q || (s.sendQ e q).en then s else s.setSendQ e q (f (s.sendQ e q))

/-- The network engines (R361, R362). -/
def writeEngine (s : State) (v : Dbl) : CtlReg → State
  | .ncfg e => if e < 16 then s.setEng e { s.eng e with psize := if fld v 0 2 = 3 then 2 else fld v 0 2, en := fld v 2 1 = 1 } else s
  | .nrto e => if e < 16 then s.setEng e { s.eng e with rto := fld v 0 16, tries := fld v 16 4, dup := fld v 20 4 } else s
  | .nstat e =>
    if e < 16 then s.setEng e { s.eng e with tdrops := (s.eng e).tdrops - ((s.eng e).tdrops &&& fld v 16 16) } else s
  | .sqBase e q => setSqField s e q fun x => { x with base := v.toNat }
  | .sqLsize e q => setSqField s e q fun x => { x with lsize := fld v 0 4 }
  | .sqTenant e q => setSqField s e q fun x => { x with tenant := fld v 0 8 }
  | .sqAsid e q => setSqField s e q fun x => { x with asid := fld v 0 16 }
  | _ => s

/-- A die's watchdog registers and monitor channels (13 R278, R282, 08 R177). A write of PMCTL with start set also opens a window. PMWIN
holds whatever is written, 0 too: a window of 0 µs closes after the cycle that opened it (log entry 120). -/
def writeDie (s : State) (v : Dbl) : CtlReg → State
  | .wdgrp d => s.setDie d { s.die d with gcyc := fld v 0 32 }
  | .wdcp d => s.setDie d { s.die d with cpms := fld v 0 16, cpesc := fld v 16 8 }
  | .wdstat d => s.setDie d { s.die d with fault := (s.die d).fault && fld v 16 1 = 0 }
  | .wsidle d => s.setDie d { s.die d with wsidle := low32 v }
  | .pmsel d m => if m < 8 then s.setPm d m { (s.die d).pm m with sel := BitVec.ofNat 32 (fld v 0 16) } else s
  | .pmwin d m => if m < 8 then s.setPm d m { (s.die d).pm m with win := low32 v } else s
  | .pmctl d m =>
    if m < 8 then
      let s := s.setPm d m { (s.die d).pm m with cont := fld v 1 1 = 1, done := ((s.die d).pm m).done && fld v 2 1 = 0 }
      if fld v 0 1 = 1 then pmOpen s d m else s
    else s
  | _ => s

/-- The die that a register of a die's window belongs to; 0 for the others. -/
def regDie : CtlReg → Nat
  | .wdgrp d | .wdcp d | .wdstat d | .wsidle d | .pmsel d _ | .pmwin d _ | .pmctl d _ | .qbase d _ | .qctl d _ | .qptra d _ => d
  | .qwctl q | .qwstat q => q / 64
  | _ => 0

/-- A hardware queue's registers (13 R264): base and pointer block only while en is 0; of a QCTL write that leaves en as it is, the
priority while en is 1, every field while it is 0. -/
def writeQueue (s : State) (v : Dbl) : CtlReg → State
  | .qbase d q => if q < 128 && !(s.queue d q).en then s.setQueue d q { s.queue d q with base := v.toNat } else s
  | .qptra d q => if q < 128 && !(s.queue d q).en then s.setQueue d q { s.queue d q with ptrblk := v.toNat } else s
  | .qctl d q =>
    let x := s.queue d q
    if 128 ≤ q || x.en ≠ (fld v 7 1 = 1) then s
    else s.setQueue d q (if x.en then { x with prio := fld v 5 2 } else qctlFields x (low32 v))
  | _ => s

/-- A quad's registers (12 R261), whose clr bit zeroes the counts, and a tenant's event registers (R378). -/
def writeSmall (s : State) (v : Dbl) : CtlReg → State
  | .qwctl q =>
    let s := s.setQuad q { s.quad q with bto := fld v 0 16, esc := fld v 16 8 }
    if fld v 24 1 = 1 then s.setQuad q { s.quad q with stalls := 0, btos := 0, stallBy := [] } else s
  | .qwstat q => s.setQuad q { s.quad q with escd := (s.quad q).escd && fld v 19 1 = 0, hop := (s.quad q).hop && fld v 20 1 = 0 }
  | .evcons t => if t < 64 then { s with evcons := mset 0 s.evcons t (low32 v) } else s
  | .evstat t => if t < 64 && fld v 0 1 = 1 then { s with evstat := mset false s.evstat t false } else s
  | _ => s

/-- The registers through which a new image comes. -/
def writeImage (s : State) (v : Dbl) : CtlReg → State
  | .fwAddr => { s with fwAddr := v }
  | .fwLen => { s with fwLen := v }
  | _ => s

/-- What a register write stores: each register belongs to one of the blocks. -/
def writeReg (s : State) (r : CtlReg) (v : Dbl) : State :=
  match r with
  | .node | .pwrcap | .tenbase | .nwinbase | .capdec | .rststat | .attestNonce _ | .attestAddr => writePackage s v r
  | .fwAddr | .fwLen => writeImage s v r
  | .asidMap _ | .hostWin _ _ | .peerWin _ | .counterVal _ | .counterTenant _ | .pcieCto _ | .cxlCto _ | .asidtb _ => writeTable s v r
  | .ncfg _ | .nrto _ | .nstat _ | .sqBase _ _ | .sqLsize _ _ | .sqTenant _ _ | .sqAsid _ _ => writeEngine s v r
  | .wdgrp _ | .wdcp _ | .wdstat _ | .wsidle _ | .pmsel _ _ | .pmwin _ _ | .pmctl _ _ => writeDie s v r
  | .qbase _ _ | .qctl _ _ | .qptra _ _ => writeQueue s v r
  | .qwctl _ | .qwstat _ | .evcons _ | .evstat _ => writeSmall s v r

/-- The tenant that a register gives its queue, counter or window to; 255 for none, and for the other registers. -/
def regOwner (s : State) : CtlReg → Nat
  | .hostWin i _ => if (s.hostWin i).valid then (s.hostWin i).tenant else 255
  | .peerWin i =>
    let e := (mget 0 s.peerWins i).toNat
    if e / 2 ^ 63 = 1 then e / 2 ^ 32 % 64 else 255
  | .counterTenant i => (mget 255 s.counterTen i).toNat
  | .sqTenant e q => (s.sendQ e q).tenant
  | .qctl d q => (s.queue d q).tenant
  | _ => 255

/-- A register write, and what it means for the quotas (R377). -/
def writeOwned (s : State) (r : CtlReg) (v : Dbl) : State :=
  let s' := writeReg s r v
  quotaMoved s' (regOwner s r) (regOwner s' r)

/-- The registers that recovery mode leaves writable: the image's (R380). -/
def imageReg : CtlReg → Bool
  | .fwAddr | .fwLen => true
  | _ => false

/-- The registers that a virtual function reaches in its own BAR 0, its event registers and its queues: recovery mode restricts PF 0
alone, whose own accesses `barWrite` holds back (R380; log entry 66). -/
def tenantReg : CtlReg → Bool
  | .evcons _ | .evstat _ | .qbase _ _ | .qctl _ _ | .qptra _ _ => true
  | _ => false

/-- REGISTER_WRITE; the package has sixteen dies. -/
def execRegisterWrite (reg : CtlReg) (v : Dbl) (s : State) : Host.Outcome State Fault Refusal :=
  .next (if imageReg reg then writeReg s reg v else if 16 ≤ regDie reg then s
    else if tenantReg reg then writeOwned s reg v else pf0 s fun s => writeOwned s reg v)

end Sys2Proof.Machine
end

