-- ==== Sys2Proof/Machine/Bars.lean ====
section
/-! DEFINITION. BAR 0 of the functions (spec/20_fabric_and_system.md R354, R355): which register each 32-bit word of an offset belongs
to, what it reads as, and which instructions a write of it stands for. -/
namespace Sys2Proof.Machine

/-- What an aligned 32-bit word of a BAR holds. -/
inductive Cell where
  | half (r : CtlReg) (hi : Bool)      -- half of a register of 8 bytes
  | reg (r : CtlReg)
  | asids (a : Nat)                    -- four entries of the ASID map
  | counterTenant (i : Nat)
  | sqCtl (e q : Nat)                  -- lsize, en, tenant, asid of a send queue
  | sqGo (e q : Nat)
  | ntest (e : Nat)
  | qctl (d q : Nat)
  | qstatus (d q : Nat)
  | qresume (d q : Nat)
  | qcfg (q : Nat)
  | qwctl (q : Nat)
  | wsTag (core slot : Nat)
  | cmd (iod k : Nat)                  -- word k of a range unit's command window
  | status | resetCmd | attest | attestDone | fwSubmit | fwDone
  | dieShare (d : Nat)
  | hbmShare (k : Nat)
  | errors (d k : Nat)                 -- the three error counters of a die
  | pmResult (d m k : Nat)             -- min, max, count, then the bins
  deriving DecidableEq, Repr

/-! ## Offsets -/

/-- The package block. -/
def packageCell (o : Nat) : Option Cell :=
  if o = 0x000 then some .status
  else if o = 0x004 then some (.reg .node)
  else if o = 0x008 then some (.reg .pwrcap)
  else if o / 8 = 0x010 / 8 then some (.half .tenbase (o % 8 = 4))
  else if o / 8 = 0x018 / 8 then some (.half .nwinbase (o % 8 = 4))
  else if o = 0x020 then some (.reg .capdec)
  else if o = 0x024 then some .resetCmd
  else if o / 8 = 0x028 / 8 then some (.half .rststat (o % 8 = 4))
  else if 0x040 ≤ o ∧ o < 0x080 then some (.dieShare ((o - 0x040) / 4))
  else if 0x080 ≤ o ∧ o < 0x0C0 then some (.hbmShare ((o - 0x080) / 4))
  else if 0x100 ≤ o ∧ o < 0x120 then some (.half (.attestNonce ((o - 0x100) / 8)) (o % 8 = 4))
  else if o / 8 = 0x120 / 8 then some (.half .attestAddr (o % 8 = 4))
  else if o = 0x128 then some .attest
  else if o = 0x12C then some .attestDone
  else if o / 8 = 0x200 / 8 then some (.half .fwAddr (o % 8 = 4))
  else if o / 8 = 0x208 / 8 then some (.half .fwLen (o % 8 = 4))
  else if o = 0x210 then some .fwSubmit
  else if o = 0x214 then some .fwDone
  else none

/-- The link block. -/
def linkCell (o : Nat) : Option Cell :=
  if 0x10 ≤ o ∧ o < 0x18 then some (.reg (.pcieCto ((o - 0x10) / 4)))
  else if 0x20 ≤ o ∧ o < 0x40 then some (.reg (.cxlCto ((o - 0x20) / 4)))
  else none

/-- The range unit of I/O die `i`. -/
def unitCell (i o : Nat) : Option Cell :=
  if o < 8 then some (.half (.asidtb i) (o = 4))
  else if 0x100 ≤ o ∧ o < 0x120 then some (.cmd i ((o - 0x100) / 4))
  else none

/-- Network engine `e`. -/
def engineCell (e o : Nat) : Option Cell :=
  if o = 0x00 then some (.reg (.ncfg e))
  else if o = 0x04 then some (.reg (.nrto e))
  else if o = 0x08 then some (.ntest e)
  else if o = 0x0C then some (.reg (.nstat e))
  else if 0x2000 ≤ o then
    let q := (o - 0x2000) / 32
    match o % 32 / 4 with
    | 0 => some (.half (.sqBase e q) false)
    | 1 => some (.half (.sqBase e q) true)
    | 2 => some (.sqCtl e q)
    | 3 => some (.sqGo e q)
    | _ => none
  else none

/-- The registers of hardware queue `q` (13 R264). -/
def queueCell (d q o : Nat) : Option Cell :=
  match o / 4 with
  | 0 => some (.half (.qbase d q) false)
  | 1 => some (.half (.qbase d q) true)
  | 2 => some (.qctl d q)
  | 4 => some (.half (.qptra d q) false)
  | 5 => some (.half (.qptra d q) true)
  | 6 => some (.qstatus d q)
  | 7 => some (.qresume d q)
  | _ => none

/-- Monitor channel `m` of a die. -/
def monitorCell (d m o : Nat) : Option Cell :=
  match o / 4 with
  | 0 => some (.reg (.pmsel d m))
  | 1 => some (.reg (.pmwin d m))
  | 2 => some (.reg (.pmctl d m))
  | 3 | 4 | 5 => some (.pmResult d m (o / 4 - 3))
  | k => if 8 ≤ k ∧ k < 24 then some (.pmResult d m (3 + (k - 8))) else none

/-- A quad's registers (12 R261). -/
def quadCell (q o : Nat) : Option Cell :=
  match o / 4 with
  | 0 => some (.qcfg q)
  | 1 => some (.qwctl q)
  | 2 => some (.reg (.qwstat q))
  | _ => none

/-- A die's command-processor window. -/
def dieCell (d o : Nat) : Option Cell :=
  if o = 0x00 then some (.reg (.wdgrp d))
  else if o = 0x04 then some (.reg (.wdcp d))
  else if o = 0x08 then some (.reg (.wdstat d))
  else if o = 0x0C then some (.reg (.wsidle d))
  else if 0x10 ≤ o ∧ o < 0x1C then some (.errors d ((o - 0x10) / 4))
  else if 0x100 ≤ o ∧ o < 0x500 then monitorCell d ((o - 0x100) / 0x80) ((o - 0x100) % 0x80)
  else if 0x1000 ≤ o ∧ o < 0x3000 then queueCell d ((o - 0x1000) / 64) (o % 64)
  else if 0x4000 ≤ o ∧ o < 0x4400 then quadCell (64 * d + (o - 0x4000) / 16) (o % 16)
  else if 0x10000 ≤ o ∧ o < 0x20000 then some (.wsTag (256 * d + (o - 0x10000) / 256) ((o - 0x10000) / 4 % 64))
  else none

/-- The word at a 4-aligned offset of PF 0's BAR 0; none for an offset not listed. -/
def pfCell (o : Nat) : Option Cell :=
  if o < 0x1000 then packageCell o
  else if o < 0x1400 then some (.asids (o - 0x1000))
  else if 0x2000 ≤ o ∧ o < 0x4000 then some (.half (.hostWin ((o - 0x2000) / 32) (o % 32 / 8)) (o % 8 = 4))
  else if 0x4000 ≤ o ∧ o < 0x4400 then some (.half (.peerWin ((o - 0x4000) / 8)) (o % 8 = 4))
  else if 0x8000 ≤ o ∧ o < 0x10000 then
    some (if o % 8 = 0 then .reg (.counterVal ((o - 0x8000) / 8)) else .counterTenant ((o - 0x8000) / 8))
  else if 0x10000 ≤ o ∧ o < 0x11000 then linkCell (o - 0x10000)
  else if 0x20000 ≤ o ∧ o < 0x40000 then unitCell ((o - 0x20000) / 0x10000) (o % 0x10000)
  else if 0x40000 ≤ o ∧ o < 0x80000 then engineCell ((o - 0x40000) / 0x4000) (o % 0x4000)
  else if 0x1000000 ≤ o ∧ o < 0x2000000 then dieCell ((o - 0x1000000) / 0x100000) (o % 0x100000)
  else none

/-- The word at an offset of BAR 0 of tenant `t`'s function: the queues whose QCTL.tenant is `t`, and its event registers. -/
def vfCell (s : State) (t o : Nat) : Option Cell :=
  if o = 0xFFFC0 then some (.reg (.evcons t))
  else if o = 0xFFFC4 then some (.reg (.evstat t))
  else if o < 0x100000 ∧ o % 0x10000 < 0x2000 then
    let d := o / 0x10000
    let q := o % 0x10000 / 64
    if (s.queue d q).tenant = t then queueCell d q (o % 64) else none
  else none

/-- The word of a function: number 0 is PF 0, `t + 1` the virtual function of tenant `t`. -/
def cellAt (s : State) (fn o : Nat) : Option Cell := if fn = 0 then pfCell o else if fn ≤ 64 then vfCell s (fn - 1) o else none

/-! ## Reading -/

def bitVal (b : Bool) (k : Nat) : Nat := if b then 2 ^ k else 0

/-- A register's value, as its fields are laid out. -/
def regValue (s : State) : CtlReg → Nat
  | .node => s.node
  | .pwrcap => s.pwrcap.toNat
  | .tenbase => s.tenbase.toNat
  | .nwinbase => s.nwinbase.toNat
  | .capdec => s.capdec.toNat
  | .rststat => s.rststat.toNat
  | .attestNonce k => s.attNonce.toNat / 2 ^ (64 * k) % 2 ^ 64
  | .attestAddr => s.attAddr.toNat
  | .fwAddr => s.fwAddr.toNat
  | .fwLen => s.fwLen.toNat
  | .asidMap a => s.tenantOf a
  | .hostWin i k =>
    let w := s.hostWin i
    if k = 0 then w.hbase else if k = 1 then w.hsize
    else if k = 2 then bitVal w.valid 0 + 2 * w.port + 256 * w.tenant else 0
  | .peerWin i => (mget 0 s.peerWins i).toNat
  | .counterVal i => (mget 0 s.counters i).toNat
  | .counterTenant i => (mget 255 s.counterTen i).toNat
  | .pcieCto p => (s.pciePort p).cto + bitVal (s.pciePort p).down 7
  | .cxlCto p => (s.cxlPort p).cto + bitVal (s.cxlPort p).down 7
  | .asidtb i => (mget 0 s.asidtb i).toNat
  | .ncfg e => (s.eng e).psize + bitVal (s.eng e).en 2
  | .nrto e => (s.eng e).rto + 2 ^ 16 * (s.eng e).tries + 2 ^ 20 * (s.eng e).dup
  | .nstat e => (s.eng e).rexmit + 2 ^ 16 * (s.eng e).tdrops
  | .sqBase e q => (s.sendQ e q).base
  | .sqLsize e q => (s.sendQ e q).lsize
  | .sqTenant e q => (s.sendQ e q).tenant
  | .sqAsid e q => (s.sendQ e q).asid
  | .wdgrp d => (s.die d).gcyc
  | .wdcp d => (s.die d).cpms + 2 ^ 16 * (s.die d).cpesc
  | .wdstat d => (s.die d).kills + bitVal (s.die d).fault 16
  | .wsidle d => (s.die d).wsidle.toNat
  | .pmsel d m => ((s.die d).pm m).sel.toNat
  | .pmwin d m => ((s.die d).pm m).win.toNat
  | .pmctl d m => bitVal ((s.die d).pm m).cont 1 + bitVal ((s.die d).pm m).done 2
  | .qbase d q => (s.queue d q).base
  | .qctl d q =>
    let x := s.queue d q
    x.lsize + 2 ^ 5 * x.prio + bitVal x.en 7 + 2 ^ 8 * x.tenant + 2 ^ 14 * x.asid
  | .qptra d q => (s.queue d q).ptrblk
  | .qwctl q => (s.quad q).bto + 2 ^ 16 * (s.quad q).esc
  | .qwstat q =>
    let x := s.quad q
    x.stalls + 2 ^ 8 * x.btos + 2 ^ 16 * x.lastbar + bitVal x.escd 19 + bitVal x.hop 20
  | .evcons t => (mget 0 s.evcons t).toNat
  | .evstat t => bitVal (mget false s.evstat t) 0

/-- The value that a read of the word gives; write-only bits read 0. QCFG.chain reads the mode in effect, also while a change is pending (log
entry 100). The words of ATTEST and FWUPD that a write of 1 acts on read 0 (log entry 117). -/
def cellValue (s : State) : Cell → Nat
  | .half r hi => if hi then regValue s r / 2 ^ 32 else regValue s r % 2 ^ 32
  | .reg r => regValue s r
  | .asids a => ((List.range 4).map fun k => 2 ^ (8 * k) * s.tenantOf (a + k)).sum
  | .counterTenant i => regValue s (.counterTenant i)
  | .sqCtl e q =>
    let x := s.sendQ e q
    x.lsize + bitVal x.en 4 + 2 ^ 8 * x.tenant + 2 ^ 16 * x.asid
  | .sqGo _ _ | .qresume _ _ | .resetCmd | .attest | .fwSubmit => 0
  | .ntest e => (s.eng e).tqueue + 2 ^ 8 * (s.eng e).tpkt + bitVal (s.eng e).arm 31
  | .qctl d q => regValue s (.qctl d q)
  | .qstatus d q => (qstatus (s.queue d q)).toNat
  | .qcfg q => (s.quad q).phys + bitVal (s.quad q).offline 7 + bitVal (s.quad q).chain 8
  | .qwctl q => regValue s (.qwctl q)
  | .wsTag core n =>
    let x := (s.core core).slot n
    x.asid + bitVal x.valid 15 + 2 ^ 16 * x.gen
  | .cmd i k => (mget 0 s.cmdWin (8 * i + k)).toNat
  | .status => bitVal s.ready 0 + bitVal s.recovery 1
  | .attestDone => bitVal s.attDone 0
  | .fwDone => bitVal s.fwDone 0 + bitVal s.fwRejected 1
  | .dieShare d => mget 0 s.dieShare d
  | .hbmShare k => mget 0 s.hbmShare k
  | .errors d k => if k = 0 then (s.die d).errCorr else if k = 1 then (s.die d).errUncorr else (s.die d).hbmCorr
  | .pmResult d m k =>
    let x := (s.die d).pm m
    if k = 0 then x.min else if k = 1 then x.max else if k = 2 then x.count else mget 0 x.bins (k - 3)

/-- Bytes of a BAR from `off` on: offsets not listed read zero. -/
def barBytes (s : State) (fn off n : Nat) : List Byte :=
  (List.range n).map fun i =>
    let o := off + i
    BitVec.ofNat 8 (match cellAt s fn (o / 4 * 4) with
      | some c => cellValue s c / 2 ^ (8 * (o % 4))
      | none => 0)

/-- A read through BAR 0 is answered. -/
def barRead (s : State) (fn off n tag : Nat) : State := sendOut s (.reply tag (barBytes s fn off n))

/-! ## Writing -/

/-- A word some of whose bits are cleared by writing 1. -/
def clearsOnes : CtlReg → Bool
  | .rststat | .nstat _ | .wdstat _ | .qwstat _ | .evstat _ | .pmctl _ _ => true
  | _ => false

/-- What stands for the bytes of a word that a write leaves out: the value as stored, and 0 where writing 1 acts. -/
def keptValue (s : State) : Cell → Nat
  | .half r hi => if clearsOnes r then 0 else cellValue s (.half r hi)
  | .reg (.pmctl d m) => bitVal ((s.die d).pm m).cont 1
  | .reg r => if clearsOnes r then 0 else regValue s r
  | c => cellValue s c

/-- What an instruction answers. -/
abbrev Act := State → Host.Outcome State Fault Refusal

/-- Instructions one after another. -/
def inOrder : List Act → Act
  | [], s => .next s
  | f :: fs, s =>
    match f s with
    | .next s => inOrder fs s
    | o => o

/-- The command in a range unit's window is submitted (15 R291). -/
def submitted (s : State) (i : Nat) : Act :=
  let w (k : Nat) : Nat := (mget 0 s.cmdWin (8 * i + k)).toNat
  let dbl (k : Nat) : Dbl := BitVec.ofNat 64 (w k + 2 ^ 32 * w (k + 1))
  let c : RangeCmd :=
    { chunk := BitVec.ofNat 8 (w 0 / 256), asid := BitVec.ofNat 16 (w 0 / 65536), idx := BitVec.ofNat 32 (w 1), arg := dbl 2
      pad := dbl 4, done := dbl 6 }
  let op := w 0 % 256
  if op = 0 || 5 < op || cmdMalformed op c then execMalformedRangeCommand (BitVec.ofNat 8 op) c
  else if op = 1 then execReplaceDescriptor c
  else if op = 2 then execReplaceTable c
  else if op = 3 then execSlide c
  else if op = 4 then execDemote c
  else execMigrate c

/-- A write of QCTL, by what it does with en (13 R264). -/
def qctlAct (s : State) (d q v : Nat) : Act :=
  let w : Word := BitVec.ofNat 32 v
  let en : Bool := v / 128 % 2 = 1
  if en && !(s.queue d q).en then execQueueEnable d q w
  else if !en && (s.queue d q).en then execQueueDisable d q w
  else execRegisterWrite (.qctl d q) (BitVec.ofNat 64 v)

/-- A write of a send queue's control word (R362). -/
def sqActs (s : State) (e q v : Nat) : List Act :=
  let w (n : Nat) : Dbl := BitVec.ofNat 64 n
  let en : Bool := v / 16 % 2 = 1
  if (s.sendQ e q).en then (if en then [] else [execSendQueueDisable e q])
  else
    [execRegisterWrite (.sqLsize e q) (w (v % 16)), execRegisterWrite (.sqTenant e q) (w (v / 256 % 256)),
      execRegisterWrite (.sqAsid e q) (w (v / 65536))] ++ if en then [execSendQueueEnable e q] else []

/-- A write of QCFG, field by field (12 R250, R251, R256). -/
def qcfgActs (s : State) (q v : Nat) : List Act :=
  let x := s.quad q
  let off : Bool := v / 128 % 2 = 1
  let on : Bool := v / 256 % 2 = 1
  (if v % 128 ≠ x.phys then [execQuadRemap q (v % 128)] else []) ++ (if off ≠ x.offline then [execQuadOffline q off] else [])
    ++ (if on ≠ x.wantChain then [execChainModeSet q on] else [])

/-- The instructions that a write of the value `v` to a word stands for, in order; none for a read-only word, nor for the
words of ATTEST and FWUPD that tell what has been done (log entry 117). -/
def cellActs (s : State) (v : Nat) : Cell → List Act
  | .half r hi =>
    let other := keptValue s (.half r !hi)
    [execRegisterWrite r (BitVec.ofNat 64 (if hi then other + 2 ^ 32 * v else v + 2 ^ 32 * other))]
  | .reg r => [execRegisterWrite r (BitVec.ofNat 64 v)]
  | .asids a => (List.range 4).map fun k => execRegisterWrite (.asidMap (a + k)) (BitVec.ofNat 64 (v / 2 ^ (8 * k) % 256))
  | .counterTenant i => [execRegisterWrite (.counterTenant i) (BitVec.ofNat 64 (v % 256))]
  | .sqCtl e q => sqActs s e q v
  | .sqGo e q => if v % 2 = 1 then [execSendQueueGo e q] else []
  | .ntest e => [execNtestArm e (BitVec.ofNat 32 v)]
  | .qctl d q => [qctlAct s d q v]
  | .qresume d q => if v % 2 = 1 then [execQresumeGo d q] else []
  | .qcfg q => qcfgActs s q v
  | .qwctl q =>
    if v / 2 ^ 24 % 2 = 1 then [execQwctlClr q (BitVec.ofNat 32 v)] else [execRegisterWrite (.qwctl q) (BitVec.ofNat 64 v)]
  | .wsTag core n => [execWsTagWrite core n (BitVec.ofNat 32 v)]
  | .cmd i k => if k = 7 then [submitted s i] else []
  | .resetCmd => (if v % 2 = 1 then [execWarmReset] else []) ++ (if v / 2 % 2 = 1 then [execTenantReset (v / 256 % 64)] else [])
  | .attest => if v % 2 = 1 then [execAttestationRequest 0 s.attNonce s.attAddr] else []
  | .fwSubmit => if v % 2 = 1 then [execFirmwareUpdate] else []
  | .qstatus _ _ | .status | .attestDone | .fwDone | .dieShare _ | .hbmShare _ | .errors _ _ | .pmResult _ _ _ => []

/-- What a write stores beside the instructions it stands for: a word of a command window. -/
def stageCell (s : State) (v : Nat) : Cell → State
  | .cmd i k => { s with cmdWin := mset 0 s.cmdWin (8 * i + k) (BitVec.ofNat 32 v) }
  | _ => s

/-- In recovery mode PF 0 takes only a new image (R380). -/
def imageCell : Cell → Bool
  | .half .fwAddr _ | .half .fwLen _ | .fwSubmit => true
  | _ => false

/-- The value of a word after a write of the bytes in `bs` from offset `off` on; bytes it leaves out keep theirs. -/
def mergedWord (s : State) (c : Cell) (o off : Nat) (bs : List Byte) : Nat :=
  ((List.range 4).map fun k =>
    2 ^ (8 * k) * (if off ≤ o + k ∧ o + k < off + bs.length then (bs.getD (o + k - off) 0).toNat
      else keptValue s c / 2 ^ (8 * k) % 256)).sum

/-- A write of the bytes in `bs` from offset `off` on, as far as it reaches the word at `o`. -/
def barWord (fn o off : Nat) (bs : List Byte) : Act := fun s =>
  match cellAt s fn o with
  | none => .next s
  | some c =>
    if fn = 0 && s.recovery && !imageCell c then .next s
    else
      let v := mergedWord s c o off bs
      let s := stageCell s v c
      inOrder (cellActs s v c) s

/-- A write of bytes to a function's BAR 0, word by word in order of the offsets. -/
def barWrite (fn off : Nat) (bs : List Byte) : Act :=
  inOrder ((List.range ((off % 4 + bs.length + 3) / 4)).map fun k => barWord fn (off / 4 * 4 + 4 * k) off bs)

end Sys2Proof.Machine
end

