-- ==== Sys2Proof/Machine/Control.lean ====
section
/-! DEFINITION. Control transfer, parting and joining, mode, views, regions, signatures and WAIT
(spec/05_group_integer_control.md R115 to R124, spec/04_lanes_slices_groups.md R78 to R91, spec/01 R16, R17). -/
namespace Sys2Proof.Machine

/-! ## Transfers (R116 to R118) -/

/-- No effect but the signature update (R118). -/
def execNop (s : State) := plainOp .nop s fun s _ => s

/-- Target of a J-format word: next + 4 * disp24, signed. -/
def dispTarget (x : Ctx) (disp : BitVec 24) : Addr := x.next + disp.signExtend 56 * 4
def immTarget (x : Ctx) (imm : BitVec 16) : Addr := x.next + imm.signExtend 56 * 4

def execBra (disp : BitVec 24) (s : State) : Host.Outcome State Fault Refusal :=
  issue (.bra disp) s (fun _ _ => Plan.none) fun s x => .jump s (dispTarget x disp)

/-- A conditional branch on a uniform; not taken, the signature runs on (R86). -/
def branchOn (i : Instr) (s : State) (d : UReg) (imm : BitVec 16) (taken : Word → Bool) : Host.Outcome State Fault Refusal :=
  issue i s (fun _ _ => planU d) fun s x => if taken (x.g.us d) then .jump s (immTarget x imm) else .done s

def execBrz (d : UReg) (imm : BitVec 16) (s : State) := branchOn (.brz d imm) s d imm fun w => w = 0
def execBrnz (d : UReg) (imm : BitVec 16) (s : State) := branchOn (.brnz d imm) s d imm fun w => w ≠ 0

/-- CALL pushes the next address in every slice; at depth 16 the stack-spill trap with cause 2 (R117, 08 R187). -/
def execCall (disp : BitVec 24) (s : State) : Host.Outcome State Fault Refusal :=
  issue (.call disp) s (fun _ _ => Plan.none) fun s x =>
    let cs := slicesOf x.p.mask
    if cs.any fun c => decide (16 ≤ (x.g.retStack c).depth) then .trap (trapCause 0x11 2)
    else .jump (x.onGroup s fun g => g.mapRet cs (·.push x.next)) (dispTarget x disp)

/-- RET pops every slice's top entry; the word at the target begins a region (R117). Tops that differ are illegal convergence, which goes
before the empty stack's trap (01 R21). -/
def execRet (s : State) : Host.Outcome State Fault Refusal :=
  issue .ret s (fun _ _ => Plan.none) fun s x =>
    let cs := slicesOf x.p.mask
    let tops := cs.filterMap fun c => (x.g.retOf c).head?
    if tops.any fun t => t ≠ tops.headD 0 then .trap (trapOf 0x04)
    else if cs.any fun c => (x.g.retOf c).isEmpty then .trap (trapCause 0x11 3)
    else
      let s := x.onGroup s fun g => g.mapRet cs Ret.pop
      .jump (x.onPath s fun p => { p with entryDue := some 0xFFFF }) (tops.headD 0)

/-! ## The reconvergence stack (R81 to R84) -/

/-- Why a stack operation does not complete: the cause of R187, the error, the address. -/
structure StackErr where
  cause : Nat
  err : MErr
  va : Nat

/-- Address of the entry that is `k` below the newest. -/
def entryAddr (g : Group) (k : Nat) : Nat := g.spill.toNat + 64 * (depthOf g - 1 - k)

/-- The entry `k` below the newest: in hardware, or read from the spill area (cause 1 where it cannot be read). -/
def readEntry (s : State) (g : Group) (k : Nat) : Except StackErr Entry :=
  match g.stack[k]? with
  | some e => .ok e
  | none =>
    match checkSpan s g.core g.asid .read (entryAddr g k) 64 with
    | .error e => .error ⟨1, e, entryAddr g k⟩
    | .ok _ =>
      match vread s g.core g.asid (entryAddr g k) 64 with
      | .error e => .error ⟨1, e.err, e.va⟩
      | .ok b => .ok (entryOfBytes b)

/-- An entry with the changes of this instruction in view. -/
def viewEntry (s : State) (g : Group) (edits : List (Nat × Entry)) (k : Nat) : Except StackErr Entry :=
  match kget edits k with
  | some e => .ok e
  | none => readEntry s g k

/-- Write an entry to its place in the spill area. -/
def writeEntry (s : State) (g : Group) (cause va : Nat) (e : Entry) : Except StackErr State :=
  match checkSpan s g.core g.asid .write va 64 with
  | .error m => .error ⟨cause, m, va⟩
  | .ok _ =>
    match vwrite s g.core g.asid va (entryBytes e) with
    | (s', none) => .ok s'
    | (_, some m) => .error ⟨cause, m.err, m.va⟩

/-- How many entries on top are complete. -/
def countComplete (s : State) (g : Group) (edits : List (Nat × Entry)) : Nat → Nat → Except StackErr Nat
  | 0, k => .ok k
  | n + 1, k =>
    match viewEntry s g edits k with
    | .error e => .error e
    | .ok e => if e.complete then countComplete s g edits n (k + 1) else .ok k

/-- The entries from `k` on that hardware holds next, `n` of them. -/
def refill (s : State) (g : Group) (edits : List (Nat × Entry)) : Nat → Nat → Except StackErr (List Entry)
  | 0, _ => .ok []
  | n + 1, k =>
    match viewEntry s g edits k with
    | .error e => .error e
    | .ok e =>
      match refill s g edits n (k + 1) with
      | .error m => .error m
      | .ok r => .ok (e :: r)

/-- Write back the changed entries that lie in memory (cause 4). -/
def writeBacks (s : State) (g : Group) : List (Nat × Entry) → Except StackErr State
  | [] => .ok s
  | (k, e) :: r =>
    if k < g.stack.length then writeBacks s g r
    else
      match writeEntry s g 4 (entryAddr g k) e with
      | .error m => .error m
      | .ok s' => writeBacks s' g r

/-- The stack after its changes: write-backs, pops of complete entries, refills (R82, R84). Where a refill cannot be read and a write-back
faults in one instruction, the refill's cause 1 is reported (log entry 94). -/
def settleStack (s : State) (gid : Nat) (g : Group) (edits : List (Nat × Entry)) : Except StackErr State :=
  match countComplete s g edits (depthOf g) 0 with
  | .error e => .error e
  | .ok n =>
    let left := depthOf g - n
    match refill s g edits (if left < 32 then left else 32) n with
    | .error e => .error e
    | .ok hw =>
      match writeBacks s g edits with
      | .error e => .error e
      | .ok s' =>
        let open_ := (List.range g.spilled).map fun j =>
          match kget edits (g.stack.length + j) with
          | some e => entryOpen e
          | none => g.spillOpen.getD j false
        let sp := left - hw.length
        .ok (s'.setGroup gid { g with stack := hw, spilled := sp, spillOpen := open_.drop (g.spilled - sp) })

/-- The end of the spill area; in a handler that of the trapping group (R84, R188). -/
def spillEnd (g : Group) : Nat :=
  match g.handler with
  | some h => h.spillEnd
  | none => g.spill.toNat + g.spillBytes

/-- Push an entry: at 32 in hardware the oldest goes to the spill area (R84, cause 0). -/
def pushEntry (s : State) (gid : Nat) (g : Group) (e : Entry) : Except StackErr State :=
  if g.stack.length < 32 then .ok (s.setGroup gid { g with stack := e :: g.stack })
  else
    let va := g.spill.toNat + 64 * g.spilled
    if spillEnd g < va + 64 then .error ⟨0, .trap 0x11, va⟩
    else
      match g.stack.getLast? with
      | none => .ok s
      | some old =>
        match writeEntry s g 0 va old with
        | .error m => .error m
        | .ok s' => .ok (s'.setGroup gid { g with
            stack := e :: g.stack.dropLast, spilled := g.spilled + 1, spillOpen := entryOpen old :: g.spillOpen })

/-- A stack operation that does not complete: the stack-spill trap, or the park on an absent chunk. -/
def stackTrap (x : Ctx) (s : State) (e : StackErr) : Res := parkOr x s e.va e.err fun _ => .trap (trapCause 0x11 e.cause)

/-- The path's last word enters its slices' signatures before the path ends (R86). -/
def signLast (x : Ctx) (s : State) : State := x.onGroup s fun g => setSigs g x.p.mask (sigStep x.word)

/-- BRD (R81). -/
def execBrd (disp : BitVec 24) (s : State) : Host.Outcome State Fault Refusal :=
  issue (.brd disp) s planGuard fun s x =>
    let pre := pathLanes x.g x.p
    let tk := pre &&& guardMask x.g
    let nt := pre &&& ~~~ tk
    let owed := sliceSet tk &&& sliceSet nt
    let e : Entry :=
      { pre := pre, tk := tk, target := dispTarget x disp, join := none, arrT := 0, arrN := 0, owed := owed,
        parting := tk ≠ 0 && nt ≠ 0, complete := false, side := x.p.side }
    match pushEntry s x.gid x.g e with
    | .error m => stackTrap x s m
    | .ok s =>
      let s := endPath (signLast x s) x
      let t := tk &&& ~~~ lanesOfSlices owed
      let s := if t ≠ 0 then createPath s x.gid t e.target .taken x.p.marks else s
      let s := if nt ≠ 0 then createPath s x.gid nt x.next .fall x.p.marks else s
      .ended (settleGroup s x.gid)

/-- The newest incomplete entry whose pre holds a lane of `m` (R82). -/
def findEntry (s : State) (g : Group) (m : Mask) : Nat → Nat → Except StackErr (Option (Nat × Entry))
  | 0, _ => .ok none
  | n + 1, k =>
    match readEntry s g k with
    | .error e => .error e
    | .ok e => if !e.complete && e.pre &&& m ≠ 0 then .ok (some (k, e)) else findEntry s g m n (k + 1)

/-- The completion step of R82: `none` while lanes are missing, else whether the mask check holds. -/
def completion (e : Entry) (exited : Mask) : Option Bool :=
  let x := e.pre &&& exited
  if e.arrT ||| e.arrN ||| x = e.pre then
    some (e.arrT &&& e.arrN = 0 && (e.arrT ||| e.arrN) = (e.pre &&& ~~~ x))
  else none

/-- The marks of two paths that join. -/
def joinMarks (a b : Marks) : Marks :=
  { acq := Nat.max a.acq b.acq, acqWide := a.acqWide || b.acqWide, rel := Nat.max a.rel b.rel, ar := Nat.max a.ar b.ar
    join := Nat.max a.join b.join, spf := Nat.max a.spf b.spf, narrow := a.narrow ++ b.narrow, fenced := a.fenced || b.fenced }

/-- The lanes that a completed entry joins. -/
def mergeMask (g : Group) (e : Entry) (exited : Mask) : Mask := e.pre &&& lanesBelow g.lanes &&& ~~~ exited

/-- The merged path of a completed entry: every access of the paths that join is earlier, their stores and atomics are awaited, and
their ordering marks hold for it (16 R320). -/
def mergePath (s : State) (gid : Nat) (e : Entry) (exited : Mask) : State :=
  match s.group gid with
  | none => s
  | some g =>
    let m := mergeMask g e exited
    if m = 0 then s
    else
      let marks := (g.left.filter fun l => l.1 &&& m ≠ 0).foldl (fun k l => joinMarks k l.2) { Marks.zero with join := s.nextOp }
      createPath (s.setGroup gid { g with left := g.left.filter fun l => l.1 &&& m = 0 }) gid m ((e.join.getD 0) + 4) e.side marks

/-- The owed slices among `w` start their taken path (R82). -/
def startOwed (s : State) (gid : Nat) (e : Entry) (w : BitVec 16) (marks : Marks) : State :=
  let m := e.tk &&& lanesOfSlices w
  if m = 0 then s else createPath s gid m e.target .taken marks

/-- REGANG (R82). -/
def execRegang (s : State) : Host.Outcome State Fault Refusal :=
  issue .regang s (fun _ _ => Plan.none) fun s x =>
    let q := pathLanes x.g x.p
    match findEntry s x.g q (depthOf x.g) 0 with
    | .error m => stackTrap x s m
    | .ok none => .trap (trapOf 0x04)
    | .ok (some (k, e0)) =>
      if e0.join.any (· ≠ x.p.pc) then .trap (trapOf 0x04)
      else
        let w := sliceSet x.p.mask &&& e0.owed
        let e1 : Entry := { e0 with join := some x.p.pc, owed := e0.owed &&& ~~~ w }
        let e2 : Entry :=
          if x.p.side = .taken then { e1 with arrT := e1.arrT ||| q } else { e1 with arrN := e1.arrN ||| q }
        match completion e2 x.g.exited with
        | some false => .qualified (trapOf 0x0D)
        | c =>
          let e := { e2 with complete := c.isSome }
          match settleStack s x.gid x.g [(k, e)] with
          | .error m => stackTrap x s m
          | .ok s =>
            let s := x.onGroup (endPath (signLast x s) x) fun g => { g with left := (q, x.p.marks) :: g.left }
            let s := startOwed s x.gid e0 w x.p.marks
            let s := if c.isSome then mergePath s x.gid e x.g.exited else s
            .ended (settleGroup s x.gid)

/-- What an exit changes in one entry: the owed slices that start, and its completion; `none` for a failed mask check. -/
def exitEntry (e : Entry) (w : BitVec 16) (exited : Mask) : Option (Entry × BitVec 16 × Bool) :=
  if e.complete then some (e, 0, false)
  else
    let v := e.owed &&& w
    let e1 : Entry := { e with owed := e.owed &&& ~~~ v }
    match completion e1 exited with
    | some false => none
    | some true => some ({ e1 with complete := true }, v, true)
    | none => some (e1, v, false)

/-- What an exit does to the stack. -/
inductive ExitPlan where
  | ok (edits : List (Nat × Entry)) (starts : List (Entry × BitVec 16)) (merges : List Entry)
  | mismatch
  | fail (e : StackErr)

/-- Walk the entries, newest first; a slice that owes in several starts the newest, and one with lanes left in an inner entry, which that
entry's merged path will hold, goes on owing in the outer ones until that path arrives or exits (R83; log entry 15). -/
def exitWalk (s : State) (g : Group) (exited : Mask) : Nat → Nat → BitVec 16 → ExitPlan
  | 0, _, _ => .ok [] [] []
  | n + 1, k, w =>
    match readEntry s g k with
    | .error e => .fail e
    | .ok e =>
      match exitEntry e w exited with
      | none => .mismatch
      | some (e', v, done) =>
        match exitWalk s g exited n (k + 1) (w &&& ~~~ v &&& ~~~ (if e.complete then 0 else sliceSet (mergeMask g e' exited))) with
        | .ok ed st mg =>
          .ok (if e' = e then ed else (k, e') :: ed) (if v = 0 then st else (e, v) :: st) (if done then e' :: mg else mg)
        | r => r

/-- EXIT (R83). -/
def execExit (s : State) : Host.Outcome State Fault Refusal :=
  issue .exit s (fun _ _ => Plan.none) fun s x =>
    let exited := x.g.exited ||| x.p.mask
    match exitWalk s x.g exited (depthOf x.g) 0 (sliceSet x.p.mask) with
    | .fail m => stackTrap x s m
    | .mismatch => .qualified (trapOf 0x0D)
    | .ok edits starts merges =>
      match settleStack s x.gid x.g edits with
      | .error m => stackTrap x s m
      | .ok s =>
        let s := x.onGroup (signLast x s) fun g => { g with exited := exited }
        if lanesBelow x.g.lanes &&& ~~~ exited = 0 then .ended (endLast s x)
        else
          let s := endPath s x
          let s := starts.foldl (fun s e => startOwed s x.gid e.1 e.2 x.p.marks) s
          let s := merges.foldl (fun s e => mergePath s x.gid e exited) s
          .ended (settleGroup s x.gid)

/-! ## Mode and views (R16, R120) -/

/-- MODE writes one half; besides R80 it traps while more than one path lives (R16). Clearing idemen stops the checking of R90 at
once; setting it begins one at the next region entry (R17). -/
def execMode (d : BitVec 8) (imm : BitVec 16) (s : State) : Host.Outcome State Fault Refusal :=
  issue (.mode d imm) s (fun _ _ => { Plan.none with parted := true }) fun s x =>
    if 1 < x.g.paths.length then .trap (trapOf 0x03)
    else
      let m : Word := if d = 0 then x.g.mode.extractLsb' 16 16 ++ imm else imm ++ x.g.mode.setWidth 16
      .done (x.onPath (x.onGroup s fun g => { g with mode := m }) fun p => { p with idem := p.idem && modeIdemen m })

/-- The view that VIEW would install. -/
def newView (v : Views) (b : ViewSel) (d a : Word) : Views :=
  let lo : Word := BitVec.ofNat 32 (a.toNat % 65536)
  match b with
  | .vv => { v with vvbase := d, vvcount := lo }
  | .tv => { v with tvbase := d, tvcount := lo, tvstride := BitVec.ofNat 32 (256 * (a.toNat / 65536)) }
  | .av => { v with avbase := d }

def execView (d a : UReg) (b : ViewSel) (s : State) : Host.Outcome State Fault Refusal :=
  issue (.view d a b) s
    (fun _ _ => Plan.all [{ planU d with parted := true }, if b = .av then Plan.none else planU a])
    fun s x =>
      let v := newView x.g.views b (x.g.us d) (x.g.us a)
      if viewsOk x.g.regbytes v then .done (x.onGroup s fun g => { g with views := v }) else .trap (trapOf 0x02)

/-! ## Regions, signatures, WAIT (R87, R88, R121, R123) -/

/-- REGION begins a region at its own word, once the path has drained (R121, R179). -/
def execRegion (imm : BitVec 16) (s : State) : Host.Outcome State Fault Refusal :=
  issue (.region imm) s (fun _ _ => Plan.none) fun s x =>
    if entered x.p && x.p.region.regidx = imm then .done s
    else if drained x.g x.p then .done (enterRegion s x.gid x.pid imm)
    else .hold

/-- SIGCHK (R87): both halves of the signature, the same in every slice, and the mask of the path's creation. -/
def execSigchk (imm : BitVec 16) (s : State) : Host.Outcome State Fault Refusal :=
  issue (.sigchk imm) s (fun _ _ => Plan.none) fun s x =>
    let cs := slicesOf x.p.mask
    let S := x.g.sigOf (cs.headD 0)
    let bad := S.setWidth 16 ^^^ S.extractLsb' 16 16 ≠ imm || cs.any (fun c => x.g.sigOf c ≠ S) || x.p.mask ≠ x.p.mask0
    if modeSigen x.g.mode && bad then .qualified (trapOf 0x0D) else .jump s x.next

/-- A counter at or below its field; 63 leaves it unexamined (R123). -/
def atMost (n : Nat) (f : BitVec 6) : Bool := f.toNat = 63 || decide (n ≤ f.toNat)

def waitHolds (g : Group) (loads stores copies matrix : BitVec 6) : Bool :=
  atMost (countOps g isLoad) loads && atMost (countOps g isStore) stores && atMost (countOps g isCopy) copies
    && atMost (countOps g isMat) matrix

/-- WAIT (R123): satisfied at once it is no region boundary; else it waits in a region of its own, whose entry drains all but
loads (R179), and the next word begins another. -/
def execWait (loads stores copies matrix : BitVec 6) (s : State) : Host.Outcome State Fault Refusal :=
  issue (.wait loads stores copies matrix) s (fun _ _ => Plan.none) fun s x =>
    let ok := waitHolds x.g loads stores copies matrix
    let fin (s : State) : Res := if ok then .done (entryNext x s) else .holdWith s
    if !x.p.waiting then
      if ok then .done s
      else
        let s := x.onPath s fun p => { p with waiting := true }
        .holdWith (if drainedButLoads x.g x.p then enterRegion s x.gid x.pid 0xFFFF else s)
    else if entered x.p then fin s
    else if drainedButLoads x.g x.p then fin (enterRegion s x.gid x.pid 0xFFFF)
    else .hold

end Sys2Proof.Machine
end

