-- ==== Sys2Proof/Machine/Convert.lean ====
section
/-! DEFINITION. Conversion, quantisation and packing (spec/06_group_vector_memory.md R132 to R136, spec/03 R53 to R58). -/
namespace Sys2Proof.Machine

/-! ## CVT (R132) -/

/-- Types that CVT converts, by code (0 to 5, 8 to 10, 12 to 15). -/
def cvtType (c : Nat) : Bool := cvtCode c

/-- CVT consults type, round, flush, nov and sat. -/
def okCvt (m : Word) : Bool := cvtType (modeType m) && okRound m && okNov m

/-- Source element i converts into target element i; target elements past the source count are 0. -/
def cvtWord (m : Word) (dst : Ty) (x : Word) : Word × Bool :=
  let src := modeTy m
  let rs := (List.range (tyCount dst)).map fun i =>
    if i < tyCount src then convertTy src dst (numMode m) (elemBits (tyWidth src) i x) else (0, false)
  (wordOfElems (tyWidth dst) (rs.map (·.1)), rs.any (·.2))

def execCvt (d : VReg) (a : VSrc) (sub : BitVec 5) (s : State) :=
  laneOp (.cvt d a sub) s okCvt d [a] [] fun m ws => cvtWord m ((tyOfCode sub.toNat).getD .i32) (ws.getD 0 0)

/-! ## QNT and DQNT (R133, R134) -/

def okQnt (m : Word) : Bool := okRound m && okNov m

/-- The active lanes of block b, in order. -/
def blockLanes (m : Mask) (b : Nat) : List Nat := (lanesOf m).filter fun l => l / 32 = b

/-- QNT of one block: lane and word, SAT, UF. -/
def qntLanes (t : Ty) (nm : NumMode) (vs : List Word) (ls : List Nat) : List (Nat × Word) × Bool × Bool :=
  let (e, codes, sat, uf) := qntBlock t nm (ls.map fun l => ieeeDecode ieeeF32 nm.flush (vs.getD l 0).toNat)
  ((ls.zip codes).map fun p => (p.1, BitVec.ofNat 32 (e * 256 + p.2)), sat, uf)

def execQnt (d : VReg) (a : VSrc) (sub : BitVec 5) (s : State) : Host.Outcome State Fault Refusal :=
  issue (.qnt d a sub) s (lanePlan okQnt d [a] []) fun s x =>
    let t := (tyOfCode sub.toNat).getD .f8e4
    let vs := srcVals x.g x.p a
    let m := active x.g x.p
    let rs := (List.range 2).map fun b =>
      let ls := blockLanes m b
      if ls.isEmpty then ([], false, false) else qntLanes t (numMode x.g.mode) vs ls
    let out := rs.flatMap (·.1)
    .done (x.onGroup s fun g =>
      ((g.setV d m (rowOf fun l => (kget out l).getD 0)).setFlag flagSat (rs.any (·.2.1))).setFlag flagUf (rs.any (·.2.2)))

/-- DQNT consults round; its result is F32. Of a code narrower than 8 bits the low bits of [7:0] count (log entry 76). -/
def dqntWord (t : Ty) (nm : NumMode) (w : Word) : Word :=
  BitVec.ofNat 32 (ieeeRound ieeeF32 nm.rnd nm.flush (scaledElem t (w.toNat / 256 % 256) (w.toNat % 2 ^ tyWidth t)))

/-- The 32 values of block b of the lane form for I4X, and OX. -/
def dqntI4x (vs : List Word) (b : Nat) : List Exact × Bool :=
  let h := (vs.getD (32 * b) 0).toNat
  i4xDecode ((List.range 32).map fun i => (vs.getD (32 * b + i) 0).toNat % 16) (h / 256 % 256) (h / 65536 % 256)

/-- The source words that DQNT reads: every lane of a block that is decoded under I4X, else the active lanes. -/
def dqntMask (t : Nat) (m : Mask) : Mask :=
  if t = 16 then maskOf fun l => !(blockLanes m (l / 32)).isEmpty else m

def execDqnt (d : VReg) (a : VSrc) (sub : BitVec 5) (s : State) : Host.Outcome State Fault Refusal :=
  issue (.dqnt d a sub) s
    (fun g p => Plan.all [planIllegal (!okRound g.mode), planGuard g p, planSrc g p (dqntMask sub.toNat (active g p)) a,
      planDst g (active g p) d])
    fun s x =>
      let vs := srcVals x.g x.p a
      let m := active x.g x.p
      let nm := numMode x.g.mode
      let t := (tyOfCode sub.toNat).getD .f8e4
      let blocks := (List.range 2).map fun b => if (blockLanes m b).isEmpty then ([], false) else dqntI4x vs b
      let out (l : Nat) : Word :=
        if t = .i4x then
          BitVec.ofNat 32 (ieeeRound ieeeF32 nm.rnd nm.flush (((blocks.getD (l / 32) ([], false)).1).getD (l % 32) .nan))
        else dqntWord t nm (vs.getD l 0)
      .done (x.onGroup s fun g => (g.setV d m (rowOf out)).setFlag flagOx (t = .i4x && blocks.any (·.2)))

/-! ## PACK and UNPACK (R135, R136) -/

/-- Types of PACK by code. -/
def okPack (m : Word) : Bool := [2, 3, 4, 5, 9, 10, 12, 13, 14, 15].contains (modeType m)

/-- Source lanes of PACK that supply some active lane, of operand a (k = 0) or b (k = 1). -/
def packMask (w k : Nat) (m : Mask) : Mask :=
  let n := 32 / w
  maskOf fun l => (lanesOf m).any fun q => decide (n * q ≤ 64 * k + l) && decide (64 * k + l < n * q + n)

def execPack (d : VReg) (a b : VSrc) (s : State) : Host.Outcome State Fault Refusal :=
  issue (.pack d a b) s
    (fun g p =>
      let w := tyWidth (modeTy g.mode)
      Plan.all [planIllegal (!okPack g.mode), planGuard g p, planSrc g p (packMask w 0 (active g p)) a,
        planSrc g p (packMask w 1 (active g p)) b, planDst g (active g p) d])
    fun s x =>
      let w := tyWidth (modeTy x.g.mode)
      let n := 32 / w
      let c := srcVals x.g x.p a ++ srcVals x.g x.p b
      let m := active x.g x.p
      .done (x.onGroup s fun g => g.setV d m (rowOf fun l =>
        wordOfElems w ((List.range n).map fun i => (c.getD (n * l + i) 0).toNat)))

/-- Types of UNPACK, and the part below the element count: eight parts under I4X. -/
def okUnpack (part : Nat) (m : Word) : Bool :=
  (okPack m && decide (part < tyCount (modeTy m))) || modeType m = 16

/-- UNPACK rounds only under I4X. -/
def okUnpackRound (m : Word) : Bool := modeType m ≠ 16 || okRound m

/-- One element widened: integers extended, floats exactly as F32. -/
def unpackWord (m : Word) (part : Nat) (x : Word) : Word :=
  let t := modeTy m
  let v := elemBits (tyWidth t) part x
  if tyIsInt t then BitVec.ofInt 32 (elemVal t v)
  else BitVec.ofNat 32 (ieeeRound ieeeF32 .rne false (decodeTy t (modeFlush m) v))

/-- The values of block c under I4X: lanes 4c to 4c + 3 of v[a], and lane 4c of v[a + 1]. -/
def unpackI4x (va vb : List Word) (c : Nat) : List Exact × Bool :=
  let slots := (List.range 4).flatMap fun j => (List.range 8).map fun i => elemBits 4 i (va.getD (4 * c + j) 0)
  let h := (vb.getD (4 * c) 0).toNat
  i4xDecode slots (h % 256) (h / 256 % 256)

/-- The second register of a span whose first is a source. -/
def nextSrc : VSrc → Option Nat
  | .reg n => some (n.val + 1)
  | _ => none

/-- Under I4X a latch entry, `lane` or `zero` is no span: illegal by R10 and R11. -/
def unpackIllegal (a : VSrc) (part : Nat) (m : Word) : Bool :=
  !okUnpack part m || !okUnpackRound m || (modeType m = 16 && (nextSrc a).all fun n => decide (248 ≤ n))

/-- Lanes of the slices with an active lane. -/
def sliceLanes (m : Mask) : Mask := lanesOfSlices (sliceSet m)

def unpackSrc (g : Group) (p : Path) (a : VSrc) : Plan :=
  let m := active g p
  if modeType g.mode = 16 then
    match a with
    | .reg n =>
      (planSpan g (sliceLanes m) n.val 1).and { (planSpan g (maskOf fun l => bit (sliceLanes m) l && l % 4 = 0) (n.val + 1) 1) with
        regs := [(n.val, 2)] }
    | _ => Plan.none
  else planSrc g p m a

def execUnpack (d : VReg) (a : VSrc) (part : BitVec 3) (s : State) : Host.Outcome State Fault Refusal :=
  issue (.unpack d a part) s
    (fun g p => Plan.all [planIllegal (unpackIllegal a part.toNat g.mode), planGuard g p, unpackSrc g p a,
      planDst g (active g p) d])
    fun s x =>
      let m := active x.g x.p
      let nm := numMode x.g.mode
      let va := srcVals x.g x.p a
      let vb := ((nextSrc a).map x.g.v).getD []
      let i4x : Bool := modeType x.g.mode = 16
      let blocks := if i4x then (List.range 16).map fun c =>
        if m &&& sliceMask c = 0 then ([], false) else unpackI4x va vb c else []
      let out (l : Nat) : Word :=
        if i4x then
          BitVec.ofNat 32 (ieeeRound ieeeF32 nm.rnd nm.flush
            (((blocks.getD (l / 4) ([], false)).1).getD (8 * (l % 4) + part.toNat) .nan))
        else unpackWord x.g.mode part.toNat (va.getD l 0)
      .done (x.onGroup s fun g => (g.setV d m (rowOf out)).setFlag flagOx (blocks.any (·.2)))

end Sys2Proof.Machine
end

