-- ==== Sys2Proof/Machine/Trans.lean ====
section
/-! DEFINITION. 2^x and log2 x of R130 (spec/06_group_vector_memory.md), enclosed between two fixed-point bounds and handed on
as an exact value with a sticky bit: 2^x at a fraction and log2 of no power of two are no dyadic numbers. -/
namespace Sys2Proof.Machine

/-- Fraction bits of the enclosures. -/
def transBits : Nat := 400

/-- 2^f for the fraction f = `fr / 2^k`, as bounds scaled by 2^transBits: the product of the constants 2^(2^-i) over the
set bits of f. `clo` and `chi` enclose the constant of the bit above. -/
def exp2Loop : Nat → Nat → Nat → Nat → Nat → Nat → Nat × Nat
  | 0, _, _, _, plo, phi => (plo, phi)
  | k + 1, fr, clo, chi, plo, phi =>
    let clo' := isqrt (clo * 2 ^ transBits)
    let chi' := isqrt (chi * 2 ^ transBits) + 1
    if fr / 2 ^ k % 2 = 1 then exp2Loop k fr clo' chi' (plo * clo' / 2 ^ transBits) (phi * chi' / 2 ^ transBits + 1)
    else exp2Loop k fr clo' chi' plo phi

/-- 2^x (R130). -/
def exactExp2 : Exact → Exact
  | .nan => .nan
  | .inf neg => if neg then .fin false 0 0 false else .inf false
  | .fin neg m e _ =>
    if m = 0 then .fin false 1 0 false
    else if leadExp m e ≥ 12 then (if neg then .fin false (2 ^ 90) (-5000) true else .fin false (2 ^ 90) 5000 true)
    else
      let k := (-e).toNat
      let x := intOf neg (m * 2 ^ e.toNat)
      let n := x / ((2 ^ k : Nat) : Int)
      let fr := (x % ((2 ^ k : Nat) : Int)).toNat
      if fr = 0 then .fin false 1 n false
      else
        let one := 2 ^ transBits
        let (lo, _) := exp2Loop k fr (2 * one) (2 * one) one one
        .fin false (lo / 2 ^ 40) (n - (transBits - 40 : Nat)) true

/-- The first digits of log2 y for y between the bounds `lo` and `hi` (scaled by 2^transBits, 1 ≤ y < 2), one a squaring. -/
def log2Loop : Nat → Nat → Nat → Nat → Nat
  | 0, _, _, d => d
  | k + 1, lo, hi, d =>
    let lo2 := lo * lo / 2 ^ transBits
    let hi2 := hi * hi / 2 ^ transBits + 1
    if 2 * 2 ^ transBits ≤ lo2 then log2Loop k (lo2 / 2) (hi2 / 2 + 1) (2 * d + 1)
    else log2Loop k lo2 hi2 (2 * d)

/-- Digits of log2 kept. -/
def logDigits : Nat := 160

/-- log2 x (R130): ±0 gives -infinity, a negative value NaN, 1 gives +0. -/
def exactLog2 : Exact → Exact
  | .nan => .nan
  | .inf neg => if neg then .nan else .inf false
  | .fin neg m e _ =>
    if m = 0 then .inf true
    else if neg then .nan
    else
      let l := leadExp m e
      let b := Nat.log2 m
      if m = 2 ^ b then exactOfInt l
      else
        let y := m * 2 ^ (transBits - b)
        let d := log2Loop logDigits y y 0
        let t := l * ((2 ^ logDigits : Nat) : Int) + d
        if t < 0 then .fin true (t.natAbs - 1) (-(logDigits : Int)) true
        else .fin false t.natAbs (-(logDigits : Int)) true

end Sys2Proof.Machine
end

