-- ==== Sys2Proof/Machine/Float.lean ====
section
/-! DEFINITION. Floating-point arithmetic (spec/06_group_vector_memory.md R125 to R131). -/
namespace Sys2Proof.Machine

/-! ## Arithmetic (R126, R127) -/

def at0 (xs : List Exact) : Exact := xs.getD 0 .nan
def at1 (xs : List Exact) : Exact := xs.getD 1 .nan
def at2 (xs : List Exact) : Exact := xs.getD 2 .nan

def fAdd (nm : NumMode) (xs : List Exact) : Exact := exactAdd nm.rnd (at0 xs) (at1 xs)
def fSub (nm : NumMode) (xs : List Exact) : Exact := exactAdd nm.rnd (at0 xs) (exactNeg (at1 xs))
def fMul (_ : NumMode) (xs : List Exact) : Exact := exactMul (at0 xs) (at1 xs)
/-- One rounding of a * b + d (R127). -/
def fFma (nm : NumMode) (xs : List Exact) : Exact := exactAdd nm.rnd (exactMul (at0 xs) (at1 xs)) (at2 xs)

def execFadd (d : VReg) (a b : VSrc) (s : State) := laneOp (.fadd d a b) s okFloatR d [a, b] [] fun m => floatOp m fAdd
def execFaddS (d : VReg) (a : VSrc) (b : UReg) (s : State) := laneOp (.faddS d a b) s okFloatR d [a] [b] fun m => floatOp m fAdd
def execFsub (d : VReg) (a b : VSrc) (s : State) := laneOp (.fsub d a b) s okFloatR d [a, b] [] fun m => floatOp m fSub
def execFmul (d : VReg) (a b : VSrc) (s : State) := laneOp (.fmul d a b) s okFloatR d [a, b] [] fun m => floatOp m fMul
def execFmulS (d : VReg) (a : VSrc) (b : UReg) (s : State) := laneOp (.fmulS d a b) s okFloatR d [a] [b] fun m => floatOp m fMul
def execFfma (d : VReg) (a b : VSrc) (s : State) :=
  laneOp (.ffma d a b) s okFloatR d [a, b, dsrc d] [] fun m => floatOp m fFma

/-! ## Minimum and maximum (R128) -/

def layoutOf (t : Ty) : Ieee := (ieeeOf t).getD ieeeF32

/-- The encoding after the input flush (R125): a subnormal becomes the zero of its own sign. -/
def flushPat (f : Ieee) (flush : Bool) (c : Nat) : Nat :=
  if flush && c / 2 ^ f.mb % 2 ^ f.eb = 0 then c / ieeeSign f % 2 * ieeeSign f else c

/-- `a` is at or below `b`, -0 below +0; neither is NaN. -/
def floatLe (f : Ieee) (a b : Nat) : Bool :=
  match exactCmp (ieeeDecode f false a) (ieeeDecode f false b) with
  | .lt => true
  | .gt => false
  | .eq => decide (ieeeSign f ≤ a) || decide (b < ieeeSign f)

/-- FMIN and FMAX on encodings: the other operand beside one NaN, the canonical NaN beside two. -/
def minMaxPat (f : Ieee) (flush max : Bool) (a b : Nat) : Nat :=
  let a := flushPat f flush a
  let b := flushPat f flush b
  let na := exactIsNan (ieeeDecode f false a)
  let nb := exactIsNan (ieeeDecode f false b)
  if na && nb then ieeeNan f
  else if na then b
  else if nb then a
  else if floatLe f a b = max then b else a

def minMaxOp (max : Bool) (m : Word) (ws : List Word) : Word × Bool :=
  let t := modeTy m
  mapElemsOf t (fun vs => (minMaxPat (layoutOf t) (modeFlush m) max (vs.getD 0 0) (vs.getD 1 0), false)) ws

def execFmin (d : VReg) (a b : VSrc) (s : State) := laneOp (.fmin d a b) s okFloat d [a, b] [] (minMaxOp false)
def execFmax (d : VReg) (a b : VSrc) (s : State) := laneOp (.fmax d a b) s okFloat d [a, b] [] (minMaxOp true)

/-! ## Compare (R129) -/

/-- Only F32 is accepted. -/
def okF32 (m : Word) : Bool := modeType m = 8

def fcondHolds (c : FCond) (x y : Exact) : Bool :=
  let un := exactIsNan x || exactIsNan y
  let o := exactCmp x y
  match c with
  | .eq => !un && o = .eq
  | .ne => un || o ≠ .eq
  | .lt => !un && o = .lt
  | .le => !un && o ≠ .gt
  | .gt => !un && o = .gt
  | .ge => !un && o ≠ .lt
  | .un => un
  | .ord => !un

def execFcmp (p : Fin 8) (c : FCond) (a b : VSrc) (s : State) :=
  predOp (.fcmp p c a b) s okF32 p [a, b] [] fun m ws =>
    let x (i : Nat) := ieeeDecode ieeeF32 (modeFlush m) (ws.getD i 0).toNat
    fcondHolds c (x 0) (x 1)

/-! ## Unary functions (R130, R131) -/

/-- FNEG and FABS: only the sign of a non-NaN element changes. -/
def signPat (f : Ieee) (flush abs : Bool) (c : Nat) : Nat :=
  let c := flushPat f flush c
  if exactIsNan (ieeeDecode f false c) then ieeeNan f
  else if abs then c % ieeeSign f
  else if ieeeSign f ≤ c then c - ieeeSign f else c + ieeeSign f

def signOp (abs : Bool) (m : Word) (ws : List Word) : Word × Bool :=
  let t := modeTy m
  mapElemsOf t (fun vs => (signPat (layoutOf t) (modeFlush m) abs (vs.getD 0 0), false)) ws

def execFneg (d : VReg) (a : VSrc) (s : State) := laneOp (.fneg d a) s okFloat d [a] [] (signOp false)
def execFabs (d : VReg) (a : VSrc) (s : State) := laneOp (.fabs d a) s okFloat d [a] [] (signOp true)

/-- The class bit of an encoding as stored (R131). -/
def classPat (f : Ieee) (c : Nat) : Nat :=
  let neg := ieeeSign f ≤ c
  let ex := c / 2 ^ f.mb % 2 ^ f.eb
  let fr := c % 2 ^ f.mb
  if ex = 2 ^ f.eb - 1 && fr ≠ 0 then 2 ^ 8
  else if ex = 2 ^ f.eb - 1 then (if neg then 1 else 2 ^ 7)
  else if ex ≠ 0 then (if neg then 2 else 2 ^ 6)
  else if fr ≠ 0 then (if neg then 2 ^ 2 else 2 ^ 5)
  else (if neg then 2 ^ 3 else 2 ^ 4)

def execFclass (d : VReg) (a : VSrc) (s : State) :=
  laneOp (.fclass d a) s okFloat d [a] [] fun m =>
    mapElemsOf (modeTy m) fun vs => (classPat (layoutOf (modeTy m)) (vs.getD 0 0), false)

def execFrcp (d : VReg) (a : VSrc) (s : State) := laneOp (.frcp d a) s okFloatR d [a] [] fun m => floatOp m fun _ xs => exactRcp (at0 xs)
def execFrsq (d : VReg) (a : VSrc) (s : State) := laneOp (.frsq d a) s okFloatR d [a] [] fun m => floatOp m fun _ xs => exactRsqrt (at0 xs)
def execFsqrt (d : VReg) (a : VSrc) (s : State) := laneOp (.fsqrt d a) s okFloatR d [a] [] fun m => floatOp m fun _ xs => exactSqrt (at0 xs)
def execFex2 (d : VReg) (a : VSrc) (s : State) := laneOp (.fex2 d a) s okFloatR d [a] [] fun m => floatOp m fun _ xs => exactExp2 (at0 xs)
def execFlg2 (d : VReg) (a : VSrc) (s : State) := laneOp (.flg2 d a) s okFloatR d [a] [] fun m => floatOp m fun _ xs => exactLog2 (at0 xs)

end Sys2Proof.Machine
end

