-- ==== Sys2Proof/Machine/Cross.lean ====
section
/-! DEFINITION. Cross-lane instructions (spec/06_group_vector_memory.md R139 to R144, spec/04 R85, spec/03 R66, R67). -/
namespace Sys2Proof.Machine

/-! ## Moves between lanes (R140) -/

/-- The source lane of lane `l`; `none` names no lane. -/
def laneNo (i : Int) : Option Nat := if 0 ≤ i ∧ i < 64 then some i.toNat else none

/-- The lane read, where it is active (R85). -/
def liveSrc (m : Mask) (src : Nat → Option Nat) (l : Nat) : Option Nat := (src l).filter (bit m)

/-- The words a move reads: its live source lanes, and under fill 1 the reading lanes whose source is not live. -/
def moveMask (g : Group) (m : Mask) (src : Nat → Option Nat) : Mask :=
  maskOf fun j => (lanesOf m).any fun l =>
    match liveSrc m src l with
    | some k => k = j
    | none => modeFill g.mode = 1 && l = j

/-- The fill of R85. -/
def fillWord (g : Group) (own : Word) : Word :=
  if modeFill g.mode = 1 then own else if modeFill g.mode = 2 then g.u 191 else 0

/-- A move: each active lane takes the word of its source lane, or the fill. `extra` is what else the card reads. -/
def moveOp (i : Instr) (s : State) (d : VReg) (a : VSrc) (extra : Group → Path → Plan) (src : Group → Path → Nat → Option Nat) :
    Host.Outcome State Fault Refusal :=
  issue i s
    (fun g p => Plan.all [planIllegal (!okFill g.mode), planGuard g p,
      planSrc g p (moveMask g (active g p) (src g p)) a, extra g p,
      if modeFill g.mode = 2 then planU (.reg 191) else Plan.none, planDst g (active g p) d])
    fun s x =>
      let m := active x.g x.p
      let vs := srcVals x.g x.p a
      .done (x.onGroup s fun g => g.setV d m (rowOf fun l =>
        match liveSrc m (src x.g x.p) l with
        | some k => vs.getD k 0
        | none => fillWord x.g (vs.getD l 0)))

def execShfl (d : VReg) (a b : VSrc) (s : State) :=
  moveOp (.shfl d a b) s d a (fun g p => planSrc g p (active g p) b)
    fun g p l => laneNo ((srcVals g p b).getD l 0).toNat
def execSlideup (d : VReg) (a : VSrc) (sub : BitVec 6) (s : State) :=
  moveOp (.slideup d a sub) s d a (fun _ _ => Plan.none) fun _ _ l => laneNo ((l : Int) - sub.toNat)
def execSlidedn (d : VReg) (a : VSrc) (sub : BitVec 6) (s : State) :=
  moveOp (.slidedn d a sub) s d a (fun _ _ => Plan.none) fun _ _ l => laneNo ((l : Int) + sub.toNat)
def execBcast (d : VReg) (a : VSrc) (sub : BitVec 6) (s : State) :=
  moveOp (.bcast d a sub) s d a (fun _ _ => Plan.none) fun _ _ _ => some sub.toNat

/-! ## Votes (R141, R142) -/

def voteHolds (k : VoteKind) (m v : Mask) : Bool :=
  match k with
  | .any => m &&& v ≠ 0
  | .all => m &&& v = m
  | .eq => m &&& v = m || m &&& v = 0

/-- With no active lane nothing is written. -/
def execVote (d a : Fin 8) (b : VoteKind) (s : State) : Host.Outcome State Fault Refusal :=
  issue (.vote d a b) s
    (fun g p => Plan.all [planGuard g p, planPred (active g p) a.val, planPdst (active g p) d.val])
    fun s x =>
      let m := active x.g x.p
      .done (x.onGroup s fun g => g.setPred d.val m (if voteHolds b m (x.g.pred a.val) then m else 0))

def execBallot (d : Fin 192) (a : Fin 8) (s : State) : Host.Outcome State Fault Refusal :=
  issue (.ballot d a) s
    (fun g p => Plan.all [planGuard g p, planPred (active g p) a.val, planUdstSpan d.val 2])
    fun s x =>
      let v := (active x.g x.p &&& x.g.pred a.val).toNat
      .done (x.onGroup s fun g =>
        (g.setU d.val (BitVec.ofNat 32 v)).setU (d.val + 1) (BitVec.ofNat 32 (v / 2 ^ 32)))

/-! ## REDUCE and SCAN (R66, R67, R143, R144) -/

/-- A value on its way through the tree: exact for integers, an F32 code otherwise. -/
inductive RVal where
  | int (x : Int)
  | f32 (c : Nat)
  deriving DecidableEq, Repr

/-- A bitwise node on integers of the type, through their patterns. -/
def bitNode (t : Ty) (f : Word → Word → Word) (x y : Int) : Int :=
  elemVal t (f (BitVec.ofInt 32 x) (BitVec.ofInt 32 y)).toNat

/-- One node (R66): integer sums are exact, F32 sums rounded, F32 minima and maxima follow R128. -/
def nodeOp (m : Word) (op : ROp) : RVal → RVal → RVal
  | .int x, .int y => .int (match op with
    | .add => x + y
    | .min => if x ≤ y then x else y
    | .max => if x ≤ y then y else x
    | .and => bitNode (modeTy m) (· &&& ·) x y
    | .or => bitNode (modeTy m) (· ||| ·) x y
    | .xor => bitNode (modeTy m) (· ^^^ ·) x y)
  | .f32 x, .f32 y => .f32 (match op with
    | .min => minMaxPat ieeeF32 (modeFlush m) false x y
    | .max => minMaxPat ieeeF32 (modeFlush m) true x y
    | _ =>
      let nm := numMode m
      ieeeRound ieeeF32 nm.rnd nm.flush (exactAdd nm.rnd (ieeeDecode ieeeF32 nm.flush x) (ieeeDecode ieeeF32 nm.flush y)))
  | x, _ => x

/-- An absent side passes the other through. -/
def joinNode (f : RVal → RVal → RVal) : Option RVal → Option RVal → Option RVal
  | some x, some y => some (f x y)
  | some x, none => some x
  | none, y => y

/-- The next level of the tree. -/
def pairLevel (f : RVal → RVal → RVal) : List (Option RVal) → List (Option RVal)
  | x :: y :: r => joinNode f x y :: pairLevel f r
  | r => r

/-- The levels of the tree, leaves first. -/
def treeLevels (f : RVal → RVal → RVal) : Nat → List (Option RVal) → List (List (Option RVal))
  | 0, l => [l]
  | n + 1, l => l :: treeLevels f n (pairLevel f l)

/-- Combine the blocks of lanes 0 to L, from bit `b` of L + 1 down, at position `pos` (R67). -/
def scanBlocks (f : RVal → RVal → RVal) (levels : List (List (Option RVal))) (n : Nat) : Nat → Nat → Option RVal → Option RVal
  | 0, _, acc => acc
  | b + 1, pos, acc =>
    if n / 2 ^ b % 2 = 1 then
      scanBlocks f levels n b (pos + 2 ^ b) (joinNode f acc (((levels.getD b []).getD (pos / 2 ^ b) none)))
    else scanBlocks f levels n b pos acc

/-- Type 0, 1 or 8; F32 has no bitwise operation; F32 sums consult round (R143). -/
def okReduce (op : ROp) (m : Word) : Bool :=
  okCmp m || (modeType m = 8 && (match op with
    | .add => okRound m
    | .min | .max => true
    | _ => false))

/-- The identity of an absent result (R66). -/
def identityOf (m : Word) (op : ROp) : RVal :=
  let t := modeTy m
  if modeType m = 8 then .f32 (match op with
    | .min => ieeeInf ieeeF32
    | .max => ieeeSign ieeeF32 + ieeeInf ieeeF32
    | _ => 0)
  else .int (match op with
    | .min => tyHi t
    | .max => tyLo t
    | .and => elemVal t (2 ^ 32 - 1)
    | _ => 0)

/-- The word of a result, and SAT: an integer sum narrows once. -/
def rvalWord (m : Word) : RVal → Word × Bool
  | .f32 c => (BitVec.ofNat 32 c, false)
  | .int x =>
    let (v, sat) := satPat (modeSat m) (modeTy m) x
    (BitVec.ofNat 32 v, sat)

/-- The leaves: the active lanes' values. -/
def leavesOf (m : Word) (act : Mask) (vs : List Word) : List (Option RVal) :=
  (List.range 64).map fun l =>
    if bit act l then
      some (if modeType m = 8 then .f32 (vs.getD l 0).toNat else .int (elemVal (modeTy m) (vs.getD l 0).toNat))
    else none

def execReduce (d : VReg) (a : VSrc) (b : ROp) (s : State) : Host.Outcome State Fault Refusal :=
  issue (.reduce d a b) s (lanePlan (okReduce b) d [a] []) fun s x =>
    let md := x.g.mode
    let m := active x.g x.p
    let lv := treeLevels (nodeOp md b) 6 (leavesOf md m (srcVals x.g x.p a))
    let r := (((lv.getD 6 []).headD none)).getD (identityOf md b)
    .done (putLanes s x d m (laneMap m fun _ => rvalWord md r))

def execScan (d : VReg) (a : VSrc) (op : ROp) (excl : Bool) (s : State) : Host.Outcome State Fault Refusal :=
  issue (.scan d a op excl) s (lanePlan (okReduce op) d [a] []) fun s x =>
    let md := x.g.mode
    let m := active x.g x.p
    let f := nodeOp md op
    let lv := treeLevels f 6 (leavesOf md m (srcVals x.g x.p a))
    -- the inclusive value of the lanes below n
    let upTo (n : Nat) : RVal := (scanBlocks f lv n 7 0 none).getD (identityOf md op)
    .done (putLanes s x d m (laneMap m fun l => rvalWord md (upTo (if excl then l else l + 1))))

end Sys2Proof.Machine
end

