-- ==== Sys2Proof/Machine/Packed.lean ====
section
/-! DEFINITION. Packed 16-bit arithmetic (spec/06_group_vector_memory.md R137, R138). -/
namespace Sys2Proof.Machine

/-- The integer types; they give only the signedness (R137). -/
def okP16 (m : Word) : Bool := decide (modeType m ≤ 5) || modeType m = 15

def p16Type (m : Word) : Ty := if tySigned (modeTy m) then .i16 else .n16
def p32Type (m : Word) : Ty := if tySigned (modeTy m) then .i32 else .n32

/-- Elementwise on two halves, narrowed through `Sat`. -/
def p16Op (m : Word) (f : Int → Int → Int) (ws : List Word) : Word × Bool :=
  let t := p16Type m
  mapElemsOf t (fun vs => satPat (modeSat m) t (f (elemVal t (vs.getD 0 0)) (elemVal t (vs.getD 1 0)))) ws

def execP16add (d : VReg) (a b : VSrc) (s : State) := laneOp (.p16add d a b) s okP16 d [a, b] [] fun m => p16Op m (· + ·)
def execP16sub (d : VReg) (a b : VSrc) (s : State) := laneOp (.p16sub d a b) s okP16 d [a, b] [] fun m => p16Op m (· - ·)

/-- d + a0*b0 + a1*b1, exact, narrowed once. -/
def p16Mac (m : Word) (ws : List Word) : Word × Bool :=
  let t := p16Type m
  let e (i k : Nat) : Int := elemInt t k (ws.getD i 0)
  let (v, sat) := satPat (modeSat m) (p32Type m) (elemVal (p32Type m) (ws.getD 2 0).toNat + e 0 0 * e 1 0 + e 0 1 * e 1 1)
  (BitVec.ofNat 32 v, sat)

def execP16mac (d : VReg) (a b : VSrc) (s : State) := laneOp (.p16mac d a b) s okP16 d [a, b, dsrc d] [] p16Mac

/-- floor((x + h) / 2^c), h = 2^(c - 1) when rounding and c > 0. -/
def p16Shift (c : Nat) (r : Bool) (x : Int) : Int :=
  (x + (if r && c ≠ 0 then ((2 ^ (c - 1) : Nat) : Int) else 0)) / ((2 ^ c : Nat) : Int)

def execP16shr (d : VReg) (a : VSrc) (sh : BitVec 4) (r : Bool) (s : State) :=
  laneOp (.p16shr d a sh r) s okP16 d [a] [] fun m =>
    mapElemsOf (p16Type m) fun vs => (patOf 16 (p16Shift sh.toNat r (elemVal (p16Type m) (vs.getD 0 0))), false)

/-- P32SAT clamps whatever Mode.sat holds. -/
def p32Clamp (m : Word) (ws : List Word) : Word × Bool :=
  let r (i : Nat) := satPat true (p16Type m) (elemVal (p32Type m) (ws.getD i 0).toNat)
  (wordOfElems 16 [(r 0).1, (r 1).1], (r 0).2 || (r 1).2)

def execP32sat (d : VReg) (a b : VSrc) (s : State) := laneOp (.p32sat d a b) s okP16 d [a, b] [] p32Clamp

end Sys2Proof.Machine
end

