-- ==== Sys2Proof/Machine/System.lean ====
section
/-! DEFINITION. Scheduling, traps and time (spec/09_core_instructions.md R214 to R218, spec/08_core.md R187 to R190). -/
namespace Sys2Proof.Machine

/-- The other paths of a core that are ready: creation and instruction count. -/
def readyOthers (s : State) (core uid : Nat) : List (Nat × Nat) :=
  s.groups.flatMap fun e =>
    if e.2.core = core && e.2.status = .resident then
      e.2.paths.filterMap fun q => if q.2.uid ≠ uid && isReady q.2 then some (q.2.uid, q.2.icount) else none
    else []

/-- YIELD: the path is not ready until its expiry (R214). -/
def execYield (s : State) : Host.Outcome State Fault Refusal :=
  issue .yield s (fun _ _ => Plan.none) fun s x =>
    .ended (x.onPath (retire x Plan.none s x.next false) fun p => { p with status := .yielded (readyOthers s x.g.core x.p.uid), since := s.now })

/-- TRAP: once the path has drained, a region begins at the next word and the group takes the software trap (R215). The word
traps, so it leaves the signature (01 R21). -/
def execTrap (imm : BitVec 16) (s : State) : Host.Outcome State Fault Refusal :=
  issue (.trap imm) s (fun _ _ => Plan.none) fun s x =>
    if !drained x.g x.p then .hold
    else
      let s := x.onPath s fun p => { p with pc := x.next, icount := p.icount + 1 }
      .trapWith (enterRegion s x.gid x.pid 0xFFFF) ⟨0x10, 0, imm.toNat, none, []⟩

/-! ## RESUME (R216, 08 R189) -/

def frameField (b : List Byte) (o n : Nat) : Nat := leNat ((b.drop o).take n)

/-- The reserved bytes of the frame (08 R187). The zero bytes and bits inside the entries of its stack, which R84 lays out, are not among them
(log entry 96). -/
def frameReserved (b : List Byte) : Bool :=
  let z (o n : Nat) : Bool := ((b.drop o).take n).all (· = 0)
  frameField b 3 1 < 4 && z 20 4 && z 60 4 && z 0x598 8 && z 0x5D0 0x30 && z 0x1600 (8192 - 0x1600)

def frameViews (b : List Byte) : Views :=
  let w (o n : Nat) : Word := BitVec.ofNat 32 (frameField b o n)
  ⟨w 40 4, w 44 2, w 48 4, BitVec.ofNat 32 (256 * frameField b 52 2), w 46 2, w 56 4⟩

/-- The frame may be resumed (R216). -/
def frameOk (b : List Byte) (regbytes spill : Nat) : Bool :=
  frameReserved b && viewsOk regbytes (frameViews b) && decide (frameField b 32 4 < 2 ^ 20)
    && decide (frameField b 54 2 ≤ 32 + spill / 64)

/-- The return stack of slice `c` at depth `n`. -/
def frameRet (b : List Byte) (c n : Nat) : Ret :=
  ⟨if n < 16 then n else 16, (List.range 16).map fun e => BitVec.ofNat 56 (frameField b (0xE00 + 128 * c + 8 * e) 8)⟩

/-- The group's registers and stacks as the frame holds them. -/
def frameGroup (b : List Byte) (h : Handler) (g : Group) : Group :=
  let depth := frameField b 54 2
  let hw := if depth < 32 then depth else 32
  { g with
      handler := none, exited := h.exited, pending := h.pending, left := h.left, fenceLeft := h.fenceLeft
      mode := BitVec.ofNat 32 (frameField b 32 4), flags := BitVec.ofNat 32 (frameField b 36 4 % 8), views := frameViews b
      spc := (List.range 16).foldl (fun m c => mset 0 m c (BitVec.ofNat 56 (frameField b (0x40 + 8 * c) 8))) []
      sig := (List.range 16).foldl (fun m c => mset 0 m c (BitVec.ofNat 32 (frameField b (0xC0 + 4 * c) 4))) []
      preds := (List.range 7).foldl (fun m n => mset 0 m (n + 1) (BitVec.ofNat 64 (frameField b (0x240 + 8 * (n + 1)) 8))) []
      uni := (List.range 192).foldl (fun m n => mset 0 m n (BitVec.ofNat 32 (frameField b (0x280 + 4 * n) 4))) []
      spill := BitVec.ofNat 64 (frameField b 0x580 8), sa := BitVec.ofNat 64 (frameField b 0x588 8)
      sb := BitVec.ofNat 64 (frameField b 0x590 8)
      ret := (List.range 16).map fun c => (c, frameRet b c (frameField b (0x1B0 + c) 1))
      stack := ((List.range hw).map fun e => entryOfBytes ((b.drop (0x600 + 64 * e)).take 64)).reverse
      spilled := depth - hw, paths := [], made := [] }

/-- The path numbered `n` of the frame, back at its region entry; side, latch names and counts are the saved path's. -/
def framePath (b : List Byte) (h : Handler) (g : Group) (uid now n : Nat) : Path :=
  let m : Mask := BitVec.ofNat 64 (frameField b (0x1C0 + 8 * n) 8)
  let pc : Addr := BitVec.ofNat 56 (frameField b (0x100 + 8 * n) 8)
  let r := recordRegion g m pc (BitVec.ofNat 16 (frameField b (0x180 + 2 * n) 2))
  let att := frameField b 2 1
  match kget h.paths n with
  | some p =>
    { p with
        mask := m, pc := pc, region := r, idem := modeIdemen r.mode, status := .run, since := now, waiting := p.waiting && decide (p.region.pc = pc)
        attempts := if frameField b 4 2 = n then att else p.attempts, regionAt := p.icount }
  | none => { freshPath uid m pc .none r now with attempts := if frameField b 4 2 = n then att else 0 }

/-- The path numbers that the frame's slices name. -/
def frameNumbers (b : List Byte) : List Nat :=
  (List.range 16).filter fun n => (List.range 16).any fun c => frameField b (0x1A0 + c) 1 = n

/-- The groups' paths and made arrivals restored (R189). -/
def resumed (b : List Byte) (h : Handler) (g : Group) (uid now : Nat) : Group :=
  let g := frameGroup b h g
  let ns := frameNumbers b
  { g with
      paths := ns.foldl (fun m n => kset m n (framePath b h g (uid + n) now n)) []
      made := h.made.filter fun e => ns.contains e.1 }

/-- The open flags of the spilled entries, read back from the spill area; one that cannot be read counts as not parting (log
entry 75). -/
def spillFlags (s : State) (g : Group) : List Bool :=
  (List.range g.spilled).map fun j =>
    match readEntry s { g with spillOpen := [] } (g.stack.length + j) with
    | .ok e => entryOpen e
    | .error _ => false

/-- RESUME: legal only in a handler, by a path that holds every launched lane; the frame is read after its
earlier stores (06 R146), and one that breaks R216 is a handler machine check. Arrivals that wait for the group's paths are looked at again: a
read that one waited for may have been answered in the handler (12 R253, R254). -/
def execResume (s : State) : Host.Outcome State Fault Refusal :=
  issue .resume s (fun g _ => planIllegal g.handler.isNone) fun s x =>
    match x.g.handler with
    | none => .trap (trapOf 0x01)
    | some h =>
      if x.p.mask ≠ lanesBelow x.g.lanes || x.g.paths.length ≠ 1 then .trap (trapOf 0x04)
      else
        let t := s.tenant (s.tenantOf x.g.asid)
        let bad : Res :=
          let (n, s) := takeFree s
          .ended (machineCheck s x.g (n % 256))
        if !storesDone x.g x.p then .hold
        else match vread s x.g.core x.g.asid (t.tfbase + 8192 * x.g.frame) 8192 with
        | .error e => match e.err with
          | .trap c => .trap (trapAt c e.va)
          | _ => .trap (trapAt 0x07 e.va)
        | .ok b =>
          if !frameOk b x.g.regbytes x.g.spillBytes then bad
          else
            let s := commitWork s x.gid x.pid x.g x.p
            let s := x.onGroup s fun g => resumed b h g s.nextOp s.now
            let s := x.onGroup s fun g => { g with spillOpen := spillFlags s g }
            .ended (settleGroup { s with nextOp := s.nextOp + 16 } x.gid)

/-- ABORT ends the cohort; byte 1 of its record is the class of the trap the handler was handling (R217, 13 R271). -/
def execAbort (s : State) : Host.Outcome State Fault Refusal :=
  issue .abort s (fun _ _ => Plan.none) fun s x =>
    .ended (abortCohort s x.g.cohort 2 ((x.g.handler.map (·.cls)).getD 0))

/-- CLOCK: the time base; what two cores read differs by at most 8, and a group's values never decrease (R218). -/
def execClock (d : Fin 192) (s : State) : Host.Outcome State Fault Refusal :=
  issue (.clock d) s (fun _ _ => planUdstSpan d.val 2) fun s x =>
    let (n, s) := takeFree s
    let v := if s.now + n % 9 < x.g.clockLast then x.g.clockLast else s.now + n % 9
    .done (x.onGroup s fun g =>
      { ((g.setU d.val (BitVec.ofNat 32 v)).setU (d.val + 1) (BitVec.ofNat 32 (v / 2 ^ 32))) with clockLast := v })

end Sys2Proof.Machine
end

