-- ==== Sys2Proof/Machine/Uniform.lean ====
section
/-! DEFINITION. Uniform instructions, special registers and predicate instructions (spec/05_group_integer_control.md R107 to
R114; spec/04_lanes_slices_groups.md R75 to R77). -/
namespace Sys2Proof.Machine

/-! ## Uniform arithmetic (R108, R109, R110) -/

def two (f : Word → Word → Word) (ws : List Word) : Word := f (ws.getD 0 0) (ws.getD 1 0)

def execSadd (d a b : UReg) (s : State) := uniOp (.sadd d a b) s d [a, b] (two (· + ·))
def execSsub (d a b : UReg) (s : State) := uniOp (.ssub d a b) s d [a, b] (two (· - ·))
def execSmul (d a b : UReg) (s : State) := uniOp (.smul d a b) s d [a, b] (two (· * ·))
def execSand (d a b : UReg) (s : State) := uniOp (.sand d a b) s d [a, b] (two (· &&& ·))
def execSor (d a b : UReg) (s : State) := uniOp (.sor d a b) s d [a, b] (two (· ||| ·))
def execSxor (d a b : UReg) (s : State) := uniOp (.sxor d a b) s d [a, b] (two (· ^^^ ·))

/-- A count of 32 or more gives 0 (R108). -/
def shlWord (x c : Word) : Word := if 32 ≤ c.toNat then 0 else x <<< c.toNat
def shrWord (x c : Word) : Word := if 32 ≤ c.toNat then 0 else x >>> c.toNat

def execSshl (d a b : UReg) (s : State) := uniOp (.sshl d a b) s d [a, b] (two shlWord)
def execSshr (d a b : UReg) (s : State) := uniOp (.sshr d a b) s d [a, b] (two shrWord)

/-- .lt and .le compare signed, .ltu and .leu unsigned (R109). -/
def scondHolds (c : SCond) (x y : Word) : Bool :=
  match c with
  | .eq => x = y
  | .ne => x ≠ y
  | .lt => x.slt y
  | .le => x.sle y
  | .ltu => x.ult y
  | .leu => x.ule y

/-- The destination of SCMP: s0 to s31. -/
def scmpReg (d : BitVec 5) : UReg := .reg ⟨d.toNat, Nat.lt_trans d.isLt (by decide)⟩

def execScmp (d : BitVec 5) (c : SCond) (a b : UReg) (s : State) :=
  uniOp (.scmp d c a b) s (scmpReg d) [a, b] (two fun x y => if scondHolds c x y then 1 else 0)

def execSmov (d a : UReg) (s : State) := uniOp (.smov d a) s d [a] fun ws => ws.getD 0 0
def execSli (d : UReg) (imm : BitVec 16) (s : State) := uniOp (.sli d imm) s d [] fun _ => imm.setWidth 32
def execSlui (d : UReg) (imm : BitVec 16) (s : State) := uniOp (.slui d imm) s d [d] fun ws => imm ++ (ws.getD 0 0).setWidth 16

/-! ## Special registers (R75, R111) -/

/-- One half of a pair. -/
def half64 (v : Nat) (hi : Bool) : Word := BitVec.ofNat 32 (if hi then v / 2 ^ 32 else v)

/-- A special register as the path reads it; `none` for a reserved number (R75). -/
def specialReg (s : State) (g : Group) (p : Path) (n : Nat) : Option Word :=
  let c := kget s.cohorts g.cohort
  let l := c.bind fun c => kget s.launches c.launch
  let w (n : Nat) : Word := BitVec.ofNat 32 n
  match n with
  | 0x00 => some g.mode
  | 0x01 => some g.views.vvbase
  | 0x02 => some g.views.vvcount
  | 0x03 => some g.views.tvbase
  | 0x04 => some g.views.tvstride
  | 0x05 => some g.views.tvcount
  | 0x06 => some g.views.avbase
  | 0x07 => some (w g.regbytes)
  | 0x08 => some g.flags
  | 0x10 => some (half64 (pathLanes g p).toNat false)
  | 0x11 => some (half64 (pathLanes g p).toNat true)
  | 0x12 => some (w g.lanes)
  | 0x13 => some (w g.grpidx)
  | 0x14 => some (w ((l.map (·.kd.groups)).getD 1))
  | 0x15 => some (w ((c.map (·.index)).getD 0))
  | 0x16 => some (w ((l.map (·.rcd.cohorts)).getD 1))
  | 0x18 => some (half64 g.spill.toNat false)
  | 0x19 => some (half64 g.spill.toNat true)
  | 0x1A => some (w (depthOf g))
  | 0x1B => some (if g.parted then 1 else 0)
  | 0x1C => some (p.region.regidx.setWidth 32)
  | 0x1D => some (half64 p.region.pc.toNat false)
  | 0x1E => some (half64 p.region.pc.toNat true)
  | 0x20 => some (half64 g.sa.toNat false)
  | 0x21 => some (half64 g.sa.toNat true)
  | 0x22 => some (half64 g.sb.toNat false)
  | 0x23 => some (half64 g.sb.toNat true)
  | 0x24 => some (w ((g.banks.map (2 ^ ·)).sum))
  | _ => none

/-- The numbers of R75. -/
def specialNumber (n : Nat) : Bool :=
  decide (n ≤ 0x08) || (decide (0x10 ≤ n) && decide (n ≤ 0x16)) || (decide (0x18 ≤ n) && decide (n ≤ 0x1E))
    || (decide (0x20 ≤ n) && decide (n ≤ 0x24))

/-- The writable ones (R75, R77). -/
def specialWritable (n : Nat) : Bool := n = 0x08 || n = 0x18 || n = 0x19 || (decide (0x20 ≤ n) && decide (n ≤ 0x23))

/-- Replace one half of a pair. -/
def setHalf (v : Dbl) (hi : Bool) (w : Word) : Dbl := if hi then w ++ v.setWidth 32 else v.extractLsb' 32 32 ++ w

def writeSpecial (g : Group) (n : Nat) (v : Word) : Group :=
  match n with
  | 0x08 => { g with flags := g.flags &&& ~~~ v }
  | 0x18 => { g with spill := setHalf g.spill false v }
  | 0x19 => { g with spill := setHalf g.spill true v }
  | 0x20 => { g with sa := setHalf g.sa false v }
  | 0x21 => { g with sa := setHalf g.sa true v }
  | 0x22 => { g with sb := setHalf g.sb false v }
  | 0x23 => { g with sb := setHalf g.sb true v }
  | _ => g

/-- SRD writes its uniform destination at any time (R77, R111). -/
def execSrd (d : UReg) (imm : BitVec 16) (s : State) : Host.Outcome State Fault Refusal :=
  issue (.srd d imm) s
    (fun _ _ => Plan.all [planIllegal (!specialNumber imm.toNat), { planUdst d with parted := false }])
    fun s x => .done (x.onGroup s fun g => g.setUs d ((specialReg s x.g x.p imm.toNat).getD 0))

def execSwr (d : UReg) (imm : BitVec 16) (s : State) : Host.Outcome State Fault Refusal :=
  issue (.swr d imm) s
    (fun _ _ => Plan.all [planIllegal (!specialWritable imm.toNat), { planU d with parted := true }])
    fun s x => .done (x.onGroup s fun g => writeSpecial g imm.toNat (x.g.us d))

/-! ## Between vectors and uniforms (R112) -/

/-- V2S reads the lane's word as it stands, active or not. -/
def execV2s (d : UReg) (a : VReg) (sub : BitVec 6) (s : State) : Host.Outcome State Fault Refusal :=
  issue (.v2s d a sub) s
    (fun g p => Plan.all [planSrc g p (BitVec.ofNat 64 (2 ^ sub.toNat)) (dsrc a), planUdst d])
    fun s x => .done (x.onGroup s fun g => g.setUs d ((srcVals x.g x.p (dsrc a)).getD sub.toNat 0))

/-- S2V writes every lane of the path, launched and not exited; it ignores the guard. -/
def execS2v (d : VReg) (a : UReg) (s : State) : Host.Outcome State Fault Refusal :=
  issue (.s2v d a) s (fun g p => Plan.all [planU a, planDst g (pathLanes g p) d])
    fun s x => .done (x.onGroup s fun g => g.setV d (pathLanes x.g x.p) (List.replicate 64 (x.g.us a)))

/-! ## Predicates (R113, R114) -/

def execPand (d a b : Fin 8) (s : State) := pOp (.pand d a b) s d [a, b] fun ms => ms.getD 0 0 &&& ms.getD 1 0
def execPor (d a b : Fin 8) (s : State) := pOp (.por d a b) s d [a, b] fun ms => ms.getD 0 0 ||| ms.getD 1 0
def execPxor (d a b : Fin 8) (s : State) := pOp (.pxor d a b) s d [a, b] fun ms => ms.getD 0 0 ^^^ ms.getD 1 0
def execPnot (d a : Fin 8) (s : State) := pOp (.pnot d a) s d [a] fun ms => ~~~ ms.getD 0 0

/-- The lanes of one half: .lo 0 to 31, .hi 32 to 63. -/
def halfLanes (hi : Bool) : Mask := BitVec.ofNat 64 (if hi then (2 ^ 32 - 1) * 2 ^ 32 else 2 ^ 32 - 1)

def execP2s (d : UReg) (a : Fin 8) (b : Bool) (s : State) : Host.Outcome State Fault Refusal :=
  issue (.p2s d a b) s (fun g p => Plan.all [planPred (pathLanes g p &&& halfLanes b) a.val, planUdst d])
    fun s x => .done (x.onGroup s fun g =>
      g.setUs d (half64 (x.g.pred a.val &&& pathLanes x.g x.p).toNat b))

def execS2p (d : Fin 8) (a : UReg) (b : Bool) (s : State) : Host.Outcome State Fault Refusal :=
  issue (.s2p d a b) s (fun g p => Plan.all [planU a, planPdst (pathLanes g p &&& halfLanes b) d.val])
    fun s x => .done (x.onGroup s fun g =>
      let w : Mask := BitVec.ofNat 64 ((x.g.us a).toNat * (if b then 2 ^ 32 else 1))
      g.setPred d.val (pathLanes x.g x.p &&& halfLanes b) w)

end Sys2Proof.Machine
end

