-- ==== Sys2Proof/Machine/Dispatch.lean ====
section
/-! DEFINITION. One arm per constructor: each a direct call of its meaning. -/
namespace Sys2Proof.Machine

def exec (i : Instr) (s : State) : Host.Outcome State Fault Refusal :=
  match i with
  | .nop => Sys2Proof.Machine.execNop s
  | .bra disp => Sys2Proof.Machine.execBra disp s
  | .brz d imm => Sys2Proof.Machine.execBrz d imm s
  | .brnz d imm => Sys2Proof.Machine.execBrnz d imm s
  | .brd disp => Sys2Proof.Machine.execBrd disp s
  | .call disp => Sys2Proof.Machine.execCall disp s
  | .ret => Sys2Proof.Machine.execRet s
  | .regang => Sys2Proof.Machine.execRegang s
  | .exit => Sys2Proof.Machine.execExit s
  | .iadd d a b => Sys2Proof.Machine.execIadd d a b s
  | .iaddS d a b => Sys2Proof.Machine.execIaddS d a b s
  | .isub d a b => Sys2Proof.Machine.execIsub d a b s
  | .isubS d a b => Sys2Proof.Machine.execIsubS d a b s
  | .imul d a b => Sys2Proof.Machine.execImul d a b s
  | .imulS d a b => Sys2Proof.Machine.execImulS d a b s
  | .imulh d a b => Sys2Proof.Machine.execImulh d a b s
  | .imad d a b => Sys2Proof.Machine.execImad d a b s
  | .imin d a b => Sys2Proof.Machine.execImin d a b s
  | .imax d a b => Sys2Proof.Machine.execImax d a b s
  | .shl d a b => Sys2Proof.Machine.execShl d a b s
  | .shr d a b => Sys2Proof.Machine.execShr d a b s
  | .sra d a b => Sys2Proof.Machine.execSra d a b s
  | .rot d a b => Sys2Proof.Machine.execRot d a b s
  | .and d a b => Sys2Proof.Machine.execAnd d a b s
  | .or d a b => Sys2Proof.Machine.execOr d a b s
  | .xor d a b => Sys2Proof.Machine.execXor d a b s
  | .andn d a b => Sys2Proof.Machine.execAndn d a b s
  | .sel d a b => Sys2Proof.Machine.execSel d a b s
  | .icmp p c a b => Sys2Proof.Machine.execIcmp p c a b s
  | .icmpS p c a b => Sys2Proof.Machine.execIcmpS p c a b s
  | .lea d a sub => Sys2Proof.Machine.execLea d a sub s
  | .bfx d a b => Sys2Proof.Machine.execBfx d a b s
  | .bfi d a b => Sys2Proof.Machine.execBfi d a b s
  | .iabs d a => Sys2Proof.Machine.execIabs d a s
  | .ineg d a => Sys2Proof.Machine.execIneg d a s
  | .clz d a => Sys2Proof.Machine.execClz d a s
  | .popc d a => Sys2Proof.Machine.execPopc d a s
  | .brev d a => Sys2Proof.Machine.execBrev d a s
  | .iaddi d imm => Sys2Proof.Machine.execIaddi d imm s
  | .lli d imm => Sys2Proof.Machine.execLli d imm s
  | .lui d imm => Sys2Proof.Machine.execLui d imm s
  | .movv d a => Sys2Proof.Machine.execMovv d a s
  | .movi d a b => Sys2Proof.Machine.execMovi d a b s
  | .moviw d a b => Sys2Proof.Machine.execMoviw d a b s
  | .sadd d a b => Sys2Proof.Machine.execSadd d a b s
  | .ssub d a b => Sys2Proof.Machine.execSsub d a b s
  | .smul d a b => Sys2Proof.Machine.execSmul d a b s
  | .sand d a b => Sys2Proof.Machine.execSand d a b s
  | .sor d a b => Sys2Proof.Machine.execSor d a b s
  | .sxor d a b => Sys2Proof.Machine.execSxor d a b s
  | .sshl d a b => Sys2Proof.Machine.execSshl d a b s
  | .sshr d a b => Sys2Proof.Machine.execSshr d a b s
  | .scmp d c a b => Sys2Proof.Machine.execScmp d c a b s
  | .smov d a => Sys2Proof.Machine.execSmov d a s
  | .sli d imm => Sys2Proof.Machine.execSli d imm s
  | .slui d imm => Sys2Proof.Machine.execSlui d imm s
  | .srd d imm => Sys2Proof.Machine.execSrd d imm s
  | .swr d imm => Sys2Proof.Machine.execSwr d imm s
  | .v2s d a sub => Sys2Proof.Machine.execV2s d a sub s
  | .s2v d a => Sys2Proof.Machine.execS2v d a s
  | .pand d a b => Sys2Proof.Machine.execPand d a b s
  | .por d a b => Sys2Proof.Machine.execPor d a b s
  | .pxor d a b => Sys2Proof.Machine.execPxor d a b s
  | .pnot d a => Sys2Proof.Machine.execPnot d a s
  | .p2s d a b => Sys2Proof.Machine.execP2s d a b s
  | .s2p d a b => Sys2Proof.Machine.execS2p d a b s
  | .mode d imm => Sys2Proof.Machine.execMode d imm s
  | .view d a b => Sys2Proof.Machine.execView d a b s
  | .region imm => Sys2Proof.Machine.execRegion imm s
  | .sigchk imm => Sys2Proof.Machine.execSigchk imm s
  | .wait loads stores copies matrix => Sys2Proof.Machine.execWait loads stores copies matrix s
  | .fadd d a b => Sys2Proof.Machine.execFadd d a b s
  | .faddS d a b => Sys2Proof.Machine.execFaddS d a b s
  | .fsub d a b => Sys2Proof.Machine.execFsub d a b s
  | .fmul d a b => Sys2Proof.Machine.execFmul d a b s
  | .fmulS d a b => Sys2Proof.Machine.execFmulS d a b s
  | .ffma d a b => Sys2Proof.Machine.execFfma d a b s
  | .fmin d a b => Sys2Proof.Machine.execFmin d a b s
  | .fmax d a b => Sys2Proof.Machine.execFmax d a b s
  | .fcmp p c a b => Sys2Proof.Machine.execFcmp p c a b s
  | .fneg d a => Sys2Proof.Machine.execFneg d a s
  | .fabs d a => Sys2Proof.Machine.execFabs d a s
  | .fclass d a => Sys2Proof.Machine.execFclass d a s
  | .frcp d a => Sys2Proof.Machine.execFrcp d a s
  | .frsq d a => Sys2Proof.Machine.execFrsq d a s
  | .fsqrt d a => Sys2Proof.Machine.execFsqrt d a s
  | .fex2 d a => Sys2Proof.Machine.execFex2 d a s
  | .flg2 d a => Sys2Proof.Machine.execFlg2 d a s
  | .cvt d a sub => Sys2Proof.Machine.execCvt d a sub s
  | .qnt d a sub => Sys2Proof.Machine.execQnt d a sub s
  | .dqnt d a sub => Sys2Proof.Machine.execDqnt d a sub s
  | .pack d a b => Sys2Proof.Machine.execPack d a b s
  | .unpack d a part => Sys2Proof.Machine.execUnpack d a part s
  | .p16add d a b => Sys2Proof.Machine.execP16add d a b s
  | .p16sub d a b => Sys2Proof.Machine.execP16sub d a b s
  | .p16mac d a b => Sys2Proof.Machine.execP16mac d a b s
  | .p16shr d a sh r => Sys2Proof.Machine.execP16shr d a sh r s
  | .p32sat d a b => Sys2Proof.Machine.execP32sat d a b s
  | .shfl d a b => Sys2Proof.Machine.execShfl d a b s
  | .slideup d a sub => Sys2Proof.Machine.execSlideup d a sub s
  | .slidedn d a sub => Sys2Proof.Machine.execSlidedn d a sub s
  | .bcast d a sub => Sys2Proof.Machine.execBcast d a sub s
  | .vote d a b => Sys2Proof.Machine.execVote d a b s
  | .ballot d a => Sys2Proof.Machine.execBallot d a s
  | .reduce d a b => Sys2Proof.Machine.execReduce d a b s
  | .scan d a op excl => Sys2Proof.Machine.execScan d a op excl s
  | .ldB d o base b => Sys2Proof.Machine.execLdB d o base b s
  | .ldH d o base b => Sys2Proof.Machine.execLdH d o base b s
  | .ld d o base b => Sys2Proof.Machine.execLd d o base b s
  | .ldD d o base b => Sys2Proof.Machine.execLdD d o base b s
  | .ldQ d o base b => Sys2Proof.Machine.execLdQ d o base b s
  | .stB d o base b => Sys2Proof.Machine.execStB d o base b s
  | .stH d o base b => Sys2Proof.Machine.execStH d o base b s
  | .st d o base b => Sys2Proof.Machine.execSt d o base b s
  | .stD d o base b => Sys2Proof.Machine.execStD d o base b s
  | .stQ d o base b => Sys2Proof.Machine.execStQ d o base b s
  | .ldg d o base b => Sys2Proof.Machine.execLdg d o base b s
  | .ldgD d o base b => Sys2Proof.Machine.execLdgD d o base b s
  | .sts d o base b => Sys2Proof.Machine.execSts d o base b s
  | .stsD d o base b => Sys2Proof.Machine.execStsD d o base b s
  | .ldu d a b => Sys2Proof.Machine.execLdu d a b s
  | .stu d a b => Sys2Proof.Machine.execStu d a b s
  | .atomAdd d o base b => Sys2Proof.Machine.execAtomAdd d o base b s
  | .atomMin d o base b => Sys2Proof.Machine.execAtomMin d o base b s
  | .atomMax d o base b => Sys2Proof.Machine.execAtomMax d o base b s
  | .atomAnd d o base b => Sys2Proof.Machine.execAtomAnd d o base b s
  | .atomOr d o base b => Sys2Proof.Machine.execAtomOr d o base b s
  | .atomXor d o base b => Sys2Proof.Machine.execAtomXor d o base b s
  | .atomExch d o base b => Sys2Proof.Machine.execAtomExch d o base b s
  | .atomCas d o base b => Sys2Proof.Machine.execAtomCas d o base b s
  | .atomFadd d o base b => Sys2Proof.Machine.execAtomFadd d o base b s
  | .fence k sc => Sys2Proof.Machine.execFence k sc s
  | .rpref a b => Sys2Proof.Machine.execRpref a b s
  | .waitm c wide a b => Sys2Proof.Machine.execWaitm c wide a b s
  | .spld d a b => Sys2Proof.Machine.execSpld d a b s
  | .spst d a b => Sys2Proof.Machine.execSpst d a b s
  | .tclaim d => Sys2Proof.Machine.execTclaim d s
  | .trel d => Sys2Proof.Machine.execTrel d s
  | .tstat d a => Sys2Proof.Machine.execTstat d a s
  | .copy d a b => Sys2Proof.Machine.execCopy d a b s
  | .copyg d a b => Sys2Proof.Machine.execCopyg d a b s
  | .copyo d a b => Sys2Proof.Machine.execCopyo d a b s
  | .copyw d a b => Sys2Proof.Machine.execCopyw d a b s
  | .publish a => Sys2Proof.Machine.execPublish a s
  | .spfence => Sys2Proof.Machine.execSpfence s
  | .acalloc d b => Sys2Proof.Machine.execAcalloc d b s
  | .acfree d b => Sys2Proof.Machine.execAcfree d b s
  | .aczero d => Sys2Proof.Machine.execAczero d s
  | .mma d a b => Sys2Proof.Machine.execMma d a b s
  | .mmap d a b => Sys2Proof.Machine.execMmap d a b s
  | .mmaq d a b => Sys2Proof.Machine.execMmaq d a b s
  | .mmaw d a b => Sys2Proof.Machine.execMmaw d a b s
  | .mfence d => Sys2Proof.Machine.execMfence d s
  | .waitb a => Sys2Proof.Machine.execWaitb a s
  | .acld d a b => Sys2Proof.Machine.execAcld d a b s
  | .acst d a b => Sys2Proof.Machine.execAcst d a b s
  | .seek d a b => Sys2Proof.Machine.execSeek d a b s
  | .seedx d a b => Sys2Proof.Machine.execSeedx d a b s
  | .ttrans d a b => Sys2Proof.Machine.execTtrans d a b s
  | .sprd d a b => Sys2Proof.Machine.execSprd d a b s
  | .qpub d a => Sys2Proof.Machine.execQpub d a s
  | .qmap d b => Sys2Proof.Machine.execQmap d b s
  | .chainw d => Sys2Proof.Machine.execChainw d s
  | .launch a => Sys2Proof.Machine.execLaunch a s
  | .launcht d a => Sys2Proof.Machine.execLauncht d a s
  | .yield => Sys2Proof.Machine.execYield s
  | .bar d b => Sys2Proof.Machine.execBar d b s
  | .bara d b => Sys2Proof.Machine.execBara d b s
  | .barw d b => Sys2Proof.Machine.execBarw d b s
  | .trap imm => Sys2Proof.Machine.execTrap imm s
  | .resume => Sys2Proof.Machine.execResume s
  | .abort => Sys2Proof.Machine.execAbort s
  | .clock d => Sys2Proof.Machine.execClock d s
  | .monset d a => Sys2Proof.Machine.execMonset d a s
  | .monref d a => Sys2Proof.Machine.execMonref d a s
  | .monrefLast d => Sys2Proof.Machine.execMonrefLast d s
  | .monrd d a b => Sys2Proof.Machine.execMonrd d a b s
  | .monclr d => Sys2Proof.Machine.execMonclr d s
  | .npost d a => Sys2Proof.Machine.execNpost d a s
  | .nwait d a => Sys2Proof.Machine.execNwait d a s
  | .ncnt d a => Sys2Proof.Machine.execNcnt d a s
  | .nqstat d a => Sys2Proof.Machine.execNqstat d a s
  | .loadComplete gid op lanes cached => Sys2Proof.Machine.execLoadComplete gid op lanes cached s
  | .storePerformed gid op lanes => Sys2Proof.Machine.execStorePerformed gid op lanes s
  | .copyFillComplete gid op => Sys2Proof.Machine.execCopyFillComplete gid op s
  | .copyoComplete gid op => Sys2Proof.Machine.execCopyoComplete gid op s
  | .copywComplete gid op => Sys2Proof.Machine.execCopywComplete gid op s
  | .copyFault gid op link => Sys2Proof.Machine.execCopyFault gid op link s
  | .matrixOpStart core => Sys2Proof.Machine.execMatrixOpStart core s
  | .matrixOpComplete core => Sys2Proof.Machine.execMatrixOpComplete core s
  | .matrixFault core link => Sys2Proof.Machine.execMatrixFault core link s
  | .pairingInstanceForm quad first => Sys2Proof.Machine.execPairingInstanceForm quad first s
  | .pairingTimeout core => Sys2Proof.Machine.execPairingTimeout core s
  | .instanceCancel inst => Sys2Proof.Machine.execInstanceCancel inst s
  | .acallocGrant core => Sys2Proof.Machine.execAcallocGrant core s
  | .waitmReevaluation gid path => Sys2Proof.Machine.execWaitmReevaluation gid path s
  | .waitRemoteLoadTimeout gid path => Sys2Proof.Machine.execWaitRemoteLoadTimeout gid path s
  | .yieldExpiry gid path => Sys2Proof.Machine.execYieldExpiry gid path s
  | .groupEnd gid => Sys2Proof.Machine.execGroupEnd gid s
  | .launchCompletionSignal lid => Sys2Proof.Machine.execLaunchCompletionSignal lid s
  | .groupEvict gid => Sys2Proof.Machine.execGroupEvict gid s
  | .groupRestore gid => Sys2Proof.Machine.execGroupRestore gid s
  | .cohortPlacement die spill => Sys2Proof.Machine.execCohortPlacement die spill s
  | .pendingLaunchEntryFree die => Sys2Proof.Machine.execPendingLaunchEntryFree die s
  | .groupWatchdogExpiry gid => Sys2Proof.Machine.execGroupWatchdogExpiry gid s
  | .cpWatchdogExpiry die q => Sys2Proof.Machine.execCpWatchdogExpiry die q s
  | .quadBarrierTimeout quad idx => Sys2Proof.Machine.execQuadBarrierTimeout quad idx s
  | .queuePointerPoll die q => Sys2Proof.Machine.execQueuePointerPoll die q s
  | .packetNop die q => Sys2Proof.Machine.execPacketNop die q s
  | .packetLaunch die q => Sys2Proof.Machine.execPacketLaunch die q s
  | .packetPrefetch die q => Sys2Proof.Machine.execPacketPrefetch die q s
  | .packetWaitsig die q => Sys2Proof.Machine.execPacketWaitsig die q s
  | .waitsigTimeout die q => Sys2Proof.Machine.execWaitsigTimeout die q s
  | .packetSetsig die q => Sys2Proof.Machine.execPacketSetsig die q s
  | .packetCopy die q => Sys2Proof.Machine.execPacketCopy die q s
  | .queueCopyComplete die q pkt => Sys2Proof.Machine.execQueueCopyComplete die q pkt s
  | .packetCheckpoint die q => Sys2Proof.Machine.execPacketCheckpoint die q s
  | .packetMarker die q => Sys2Proof.Machine.execPacketMarker die q s
  | .queueEnable die q v => Sys2Proof.Machine.execQueueEnable die q v s
  | .queueDisable die q v => Sys2Proof.Machine.execQueueDisable die q v s
  | .qresumeGo die q => Sys2Proof.Machine.execQresumeGo die q s
  | .replaceDescriptor c => Sys2Proof.Machine.execReplaceDescriptor c s
  | .replaceTable c => Sys2Proof.Machine.execReplaceTable c s
  | .slide c => Sys2Proof.Machine.execSlide c s
  | .demote c => Sys2Proof.Machine.execDemote c s
  | .demoteComplete desc => Sys2Proof.Machine.execDemoteComplete desc s
  | .migrate c => Sys2Proof.Machine.execMigrate c s
  | .shootdownComplete id => Sys2Proof.Machine.execShootdownComplete id s
  | .slideChunk desc => Sys2Proof.Machine.execSlideChunk desc s
  | .migrationChunkMove desc => Sys2Proof.Machine.execMigrationChunkMove desc s
  | .cxlLinkDown port => Sys2Proof.Machine.execCxlLinkDown port s
  | .cxlCompletionTimeout port => Sys2Proof.Machine.execCxlCompletionTimeout port s
  | .pcieCompletionTimeout gid op => Sys2Proof.Machine.execPcieCompletionTimeout gid op s
  | .hostRead via off n tag => Sys2Proof.Machine.execHostRead via off n tag s
  | .hostWrite via off bytes => Sys2Proof.Machine.execHostWrite via off bytes s
  | .hostAtomicop via off op size x y tag => Sys2Proof.Machine.execHostAtomicop via off op size x y tag s
  | .hostAccessTimeout tag => Sys2Proof.Machine.execHostAccessTimeout tag s
  | .peerRequest gid op lanes fail => Sys2Proof.Machine.execPeerRequest gid op lanes fail s
  | .hbmRefresh stack channel pseudo => Sys2Proof.Machine.execHbmRefresh stack channel pseudo s
  | .wsTagWrite core slot v => Sys2Proof.Machine.execWsTagWrite core slot v s
  | .arrayRetentionEntry core arr => Sys2Proof.Machine.execArrayRetentionEntry core arr s
  | .quadRemap quad phys => Sys2Proof.Machine.execQuadRemap quad phys s
  | .quadOffline quad off => Sys2Proof.Machine.execQuadOffline quad off s
  | .quadFailure quad => Sys2Proof.Machine.execQuadFailure quad s
  | .chainModeSet quad on => Sys2Proof.Machine.execChainModeSet quad on s
  | .qwctlClr quad v => Sys2Proof.Machine.execQwctlClr quad v s
  | .chainHopComplete core pub idx fail => Sys2Proof.Machine.execChainHopComplete core pub idx fail s
  | .pmStart die ch => Sys2Proof.Machine.execPmStart die ch s
  | .pmSample die ch v => Sys2Proof.Machine.execPmSample die ch v s
  | .pmWindowClose die ch => Sys2Proof.Machine.execPmWindowClose die ch s
  | .powerArbiterTick dies hbms => Sys2Proof.Machine.execPowerArbiterTick dies hbms s
  | .powerOvershoot die => Sys2Proof.Machine.execPowerOvershoot die s
  | .networkMessageStart eng q => Sys2Proof.Machine.execNetworkMessageStart eng q s
  | .networkPacketArrival wire => Sys2Proof.Machine.execNetworkPacketArrival wire s
  | .networkAckArrival wire => Sys2Proof.Machine.execNetworkAckArrival wire s
  | .retransmissionTimeout eng msg pkt => Sys2Proof.Machine.execRetransmissionTimeout eng msg pkt s
  | .ntestArm eng v => Sys2Proof.Machine.execNtestArm eng v s
  | .sendQueueEnable eng q => Sys2Proof.Machine.execSendQueueEnable eng q s
  | .sendQueueDisable eng q => Sys2Proof.Machine.execSendQueueDisable eng q s
  | .sendQueueGo eng q => Sys2Proof.Machine.execSendQueueGo eng q s
  | .podBarrierArrival tenant idx a => Sys2Proof.Machine.execPodBarrierArrival tenant idx a s
  | .podBarrierCompletion tenant idx => Sys2Proof.Machine.execPodBarrierCompletion tenant idx s
  | .tenantValidSet tenant => Sys2Proof.Machine.execTenantValidSet tenant s
  | .tenantReset tenant => Sys2Proof.Machine.execTenantReset tenant s
  | .functionLevelReset tenant => Sys2Proof.Machine.execFunctionLevelReset tenant s
  | .warmReset => Sys2Proof.Machine.execWarmReset s
  | .coldReset => Sys2Proof.Machine.execColdReset s
  | .attestationRequest fn nonce addr => Sys2Proof.Machine.execAttestationRequest fn nonce addr s
  | .firmwareUpdate => Sys2Proof.Machine.execFirmwareUpdate s
  | .registerWrite reg v => Sys2Proof.Machine.execRegisterWrite reg v s
  | .cxlLinkUp port => Sys2Proof.Machine.execCxlLinkUp port s
  | .pcieLinkDown port => Sys2Proof.Machine.execPcieLinkDown port s
  | .pcieLinkUp port => Sys2Proof.Machine.execPcieLinkUp port s
  | .waitsigReevaluation die q => Sys2Proof.Machine.execWaitsigReevaluation die q s
  | .checkpointComplete die q => Sys2Proof.Machine.execCheckpointComplete die q s
  | .malformedRangeCommand op c => Sys2Proof.Machine.execMalformedRangeCommand op c s
  | .podMonitorGather tenant idx => Sys2Proof.Machine.execPodMonitorGather tenant idx s

end Sys2Proof.Machine
end

