-- ==== Sys2Proof/Machine/Scopes.lean ====
section
/-! DEFINITION. Accesses ahead of a FENCE whose scope is narrower than PKG (spec/16_memory_model.md R322, R325, R330; log entry 84). -/
namespace Sys2Proof.Machine

/-- Lanes of a load, a store, an atomic or a scratchpad access take effect ahead of operations that only narrow FENCEs order before them;
the scale reads of a matrix operation may from now on. -/
def goEarly (s : State) (gid n : Nat) (lanes : Mask) (cached : Bool) : State :=
  match s.opAt gid n with
  | none => s
  | some (g, o) =>
    let ks := narrowOpen g o.mask o.narrow (kindWrites o.kind)
    let free := { o with narrow := [] }
    let ahead (m : Mask) : State := passFences s gid g o.mask (opSpots g { o with todo := o.todo &&& m }) (kindWrites o.kind) ks
    if o.dropped || !mayPass g n o.mask ks then s
    else
      match o.kind with
      | .load .. | .spld .. | .sprd .. =>
        let m := lanes &&& o.todo
        if m = 0 || !loadReady g n free m then s else bindLanes (ahead m) gid n g o m cached
      | .store .. | .atom .. | .spst .. =>
        let m := lanes &&& unwritten o
        if m = 0 || !storeReady s g n free m then s else performLanes (ahead m) gid n g o m
      | .mat _ => if (scaleReads g.core o).isEmpty then s else (ahead o.todo).updOp gid n fun o => { o with narrow := [] }
      | _ => s

/-- The operations that a lock waits for are not over. -/
def lockOpen (s : State) (l : Lock) : Bool :=
  (s.group l.gid).any fun g => before g l.below l.mask fun o =>
    if l.loads then unbound g.core { o with dropped := false } else isStore o

/-- Locks whose operations are over go. -/
def unlock (s : State) : State :=
  let keep (ls : List Lock) : List Lock := ls.filter (lockOpen s)
  { s with
      groups := s.groups.map fun e => (e.1, { e.2 with locks := keep e.2.locks })
      dies := s.dies.map fun e => (e.1, { e.2 with locks := keep e.2.locks }) }

end Sys2Proof.Machine
end

