-- ==== Sys2Proof/Machine/Step.lean ====
section
/-! DEFINITION. One step of the package: the agent at the head of the agenda moves. A path fetches, decodes and executes its next
word; the hardware takes a step of its own; the outside acts. With an empty agenda nothing moves. -/
namespace Sys2Proof.Machine

/-- The issue of a path's next word. -/
def stepIssue (s : State) (gid pid : Nat) : Host.Outcome State Fault Refusal :=
  match s.group gid with
  | none => .next s
  | some g =>
    match g.path pid with
    | none => .next s
    | some p =>
      if g.status ≠ .resident || isYielded p then .next s
      else
        match fetchWord s g.core g.asid p.pc with
        | .error e => .next (noWord s gid pid 0 e)
        | .ok w =>
          match decode w with
          | .error _ => .next (noWord s gid pid w (.trap 0x01))
          | .ok i => exec i { s with cur := some (gid, pid) }

/-- What the agent named by an agenda entry does. -/
def act (s : State) : Action → Host.Outcome State Fault Refusal
  | .issue gid pid => stepIssue s gid pid
  | .event i => if isStep i then exec i s else .refused .notAStep
  | .engineUnit gid op u => .next (serveUnit s gid op u)
  | .rlbFill core asid va => .next (rlbFill s core asid va)
  | .cacheDrop core line => .next (s.setCore core { s.core core with lines := kdel (s.core core).lines line })
  | .operandDrop core t => .next (s.setCore core { s.core core with otags := (s.core core).otags.filter (· ≠ t) })
  | .poison block => .next { s with poison := addTo s.poison block }
  | .poisonReg gid w => .next (poisonWord s gid w)
  | .poisonTile core b => .next (poisonTile s core b)
  | .poisonSlot core u => .next (poisonSlot s core u)
  | .poisonBank core b e => .next (poisonBank s core b e)
  | .correct d => .next (countCorr s d)
  | .correctHbm pa => .next (countHbm s pa)
  | .shuttleError core => .next (shuttleError s core)
  | .clearContext e a => .next { s with drained := s.drained.filter (· ≠ 1024 * e + a) }
  | .queueUnit d q k => .next (queueUnit s d q k)
  | .elapse n => .next (elapse s n)
  | .early gid n m c => .next (goEarly s gid n m c)
  | .unlock => .next (unlock s)
  | .piece gid n u b => .next (servePiece s gid n u b)
  | .take gid n u b => .next (takeEarly s gid n u b)
  | .takeWait gid pid b => .next (takeWait s gid pid b)
  | .post gid n l k => .next (postLane s gid n l k)
  | .hostRefuses b bad => .next { s with hostBad := if bad then addTo s.hostBad b else s.hostBad.filter (· ≠ b) }
  | .peerSilent e deaf => .next (s.setEng e { s.eng e with deaf := deaf })
  | .barWrite fn off bs => barWrite fn off bs s
  | .barRead fn off n tag => .next (barRead s fn off n tag)
  | .hostStore a bs => .next (outWrite s false a bs)
  | .remoteStore n w o bs => .next (outWrite s true (remKey n w o) bs)
  | .remoteWindow n w r => .next { s with remWins := kset s.remWins (4096 * n + w) r }
  | .wireIn w => .next { s with wires := kset s.wires (kfresh s.wires) w }
  | .netSend e => .next (netSend s e)
  | .podSums n t i ms => .next (podSums s n t i ms)
  | .podVerdict t i v => .next (podVerdict s t i v)

/-- What the hardware finds after every step: tag writes whose hold is over (08 R177), requests whose path waits no more (R277), slides whose checkpoint is over (15 R317), PREFETCH packets whose migrations have started
(13 R268), wake conditions that have come true (13 R275), resets whose work is over (20 R379). -/
def settle (s : State) : State := settleResets (noteWakes (settlePrefetches (settleSlides (settleRequests (settleTags s)))))

def afterStep : Host.Outcome State Fault Refusal → Host.Outcome State Fault Refusal
  | .next s => .next (settle s)
  | o => o

/-- One step. -/
def step (s : State) : Host.Outcome State Fault Refusal :=
  match s.agenda with
  | [] => .next s
  | a :: rest => afterStep (act { s with agenda := rest } a)

/-! ## A word placed where the next step fetches it -/

/-- A converged group on core 0 in address space 0, at the address 0 of its code. -/
def placedGroup : Group :=
  let v : Views := ⟨0, 248, 0, 4096, 15, 0x100000⟩
  let r : Region := { pc := 0, regidx := 0xFFFF, mask := allLanes, sigs := [], depths := [], mode := 0, views := v, spill := 0, sa := 0, sb := 0 }
  { asid := 0, core := 0, slot := 0, cohort := 0, grpidx := 0, lanes := 64, frame := 0, status := .resident, exited := 0,
    regbytes := 65536, regs := [], regPoison := [], uni := [], preds := [], mode := 0, views := v, flags := 0, spill := 0,
    spillBytes := 0, sa := 0, sb := 0, spc := [], sig := [], ret := [], stack := [], spilled := 0, spillOpen := [],
    paths := [(0, freshPath 0 allLanes 0 .none r 0)], banks := [], ops := [], batch := 0, handler := none, pending := [],
    stopping := none, made := [], stall := 0, fenceLeft := SpFence.none, left := [], lastPath := none, clockLast := 0, endFault := none, locks := [] }

/-- The tables of an address space with one execute range of 256 bytes at virtual address 0, physical address 0x40000. -/
def placedTables (m : List Host.Cell) : List Host.Cell :=
  let m := Memory.store m 0x10000 (leBytes 8 0x20000 ++ leBytes 4 1 ++ leBytes 4 1 ++ leBytes 8 0x30000 ++ zeros 8)
  let m := Memory.store m 0x30000 (leBytes 4 4096)
  let m := Memory.store m 0x34000 (leBytes 4 0)
  Memory.store m 0x20000 (bytesOfDesc ⟨0, 256, 0x40000, 5, 0, 0, 0, 0, 0, 0⟩)

/-- The state in which the next step fetches and runs the instruction whose bits are `w`: the load of a program by the host and
the placement of its one group, as log entry 6 says. -/
def State.withFetchWord (s : State) (nbits w : Nat) : State :=
  { s with
      mem := Memory.store (placedTables s.mem) 0x40000 (bytesOfWord (BitVec.ofNat 32 (w % 2 ^ nbits)))
      poison := []
      asidtb := mset 0 s.asidtb 0 0x10000
      groups := kset s.groups 0 placedGroup
      agenda := .issue 0 0 :: s.agenda }

end Sys2Proof.Machine
end

