-- ==== Sys2Proof/Laws/PerInstr.lean ====
section
/-! SUPPORT. The family Coded, one lemma per constructor: an instruction without a word, which is a step of the hardware, has no
ill-formed operands (spec/01_instruction_words.md R20, R22): what is illegal by encoding is a word. -/
namespace Sys2Proof.Laws.Coded

/-- A step of the hardware is never ill-formed. -/
def Statement (i : Instr) : Prop := isStep i = true → wellFormed i = true

theorem nop : Statement .nop := fun h => by cases h
theorem bra (disp : BitVec 24) : Statement (.bra disp) := fun h => by cases h
theorem brz (d : UReg) (imm : BitVec 16) : Statement (.brz d imm) := fun h => by cases h
theorem brnz (d : UReg) (imm : BitVec 16) : Statement (.brnz d imm) := fun h => by cases h
theorem brd (disp : BitVec 24) : Statement (.brd disp) := fun h => by cases h
theorem call (disp : BitVec 24) : Statement (.call disp) := fun h => by cases h
theorem ret : Statement .ret := fun h => by cases h
theorem regang : Statement .regang := fun h => by cases h
theorem exit : Statement .exit := fun h => by cases h
theorem iadd (d : VReg) (a : VSrc) (b : VSrc) : Statement (.iadd d a b) := fun h => by cases h
theorem iaddS (d : VReg) (a : VSrc) (b : UReg) : Statement (.iaddS d a b) := fun h => by cases h
theorem isub (d : VReg) (a : VSrc) (b : VSrc) : Statement (.isub d a b) := fun h => by cases h
theorem isubS (d : VReg) (a : VSrc) (b : UReg) : Statement (.isubS d a b) := fun h => by cases h
theorem imul (d : VReg) (a : VSrc) (b : VSrc) : Statement (.imul d a b) := fun h => by cases h
theorem imulS (d : VReg) (a : VSrc) (b : UReg) : Statement (.imulS d a b) := fun h => by cases h
theorem imulh (d : VReg) (a : VSrc) (b : VSrc) : Statement (.imulh d a b) := fun h => by cases h
theorem imad (d : VReg) (a : VSrc) (b : VSrc) : Statement (.imad d a b) := fun h => by cases h
theorem imin (d : VReg) (a : VSrc) (b : VSrc) : Statement (.imin d a b) := fun h => by cases h
theorem imax (d : VReg) (a : VSrc) (b : VSrc) : Statement (.imax d a b) := fun h => by cases h
theorem shl (d : VReg) (a : VSrc) (b : VSrc) : Statement (.shl d a b) := fun h => by cases h
theorem shr (d : VReg) (a : VSrc) (b : VSrc) : Statement (.shr d a b) := fun h => by cases h
theorem sra (d : VReg) (a : VSrc) (b : VSrc) : Statement (.sra d a b) := fun h => by cases h
theorem rot (d : VReg) (a : VSrc) (b : VSrc) : Statement (.rot d a b) := fun h => by cases h
theorem and (d : VReg) (a : VSrc) (b : VSrc) : Statement (.and d a b) := fun h => by cases h
theorem or (d : VReg) (a : VSrc) (b : VSrc) : Statement (.or d a b) := fun h => by cases h
theorem xor (d : VReg) (a : VSrc) (b : VSrc) : Statement (.xor d a b) := fun h => by cases h
theorem andn (d : VReg) (a : VSrc) (b : VSrc) : Statement (.andn d a b) := fun h => by cases h
theorem sel (d : VReg) (a : VSrc) (b : VSrc) : Statement (.sel d a b) := fun h => by cases h
theorem icmp (p : Fin 8) (c : ICond) (a : VSrc) (b : VSrc) : Statement (.icmp p c a b) := fun h => by cases h
theorem icmpS (p : Fin 8) (c : ICond) (a : VSrc) (b : UReg) : Statement (.icmpS p c a b) := fun h => by cases h
theorem lea (d : VReg) (a : VSrc) (sub : BitVec 5) : Statement (.lea d a sub) := fun h => by cases h
theorem bfx (d : VReg) (a : VSrc) (b : VSrc) : Statement (.bfx d a b) := fun h => by cases h
theorem bfi (d : VReg) (a : VSrc) (b : VSrc) : Statement (.bfi d a b) := fun h => by cases h
theorem iabs (d : VReg) (a : VSrc) : Statement (.iabs d a) := fun h => by cases h
theorem ineg (d : VReg) (a : VSrc) : Statement (.ineg d a) := fun h => by cases h
theorem clz (d : VReg) (a : VSrc) : Statement (.clz d a) := fun h => by cases h
theorem popc (d : VReg) (a : VSrc) : Statement (.popc d a) := fun h => by cases h
theorem brev (d : VReg) (a : VSrc) : Statement (.brev d a) := fun h => by cases h
theorem iaddi (d : VReg) (imm : BitVec 16) : Statement (.iaddi d imm) := fun h => by cases h
theorem lli (d : VReg) (imm : BitVec 16) : Statement (.lli d imm) := fun h => by cases h
theorem lui (d : VReg) (imm : BitVec 16) : Statement (.lui d imm) := fun h => by cases h
theorem movv (d : VReg) (a : VSrc) : Statement (.movv d a) := fun h => by cases h
theorem movi (d : VReg) (a : VSrc) (b : VSrc) : Statement (.movi d a b) := fun h => by cases h
theorem moviw (d : VSrc) (a : VSrc) (b : VSrc) : Statement (.moviw d a b) := fun h => by cases h
theorem sadd (d : UReg) (a : UReg) (b : UReg) : Statement (.sadd d a b) := fun h => by cases h
theorem ssub (d : UReg) (a : UReg) (b : UReg) : Statement (.ssub d a b) := fun h => by cases h
theorem smul (d : UReg) (a : UReg) (b : UReg) : Statement (.smul d a b) := fun h => by cases h
theorem sand (d : UReg) (a : UReg) (b : UReg) : Statement (.sand d a b) := fun h => by cases h
theorem sor (d : UReg) (a : UReg) (b : UReg) : Statement (.sor d a b) := fun h => by cases h
theorem sxor (d : UReg) (a : UReg) (b : UReg) : Statement (.sxor d a b) := fun h => by cases h
theorem sshl (d : UReg) (a : UReg) (b : UReg) : Statement (.sshl d a b) := fun h => by cases h
theorem sshr (d : UReg) (a : UReg) (b : UReg) : Statement (.sshr d a b) := fun h => by cases h
theorem scmp (d : BitVec 5) (c : SCond) (a : UReg) (b : UReg) : Statement (.scmp d c a b) := fun h => by cases h
theorem smov (d : UReg) (a : UReg) : Statement (.smov d a) := fun h => by cases h
theorem sli (d : UReg) (imm : BitVec 16) : Statement (.sli d imm) := fun h => by cases h
theorem slui (d : UReg) (imm : BitVec 16) : Statement (.slui d imm) := fun h => by cases h
theorem srd (d : UReg) (imm : BitVec 16) : Statement (.srd d imm) := fun h => by cases h
theorem swr (d : UReg) (imm : BitVec 16) : Statement (.swr d imm) := fun h => by cases h
theorem v2s (d : UReg) (a : VReg) (sub : BitVec 6) : Statement (.v2s d a sub) := fun h => by cases h
theorem s2v (d : VReg) (a : UReg) : Statement (.s2v d a) := fun h => by cases h
theorem pand (d : Fin 8) (a : Fin 8) (b : Fin 8) : Statement (.pand d a b) := fun h => by cases h
theorem por (d : Fin 8) (a : Fin 8) (b : Fin 8) : Statement (.por d a b) := fun h => by cases h
theorem pxor (d : Fin 8) (a : Fin 8) (b : Fin 8) : Statement (.pxor d a b) := fun h => by cases h
theorem pnot (d : Fin 8) (a : Fin 8) : Statement (.pnot d a) := fun h => by cases h
theorem p2s (d : UReg) (a : Fin 8) (b : Bool) : Statement (.p2s d a b) := fun h => by cases h
theorem s2p (d : Fin 8) (a : UReg) (b : Bool) : Statement (.s2p d a b) := fun h => by cases h
theorem mode (d : BitVec 8) (imm : BitVec 16) : Statement (.mode d imm) := fun h => by cases h
theorem view (d : UReg) (a : UReg) (b : ViewSel) : Statement (.view d a b) := fun h => by cases h
theorem region (imm : BitVec 16) : Statement (.region imm) := fun h => by cases h
theorem sigchk (imm : BitVec 16) : Statement (.sigchk imm) := fun h => by cases h
theorem wait (loads : BitVec 6) (stores : BitVec 6) (copies : BitVec 6) (matrix : BitVec 6) : Statement (.wait loads stores copies matrix) := fun h => by cases h
theorem fadd (d : VReg) (a : VSrc) (b : VSrc) : Statement (.fadd d a b) := fun h => by cases h
theorem faddS (d : VReg) (a : VSrc) (b : UReg) : Statement (.faddS d a b) := fun h => by cases h
theorem fsub (d : VReg) (a : VSrc) (b : VSrc) : Statement (.fsub d a b) := fun h => by cases h
theorem fmul (d : VReg) (a : VSrc) (b : VSrc) : Statement (.fmul d a b) := fun h => by cases h
theorem fmulS (d : VReg) (a : VSrc) (b : UReg) : Statement (.fmulS d a b) := fun h => by cases h
theorem ffma (d : VReg) (a : VSrc) (b : VSrc) : Statement (.ffma d a b) := fun h => by cases h
theorem fmin (d : VReg) (a : VSrc) (b : VSrc) : Statement (.fmin d a b) := fun h => by cases h
theorem fmax (d : VReg) (a : VSrc) (b : VSrc) : Statement (.fmax d a b) := fun h => by cases h
theorem fcmp (p : Fin 8) (c : FCond) (a : VSrc) (b : VSrc) : Statement (.fcmp p c a b) := fun h => by cases h
theorem fneg (d : VReg) (a : VSrc) : Statement (.fneg d a) := fun h => by cases h
theorem fabs (d : VReg) (a : VSrc) : Statement (.fabs d a) := fun h => by cases h
theorem fclass (d : VReg) (a : VSrc) : Statement (.fclass d a) := fun h => by cases h
theorem frcp (d : VReg) (a : VSrc) : Statement (.frcp d a) := fun h => by cases h
theorem frsq (d : VReg) (a : VSrc) : Statement (.frsq d a) := fun h => by cases h
theorem fsqrt (d : VReg) (a : VSrc) : Statement (.fsqrt d a) := fun h => by cases h
theorem fex2 (d : VReg) (a : VSrc) : Statement (.fex2 d a) := fun h => by cases h
theorem flg2 (d : VReg) (a : VSrc) : Statement (.flg2 d a) := fun h => by cases h
theorem cvt (d : VReg) (a : VSrc) (sub : BitVec 5) : Statement (.cvt d a sub) := fun h => by cases h
theorem qnt (d : VReg) (a : VSrc) (sub : BitVec 5) : Statement (.qnt d a sub) := fun h => by cases h
theorem dqnt (d : VReg) (a : VSrc) (sub : BitVec 5) : Statement (.dqnt d a sub) := fun h => by cases h
theorem pack (d : VReg) (a : VSrc) (b : VSrc) : Statement (.pack d a b) := fun h => by cases h
theorem unpack (d : VReg) (a : VSrc) (part : BitVec 3) : Statement (.unpack d a part) := fun h => by cases h
theorem p16add (d : VReg) (a : VSrc) (b : VSrc) : Statement (.p16add d a b) := fun h => by cases h
theorem p16sub (d : VReg) (a : VSrc) (b : VSrc) : Statement (.p16sub d a b) := fun h => by cases h
theorem p16mac (d : VReg) (a : VSrc) (b : VSrc) : Statement (.p16mac d a b) := fun h => by cases h
theorem p16shr (d : VReg) (a : VSrc) (sh : BitVec 4) (r : Bool) : Statement (.p16shr d a sh r) := fun h => by cases h
theorem p32sat (d : VReg) (a : VSrc) (b : VSrc) : Statement (.p32sat d a b) := fun h => by cases h
theorem shfl (d : VReg) (a : VSrc) (b : VSrc) : Statement (.shfl d a b) := fun h => by cases h
theorem slideup (d : VReg) (a : VSrc) (sub : BitVec 6) : Statement (.slideup d a sub) := fun h => by cases h
theorem slidedn (d : VReg) (a : VSrc) (sub : BitVec 6) : Statement (.slidedn d a sub) := fun h => by cases h
theorem bcast (d : VReg) (a : VSrc) (sub : BitVec 6) : Statement (.bcast d a sub) := fun h => by cases h
theorem vote (d : Fin 8) (a : Fin 8) (b : VoteKind) : Statement (.vote d a b) := fun h => by cases h
theorem ballot (d : Fin 192) (a : Fin 8) : Statement (.ballot d a) := fun h => by cases h
theorem reduce (d : VReg) (a : VSrc) (b : ROp) : Statement (.reduce d a b) := fun h => by cases h
theorem scan (d : VReg) (a : VSrc) (op : ROp) (excl : Bool) : Statement (.scan d a op excl) := fun h => by cases h
theorem ldB (d : VReg) (o : LdOrd) (base : BitVec 6) (b : VSrc) : Statement (.ldB d o base b) := fun h => by cases h
theorem ldH (d : VReg) (o : LdOrd) (base : BitVec 6) (b : VSrc) : Statement (.ldH d o base b) := fun h => by cases h
theorem ld (d : VReg) (o : LdOrd) (base : BitVec 6) (b : VSrc) : Statement (.ld d o base b) := fun h => by cases h
theorem ldD (d : Fin 248) (o : LdOrd) (base : BitVec 6) (b : VSrc) : Statement (.ldD d o base b) := fun h => by cases h
theorem ldQ (d : Fin 248) (o : LdOrd) (base : BitVec 6) (b : VSrc) : Statement (.ldQ d o base b) := fun h => by cases h
theorem stB (d : VSrc) (o : StOrd) (base : BitVec 6) (b : VSrc) : Statement (.stB d o base b) := fun h => by cases h
theorem stH (d : VSrc) (o : StOrd) (base : BitVec 6) (b : VSrc) : Statement (.stH d o base b) := fun h => by cases h
theorem st (d : VSrc) (o : StOrd) (base : BitVec 6) (b : VSrc) : Statement (.st d o base b) := fun h => by cases h
theorem stD (d : Fin 248) (o : StOrd) (base : BitVec 6) (b : VSrc) : Statement (.stD d o base b) := fun h => by cases h
theorem stQ (d : Fin 248) (o : StOrd) (base : BitVec 6) (b : VSrc) : Statement (.stQ d o base b) := fun h => by cases h
theorem ldg (d : VReg) (o : GaOrd) (base : BitVec 6) (b : VSrc) : Statement (.ldg d o base b) := fun h => by cases h
theorem ldgD (d : Fin 248) (o : GaOrd) (base : BitVec 6) (b : VSrc) : Statement (.ldgD d o base b) := fun h => by cases h
theorem sts (d : VSrc) (o : GaOrd) (base : BitVec 6) (b : VSrc) : Statement (.sts d o base b) := fun h => by cases h
theorem stsD (d : Fin 248) (o : GaOrd) (base : BitVec 6) (b : VSrc) : Statement (.stsD d o base b) := fun h => by cases h
theorem ldu (d : UReg) (a : Fin 192) (b : BitVec 8) : Statement (.ldu d a b) := fun h => by cases h
theorem stu (d : UReg) (a : Fin 192) (b : BitVec 8) : Statement (.stu d a b) := fun h => by cases h
theorem atomAdd (d : VReg) (o : AtOrd) (base : BitVec 6) (b : VSrc) : Statement (.atomAdd d o base b) := fun h => by cases h
theorem atomMin (d : VReg) (o : AtOrd) (base : BitVec 6) (b : VSrc) : Statement (.atomMin d o base b) := fun h => by cases h
theorem atomMax (d : VReg) (o : AtOrd) (base : BitVec 6) (b : VSrc) : Statement (.atomMax d o base b) := fun h => by cases h
theorem atomAnd (d : VReg) (o : AtOrd) (base : BitVec 6) (b : VSrc) : Statement (.atomAnd d o base b) := fun h => by cases h
theorem atomOr (d : VReg) (o : AtOrd) (base : BitVec 6) (b : VSrc) : Statement (.atomOr d o base b) := fun h => by cases h
theorem atomXor (d : VReg) (o : AtOrd) (base : BitVec 6) (b : VSrc) : Statement (.atomXor d o base b) := fun h => by cases h
theorem atomExch (d : VReg) (o : AtOrd) (base : BitVec 6) (b : VSrc) : Statement (.atomExch d o base b) := fun h => by cases h
theorem atomCas (d : Fin 248) (o : AtOrd) (base : BitVec 6) (b : VSrc) : Statement (.atomCas d o base b) := fun h => by cases h
theorem atomFadd (d : VReg) (o : AtOrd) (base : BitVec 6) (b : VSrc) : Statement (.atomFadd d o base b) := fun h => by cases h
theorem fence (k : FenceKind) (sc : FenceScope) : Statement (.fence k sc) := fun h => by cases h
theorem rpref (a : Fin 192) (b : Bool) : Statement (.rpref a b) := fun h => by cases h
theorem waitm (c : WCond) (wide : Bool) (a : Fin 192) (b : UReg) : Statement (.waitm c wide a b) := fun h => by cases h
theorem spld (d : VReg) (a : Fin 192) (b : VSrc) : Statement (.spld d a b) := fun h => by cases h
theorem spst (d : VSrc) (a : Fin 192) (b : VSrc) : Statement (.spst d a b) := fun h => by cases h
theorem tclaim (d : Fin 192) : Statement (.tclaim d) := fun h => by cases h
theorem trel (d : Fin 192) : Statement (.trel d) := fun h => by cases h
theorem tstat (d : UReg) (a : Fin 192) : Statement (.tstat d a) := fun h => by cases h
theorem copy (d : Fin 192) (a : Fin 192) (b : UReg) : Statement (.copy d a b) := fun h => by cases h
theorem copyg (d : Fin 192) (a : Fin 192) (b : UReg) : Statement (.copyg d a b) := fun h => by cases h
theorem copyo (d : Fin 192) (a : Fin 192) (b : UReg) : Statement (.copyo d a b) := fun h => by cases h
theorem copyw (d : UReg) (a : Fin 192) (b : UReg) : Statement (.copyw d a b) := fun h => by cases h
theorem publish (a : Fin 192) : Statement (.publish a) := fun h => by cases h
theorem spfence : Statement .spfence := fun h => by cases h
theorem acalloc (d : UReg) (b : BitVec 8) : Statement (.acalloc d b) := fun h => by cases h
theorem acfree (d : Fin 16) (b : BitVec 8) : Statement (.acfree d b) := fun h => by cases h
theorem aczero (d : Fin 16) : Statement (.aczero d) := fun h => by cases h
theorem mma (d : Fin 16) (a : Fin 248) (b : VSrc) : Statement (.mma d a b) := fun h => by cases h
theorem mmap (d : Fin 16) (a : Fin 248) (b : VSrc) : Statement (.mmap d a b) := fun h => by cases h
theorem mmaq (d : Fin 16) (a : Fin 248) (b : VSrc) : Statement (.mmaq d a b) := fun h => by cases h
theorem mmaw (d : Fin 16) (a : Fin 248) (b : VSrc) : Statement (.mmaw d a b) := fun h => by cases h
theorem mfence (d : UReg) : Statement (.mfence d) := fun h => by cases h
theorem waitb (a : UReg) : Statement (.waitb a) := fun h => by cases h
theorem acld (d : Fin 248) (a : Fin 16) (b : VSrc) : Statement (.acld d a b) := fun h => by cases h
theorem acst (d : Fin 192) (a : Fin 16) (b : VSrc) : Statement (.acst d a b) := fun h => by cases h
theorem seek (d : VReg) (a : Fin 248) (b : UReg) : Statement (.seek d a b) := fun h => by cases h
theorem seedx (d : Fin 248) (a : Fin 248) (b : UReg) : Statement (.seedx d a b) := fun h => by cases h
theorem ttrans (d : Fin 248) (a : Fin 248) (b : TSize) : Statement (.ttrans d a b) := fun h => by cases h
theorem sprd (d : VReg) (a : UReg) (b : VSrc) : Statement (.sprd d a b) := fun h => by cases h
theorem qpub (d : Fin 192) (a : UReg) : Statement (.qpub d a) := fun h => by cases h
theorem qmap (d : UReg) (b : Bool) : Statement (.qmap d b) := fun h => by cases h
theorem chainw (d : Fin 192) : Statement (.chainw d) := fun h => by cases h
theorem launch (a : Fin 192) : Statement (.launch a) := fun h => by cases h
theorem launcht (d : Fin 8) (a : Fin 192) : Statement (.launcht d a) := fun h => by cases h
theorem yield : Statement .yield := fun h => by cases h
theorem bar (d : BitVec 8) (b : Scope) : Statement (.bar d b) := fun h => by cases h
theorem bara (d : BitVec 8) (b : Scope) : Statement (.bara d b) := fun h => by cases h
theorem barw (d : BitVec 8) (b : Scope) : Statement (.barw d b) := fun h => by cases h
theorem trap (imm : BitVec 16) : Statement (.trap imm) := fun h => by cases h
theorem resume : Statement .resume := fun h => by cases h
theorem abort : Statement .abort := fun h => by cases h
theorem clock (d : Fin 192) : Statement (.clock d) := fun h => by cases h
theorem monset (d : BitVec 2) (a : Fin 192) : Statement (.monset d a) := fun h => by cases h
theorem monref (d : BitVec 2) (a : Fin 192) : Statement (.monref d a) := fun h => by cases h
theorem monrefLast (d : BitVec 2) : Statement (.monrefLast d) := fun h => by cases h
theorem monrd (d : Fin 192) (a : BitVec 2) (b : MonSel) : Statement (.monrd d a b) := fun h => by cases h
theorem monclr (d : BitVec 2) : Statement (.monclr d) := fun h => by cases h
theorem npost (d : UReg) (a : Fin 192) : Statement (.npost d a) := fun h => by cases h
theorem nwait (d : UReg) (a : UReg) : Statement (.nwait d a) := fun h => by cases h
theorem ncnt (d : UReg) (a : UReg) : Statement (.ncnt d a) := fun h => by cases h
theorem nqstat (d : UReg) (a : UReg) : Statement (.nqstat d a) := fun h => by cases h
theorem loadComplete (gid : Nat) (op : Nat) (lanes : Mask) (cached : Bool) : Statement (.loadComplete gid op lanes cached) := fun _ => rfl
theorem storePerformed (gid : Nat) (op : Nat) (lanes : Mask) : Statement (.storePerformed gid op lanes) := fun _ => rfl
theorem copyFillComplete (gid : Nat) (op : Nat) : Statement (.copyFillComplete gid op) := fun _ => rfl
theorem copyoComplete (gid : Nat) (op : Nat) : Statement (.copyoComplete gid op) := fun _ => rfl
theorem copywComplete (gid : Nat) (op : Nat) : Statement (.copywComplete gid op) := fun _ => rfl
theorem copyFault (gid : Nat) (op : Nat) (link : Bool) : Statement (.copyFault gid op link) := fun _ => rfl
theorem matrixOpStart (core : Nat) : Statement (.matrixOpStart core) := fun _ => rfl
theorem matrixOpComplete (core : Nat) : Statement (.matrixOpComplete core) := fun _ => rfl
theorem matrixFault (core : Nat) (link : Bool) : Statement (.matrixFault core link) := fun _ => rfl
theorem pairingInstanceForm (quad : Nat) (first : Nat) : Statement (.pairingInstanceForm quad first) := fun _ => rfl
theorem pairingTimeout (core : Nat) : Statement (.pairingTimeout core) := fun _ => rfl
theorem instanceCancel (inst : Nat) : Statement (.instanceCancel inst) := fun _ => rfl
theorem acallocGrant (core : Nat) : Statement (.acallocGrant core) := fun _ => rfl
theorem waitmReevaluation (gid : Nat) (path : Nat) : Statement (.waitmReevaluation gid path) := fun _ => rfl
theorem waitRemoteLoadTimeout (gid : Nat) (path : Nat) : Statement (.waitRemoteLoadTimeout gid path) := fun _ => rfl
theorem yieldExpiry (gid : Nat) (path : Nat) : Statement (.yieldExpiry gid path) := fun _ => rfl
theorem groupEnd (gid : Nat) : Statement (.groupEnd gid) := fun _ => rfl
theorem launchCompletionSignal (lid : Nat) : Statement (.launchCompletionSignal lid) := fun _ => rfl
theorem groupEvict (gid : Nat) : Statement (.groupEvict gid) := fun _ => rfl
theorem groupRestore (gid : Nat) : Statement (.groupRestore gid) := fun _ => rfl
theorem cohortPlacement (die : Nat) (spill : Dbl) : Statement (.cohortPlacement die spill) := fun _ => rfl
theorem pendingLaunchEntryFree (die : Nat) : Statement (.pendingLaunchEntryFree die) := fun _ => rfl
theorem groupWatchdogExpiry (gid : Nat) : Statement (.groupWatchdogExpiry gid) := fun _ => rfl
theorem cpWatchdogExpiry (die : Nat) (q : Nat) : Statement (.cpWatchdogExpiry die q) := fun _ => rfl
theorem quadBarrierTimeout (quad : Nat) (idx : Nat) : Statement (.quadBarrierTimeout quad idx) := fun _ => rfl
theorem queuePointerPoll (die : Nat) (q : Nat) : Statement (.queuePointerPoll die q) := fun _ => rfl
theorem packetNop (die : Nat) (q : Nat) : Statement (.packetNop die q) := fun _ => rfl
theorem packetLaunch (die : Nat) (q : Nat) : Statement (.packetLaunch die q) := fun _ => rfl
theorem packetPrefetch (die : Nat) (q : Nat) : Statement (.packetPrefetch die q) := fun _ => rfl
theorem packetWaitsig (die : Nat) (q : Nat) : Statement (.packetWaitsig die q) := fun _ => rfl
theorem waitsigTimeout (die : Nat) (q : Nat) : Statement (.waitsigTimeout die q) := fun _ => rfl
theorem packetSetsig (die : Nat) (q : Nat) : Statement (.packetSetsig die q) := fun _ => rfl
theorem packetCopy (die : Nat) (q : Nat) : Statement (.packetCopy die q) := fun _ => rfl
theorem queueCopyComplete (die : Nat) (q : Nat) (pkt : Nat) : Statement (.queueCopyComplete die q pkt) := fun _ => rfl
theorem packetCheckpoint (die : Nat) (q : Nat) : Statement (.packetCheckpoint die q) := fun _ => rfl
theorem packetMarker (die : Nat) (q : Nat) : Statement (.packetMarker die q) := fun _ => rfl
theorem queueEnable (die : Nat) (q : Nat) (v : Word) : Statement (.queueEnable die q v) := fun _ => rfl
theorem queueDisable (die : Nat) (q : Nat) (v : Word) : Statement (.queueDisable die q v) := fun _ => rfl
theorem qresumeGo (die : Nat) (q : Nat) : Statement (.qresumeGo die q) := fun _ => rfl
theorem replaceDescriptor (c : RangeCmd) : Statement (.replaceDescriptor c) := fun _ => rfl
theorem replaceTable (c : RangeCmd) : Statement (.replaceTable c) := fun _ => rfl
theorem slide (c : RangeCmd) : Statement (.slide c) := fun _ => rfl
theorem demote (c : RangeCmd) : Statement (.demote c) := fun _ => rfl
theorem demoteComplete (desc : Nat) : Statement (.demoteComplete desc) := fun _ => rfl
theorem migrate (c : RangeCmd) : Statement (.migrate c) := fun _ => rfl
theorem shootdownComplete (id : Nat) : Statement (.shootdownComplete id) := fun _ => rfl
theorem slideChunk (desc : Nat) : Statement (.slideChunk desc) := fun _ => rfl
theorem migrationChunkMove (desc : Nat) : Statement (.migrationChunkMove desc) := fun _ => rfl
theorem cxlLinkDown (port : Nat) : Statement (.cxlLinkDown port) := fun _ => rfl
theorem cxlCompletionTimeout (port : Nat) : Statement (.cxlCompletionTimeout port) := fun _ => rfl
theorem pcieCompletionTimeout (gid : Nat) (op : Nat) : Statement (.pcieCompletionTimeout gid op) := fun _ => rfl
theorem hostRead (via : HostVia) (off : Nat) (n : Nat) (tag : Nat) : Statement (.hostRead via off n tag) := fun _ => rfl
theorem hostWrite (via : HostVia) (off : Nat) (bytes : List Byte) : Statement (.hostWrite via off bytes) := fun _ => rfl
theorem hostAtomicop (via : HostVia) (off : Nat) (op : HostOp) (size : Nat) (x : Nat) (y : Nat) (tag : Nat) : Statement (.hostAtomicop via off op size x y tag) := fun _ => rfl
theorem hostAccessTimeout (tag : Nat) : Statement (.hostAccessTimeout tag) := fun _ => rfl
theorem peerRequest (gid : Nat) (op : Nat) (lanes : Mask) (fail : Bool) : Statement (.peerRequest gid op lanes fail) := fun _ => rfl
theorem hbmRefresh (stack : Nat) (channel : Nat) (pseudo : Nat) : Statement (.hbmRefresh stack channel pseudo) := fun _ => rfl
theorem wsTagWrite (core : Nat) (slot : Nat) (v : Word) : Statement (.wsTagWrite core slot v) := fun _ => rfl
theorem arrayRetentionEntry (core : Nat) (arr : Array3) : Statement (.arrayRetentionEntry core arr) := fun _ => rfl
theorem quadRemap (quad : Nat) (phys : Nat) : Statement (.quadRemap quad phys) := fun _ => rfl
theorem quadOffline (quad : Nat) (off : Bool) : Statement (.quadOffline quad off) := fun _ => rfl
theorem quadFailure (quad : Nat) : Statement (.quadFailure quad) := fun _ => rfl
theorem chainModeSet (quad : Nat) (on : Bool) : Statement (.chainModeSet quad on) := fun _ => rfl
theorem qwctlClr (quad : Nat) (v : Word) : Statement (.qwctlClr quad v) := fun _ => rfl
theorem chainHopComplete (core : Nat) (pub : Nat) (idx : Nat) (fail : Bool) : Statement (.chainHopComplete core pub idx fail) := fun _ => rfl
theorem pmStart (die : Nat) (ch : Nat) : Statement (.pmStart die ch) := fun _ => rfl
theorem pmSample (die : Nat) (ch : Nat) (v : Nat) : Statement (.pmSample die ch v) := fun _ => rfl
theorem pmWindowClose (die : Nat) (ch : Nat) : Statement (.pmWindowClose die ch) := fun _ => rfl
theorem powerArbiterTick (dies : List Nat) (hbms : List Nat) : Statement (.powerArbiterTick dies hbms) := fun _ => rfl
theorem powerOvershoot (die : Nat) : Statement (.powerOvershoot die) := fun _ => rfl
theorem networkMessageStart (eng : Nat) (q : Nat) : Statement (.networkMessageStart eng q) := fun _ => rfl
theorem networkPacketArrival (wire : Nat) : Statement (.networkPacketArrival wire) := fun _ => rfl
theorem networkAckArrival (wire : Nat) : Statement (.networkAckArrival wire) := fun _ => rfl
theorem retransmissionTimeout (eng : Nat) (msg : Nat) (pkt : Nat) : Statement (.retransmissionTimeout eng msg pkt) := fun _ => rfl
theorem ntestArm (eng : Nat) (v : Word) : Statement (.ntestArm eng v) := fun _ => rfl
theorem sendQueueEnable (eng : Nat) (q : Nat) : Statement (.sendQueueEnable eng q) := fun _ => rfl
theorem sendQueueDisable (eng : Nat) (q : Nat) : Statement (.sendQueueDisable eng q) := fun _ => rfl
theorem sendQueueGo (eng : Nat) (q : Nat) : Statement (.sendQueueGo eng q) := fun _ => rfl
theorem podBarrierArrival (tenant : Nat) (idx : Nat) (a : PodArrival) : Statement (.podBarrierArrival tenant idx a) := fun _ => rfl
theorem podBarrierCompletion (tenant : Nat) (idx : Nat) : Statement (.podBarrierCompletion tenant idx) := fun _ => rfl
theorem tenantValidSet (tenant : Nat) : Statement (.tenantValidSet tenant) := fun _ => rfl
theorem tenantReset (tenant : Nat) : Statement (.tenantReset tenant) := fun _ => rfl
theorem functionLevelReset (tenant : Nat) : Statement (.functionLevelReset tenant) := fun _ => rfl
theorem warmReset : Statement .warmReset := fun _ => rfl
theorem coldReset : Statement .coldReset := fun _ => rfl
theorem attestationRequest (fn : Nat) (nonce : BitVec 256) (addr : Dbl) : Statement (.attestationRequest fn nonce addr) := fun _ => rfl
theorem firmwareUpdate : Statement .firmwareUpdate := fun _ => rfl
theorem registerWrite (reg : CtlReg) (v : Dbl) : Statement (.registerWrite reg v) := fun _ => rfl
theorem cxlLinkUp (port : Nat) : Statement (.cxlLinkUp port) := fun _ => rfl
theorem pcieLinkDown (port : Nat) : Statement (.pcieLinkDown port) := fun _ => rfl
theorem pcieLinkUp (port : Nat) : Statement (.pcieLinkUp port) := fun _ => rfl
theorem waitsigReevaluation (die : Nat) (q : Nat) : Statement (.waitsigReevaluation die q) := fun _ => rfl
theorem checkpointComplete (die : Nat) (q : Nat) : Statement (.checkpointComplete die q) := fun _ => rfl
theorem malformedRangeCommand (op : Byte) (c : RangeCmd) : Statement (.malformedRangeCommand op c) := fun _ => rfl
theorem podMonitorGather (tenant : Nat) (idx : Nat) : Statement (.podMonitorGather tenant idx) := fun _ => rfl

end Sys2Proof.Laws.Coded
end

