-- ==== Sys2Proof/Safety.lean ====
section
/-! DEFINITION. What counts as a safe run, and the words that claims are written in: who issues, what a word that completes
changes, and what it leaves as it was. -/
namespace Sys2Proof.Machine

/-- The step answers a next state. -/
def State.proceeds (s : State) : Prop := ∃ t, step s = .next t

/-- Device, host and remote memory have their canonical form. -/
def State.memOk (s : State) : Prop := Memory.wf s.mem = true ∧ Memory.wf s.hostMem = true ∧ Memory.wf s.remMem = true

end Sys2Proof.Machine

namespace Sys2Proof.Claims
open Sys2Proof.Machine

/-- Path `pid` of group `gid` is at its word and free to issue it: the group is resident, nothing of it is in flight, no region
entry, no stop and no fault is due, no register word is poisoned, the register space is out of retention, no place is locked to it
(an access ahead of another path's narrow FENCE, 16 R322), and the region does not ask for the idempotence check of R90. -/
structure Issues (s : State) (gid pid : Nat) (g : Group) (p : Path) : Prop where
  cur : s.cur = some (gid, pid)
  group : s.group gid = some g
  path : g.path pid = some p
  resident : g.status = .resident
  ready : isYielded p = false
  noFault : g.pending = []
  calm : g.stopping = none
  noEntry : p.entryDue = none
  idle : g.ops = []
  clean : g.regPoison = []
  awake : (s.core g.core).retRegs = false
  noCheck : p.idem = false
  free : g.locks = []

/-- A vector source that the vector view holds (R10, R69). -/
def srcIn (g : Group) : VSrc → Prop
  | .reg n => n.val < g.views.vvcount.toNat
  | _ => True

/-- A vector destination that the vector view holds; 255 always is. -/
def dstIn (g : Group) : VReg → Prop
  | .reg n => n.val < g.views.vvcount.toNat
  | .zero => True

/-- A span of `k` vector registers from `n` that the vector view holds (R11). -/
def spanIn (g : Group) (n : Fin 248) (k : Nat) : Prop := n.val + k ≤ g.views.vvcount.toNat

/-- `t` is `s` but for group `gid`, which is now `h`. -/
def OnlyGroup (s t : State) (gid : Nat) (h : Group) : Prop :=
  t = { s with groups := t.groups } ∧ (∀ k, k ≠ gid → t.group k = s.group k) ∧ t.group gid = some h

/-- The path has gone on to `pc`: it runs there, in the region it was in, and no other path has changed. -/
def PathAt (g h : Group) (pid : Nat) (p : Path) (pc : Addr) : Prop :=
  (∃ q, h.path pid = some q ∧ q.pc = pc ∧ q.mask = p.mask ∧ q.mask0 = p.mask0 ∧ q.side = p.side ∧ q.status = .run ∧ q.region = p.region
    ∧ q.attempts = p.attempts) ∧ ∀ k, k ≠ pid → h.path k = g.path k

/-- The word has entered the signatures of the path's slices, and of no other slice (R86). -/
def Signed (g h : Group) (p : Path) (w : Word) : Prop :=
  ∀ c, h.sigOf c = if c ∈ slicesOf p.mask then (g.sigOf c).rotateLeft 1 ^^^ w else g.sigOf c

/-- The signatures of the path's slices are clear, and no other slice's has changed (R86). -/
def SigCleared (g h : Group) (p : Path) : Prop :=
  ∀ c, h.sigOf c = if c ∈ slicesOf p.mask then 0 else g.sigOf c

/-- The word of an instruction; 0 for a step of the hardware. -/
def wordOf (i : Instr) : Word := (encode i).getD 0

/-- `i` completes: it answers a next state that differs in the issuing group alone, the path goes on at the next word, and the
group satisfies `R`. -/
def Completes (i : Instr) (s : State) (gid pid : Nat) (g : Group) (p : Path) (R : Group → Prop) : Prop :=
  ∃ t h, exec i s = .next t ∧ OnlyGroup s t gid h ∧ PathAt g h pid p (p.pc + 4) ∧ Signed g h p (wordOf i) ∧ R h

/-- `i` takes the trap `k` at its word: the shared operation of R186 to R188, stated by statements of its own. -/
def TrapsAt (i : Instr) (s : State) (gid pid : Nat) (p : Path) (k : TrapInfo) : Prop :=
  exec i s = .next (trapEnter s gid k pid false p.pc.toNat (wordOf i))

/-- Register space after a write of `f` to destination `d` in the lanes of `m`: those words hold `f`, every other word what it
held (R10: a write to 255 is discarded). -/
def Rows (g h : Group) (d : VReg) (m : Mask) (f : Nat → Word) : Prop :=
  ∀ k, mget 0 h.regs k = match d with
    | .reg n =>
      if g.vaddr n.val / 4 ≤ k ∧ k < g.vaddr n.val / 4 + 64 ∧ bit m (k - g.vaddr n.val / 4) = true then f (k - g.vaddr n.val / 4)
      else mget 0 g.regs k
    | .zero => mget 0 g.regs k

/-- Only register space, the flags, the signatures and the paths have changed; `fl` are the sticky flags that the word set. -/
def VectorFrame (g h : Group) (fl : Word) : Prop :=
  h = { g with regs := h.regs, flags := g.flags ||| fl, sig := h.sig, paths := h.paths, stall := 0 }

/-- Only one uniform register may have changed: `d` holds `v` (R10: a write to 255 is discarded). -/
def UniformSet (g h : Group) (d : UReg) (v : Word) : Prop :=
  h = { g with uni := h.uni, sig := h.sig, paths := h.paths, stall := 0 } ∧
  ∀ k, h.u k = match d with
    | .reg n => if k = n.val then v else g.u k
    | .zero => g.u k

/-- Only predicate `d` may have changed, and only in the lanes of `m`, where it holds `v` (R10: a write to p0 is discarded). -/
def PredicateSet (g h : Group) (d : Fin 8) (m v : Mask) : Prop :=
  h = { g with preds := h.preds, sig := h.sig, paths := h.paths, stall := 0 } ∧
  ∀ k, h.pred k = if k = d.val ∧ d.val ≠ 0 then (g.pred k &&& ~~~m) ||| (v &&& m) else g.pred k

/-- The words that lane `l` reads: vector sources in order, then uniforms. -/
def laneArgs (g : Group) (p : Path) (srcs : List VSrc) (us : List UReg) (l : Nat) : List Word :=
  srcs.map (fun a => (srcVals g p a).getD l 0) ++ us.map g.us

/-- Some lane of `m` has its flag set. -/
def anyLane (m : Mask) (f : Nat → Bool) : Bool := (List.range 64).any fun l => bit m l && f l

/-- A lanewise instruction completes: in every lane of `m`, `d` holds the first part of `f`'s result, and SAT is set where the
second part of some lane's result says so. -/
def LanesComplete (i : Instr) (s : State) (gid pid : Nat) (g : Group) (p : Path) (d : VReg) (m : Mask) (f : Nat → Word × Bool) : Prop :=
  Completes i s gid pid g p fun h =>
    VectorFrame g h (if anyLane m (fun l => (f l).2) then 1 else 0) ∧ Rows g h d m fun l => (f l).1

end Sys2Proof.Claims
end

