-- ==== Sys2Proof/Certificates/Slice0/Obligations.lean ====
section
/-! DEFINITION. The statements for the provers, and the words they are written in. -/

/-! ## Words, steps, memory's form, reset -/
namespace Sys2Proof.Claims
open Sys2Proof.Machine

/-- The machine when the agent `a` has been taken from the head of the agenda. -/
def Taken (s : State) (a : Action) (u : State) : Prop := ∃ rest, s.agenda = a :: rest ∧ u = { s with agenda := rest }

/-- The path that an agenda entry names is there and free to move. -/
def Moves (s : State) (gid pid : Nat) (g : Group) (p : Path) : Prop :=
  s.group gid = some g ∧ g.path pid = some p ∧ g.status = .resident ∧ isYielded p = false

/-- A fetched word that decodes is executed by its path; then the hardware finds what has come due (`afterStep`). -/
def RunsDecoded : Prop :=
  ∀ s u gid pid g p w i, Taken s (.issue gid pid) u → Moves u gid pid g p → fetchWord u g.core g.asid p.pc = .ok w → decode w = .ok i →
    step s = afterStep (exec i { u with cur := some (gid, pid) })

/-- A fetched word that is no instruction takes the illegal-instruction trap at the word (01 R20), and so does an instruction that is
ill-formed. -/
def IllegalTraps : Prop :=
  (∀ s u gid pid g p w e, Taken s (.issue gid pid) u → Moves u gid pid g p → fetchWord u g.core g.asid p.pc = .ok w → decode w = .error e →
    g.stopping = none → g.pending = [] → p.entryDue = none →
    step s = afterStep (.next (trapEnter u gid (trapOf 0x01) pid false p.pc.toNat w))) ∧
  (∀ i w s gid pid g p, encode i = some w → wellFormed i = false → Issues s gid pid g p → TrapsAt i s gid pid p (trapOf 0x01)) ∧
  (∀ s u gid pid g p, Taken s (.issue gid pid) u → Moves u gid pid g p → g.stopping = none → g.pending = [] → p.entryDue = none →
    ∀ c, fetchWord u g.core g.asid p.pc = .error (.trap c) → c ≠ 0x0C →
    step s = afterStep (.next (trapEnter u gid (trapOf c) pid false p.pc.toNat 0)))

/-- A step of the hardware on the agenda is executed; with an empty agenda nothing moves. -/
def RunsEvents : Prop :=
  (∀ s u i, Taken s (.event i) u → isStep i = true → step s = afterStep (exec i u)) ∧ (∀ s, s.agenda = [] → step s = .next s)

/-! ### NOP and the predicate and lane words -/

/-- Nothing of the group has changed but the signatures, the issuing path and the count of idle cycles. -/
def OnlyMovesOn (g h : Group) : Prop := h = { g with sig := h.sig, paths := h.paths, stall := 0 }

/-- A word whose primary opcode is `n` is no instruction where `f` holds of it. -/
def IllegalWords (n : BitVec 8) (f : Word → Prop) : Prop := ∀ w, fOp w = n → f w → ∃ e, decode w = .error e

/-- NOP does nothing but enter the signature, and 0x00000000 is its only word (R118, R86). -/
def NopHasNoEffect : Prop :=
  (∀ s gid pid g p, Issues s gid pid g p → Completes .nop s gid pid g p fun h => OnlyMovesOn g h) ∧ encode .nop = some 0 ∧
    IllegalWords 0x00 fun w => w ≠ 0

/-- PAND, POR, PXOR and PNOT act in the lanes of the path that are launched and not exited, whatever the guard; p0 reads true and is not
written; other lanes keep their bits (R113). -/
def PredicateLogic : Prop :=
  ∀ s gid pid g p, Issues s gid pid g p → g.pred 0 = allLanes ∧ ∀ d a b : Fin 8,
    (Completes (.pand d a b) s gid pid g p fun h => PredicateSet g h d (pathLanes g p) (g.pred a.val &&& g.pred b.val)) ∧
    (Completes (.por d a b) s gid pid g p fun h => PredicateSet g h d (pathLanes g p) (g.pred a.val ||| g.pred b.val)) ∧
    (Completes (.pxor d a b) s gid pid g p fun h => PredicateSet g h d (pathLanes g p) (g.pred a.val ^^^ g.pred b.val)) ∧
    (Completes (.pnot d a) s gid pid g p fun h => PredicateSet g h d (pathLanes g p) (~~~ g.pred a.val)) ∧
    encode (.pand d a b) = some (BitVec.ofNat 8 b.val ++ BitVec.ofNat 8 a.val ++ BitVec.ofNat 8 d.val ++ 0x40#8) ∧
    encode (.por d a b) = some (BitVec.ofNat 8 b.val ++ BitVec.ofNat 8 a.val ++ BitVec.ofNat 8 d.val ++ 0x41#8) ∧
    encode (.pxor d a b) = some (BitVec.ofNat 8 b.val ++ BitVec.ofNat 8 a.val ++ BitVec.ofNat 8 d.val ++ 0x42#8) ∧
    encode (.pnot d a) = some (0#8 ++ BitVec.ofNat 8 a.val ++ BitVec.ofNat 8 d.val ++ 0x43#8)

/-- V2S writes one lane's word of the register space to a uniform, whether the lane is active or not; S2V writes a uniform to every lane of
the path, launched and not exited, parted or not. A sub above 63, a latch entry, `lane`, and a nonzero sub of S2V are illegal (R112). -/
def LaneUniformMoves : Prop :=
  (∀ s gid pid g p, Issues s gid pid g p →
    (∀ (d : UReg) (a : VReg) (k : BitVec 6), g.parted = false → dstIn g a →
      Completes (.v2s d a k) s gid pid g p fun h => UniformSet g h d (match a with
        | .reg n => mget 0 g.regs (g.vaddr n.val / 4 + k.toNat)
        | .zero => 0)) ∧
    (∀ (d : VReg) (a : UReg), dstIn g d →
      Completes (.s2v d a) s gid pid g p fun h => VectorFrame g h 0 ∧ Rows g h d (pathLanes g p) fun _ => g.us a)) ∧
  (IllegalWords 0x3E fun w => 64 ≤ (fB w).toNat ∨ (248 ≤ (fA w).toNat ∧ (fA w).toNat < 255)) ∧
  (IllegalWords 0x3F fun w => fB w ≠ 0) ∧
  (decode 0x3F07033E).toOption = some (.v2s (.reg 3) (.reg 7) 63)

end Sys2Proof.Claims

/-- The word of every instruction decodes to it: no bit of an encoding is dropped. -/
def Obligations.EncodeDecodeRoundTrip : Prop := ∀ (i : Sys2Proof.Instr) (w : Sys2Proof.Word), Sys2Proof.encode i = some w → Sys2Proof.decode w = .ok i

/-- A word that decodes is the one word of its instruction: reserved fields and codes are refused. -/
def Obligations.DecodeEncodeRoundTrip : Prop := ∀ (w : Sys2Proof.Word) (i : Sys2Proof.Instr), Sys2Proof.decode w = .ok i → Sys2Proof.encode i = some w

/-- Words written out in spec/ decode to the instructions they stand for. -/
def Obligations.SpecWordsDecode : Prop :=
  (Sys2Proof.decode 0x3F07033E).toOption = some (.v2s (.reg 3) (.reg 7) 63) ∧
  (Sys2Proof.decode 0x000605E1).toOption = some (.nwait (.reg 5) (.reg 6)) ∧
  (Sys2Proof.decode 0x002801D4).toOption = some (.monset 1 40) ∧
  (Sys2Proof.decode 0x010001D5).toOption = some (.monrefLast 1) ∧
  (Sys2Proof.decode 0x01013CD6).toOption = some (.monrd 60 1 .total) ∧
  (Sys2Proof.decode 0).toOption = some .nop

/-- A step fetches, decodes and executes the word of the path at the head of the agenda; a word that is none traps; a step of the hardware
is executed. -/
def Obligations.StepRunsDecodedWord : Prop :=
  Sys2Proof.Claims.RunsDecoded ∧ Sys2Proof.Claims.IllegalTraps ∧ Sys2Proof.Claims.RunsEvents

/-- Every step keeps the canonical form of device, host and remote memory. -/
def Obligations.StepKeepsMemoryForm : Prop :=
  ∀ s t : Sys2Proof.Machine.State, s.memOk → Sys2Proof.Machine.step s = .next t → t.memOk

/-- The state after reset: memory in its canonical form and reading 0, no group, and the registers at the values that the tables of 13
R278, 12 R261, 13 R282, 20 R355, R361 and 15 R306 give (memory's 0 and the ASID map's 255 are the model's choices, log entries 4 and 5). -/
def Obligations.ResetState : Prop :=
  let s := Sys2Proof.Machine.State.reset
  s.memOk ∧ (∀ a, Sys2Proof.Machine.Memory.byte s.mem a = 0) ∧ s.groups = [] ∧ s.now = 0 ∧ s.ready = true ∧ s.pwrcap = 3600 ∧
  (∀ d, (s.die d).gcyc = 0x40000000 ∧ (s.die d).cpms = 2000 ∧ (s.die d).cpesc = 4 ∧ (s.die d).wsidle = 0) ∧
  (∀ q, (s.quad q).bto = 1024 ∧ (s.quad q).esc = 8 ∧ (s.quad q).stalls = 0 ∧ (s.quad q).btos = 0 ∧ (s.quad q).chain = false ∧
    (s.quad q).offline = false) ∧
  (∀ e, (s.eng e).psize = 2 ∧ (s.eng e).en = false ∧ (s.eng e).rto = 50 ∧ (s.eng e).tries = 8 ∧ (s.eng e).dup = 3 ∧
    (s.eng e).rexmit = 0 ∧ (s.eng e).tdrops = 0) ∧
  (∀ p, (s.cxlPort p).cto = 16 ∧ (s.pciePort p).cto = 16) ∧ (∀ a, s.tenantOf a = 255)

/-- NOP (R118). -/
def Obligations.NopHasNoEffect : Prop := Sys2Proof.Claims.NopHasNoEffect

/-- The predicate instructions (R113). -/
def Obligations.PredicateLogic : Prop := Sys2Proof.Claims.PredicateLogic

/-- V2S and S2V (R112). -/
def Obligations.LaneUniformMoves : Prop := Sys2Proof.Claims.LaneUniformMoves

/-! ## Vector integer instructions -/
namespace Sys2Proof.Claims
open Sys2Proof.Machine

/-- The lanewise integer instructions (spec/05 R96 to R105): mode codes accepted, destination, vector sources, uniforms, and the
result of a lane from the mode and the words it reads, with whether it saturated. -/
inductive IntegerLane : Instr → (Word → Bool) → VReg → List VSrc → List UReg → (Word → List Word → Word × Bool) → Prop
  | iadd d a b : IntegerLane (.iadd d a b) okInt d [a, b] [] (fun m => satOp m (· + ·))
  | iaddS d a b : IntegerLane (.iaddS d a b) okInt d [a] [b] (fun m => satOp m (· + ·))
  | isub d a b : IntegerLane (.isub d a b) okInt d [a, b] [] (fun m => satOp m (· - ·))
  | isubS d a b : IntegerLane (.isubS d a b) okInt d [a] [b] (fun m => satOp m (· - ·))
  | imul d a b : IntegerLane (.imul d a b) okInt d [a, b] [] (fun m => satOp m (· * ·))
  | imulS d a b : IntegerLane (.imulS d a b) okInt d [a] [b] (fun m => satOp m (· * ·))
  | imulh d a b : IntegerLane (.imulh d a b) okInt d [a, b] []
      (fun m => wrapOp m fun t x y => x * y / ((2 ^ tyWidth t : Nat) : Int))
  | imad d a b : IntegerLane (.imad d a b) okInt d [a, b, dsrc d] [] madOp
  | imin d a b : IntegerLane (.imin d a b) okInt d [a, b] [] (fun m => wrapOp m fun _ x y => if x ≤ y then x else y)
  | imax d a b : IntegerLane (.imax d a b) okInt d [a, b] [] (fun m => wrapOp m fun _ x y => if x ≤ y then y else x)
  | shl d a b : IntegerLane (.shl d a b) okInt d [a, b] [] (fun m => patOp m shlPat)
  | shr d a b : IntegerLane (.shr d a b) okInt d [a, b] [] (fun m => patOp m shrPat)
  | sra d a b : IntegerLane (.sra d a b) okInt d [a, b] [] (fun m => patOp m sraPat)
  | rot d a b : IntegerLane (.rot d a b) okInt d [a, b] [] (fun m => patOp m rotPat)
  | and d a b : IntegerLane (.and d a b) okAny d [a, b] [] (fun _ ws => (ws.getD 0 0 &&& ws.getD 1 0, false))
  | or d a b : IntegerLane (.or d a b) okAny d [a, b] [] (fun _ ws => (ws.getD 0 0 ||| ws.getD 1 0, false))
  | xor d a b : IntegerLane (.xor d a b) okAny d [a, b] [] (fun _ ws => (ws.getD 0 0 ^^^ ws.getD 1 0, false))
  | andn d a b : IntegerLane (.andn d a b) okAny d [a, b] [] (fun _ ws => (ws.getD 0 0 &&& ~~~ ws.getD 1 0, false))
  | lea d a sub : IntegerLane (.lea d a sub) okAny d [a, dsrc d] [] (fun _ ws => (ws.getD 1 0 + (ws.getD 0 0 <<< sub.toNat), false))
  | bfx d a b : IntegerLane (.bfx d a b) okAny d [a, b] [] (fun _ ws => (bfxOp (ws.getD 0 0) (ws.getD 1 0), false))
  | bfi d a b : IntegerLane (.bfi d a b) okAny d [a, b, dsrc d] [] (fun _ ws => (bfiOp (ws.getD 2 0) (ws.getD 0 0) (ws.getD 1 0), false))
  | iabs d a : IntegerLane (.iabs d a) okInt d [a] [] (fun m => satOp m fun x _ => if x < 0 then -x else x)
  | ineg d a : IntegerLane (.ineg d a) okInt d [a] [] (fun m => satOp m fun x _ => -x)
  | clz d a : IntegerLane (.clz d a) okAny d [a] [] (fun _ ws => (BitVec.ofNat 32 (clzOf (ws.getD 0 0)), false))
  | popc d a : IntegerLane (.popc d a) okAny d [a] [] (fun _ ws => (BitVec.ofNat 32 (popcOf (ws.getD 0 0)), false))
  | brev d a : IntegerLane (.brev d a) okAny d [a] [] (fun _ ws => (BitVec.ofNat 32 (brevOf (ws.getD 0 0)), false))
  | iaddi d imm : IntegerLane (.iaddi d imm) okAny d [dsrc d] [] (fun _ ws => (ws.getD 0 0 + imm.signExtend 32, false))
  | lli d imm : IntegerLane (.lli d imm) okAny d [] [] (fun _ _ => (imm.setWidth 32, false))
  | lui d imm : IntegerLane (.lui d imm) okAny d [dsrc d] [] (fun _ ws => (imm ++ (ws.getD 0 0).setWidth 16, false))
  | movv d a : IntegerLane (.movv d a) okAny d [a] [] (fun _ ws => (ws.getD 0 0, false))

/-- The lanewise floating-point, conversion and packed instructions (spec/06 R126 to R132, R138). -/
inductive FloatLane : Instr → (Word → Bool) → VReg → List VSrc → List UReg → (Word → List Word → Word × Bool) → Prop
  | fadd d a b : FloatLane (.fadd d a b) okFloatR d [a, b] [] (fun m => floatOp m fAdd)
  | faddS d a b : FloatLane (.faddS d a b) okFloatR d [a] [b] (fun m => floatOp m fAdd)
  | fsub d a b : FloatLane (.fsub d a b) okFloatR d [a, b] [] (fun m => floatOp m fSub)
  | fmul d a b : FloatLane (.fmul d a b) okFloatR d [a, b] [] (fun m => floatOp m fMul)
  | fmulS d a b : FloatLane (.fmulS d a b) okFloatR d [a] [b] (fun m => floatOp m fMul)
  | ffma d a b : FloatLane (.ffma d a b) okFloatR d [a, b, dsrc d] [] (fun m => floatOp m fFma)
  | fmin d a b : FloatLane (.fmin d a b) okFloat d [a, b] [] (minMaxOp false)
  | fmax d a b : FloatLane (.fmax d a b) okFloat d [a, b] [] (minMaxOp true)
  | fneg d a : FloatLane (.fneg d a) okFloat d [a] [] (signOp false)
  | fabs d a : FloatLane (.fabs d a) okFloat d [a] [] (signOp true)
  | fclass d a : FloatLane (.fclass d a) okFloat d [a] []
      (fun m => mapElemsOf (modeTy m) fun vs => (classPat (layoutOf (modeTy m)) (vs.getD 0 0), false))
  | frcp d a : FloatLane (.frcp d a) okFloatR d [a] [] (fun m => floatOp m fun _ xs => exactRcp (xs.getD 0 .nan))
  | frsq d a : FloatLane (.frsq d a) okFloatR d [a] [] (fun m => floatOp m fun _ xs => exactRsqrt (xs.getD 0 .nan))
  | fsqrt d a : FloatLane (.fsqrt d a) okFloatR d [a] [] (fun m => floatOp m fun _ xs => exactSqrt (xs.getD 0 .nan))
  | fex2 d a : FloatLane (.fex2 d a) okFloatR d [a] [] (fun m => floatOp m fun _ xs => exactExp2 (xs.getD 0 .nan))
  | flg2 d a : FloatLane (.flg2 d a) okFloatR d [a] [] (fun m => floatOp m fun _ xs => exactLog2 (xs.getD 0 .nan))
  | cvt d a c : FloatLane (.cvt d a c) okCvt d [a] [] (fun m ws => cvtWord m ((tyOfCode c.toNat).getD .i32) (ws.getD 0 0))
  | p16add d a b : FloatLane (.p16add d a b) okP16 d [a, b] [] (fun m => p16Op m (· + ·))
  | p16sub d a b : FloatLane (.p16sub d a b) okP16 d [a, b] [] (fun m => p16Op m (· - ·))
  | p16mac d a b : FloatLane (.p16mac d a b) okP16 d [a, b, dsrc d] [] p16Mac
  | p16shr d a c r : FloatLane (.p16shr d a c r) okP16 d [a] []
      (fun m => mapElemsOf (p16Type m) fun vs => (patOf 16 (p16Shift c.toNat r (elemVal (p16Type m) (vs.getD 0 0))), false))
  | p32sat d a b : FloatLane (.p32sat d a b) okP16 d [a, b] [] p32Clamp

/-- Every lanewise instruction of the list completes with its results in the active lanes of its destination. -/
def LanewiseComplete (Form : Instr → (Word → Bool) → VReg → List VSrc → List UReg → (Word → List Word → Word × Bool) → Prop) : Prop :=
  ∀ i ok d srcs us f, Form i ok d srcs us f → ∀ s gid pid g p, Issues s gid pid g p → wellFormed i = true → ok g.mode = true →
    (∀ a ∈ srcs, srcIn g a) → dstIn g d →
    LanesComplete i s gid pid g p d (active g p) fun l => f g.mode (laneArgs g p srcs us l)

end Sys2Proof.Claims

/-- The lanewise integer instructions complete, with the element results of R96 to R105 in the active lanes and in no other. -/
def Obligations.LaneIntegerCompletes : Prop := Sys2Proof.Claims.LanewiseComplete Sys2Proof.Claims.IntegerLane

/-- The lanewise floating-point, conversion and packed instructions complete, with the element results of R126 to R132 and R138. -/
def Obligations.LaneFloatCompletes : Prop := Sys2Proof.Claims.LanewiseComplete Sys2Proof.Claims.FloatLane

/-! ## Select, conversion by blocks, comparison, cross-lane moves -/
namespace Sys2Proof.Claims
open Sys2Proof.Machine

/-- The instructions that write every lane of the path, launched and not exited, whatever the guard says (R15, R99, R112). -/
inductive PathLane : Instr → VReg → List VSrc → (Group → Path → Nat → Word) → Prop
  | sel d a b : PathLane (.sel d a b) d [a, b] fun g p l =>
      if bit (guardMask g) l then (srcVals g p a).getD l 0 else (srcVals g p b).getD l 0
  | s2v d a : PathLane (.s2v d a) d [] fun g _ _ => g.us a

/-- The block conversions, PACK and UNPACK (spec/06 R133 to R136): mode codes accepted, destination, sources, the word of a lane and
the sticky flags that the instruction sets. `m` are the active lanes. -/
inductive BlockConvert : Instr → (Group → Bool) → VReg → List VSrc → (Group → Path → Mask → Nat → Word) → (Group → Path → Mask → Word) → Prop
  | qnt d a c : BlockConvert (.qnt d a c) (fun g => okQnt g.mode) d [a]
      (fun g p m l => (kget ((qntLanes ((tyOfCode c.toNat).getD .f8e4) (numMode g.mode) (srcVals g p a) (blockLanes m (l / 32))).1) l).getD 0)
      (fun g p m =>
        let r (b : Nat) := if (blockLanes m b).isEmpty then ([], false, false)
          else qntLanes ((tyOfCode c.toNat).getD .f8e4) (numMode g.mode) (srcVals g p a) (blockLanes m b)
        (if (r 0).2.1 || (r 1).2.1 then 1 else 0) ||| (if (r 0).2.2 || (r 1).2.2 then 4 else 0))
  | dqnt d a c : c ≠ 16 → BlockConvert (.dqnt d a c) (fun g => okRound g.mode) d [a]
      (fun g p _ l => dqntWord ((tyOfCode c.toNat).getD .f8e4) (numMode g.mode) ((srcVals g p a).getD l 0)) (fun _ _ _ => 0)
  | dqntI4x d a : BlockConvert (.dqnt d a 16) (fun g => okRound g.mode) d [a]
      (fun g p _ l => BitVec.ofNat 32 (ieeeRound ieeeF32 (numMode g.mode).rnd (numMode g.mode).flush
        ((dqntI4x (srcVals g p a) (l / 32)).1.getD (l % 32) .nan)))
      (fun g p m =>
        if (!(blockLanes m 0).isEmpty && (dqntI4x (srcVals g p a) 0).2) || (!(blockLanes m 1).isEmpty && (dqntI4x (srcVals g p a) 1).2)
        then 2 else 0)
  | pack d a b : BlockConvert (.pack d a b) (fun g => okPack g.mode) d [a, b]
      (fun g p _ l =>
        let n := 32 / tyWidth (modeTy g.mode)
        wordOfElems (tyWidth (modeTy g.mode)) ((List.range n).map fun i =>
          ((srcVals g p a ++ srcVals g p b).getD (n * l + i) 0).toNat)) (fun _ _ _ => 0)
  | unpack d a k : BlockConvert (.unpack d a k) (fun g => okPack g.mode && decide (k.toNat < tyCount (modeTy g.mode))) d [a]
      (fun g p _ l => unpackWord g.mode k.toNat ((srcVals g p a).getD l 0)) (fun _ _ _ => 0)

/-- SEL and S2V complete in every lane of the path. -/
def PathLanesComplete : Prop :=
  ∀ i d srcs f, PathLane i d srcs f → ∀ s gid pid g p, Issues s gid pid g p → (∀ a ∈ srcs, srcIn g a) → dstIn g d →
    Completes i s gid pid g p fun h => VectorFrame g h 0 ∧ Rows g h d (pathLanes g p) (f g p)

def BlockConvertComplete : Prop :=
  ∀ i ok d srcs f fl, BlockConvert i ok d srcs f fl → ∀ s gid pid g p, Issues s gid pid g p → wellFormed i = true → ok g = true →
    (∀ a ∈ srcs, srcIn g a) → dstIn g d →
    Completes i s gid pid g p fun h =>
      VectorFrame g h (fl g p (active g p)) ∧ Rows g h d (active g p) (f g p (active g p))

/-- UNPACK of an I4X block pair (R136, R57): eight slots a lane, headers in the next register. -/
def UnpackI4xCompletes : Prop :=
  ∀ (d : VReg) (n : Fin 248) (k : BitVec 3) s gid pid g p, Issues s gid pid g p → modeType g.mode = 16 → okRound g.mode = true →
    n.val + 1 < 248 → spanIn g n 2 → dstIn g d →
    let blk (c : Nat) := unpackI4x (g.v n.val) (g.v (n.val + 1)) c
    Completes (.unpack d (.reg n) k) s gid pid g p fun h =>
      VectorFrame g h (if (slicesOf (active g p)).any (fun c => (blk c).2) then 2 else 0) ∧
      Rows g h d (active g p) fun l => BitVec.ofNat 32 (ieeeRound ieeeF32 (numMode g.mode).rnd (numMode g.mode).flush
        ((blk (l / 4)).1.getD (8 * (l % 4) + k.toNat) .nan))

/-- The lanewise comparisons (R100, R129). -/
inductive CompareForm : Instr → (Word → Bool) → Fin 8 → List VSrc → List UReg → (Word → List Word → Bool) → Prop
  | icmp q c a b : CompareForm (.icmp q c a b) okCmp q [a, b] [] fun m ws =>
      icondHolds c (elemVal (modeTy m) (ws.getD 0 0).toNat) (elemVal (modeTy m) (ws.getD 1 0).toNat)
  | icmpS q c a b : CompareForm (.icmpS q c a b) okCmp q [a] [b] fun m ws =>
      icondHolds c (elemVal (modeTy m) (ws.getD 0 0).toNat) (elemVal (modeTy m) (ws.getD 1 0).toNat)
  | fcmp q c a b : CompareForm (.fcmp q c a b) okF32 q [a, b] [] fun m ws =>
      fcondHolds c (ieeeDecode ieeeF32 (modeFlush m) (ws.getD 0 0).toNat) (ieeeDecode ieeeF32 (modeFlush m) (ws.getD 1 0).toNat)

def ComparesComplete : Prop :=
  ∀ i ok q srcs us f, CompareForm i ok q srcs us f → ∀ s gid pid g p, Issues s gid pid g p → ok g.mode = true → (∀ a ∈ srcs, srcIn g a) →
    ∃ v : Mask, (∀ l, l < 64 → bit (active g p) l = true → bit v l = f g.mode (laneArgs g p srcs us l)) ∧
      Completes i s gid pid g p fun h => PredicateSet g h q (active g p) v

/-- A vote over the active lanes (R141): one value in every active lane; with no active lane nothing is written. -/
def VoteCompletes : Prop :=
  ∀ (d a : Fin 8) (k : VoteKind) s gid pid g p, Issues s gid pid g p →
    let m := active g p
    let v := g.pred a.val &&& m
    Completes (.vote d a k) s gid pid g p fun h => PredicateSet g h d m (match k with
      | .any => if v = 0 then 0 else m
      | .all => if v = m then m else 0
      | .eq => if v = m ∨ v = 0 then m else 0)

/-- S2P ignores the guard and writes the lanes of the path in its half of the predicate (R114). -/
inductive PredicateForm : Instr → Fin 8 → (Group → Path → Mask) → (Group → Mask) → Prop
  | s2pLo d a : PredicateForm (.s2p d a false) d (fun g p => pathLanes g p &&& BitVec.ofNat 64 (2 ^ 32 - 1)) fun g => (g.us a).setWidth 64
  | s2pHi d a : PredicateForm (.s2p d a true) d (fun g p => pathLanes g p &&& BitVec.ofNat 64 ((2 ^ 32 - 1) * 2 ^ 32))
      fun g => (g.us a).setWidth 64 <<< 32

def PredicatesComplete : Prop :=
  ∀ i d m f, PredicateForm i d m f → ∀ s gid pid g p, Issues s gid pid g p →
    Completes i s gid pid g p fun h => PredicateSet g h d (m g p) (f g)

/-- P2S copies a half of a predicate to a uniform: bit `l` of it is the predicate in lane `l` of the half, and 0 in a lane that the path does
not hold, has exited, or was not launched (R114). -/
def PredicateHalves : Prop :=
  ∀ (d : UReg) (a : Fin 8) (hi : Bool) s gid pid g p, Issues s gid pid g p → g.parted = false →
    ∃ v : Word, (∀ l, l < 32 → v.getLsbD l = ((g.pred a.val).getLsbD (l + (if hi then 32 else 0)) &&
        (pathLanes g p).getLsbD (l + (if hi then 32 else 0)))) ∧
      Completes (.p2s d a hi) s gid pid g p fun h => UniformSet g h d v

/-- The moves between lanes: destination, source, and the lane that lane `l` reads, if it names one (R140). -/
inductive MoveForm : Instr → VReg → VSrc → List VSrc → (Group → Path → Nat → Option Nat) → Prop
  | shfl d a b : MoveForm (.shfl d a b) d a [b] fun g p l =>
      let i := ((srcVals g p b).getD l 0).toNat
      if i < 64 then some i else none
  | slideup d a k : MoveForm (.slideup d a k) d a [] fun _ _ l => if k.toNat ≤ l then some (l - k.toNat) else none
  | slidedn d a k : MoveForm (.slidedn d a k) d a [] fun _ _ l => if l + k.toNat < 64 then some (l + k.toNat) else none
  | bcast d a k : MoveForm (.bcast d a k) d a [] fun _ _ _ => some k.toNat

/-- A lane that reads an active lane takes its word; one that reads no lane, or an inactive one, takes the fill of R85: zero, its own
source word, or s191, by Mode.fill. -/
def MovesComplete : Prop :=
  ∀ i d a more src, MoveForm i d a more src → ∀ s gid pid g p, Issues s gid pid g p → modeFill g.mode ≤ 2 → srcIn g a →
    (∀ b ∈ more, srcIn g b) → dstIn g d →
    Completes i s gid pid g p fun h => VectorFrame g h 0 ∧ Rows g h d (active g p) fun l =>
      match (src g p l).filter (bit (active g p)) with
      | some k => (srcVals g p a).getD k 0
      | none => if modeFill g.mode = 0 then 0 else if modeFill g.mode = 1 then (srcVals g p a).getD l 0 else g.u 191

/-- REDUCE writes the root of the tree over the active lanes to every active lane, SCAN the combination of the lanes up to, or with
excl below, each lane (R66, R67, R143, R144); an integer sum narrows once, and the flag says whether some lane's did. -/
inductive TreeForm : Instr → ROp → VReg → VSrc → (Word → List (Option RVal) → Nat → RVal) → Prop
  | reduce d a op : TreeForm (.reduce d a op) op d a fun md vs _ =>
      (((treeLevels (nodeOp md op) 6 vs).getD 6 []).headD none).getD (identityOf md op)
  | scan d a op : TreeForm (.scan d a op false) op d a fun md vs l =>
      (scanBlocks (nodeOp md op) (treeLevels (nodeOp md op) 6 vs) (l + 1) 7 0 none).getD (identityOf md op)
  | scanExcl d a op : TreeForm (.scan d a op true) op d a fun md vs l =>
      (scanBlocks (nodeOp md op) (treeLevels (nodeOp md op) 6 vs) l 7 0 none).getD (identityOf md op)

def TreesComplete : Prop :=
  ∀ i op d a f, TreeForm i op d a f → ∀ s gid pid g p, Issues s gid pid g p → okReduce op g.mode = true → srcIn g a → dstIn g d →
    LanesComplete i s gid pid g p d (active g p) fun l =>
      rvalWord g.mode (f g.mode (leavesOf g.mode (active g p) (srcVals g p a)) l)

/-- The address of a lane of MOVI and MOVIW: the sum of its two sources modulo 2^32 (R106). -/
def indAddr (g : Group) (p : Path) (a b : VSrc) (l : Nat) : Nat := ((srcVals g p a).getD l 0 + (srcVals g p b).getD l 0).toNat

/-- Every active lane's address passes the checks of R73, at a word: register space, or the view of an owned bank. -/
def indGood (g : Group) (p : Path) (a b : VSrc) : Prop :=
  ∀ l, l < 64 → bit (active g p) l = true → indAddr g p a b l % 4 = 0 ∧ ∃ pl, indPlace g (indAddr g p a b l) = .ok pl

/-- No element that an active lane's access reads, a partial write included, has uncorrectable data. -/
def indSound (s : State) (g : Group) (p : Path) (a b : VSrc) : Prop :=
  ∀ l pl, l < 64 → bit (active g p) l = true → indPlace g (indAddr g p a b l) = .ok pl →
    ∀ e ∈ indElems [(l, pl)], (bankOf s g.core e.1).poison.contains e.2 = false

/-- MOVI reads, in each active lane, the word at its address. -/
def MoviCompletes : Prop :=
  ∀ (d : VReg) (a b : VSrc) s gid pid g p, Issues s gid pid g p → srcIn g a → srcIn g b → dstIn g d → indGood g p a b → indSound s g p a b →
    Completes (.movi d a b) s gid pid g p fun h =>
      VectorFrame g h 0 ∧ Rows g h d (active g p) fun l =>
        match indPlace g (indAddr g p a b l) with
        | .ok pl => readInd s g p.uid pl
        | .error _ => 0

/-- MOVIW over the register space writes the word at each active lane's address; of lanes at one address the highest stays. -/
def MoviwRegisters : Prop :=
  ∀ (d a b : VSrc) s gid pid g p, Issues s gid pid g p → srcIn g d → srcIn g a → srcIn g b →
    (∀ l, l < 64 → bit (active g p) l = true → indAddr g p a b l % 4 = 0 ∧ indAddr g p a b l + 4 ≤ g.regbytes) →
    Completes (.moviw d a b) s gid pid g p fun h =>
      VectorFrame g h 0 ∧ ∀ k, mget 0 h.regs k =
        match (lanesOf (active g p)).reverse.find? (fun l => indAddr g p a b l / 4 = k) with
        | some l => (srcVals g p d).getD l 0
        | none => mget 0 g.regs k

/-- MOVIW in general: after it the word of an element that an active lane alone named reads as that lane's source; memory, other
groups and other cores are as they were. -/
def MoviwElements : Prop :=
  ∀ (d a b : VSrc) s gid pid g p, Issues s gid pid g p → srcIn g d → srcIn g a → srcIn g b → indGood g p a b → indSound s g p a b →
    ∃ t h, exec (.moviw d a b) s = .next t ∧ t = { s with groups := t.groups, cores := t.cores } ∧ t.group gid = some h ∧
      (∀ k, k ≠ gid → t.group k = s.group k) ∧ (∀ c, c ≠ g.core → t.core c = s.core c) ∧
      (∃ q, h.path pid = some q ∧ q.pc = p.pc + 4) ∧
      ∀ l bank e k, l < 64 → bit (active g p) l = true → indPlace g (indAddr g p a b l) = .ok (.elem bank e k) →
        (∀ j, j < 64 → bit (active g p) j = true → j ≠ l → indAddr g p a b j ≠ indAddr g p a b l) →
        readInd t h p.uid (.elem bank e k) = (srcVals g p d).getD l 0

/-- Where MOVI and MOVIW trap, with nothing written (R73, R106, R21): an address outside register space and the view of the banks goes before one in the window of a bank that
the group does not own, and that before one that is not at a word; an element with uncorrectable data that no region of the path has
written traps 0x0C (08 R191). -/
def MoviTraps : Prop :=
  ∀ (i : Instr) (d : VReg) (w a b : VSrc) s gid pid g p, Issues s gid pid g p → srcIn g a → srcIn g b →
    ((i = .movi d a b ∧ dstIn g d) ∨ (i = .moviw w a b ∧ srcIn g w)) →
    let addr := indAddr g p a b
    let av := g.views.avbase.toNat
    let act l := l < 64 ∧ bit (active g p) l = true
    let outside l := g.regbytes < addr l + 4 ∧
      (addr l < av ∨ av + 0x80000 ≤ addr l ∨
        (g.banks.contains ((addr l - av) / 0x8000) = true ∧ 0x6000 < (addr l - av) % 0x8000 + 4 ∧
          ((addr l - av) % 0x8000 < 0x6000 ∨ 0x6400 < (addr l - av) % 0x8000 + 4)))
    let foreign l := g.regbytes < addr l + 4 ∧ av ≤ addr l ∧ addr l < av + 0x80000 ∧ g.banks.contains ((addr l - av) / 0x8000) = false
    ((∃ l, act l ∧ outside l) → TrapsAt i s gid pid p (trapOf 0x02)) ∧
    ((∀ l, act l → ¬ outside l) → (∃ l, act l ∧ foreign l) → TrapsAt i s gid pid p (trapOf 0x12)) ∧
    ((∀ l, act l → ¬ outside l ∧ ¬ foreign l) → (∃ l, act l ∧ addr l % 4 ≠ 0) → TrapsAt i s gid pid p (trapOf 0x0A)) ∧
    (indGood g p a b → (∃ l bank e k, act l ∧ indPlace g (addr l) = .ok (.elem bank e k) ∧ (bankOf s g.core bank).poison.contains e = true ∧
        kget ((kget (bankOf s g.core bank).elems e).getD elemZero).work p.uid = none) →
      TrapsAt i s gid pid p (trapOf 0x0C))

/-! ## Uniform instructions and special registers -/

/-- The uniform instructions: destination and value (R108 to R112, R114). Whatever else the group holds is as it was. -/
inductive UniformForm : Instr → UReg → List VReg → (Group → Path → Word) → Prop
  | sadd d a b : UniformForm (.sadd d a b) d [] fun g _ => g.us a + g.us b
  | ssub d a b : UniformForm (.ssub d a b) d [] fun g _ => g.us a - g.us b
  | smul d a b : UniformForm (.smul d a b) d [] fun g _ => g.us a * g.us b
  | sand d a b : UniformForm (.sand d a b) d [] fun g _ => g.us a &&& g.us b
  | sor d a b : UniformForm (.sor d a b) d [] fun g _ => g.us a ||| g.us b
  | sxor d a b : UniformForm (.sxor d a b) d [] fun g _ => g.us a ^^^ g.us b
  | sshl d a b : UniformForm (.sshl d a b) d [] fun g _ => BitVec.ofNat 32 ((g.us a).toNat * 2 ^ (g.us b).toNat)
  | sshr d a b : UniformForm (.sshr d a b) d [] fun g _ => BitVec.ofNat 32 ((g.us a).toNat / 2 ^ (g.us b).toNat)
  | scmpEq d a b : UniformForm (.scmp d .eq a b) (scmpReg d) [] fun g _ => if g.us a = g.us b then 1 else 0
  | scmpNe d a b : UniformForm (.scmp d .ne a b) (scmpReg d) [] fun g _ => if g.us a = g.us b then 0 else 1
  | scmpLt d a b : UniformForm (.scmp d .lt a b) (scmpReg d) [] fun g _ => if (g.us a).toInt < (g.us b).toInt then 1 else 0
  | scmpLe d a b : UniformForm (.scmp d .le a b) (scmpReg d) [] fun g _ => if (g.us a).toInt ≤ (g.us b).toInt then 1 else 0
  | scmpLtu d a b : UniformForm (.scmp d .ltu a b) (scmpReg d) [] fun g _ => if (g.us a).toNat < (g.us b).toNat then 1 else 0
  | scmpLeu d a b : UniformForm (.scmp d .leu a b) (scmpReg d) [] fun g _ => if (g.us a).toNat ≤ (g.us b).toNat then 1 else 0
  | smov d a : UniformForm (.smov d a) d [] fun g _ => g.us a
  | sli d imm : UniformForm (.sli d imm) d [] fun _ _ => imm.setWidth 32
  | slui d imm : UniformForm (.slui d imm) d [] fun g _ => imm ++ (g.us d).setWidth 16
  | v2s d a k : UniformForm (.v2s d a k) d [a] fun g p => (srcVals g p (dsrc a)).getD k.toNat 0
  | p2sLo d a : UniformForm (.p2s d a false) d [] fun g p => (g.pred a.val &&& pathLanes g p).setWidth 32
  | p2sHi d a : UniformForm (.p2s d a true) d [] fun g p => (g.pred a.val &&& pathLanes g p).extractLsb' 32 32

def UniformsComplete : Prop :=
  ∀ i d vs f, UniformForm i d vs f → ∀ s gid pid g p, Issues s gid pid g p → g.parted = false → (∀ v ∈ vs, dstIn g v) →
    Completes i s gid pid g p fun h => UniformSet g h d (f g p)

/-- BALLOT writes the active lanes whose predicate is true to a pair of uniforms (R142). -/
def BallotCompletes : Prop :=
  ∀ (d : Fin 192) (a : Fin 8) s gid pid g p, Issues s gid pid g p → wellFormed (.ballot d a) = true → g.parted = false →
    Completes (.ballot d a) s gid pid g p fun h =>
      h = { g with uni := h.uni, sig := h.sig, paths := h.paths, stall := 0 } ∧
      h.u d.val = (active g p &&& g.pred a.val).setWidth 32 ∧ h.u (d.val + 1) = (active g p &&& g.pred a.val).extractLsb' 32 32 ∧
      ∀ k, k ≠ d.val → k ≠ d.val + 1 → h.u k = g.u k

end Sys2Proof.Claims

/-- SEL selects by the guard in every lane of the path; S2V copies a uniform to every lane of the path, S2P to a half of a predicate; P2S
copies a half of a predicate to a uniform, with 0 for the lanes outside the path. -/
def Obligations.PathLanesComplete : Prop :=
  Sys2Proof.Claims.PathLanesComplete ∧ Sys2Proof.Claims.PredicatesComplete ∧ Sys2Proof.Claims.PredicateHalves

/-- QNT, DQNT, PACK and UNPACK complete with the words and flags of R133 to R136, under I4X too. That DQNT of a 4-bit type takes the code from
bits [3:0] and ignores [7:4] is the model's choice (log entry 76): R134 names [7:0]. -/
def Obligations.BlockConversionsComplete : Prop := Sys2Proof.Claims.BlockConvertComplete ∧ Sys2Proof.Claims.UnpackI4xCompletes

/-- ICMP, ICMP.S and FCMP write their condition, lane by lane, and VOTE one value, to the active lanes of a predicate. -/
def Obligations.ComparesAndVotesComplete : Prop := Sys2Proof.Claims.ComparesComplete ∧ Sys2Proof.Claims.VoteCompletes

/-- SHFL, SLIDEUP, SLIDEDN and BCAST take the words of active lanes and the fill of R85 elsewhere. -/
def Obligations.LaneMovesComplete : Prop := Sys2Proof.Claims.MovesComplete

/-- REDUCE and SCAN combine the active lanes by the tree of R66. -/
def Obligations.ReductionsComplete : Prop := Sys2Proof.Claims.TreesComplete

/-- MOVI reads and MOVIW writes the words that the active lanes' addresses name, in register space and in the accumulator view; both trap
on addresses outside, in banks that the group does not own, and off words. -/
def Obligations.IndirectMovesComplete : Prop :=
  Sys2Proof.Claims.MoviCompletes ∧ Sys2Proof.Claims.MoviTraps ∧ Sys2Proof.Claims.MoviwRegisters ∧ Sys2Proof.Claims.MoviwElements

/-- The uniform instructions write one uniform register, or for BALLOT a pair, and nothing else of the group. -/
def Obligations.UniformsComplete : Prop := Sys2Proof.Claims.UniformsComplete ∧ Sys2Proof.Claims.BallotCompletes

/-! ## Special registers, mode and views -/
namespace Sys2Proof.Claims
open Sys2Proof.Machine

/-- The special registers with what SRD reads (R75). -/
inductive SpecialReads : BitVec 16 → (State → Group → Path → Word) → Prop
  | mode : SpecialReads 0x00 fun _ g _ => g.mode
  | vvbase : SpecialReads 0x01 fun _ g _ => g.views.vvbase
  | vvcount : SpecialReads 0x02 fun _ g _ => g.views.vvcount
  | tvbase : SpecialReads 0x03 fun _ g _ => g.views.tvbase
  | tvstride : SpecialReads 0x04 fun _ g _ => g.views.tvstride
  | tvcount : SpecialReads 0x05 fun _ g _ => g.views.tvcount
  | avbase : SpecialReads 0x06 fun _ g _ => g.views.avbase
  | alloc : SpecialReads 0x07 fun _ g _ => BitVec.ofNat 32 g.regbytes
  | flags : SpecialReads 0x08 fun _ g _ => g.flags
  | amaskLo : SpecialReads 0x10 fun _ g p => (pathLanes g p).setWidth 32
  | amaskHi : SpecialReads 0x11 fun _ g p => (pathLanes g p).extractLsb' 32 32
  | lanes : SpecialReads 0x12 fun _ g _ => BitVec.ofNat 32 g.lanes
  | grpidx : SpecialReads 0x13 fun _ g _ => BitVec.ofNat 32 g.grpidx
  | grpcnt : SpecialReads 0x14 fun s g _ =>
      BitVec.ofNat 32 ((((kget s.cohorts g.cohort).bind fun c => kget s.launches c.launch).map (·.kd.groups)).getD 1)
  | cohidx : SpecialReads 0x15 fun s g _ => BitVec.ofNat 32 (((kget s.cohorts g.cohort).map (·.index)).getD 0)
  | cohcnt : SpecialReads 0x16 fun s g _ =>
      BitVec.ofNat 32 ((((kget s.cohorts g.cohort).bind fun c => kget s.launches c.launch).map (·.rcd.cohorts)).getD 1)
  | spillLo : SpecialReads 0x18 fun _ g _ => g.spill.setWidth 32
  | spillHi : SpecialReads 0x19 fun _ g _ => g.spill.extractLsb' 32 32
  | depth : SpecialReads 0x1A fun _ g _ => BitVec.ofNat 32 (g.stack.length + g.spilled)
  | parted : SpecialReads 0x1B fun _ g _ => if g.parted then 1 else 0
  | regidx : SpecialReads 0x1C fun _ _ p => p.region.regidx.setWidth 32
  | regpcLo : SpecialReads 0x1D fun _ _ p => p.region.pc.setWidth 32
  | regpcHi : SpecialReads 0x1E fun _ _ p => (p.region.pc.extractLsb' 32 24).setWidth 32
  | saLo : SpecialReads 0x20 fun _ g _ => g.sa.setWidth 32
  | saHi : SpecialReads 0x21 fun _ g _ => g.sa.extractLsb' 32 32
  | sbLo : SpecialReads 0x22 fun _ g _ => g.sb.setWidth 32
  | sbHi : SpecialReads 0x23 fun _ g _ => g.sb.extractLsb' 32 32
  | banks : SpecialReads 0x24 fun _ g _ => BitVec.ofNat 32 ((g.banks.map (2 ^ ·)).sum)

/-- SRD completes for every special register, parted or not, and writes only its destination. -/
def SrdCompletes : Prop :=
  ∀ n f, SpecialReads n f → ∀ (d : UReg) s gid pid g p, Issues s gid pid g p →
    Completes (.srd d n) s gid pid g p fun h => UniformSet g h d (f s g p)

/-- SWR to a register of R75 that admits writes: what the group holds after. FLAGS is write-one-to-clear (R76). -/
inductive SpecialWrites : BitVec 16 → (Group → Word → Group) → Prop
  | flags : SpecialWrites 0x08 fun g v => { g with flags := g.flags &&& ~~~ v }
  | spillLo : SpecialWrites 0x18 fun g v => { g with spill := g.spill.extractLsb' 32 32 ++ v }
  | spillHi : SpecialWrites 0x19 fun g v => { g with spill := v ++ g.spill.setWidth 32 }
  | saLo : SpecialWrites 0x20 fun g v => { g with sa := g.sa.extractLsb' 32 32 ++ v }
  | saHi : SpecialWrites 0x21 fun g v => { g with sa := v ++ g.sa.setWidth 32 }
  | sbLo : SpecialWrites 0x22 fun g v => { g with sb := g.sb.extractLsb' 32 32 ++ v }
  | sbHi : SpecialWrites 0x23 fun g v => { g with sb := v ++ g.sb.setWidth 32 }

/-- The group is `h` but for the signatures and the paths, which the issue itself changes. -/
def GroupBut (g h : Group) : Prop := h = { g with sig := h.sig, paths := h.paths, stall := 0 }

def SwrCompletes : Prop :=
  ∀ n f, SpecialWrites n f → ∀ (d : UReg) s gid pid g p, Issues s gid pid g p → g.parted = false →
    Completes (.swr d n) s gid pid g p fun h => GroupBut (f g (g.us d)) h

/-- MODE writes one half of the mode register: the low half for d = 0, the high half for d = 1, whose bits 31 to 20 it never sets. It
needs an unparted group with one live path (R16). -/
def ModeCompletes : Prop :=
  ∀ (imm : BitVec 16) s gid pid g p, Issues s gid pid g p → g.parted = false → g.paths.length = 1 →
    (Completes (.mode 0 imm) s gid pid g p fun h => GroupBut { g with mode := g.mode.extractLsb' 16 16 ++ imm } h) ∧
    (imm.toNat < 16 → Completes (.mode 1 imm) s gid pid g p fun h => GroupBut { g with mode := imm ++ g.mode.setWidth 16 } h)

/-- VIEW replaces one view by what its uniforms say, where that keeps the limits of R72 in the group's register space. -/
def ViewCompletes : Prop :=
  ∀ (d a : UReg) s gid pid g p, Issues s gid pid g p → g.parted = false →
    (let v : Views := { g.views with vvbase := g.us d, vvcount := BitVec.ofNat 32 ((g.us a).toNat % 65536) }
     viewsOk g.regbytes v = true → Completes (.view d a .vv) s gid pid g p fun h => GroupBut { g with views := v } h) ∧
    (let v : Views := { g.views with tvbase := g.us d, tvcount := BitVec.ofNat 32 ((g.us a).toNat % 65536), tvstride := BitVec.ofNat 32 (256 * ((g.us a).toNat / 65536)) }
     viewsOk g.regbytes v = true → Completes (.view d a .tv) s gid pid g p fun h => GroupBut { g with views := v } h) ∧
    (let v : Views := { g.views with avbase := g.us d }
     viewsOk g.regbytes v = true → Completes (.view d a .av) s gid pid g p fun h => GroupBut { g with views := v } h)

/-- The instructions whose card names a uniform destination, SRD apart, and MODE, VIEW, SWR to a writable register, and MFENCE (R80). -/
inductive NamesUniform : Instr → Prop
  | uniform i d vs f : UniformForm i d vs f → NamesUniform i
  | ballot d a : NamesUniform (.ballot d a)
  | tstat d a : NamesUniform (.tstat d a)
  | ldu d a b : NamesUniform (.ldu d a b)
  | acalloc d b : NamesUniform (.acalloc d b)
  | qmap d b : NamesUniform (.qmap d b)
  | clock d : NamesUniform (.clock d)
  | monrd d a b : NamesUniform (.monrd d a b)
  | ncnt d a : NamesUniform (.ncnt d a)
  | nqstat d a : NamesUniform (.nqstat d a)
  | mode d imm : NamesUniform (.mode d imm)
  | view d a b : NamesUniform (.view d a b)
  | swr d n f : SpecialWrites n f → NamesUniform (.swr d n)
  | mfence d : NamesUniform (.mfence d)

/-- In a parted group each of them raises the parted-uniform trap. -/
def PartedUniformTrap : Prop :=
  ∀ i, NamesUniform i → ∀ s gid pid g p, Issues s gid pid g p → wellFormed i = true → g.parted = true →
    TrapsAt i s gid pid p (trapOf 0x03)

/-! ## Control transfer -/

/-- A taken transfer: the path is at `pc`, its signatures are clear, nothing else has changed. -/
def Jumps (i : Instr) (s : State) (gid pid : Nat) (g : Group) (p : Path) (pc : Addr) : Prop :=
  ∃ t h, exec i s = .next t ∧ OnlyGroup s t gid h ∧ PathAt g h pid p pc ∧ SigCleared g h p ∧ GroupBut g h

/-- NOP, BRA, BRZ and BRNZ (R116, R118): targets are counted in words from the next word, signed. -/
def BranchesComplete : Prop :=
  ∀ s gid pid g p, Issues s gid pid g p →
    (Completes .nop s gid pid g p fun h => GroupBut g h) ∧
    (∀ disp : BitVec 24, Jumps (.bra disp) s gid pid g p (p.pc + 4 + BitVec.ofInt 56 (4 * disp.toInt))) ∧
    (∀ (d : UReg) (imm : BitVec 16), g.us d = 0 →
      Jumps (.brz d imm) s gid pid g p (p.pc + 4 + BitVec.ofInt 56 (4 * imm.toInt)) ∧
      Completes (.brnz d imm) s gid pid g p fun h => GroupBut g h) ∧
    (∀ (d : UReg) (imm : BitVec 16), g.us d ≠ 0 →
      Jumps (.brnz d imm) s gid pid g p (p.pc + 4 + BitVec.ofInt 56 (4 * imm.toInt)) ∧
      Completes (.brz d imm) s gid pid g p fun h => GroupBut g h)

/-- CALL pushes the next word's address in every slice of the path, which needs depth below 16 there; RET pops equal tops, and the
word at the target begins a region (R117). -/
def CallsComplete : Prop :=
  ∀ s gid pid g p, Issues s gid pid g p →
    (∀ disp : BitVec 24, (∀ c ∈ slicesOf p.mask, (g.retStack c).depth < 16) →
      ∃ t h, exec (.call disp) s = .next t ∧ OnlyGroup s t gid h ∧ PathAt g h pid p (p.pc + 4 + BitVec.ofInt 56 (4 * disp.toInt)) ∧
        SigCleared g h p ∧ h = { g with ret := h.ret, sig := h.sig, paths := h.paths, stall := 0 } ∧
        ∀ c, h.retOf c = if c ∈ slicesOf p.mask then (p.pc + 4) :: g.retOf c else g.retOf c) ∧
    (∀ r : Addr, slicesOf p.mask ≠ [] → (∀ c ∈ slicesOf p.mask, (g.retOf c).head? = some r) →
      ∃ t h q, exec .ret s = .next t ∧ OnlyGroup s t gid h ∧ h.path pid = some q ∧ q.pc = r ∧ q.entryDue = some 0xFFFF ∧
        (∀ k, k ≠ pid → h.path k = g.path k) ∧
        SigCleared g h p ∧ h = { g with ret := h.ret, sig := h.sig, paths := h.paths, stall := 0 } ∧
        ∀ c, h.retOf c = if c ∈ slicesOf p.mask then (g.retOf c).tail else g.retOf c)

/-- CALL at depth 16, RET to unequal addresses, and RET from an empty stack trap (R117, 08 R187); unequal addresses, illegal convergence,
go before an empty stack (01 R21). -/
def CallTraps : Prop :=
  ∀ s gid pid g p, Issues s gid pid g p →
    (∀ (disp : BitVec 24) c, c ∈ slicesOf p.mask → 16 ≤ (g.retStack c).depth → TrapsAt (.call disp) s gid pid p (trapCause 0x11 2)) ∧
    (∀ c, c ∈ slicesOf p.mask → g.retOf c = [] →
      (∀ k j, k ∈ slicesOf p.mask → j ∈ slicesOf p.mask → ∀ a ∈ (g.retOf k).head?, ∀ b ∈ (g.retOf j).head?, a = b) →
      TrapsAt .ret s gid pid p (trapCause 0x11 3)) ∧
    (∀ c e a b, c ∈ slicesOf p.mask → e ∈ slicesOf p.mask → (g.retOf c).head? = some a → (g.retOf e).head? = some b → a ≠ b →
      TrapsAt .ret s gid pid p (trapOf 0x04))

end Sys2Proof.Claims

/-- SRD reads every special register of R75; SWR writes the writable ones, FLAGS by clearing; each leaves the rest of the group. -/
def Obligations.SpecialRegistersComplete : Prop := Sys2Proof.Claims.SrdCompletes ∧ Sys2Proof.Claims.SwrCompletes

/-- MODE and VIEW replace what they name and nothing else. While the group is parted, every instruction that names a uniform destination but
SRD, and MODE, VIEW, SWR and MFENCE, raises the parted-uniform trap (R80). -/
def Obligations.ModeAndViewsComplete : Prop :=
  Sys2Proof.Claims.ModeCompletes ∧ Sys2Proof.Claims.ViewCompletes ∧ Sys2Proof.Claims.PartedUniformTrap

/-- NOP, BRA, BRZ and BRNZ go where R116 and R118 say; CALL and RET keep the return stacks of the path's slices (R117), and trap at their
ends. -/
def Obligations.TransfersComplete : Prop :=
  Sys2Proof.Claims.BranchesComplete ∧ Sys2Proof.Claims.CallsComplete ∧ Sys2Proof.Claims.CallTraps

/-! ## Memory instructions: issue -/
namespace Sys2Proof.Claims
open Sys2Proof.Machine

/-- The active lanes' addresses of an ordered memory form: the pair's 64 bits plus the signed offset, modulo 2^64 (R145). -/
def addrsOf (g : Group) (p : Path) (base : BitVec 6) (b : VSrc) : List Nat :=
  laneAddrs (g.upair base.toNat) (active g p) (srcVals g p b)

/-- Every active lane passes the checks of R145. -/
def lanesOk (s : State) (g : Group) (k : AKind) (size : Nat) (m : Mask) (addrs : List Nat) : Prop :=
  ∀ l ∈ lanesOf m, check145 s g.core g.asid k size (addrs.getD l 0) size = .ok ()

/-- The word has completed and has put the one operation `k` over the lanes `m` in flight, charged to its path; a commit point also
leaves a region entry due at the next word. Nothing else has changed: no register, no flag, no byte. -/
def PutsInFlight (i : Instr) (s : State) (gid pid : Nat) (g : Group) (p : Path) (m : Mask) (k : OpKind) (due : Option Half) : Prop :=
  ∃ t h q o, exec i s = .next t ∧ t = { s with groups := t.groups, nextOp := s.nextOp + 1 } ∧ (∀ n, n ≠ gid → t.group n = s.group n) ∧
    t.group gid = some h ∧ PathAt g h pid p (p.pc + 4) ∧ h.path pid = some q ∧ q.entryDue = due ∧ Signed g h p (wordOf i) ∧
    h = { g with ops := [(s.nextOp, o)], sig := h.sig, paths := h.paths, stall := 0 } ∧
    o.path = pid ∧ o.uid = p.uid ∧ o.mask = p.mask ∧ o.pc = p.pc ∧ o.todo = m ∧ o.kind = k ∧ o.dropped = false

/-- The loads: order, gather, bytes a lane, destination (R147, R149). -/
inductive LoadForm : Instr → Bool → Bool → Bool → Nat → VReg → BitVec 6 → VSrc → Prop
  | ldB d o n b : LoadForm (.ldB d o n b) (o = .acq) (o ≠ .plain) false 1 d n b
  | ldH d o n b : LoadForm (.ldH d o n b) (o = .acq) (o ≠ .plain) false 2 d n b
  | ld d o n b : LoadForm (.ld d o n b) (o = .acq) (o ≠ .plain) false 4 d n b
  | ldD d o n b : LoadForm (.ldD d o n b) (o = .acq) (o ≠ .plain) false 8 (.reg d) n b
  | ldQ d o n b : LoadForm (.ldQ d o n b) (o = .acq) (o ≠ .plain) false 16 (.reg d) n b
  | ldg d o n b : LoadForm (.ldg d o n b) false (o = .rlx) true 4 d n b
  | ldgD d o n b : LoadForm (.ldgD d o n b) false (o = .rlx) true 8 (.reg d) n b

/-- A destination of `k` consecutive registers that the vector view holds. -/
def spanDst (g : Group) (d : VReg) (k : Nat) : Prop :=
  match d with
  | .reg n => spanIn g n k
  | .zero => True

/-- The loads complete at issue with their lanes in flight; with no active lane they do nothing (R145, R7). -/
def LoadsIssue : Prop :=
  ∀ i acq strong gather size d n b, LoadForm i acq strong gather size d n b → ∀ s gid pid g p, Issues s gid pid g p → wellFormed i = true →
    srcIn g b → spanDst g d ((size + 3) / 4) →
    (active g p = 0 → Completes i s gid pid g p fun h => GroupBut g h) ∧
    (active g p ≠ 0 → p.marks.acqWide = false → lanesOk s g .read size (active g p) (addrsOf g p n b) →
      PutsInFlight i s gid pid g p (active g p) (.load acq strong gather size (addrsOf g p n b) (dstAddr g d)) none)

/-- The stores: release, order, gather, bytes a lane, and the data of each lane, low word first. -/
inductive StoreForm : Instr → Bool → Bool → Bool → Nat → (Group → Prop) → (Group → Path → List Nat) → BitVec 6 → VSrc → Prop
  | stB d o n b : StoreForm (.stB d o n b) (o = .rel) (o ≠ .plain) false 1 (srcIn · d) (fun g p => wordsData 1 (srcVals g p d)) n b
  | stH d o n b : StoreForm (.stH d o n b) (o = .rel) (o ≠ .plain) false 2 (srcIn · d) (fun g p => wordsData 2 (srcVals g p d)) n b
  | st d o n b : StoreForm (.st d o n b) (o = .rel) (o ≠ .plain) false 4 (srcIn · d) (fun g p => wordsData 4 (srcVals g p d)) n b
  | stD d o n b : StoreForm (.stD d o n b) (o = .rel) (o ≠ .plain) false 8 (spanIn · d 2) (fun g _ => spanData g d.val 2) n b
  | stQ d o n b : StoreForm (.stQ d o n b) (o = .rel) (o ≠ .plain) false 16 (spanIn · d 4) (fun g _ => spanData g d.val 4) n b
  | sts d o n b : StoreForm (.sts d o n b) false (o = .rlx) true 4 (srcIn · d) (fun g p => wordsData 4 (srcVals g p d)) n b
  | stsD d o n b : StoreForm (.stsD d o n b) false (o = .rlx) true 8 (spanIn · d 2) (fun g _ => spanData g d.val 2) n b

/-- The stores complete at issue with their lanes and their data in flight; the bytes are written when they are performed. -/
def StoresIssue : Prop :=
  ∀ i rel strong gather size src data n b, StoreForm i rel strong gather size src data n b → ∀ s gid pid g p, Issues s gid pid g p →
    wellFormed i = true → srcIn g b → src g → (s.core g.core).mons = [] →
    (active g p = 0 → Completes i s gid pid g p fun h => GroupBut g h) ∧
    (active g p ≠ 0 → p.marks.acqWide = false → lanesOk s g .write size (active g p) (addrsOf g p n b) →
      PutsInFlight i s gid pid g p (active g p) (.store rel strong gather size (addrsOf g p n b) (data g p)) none)

/-- The atomics: the operation under a mode, the modes admitted, order, destination, second operand (R151). -/
inductive AtomForm : Instr → (Word → AOp) → (Word → Bool) → AtOrd → VReg → Nat → (Group → List Nat) → BitVec 6 → VSrc → Prop
  | add d o n b : AtomForm (.atomAdd d o n b) (fun _ => .add) okAny o d 1 (fun _ => []) n b
  | min d o n b : AtomForm (.atomMin d o n b) (fun m => .min (modeType m = 0)) okCmp o d 1 (fun _ => []) n b
  | max d o n b : AtomForm (.atomMax d o n b) (fun m => .max (modeType m = 0)) okCmp o d 1 (fun _ => []) n b
  | and d o n b : AtomForm (.atomAnd d o n b) (fun _ => .and) okAny o d 1 (fun _ => []) n b
  | or d o n b : AtomForm (.atomOr d o n b) (fun _ => .or) okAny o d 1 (fun _ => []) n b
  | xor d o n b : AtomForm (.atomXor d o n b) (fun _ => .xor) okAny o d 1 (fun _ => []) n b
  | exch d o n b : AtomForm (.atomExch d o n b) (fun _ => .exch) okAny o d 1 (fun _ => []) n b
  | cas d o n b : AtomForm (.atomCas d o n b) (fun _ => .cas) okAny o (.reg d) 2 (fun g => (g.v (d.val + 1)).map (·.toNat)) n b
  | fadd d o n b : AtomForm (.atomFadd d o n b) (fun _ => .fadd) okAny o d 1 (fun _ => []) n b

/-- The atomics complete at issue with their lanes in flight, and a region begins at the next word (R88). -/
def AtomicsIssue : Prop :=
  ∀ i op ok ord d k ys n b, AtomForm i op ok ord d k ys n b → ∀ s gid pid g p, Issues s gid pid g p → wellFormed i = true →
    ok g.mode = true → srcIn g b → spanDst g d k →
    (active g p = 0 → ∃ t h q, exec i s = .next t ∧ OnlyGroup s t gid h ∧ PathAt g h pid p (p.pc + 4) ∧ h.path pid = some q ∧
      q.entryDue = some 0xFFFF ∧ Signed g h p (wordOf i) ∧ GroupBut g h) ∧
    (active g p ≠ 0 → p.marks.acqWide = false →
      lanesOk s g (.atom (op g.mode = .add ∨ op g.mode = .exch ∨ op g.mode = .cas)) 4 (active g p) (addrsOf g p n b) →
      PutsInFlight i s gid pid g p (active g p)
        (.atom (op g.mode) ord (addrsOf g p n b) ((srcVals g p (dsrc d)).map (·.toNat)) (ys g) (dstAddr g d) 0 []) (some 0xFFFF))

/-- The memory instructions over lanes: what R145 checks of a lane, under which mode; bytes a lane; what the operands must satisfy; the
fields of the address. -/
inductive LaneAccess : Instr → (Word → AKind) → Nat → (Group → Prop) → BitVec 6 → VSrc → Prop
  | load i acq strong gather size d n b : LoadForm i acq strong gather size d n b →
      LaneAccess i (fun _ => .read) size (fun g => spanDst g d ((size + 3) / 4)) n b
  | store i rel strong gather size src data n b : StoreForm i rel strong gather size src data n b → LaneAccess i (fun _ => .write) size src n b
  | atom i op ok ord d k ys n b : AtomForm i op ok ord d k ys n b →
      LaneAccess i (fun m => .atom (op m = .add ∨ op m = .exch ∨ op m = .cas)) 4 (fun g => ok g.mode = true ∧ spanDst g d k) n b

/-- The deciding lane of an access: the first failing check in the order of R145, and of it the lowest lane. -/
def decides (s : State) (g : Group) (k : AKind) (size : Nat) (m : Mask) (addrs : List Nat) (l c : Nat) : Prop :=
  let out j := check145 s g.core g.asid k size (addrs.getD j 0) size
  l ∈ lanesOf m ∧ out l = .error (.trap c) ∧
    ∀ j ∈ lanesOf m, ∀ e, out j = .error e → errRank (.trap c) < errRank e ∨ (errRank e = errRank (.trap c) ∧ l ≤ j)

/-- A memory instruction whose deciding lane fails a check takes that lane's trap, with its address, and nothing goes in flight. -/
def FailingLaneTraps : Prop :=
  (∀ i k size okOps n b, LaneAccess i k size okOps n b → ∀ s gid pid g p, Issues s gid pid g p → wellFormed i = true → srcIn g b → okOps g →
    ∀ l c, decides s g (k g.mode) size (active g p) (addrsOf g p n b) l c →
    TrapsAt i s gid pid p (trapAt c ((addrsOf g p n b).getD l 0))) ∧
  (∀ (d : UReg) (a : Fin 192) (b : BitVec 8) s gid pid g p c, Issues s gid pid g p →
    let va := (g.upair a.val + 4 * b.toNat) % 2 ^ 64
    (wellFormed (.ldu d a b) = true → g.parted = false → check145 s g.core g.asid .read 4 va 4 = .error (.trap c) →
      TrapsAt (.ldu d a b) s gid pid p (trapAt c va)) ∧
    (wellFormed (.stu d a b) = true → check145 s g.core g.asid .write 4 va 4 = .error (.trap c) →
      TrapsAt (.stu d a b) s gid pid p (trapAt c va)))

/-- The path is at its word and free to issue it, as in `Issues`, but operations may be in flight and the region may check idempotence. -/
def AtWord (s : State) (gid pid : Nat) (g : Group) (p : Path) : Prop :=
  s.cur = some (gid, pid) ∧ s.group gid = some g ∧ g.path pid = some p ∧ g.status = .resident ∧ isYielded p = false ∧
    g.pending = [] ∧ g.stopping = none ∧ p.entryDue = none ∧ g.regPoison = [] ∧ (s.core g.core).retRegs = false

/-- A completion counter holds at most 62: an access that would raise one past it holds at issue, and nothing changes (R124). -/
def CountersHold : Prop :=
  (∀ i acq strong gather size d n b, LoadForm i acq strong gather size d n b → ∀ s gid pid g p, AtWord s gid pid g p → wellFormed i = true →
    srcIn g b → spanDst g d ((size + 3) / 4) → active g p ≠ 0 → 62 ≤ countOps g isLoad → exec i s = .next s) ∧
  (∀ i rel strong gather size src data n b, StoreForm i rel strong gather size src data n b → ∀ s gid pid g p, AtWord s gid pid g p →
    wellFormed i = true → srcIn g b → src g → active g p ≠ 0 → 62 ≤ countOps g isStore → exec i s = .next s) ∧
  (∀ i op ok ord d k ys n b, AtomForm i op ok ord d k ys n b → ∀ s gid pid g p, AtWord s gid pid g p → wellFormed i = true →
    ok g.mode = true → srcIn g b → spanDst g d k → active g p ≠ 0 → (62 ≤ countOps g isLoad ∨ 62 ≤ countOps g isStore) → exec i s = .next s)

/-- The 256-byte blocks of register space that an operation in flight has yet to write (R163). -/
def marksBlock (o : Op) (b : Nat) : Prop :=
  (∃ acq strong gather size addrs a, o.kind = .load acq strong gather size addrs (some a) ∧ a / 256 ≤ b ∧ b < a / 256 + (size + 3) / 4) ∨
  (∃ op ord addrs xs ys a pf res, o.kind = .atom op ord addrs xs ys (some a) pf res ∧ b = a / 256) ∨
  (∃ t offs a, o.kind = .spld t offs (some a) ∧ b = a / 256) ∨ (∃ t offs a pub, o.kind = .sprd t offs (some a) pub ∧ b = a / 256) ∨
  (∃ bank a fmt mode, o.kind = .mat (.acld bank a fmt mode) ∧ a / 256 ≤ b ∧ b < a / 256 + 16)

/-- A lanewise instruction that names a register of a block that an earlier load has yet to write holds at issue (R163). -/
def PendingBlocksHold : Prop :=
  ∀ i ok d srcs us f, IntegerLane i ok d srcs us f ∨ FloatLane i ok d srcs us f → ∀ s gid pid g p, AtWord s gid pid g p → wellFormed i = true →
    ok g.mode = true → (∀ a ∈ srcs, srcIn g a) → dstIn g d →
    ∀ e ∈ g.ops, ∀ n : Fin 248, (.reg n ∈ srcs ∨ d = .reg n) → marksBlock e.2 (g.vblock n.val) → exec i s = .next s

/-- The bytes that an access of operation `n` reads, as the ranges stand at this moment; under a shootdown still under way an operation
issued before it sees the old entry (15 R291). -/
def laneRead (s : State) (g : Group) (n va size : Nat) : Except MErr (List Byte) :=
  readIn s g.core g.asid va size false (translateFor s g.core g.asid n va)

/-- What its write leaves. -/
def laneWrite (s : State) (g : Group) (n va : Nat) (bs : List Byte) : Except MErr State :=
  writeIn s g.asid va bs (translateFor s g.core g.asid n va)

/-- The load cache of the group's core after a plain read of memory at `va`: the line of `va` holds the 128 bytes that memory holds, or goes
where these cannot be read whole; of the others, one may go, where the cache is full and held no line of `va` (R150, 08 R166). No other
core's cache changes. -/
def LineFilled (s t : State) (g : Group) (va : Nat) : Prop :=
  let key := lineKey g.asid va
  let old := (s.core g.core).lines
  (∀ c, c ≠ g.core → t.core c = s.core c) ∧
  ∃ ls, t.core g.core = { s.core g.core with lines := ls } ∧
    (∀ line, vread s g.core g.asid (va / 128 * 128) 128 = .ok line → kget ls key = some line) ∧
    (∀ e, vread s g.core g.asid (va / 128 * 128) 128 = .error e → kget ls key = none) ∧
    ∀ k, k ≠ key → kget ls k = kget old k ∨ (kget ls k = none ∧ 1024 ≤ old.length ∧ kget old key = none)

/-- LDU reads four bytes at the pair plus 4 * b, in an unparted group: memory's, and the load-cache line is filled; or, where the core holds
a line of them, perhaps that line's, and then no cache changes (which of the two is free, log entry 39). STU puts one store of four bytes
in flight (R150). -/
def UniformMemoryCompletes : Prop :=
  ∀ (d : UReg) (a : Fin 192) (b : BitVec 8) s gid pid g p, Issues s gid pid g p → p.marks.acqWide = false →
    let va := (g.upair a.val + 4 * b.toNat) % 2 ^ 64
    (wellFormed (.ldu d a b) = true → g.parted = false → check145 s g.core g.asid .read 4 va 4 = .ok () →
      ∀ bs, laneRead s g s.nextOp va 4 = .ok bs →
      ∃ t h v, exec (.ldu d a b) s = .next t ∧ t = { s with groups := t.groups, cores := t.cores, fresh := t.fresh } ∧
        (∀ k, k ≠ gid → t.group k = s.group k) ∧ t.group gid = some h ∧
        PathAt g h pid p (p.pc + 4) ∧ Signed g h p (wordOf (.ldu d a b)) ∧ UniformSet g h d (BitVec.ofNat 32 (leNat v)) ∧
        ((v = bs ∧ LineFilled s t g va) ∨
          ∃ line, kget (s.core g.core).lines (lineKey g.asid va) = some line ∧ v = (line.drop (va % 128)).take 4 ∧ t.cores = s.cores)) ∧
    (wellFormed (.stu d a b) = true → (s.core g.core).mons = [] → check145 s g.core g.asid .write 4 va 4 = .ok () →
      PutsInFlight (.stu d a b) s gid pid g p 1 (.store false false false 4 [va] [(g.us d).toNat]) none)

/-- FENCE leaves marks and goes on (R152): what was issued before must be finished before what its kind names, for every agent where its
scope is PKG or wider, else for the agents of its domain (16 R322). Wider than CORE, an acquiring one asks for the discard of the load
cache (R147). -/
def FenceCompletes : Prop :=
  ∀ (k : FenceKind) (sc : FenceScope) s gid pid g p, Issues s gid pid g p →
    let narrow : Prop := sc = .at .group ∨ sc = .at .core ∨ sc = .at .quad ∨ sc = .at .die
    Completes (.fence k sc) s gid pid g p fun h => GroupBut g h ∧ ∃ q, h.path pid = some q ∧
      q.marks.join = p.marks.join ∧ q.marks.spf = p.marks.spf ∧
      q.marks.acqWide = (p.marks.acqWide || (decide (k ≠ .rel) && decide (sc ≠ .at .group) && decide (sc ≠ .at .core))) ∧
      q.marks.fenced = (p.marks.fenced || decide (k ≠ .acq)) ∧
      (¬ narrow → q.marks.narrow = p.marks.narrow ∧ q.marks.acq = (if k = .rel then p.marks.acq else s.nextOp) ∧
        q.marks.rel = (if k = .acq then p.marks.rel else s.nextOp) ∧ q.marks.ar = if k = .ar then s.nextOp else p.marks.ar) ∧
      (narrow → q.marks.acq = p.marks.acq ∧ q.marks.rel = p.marks.rel ∧ q.marks.ar = p.marks.ar ∧
        ∀ e, e ∈ q.marks.narrow ↔ (e.kind = k ∧ sc = .at e.sc ∧ e.below = s.nextOp) ∨ (e ∈ p.marks.narrow ∧ ¬ (e.kind = k ∧ sc = .at e.sc)))

/-- RPREF never traps and never parks (R153): the path goes on, and all it does beside is to start migrations. They are those of the
ABSENT ranges with AUTO-MIGRATE that the window of 64 KiB units meets, in table order, each with the chunks that the window meets,
ascending. A range that starts turns MIGRATING with its bases swapped and no chunk present, and its entries are shot down (15 R303). -/
def PrefetchHintCompletes : Prop :=
  ∀ (a : Fin 192) (b : Bool) s gid pid g p, Issues s gid pid g p → wellFormed (.rpref a b) = true →
    let lo := (g.u a.val).toNat + 2 ^ 32 * ((g.u (a.val + 1)).toNat % 2 ^ 24)
    let hi := lo + 65536 * ((g.u (a.val + 1)).toNat / 2 ^ 24 + 1)
    let r := s.root (iodOf g.core) g.asid
    let u := hintWindow s (iodOf g.core) g.asid lo hi
    let met (d : Desc) (c : Nat) : Prop := c < d.chunks ∧ d.vbase + 65536 * c < hi ∧ lo < d.vbase + min (65536 * (c + 1)) d.length
    let starts (v : State) (n : Nat) : Prop :=
      (v.desc (r.desc + 64 * n)).state = 2 ∧ (v.desc (r.desc + 64 * n)).auto = true ∧ ∃ c, met (v.desc (r.desc + 64 * n)) c
    (∃ t h, exec (.rpref a b) s = .next t ∧ OnlyGroup u t gid h ∧ PathAt g h pid p (p.pc + 4) ∧ Signed g h p (wordOf (.rpref a b)) ∧
      GroupBut g h) ∧
    ((r.valid = false ∨ ∀ n, n < r.count → ¬ starts s n) → u = s) ∧
    (∀ n cs, r.valid = true → n < r.count → (∀ k, k < n → ¬ starts s k) → starts s n →
      cs.Pairwise (· < ·) → (∀ c, c ∈ cs ↔ met (s.desc (r.desc + 64 * n)) c) →
      let v := startMigration s g.asid (r.desc + 64 * n) (cs.headD 0) [] cs
      (∀ k, n < k → k < r.count → ¬ starts v k) → u = v) ∧
    (∀ x c cs, (s.desc x).state = 2 → s.aux x = RAux.zero → capDown s (s.desc x).pbase (s.desc x).length = false →
      startBarred s g.asid = false →
      let d := s.desc x
      startMigration s g.asid x c [] cs =
        addShoot (dropLines ((s.putDesc x { d with state := 3, pbase := d.pbase2, pbase2 := d.pbase, ctl := d.ctl % 32 }).setAux x
          { RAux.zero with trigger := c, hints := cs, asid := g.asid }) g.asid d.vbase d.length) g.asid d.vbase d.length none [])

/-! ## Memory instructions: completion -/

/-- Word `j` of a list of bytes. -/
def wordAtOf (bs : List Byte) (j : Nat) : Word := BitVec.ofNat 32 (leNat ((bs.drop (4 * j)).take 4))

/-- LOAD_COMPLETE delivers the lanes' bytes, read as the ranges stand at this moment, but for a word of a HOST double that the lane has read
before the other (14 R283): word `j` of lane `l` goes to register `j` of the
destination, and no other register word and no byte of memory changes. -/
def LoadCompletionDelivers : Prop :=
  ∀ s gid n g o strong gather size addrs dst m (f : Nat → List Byte), s.opAt gid n = some (g, o) →
    o.kind = .load false strong gather size addrs dst → o.dropped = false → g.status = .resident → m ≠ 0 → m &&& o.todo = m →
    loadReady g n o m = true → (∀ l ∈ lanesOf m, ∃ bs, laneRead s g n (addrs.getD l 0) size = .ok bs ∧ f l = withTaken o.taken l (addrs.getD l 0) bs) →
    ∃ t h, exec (.loadComplete gid n m false) s = .next t ∧ t = { s with groups := t.groups, cores := t.cores, fresh := t.fresh } ∧
      (∀ c, ∃ ls, t.core c = { s.core c with lines := ls }) ∧ (∀ k, k ≠ gid → t.group k = s.group k) ∧ t.group gid = some h ∧
      h = { g with regs := h.regs, regPoison := h.regPoison
                   ops := if o.todo &&& ~~~ m = 0 then kdel g.ops n else kupd g.ops n fun q => { q with todo := o.todo &&& ~~~ m } } ∧
      ∀ k, mget 0 h.regs k = match dst with
        | none => mget 0 g.regs k
        | some a =>
          let x := k - a / 4
          if a / 4 ≤ k ∧ bit m (x % 64) = true ∧ x / 64 < ((f (x % 64)).length + 3) / 4 then wordAtOf (f (x % 64)) (x / 64) else mget 0 g.regs k

/-- A load with acquire order discards the core's load cache when its last lane is bound (R147). -/
def AcquireDropsCache : Prop :=
  ∀ s gid n g o gather size addrs dst l bs, s.opAt gid n = some (g, o) → o.kind = .load true true gather size addrs dst →
    o.dropped = false → g.status = .resident → l < 64 → o.todo = BitVec.ofNat 64 (2 ^ l) → loadReady g n o o.todo = true →
    laneRead s g n (addrs.getD l 0) size = .ok bs →
    ∃ t, exec (.loadComplete gid n o.todo false) s = .next t ∧ (t.core g.core).lines = []

/-- STORE_PERFORMED writes a lane's bytes at its address, as the range stands at this moment, and into the core's matching load-cache
line, where it holds one (08 R166); no other line of any core changes. In plain HBM or capacity memory exactly those bytes of memory change. -/
def StorePerformedWrites : Prop :=
  ∀ s gid n g o rel strong gather size addrs data l u, s.opAt gid n = some (g, o) → o.kind = .store rel strong gather size addrs data →
    l < 64 → bit o.todo l = true → storeReady s g n o (BitVec.ofNat 64 (2 ^ l)) = true → postOf s gid n l = none →
    (∀ k ∈ o.pieces, k.1 ≠ l) → laneWrite s g n (addrs.getD l 0) (leBytes size (data.getD l 0)) = .ok u →
    let va := addrs.getD l 0
    (∃ t h, exec (.storePerformed gid n (BitVec.ofNat 64 (2 ^ l))) s = .next t ∧ t = { u with groups := t.groups, cores := t.cores } ∧
      (∀ c, c ≠ g.core → t.core c = s.core c) ∧ (∃ ls, t.core g.core = { s.core g.core with lines := ls } ∧
        ∀ k, kget ls k = if k = lineKey g.asid va
          then (kget (s.core g.core).lines k).map fun old => old.take (va % 128) ++ leBytes size (data.getD l 0) ++ old.drop (va % 128 + size)
          else kget (s.core g.core).lines k) ∧
      (∀ k, k ≠ gid → t.group k = s.group k) ∧ t.group gid = some h ∧
      h = { g with ops := if o.todo &&& ~~~ (BitVec.ofNat 64 (2 ^ l)) = 0 then kdel g.ops n
                          else kupd g.ops n fun q => { q with todo := o.todo &&& ~~~ (BitVec.ofNat 64 (2 ^ l)) } }) ∧
    u = { s with mem := u.mem, hostMem := u.hostMem, remMem := u.remMem, poison := u.poison, posts := u.posts } ∧
    ∀ a d pa x, translateFor s g.core g.asid n (addrs.getD l 0) = some (a, d) →
      place s g.asid a d true (addrs.getD l 0) size = .ok (.mem pa) → cellOf s pa = some x → pa % 2048 + size ≤ 2048 →
      u.hostMem = s.hostMem ∧ u.remMem = s.remMem ∧ u.posts = s.posts ∧
      ∀ y, Memory.byte u.mem y =
        if x ≤ y ∧ y < x + size then (leBytes size (data.getD l 0)).getD (y - x) 0 else Memory.byte s.mem y

/-- STORE_PERFORMED of an atomic's lane reads the word, writes what R151 computes, and keeps the old value for the lane; LOAD_COMPLETE
then delivers it (`AtomicDelivers`). -/
def AtomicPerforms : Prop :=
  ∀ s gid n g o op ord addrs xs ys dst pf res l bs, s.opAt gid n = some (g, o) → o.kind = .atom op ord addrs xs ys dst pf res →
    (s.core g.core).mons = [] → l < 64 → bit (o.todo &&& ~~~ pf) l = true → storeReady s g n o (BitVec.ofNat 64 (2 ^ l)) = true →
    ownHostRefuses s g.asid op (addrs.getD l 0) (translateFor s g.core g.asid n (addrs.getD l 0)) = false →
    readIn s g.core g.asid (addrs.getD l 0) 4 true (translateFor s g.core g.asid n (addrs.getD l 0)) = .ok bs →
    let kept : Op → Op := fun o => { o with kind := .atom op ord addrs xs ys dst (pf ||| BitVec.ofNat 64 (2 ^ l)) (kset res l (BitVec.ofNat 32 (leNat bs))) }
    match atomNew op (leNat bs) (xs.getD l 0) (ys.getD l 0) with
    | none => ∃ t, exec (.storePerformed gid n (BitVec.ofNat 64 (2 ^ l))) s = .next t ∧ OnlyGroup s t gid { g with ops := kupd g.ops n kept }
    | some v => ∀ u, laneWrite s g n (addrs.getD l 0) (leBytes 4 v) = .ok u →
      ∃ t, exec (.storePerformed gid n (BitVec.ofNat 64 (2 ^ l))) s = .next t ∧ t = { u with groups := t.groups, cores := t.cores } ∧
        (∀ c, ∃ ls, t.core c = { s.core c with lines := ls }) ∧ (∀ k, k ≠ gid → t.group k = s.group k) ∧
        t.group gid = some { g with ops := kupd g.ops n kept }

/-- LOAD_COMPLETE delivers an atomic's results: in the lanes named, whose words have been updated, the destination receives what memory
held just before; nothing else of register space changes, and no byte of memory. An acquiring one discards the load cache when the last
result is in. -/
def AtomicDelivers : Prop :=
  ∀ s gid n g o op ord addrs xs ys dst pf res m, s.opAt gid n = some (g, o) → o.kind = .atom op ord addrs xs ys dst pf res →
    o.dropped = false → m ≠ 0 → m &&& o.todo = m → m &&& pf = m →
    ∃ t h, exec (.loadComplete gid n m false) s = .next t ∧ t = { s with groups := t.groups, cores := t.cores } ∧
      (∀ k, k ≠ gid → t.group k = s.group k) ∧ t.group gid = some h ∧
      h = { g with regs := h.regs, regPoison := h.regPoison
                   ops := if o.todo &&& ~~~ m = 0 then kdel g.ops n else kupd g.ops n fun q => { q with todo := o.todo &&& ~~~ m } } ∧
      (∀ k, mget 0 h.regs k = match dst with
        | none => mget 0 g.regs k
        | some a => if a / 4 ≤ k ∧ k < a / 4 + 64 ∧ bit m (k - a / 4) = true then (kget res (k - a / 4)).getD 0 else mget 0 g.regs k) ∧
      (∀ c, t.core c = if c = g.core ∧ o.todo &&& ~~~ m = 0 ∧ (ord = .acq ∨ ord = .ar) then { s.core c with lines := [] } else s.core c)

/-- The words of a store's lanes that hit a monitor, as the monitor's type reads them, in lane order and each lane's words ascending
(18 R342). -/
def hitWords (c : MonCfg) (size : Nat) (m : Mask) (addrs data : List Nat) : List Exact :=
  (((lanesOf m).flatMap fun l => (List.range (size / 4)).map fun k => (addrs.getD l 0 + 4 * k, data.getD l 0 / 2 ^ (32 * k) % 2 ^ 32)).filter
    fun w => decide (c.base ≤ w.1 ∧ w.1 < c.base + c.length ∧ (w.1 - c.base) % c.stride = c.offset)).map
    fun w => decodeTy ((tyOfCode c.type).getD .i32) false w.2

/-- Stores and atomics whose words hit the monitor of their core add them to the path's working contribution (18 R342): a store at issue,
lane by lane; an atomic each new value when it is performed, a .cas only where it writes. A narrow store adds nothing, and notes that it
wrote part of a hitting word. -/
def MonitoredWritesContribute : Prop :=
  (∀ i rel strong gather size src data n b, StoreForm i rel strong gather size src data n b → ∀ s gid pid g p k mon, Issues s gid pid g p →
    wellFormed i = true → srcIn g b → src g → active g p ≠ 0 → p.marks.acqWide = false →
    lanesOk s g .write size (active g p) (addrsOf g p n b) → (s.core g.core).mons = [(k, mon)] → mon.launch = s.launchOf g →
    let xs := hitWords mon.cfg size (active g p) (addrsOf g p n b) (data g p)
    let part : Prop := size < 4 ∧ ∃ l ∈ lanesOf (active g p), monHit mon.cfg ((addrsOf g p n b).getD l 0 / 4 * 4) = true
    ∃ t h q, exec i s = .next t ∧ t = { s with groups := t.groups, nextOp := s.nextOp + 1 } ∧ (∀ j, j ≠ gid → t.group j = s.group j) ∧
      t.group gid = some h ∧ h.path pid = some q ∧ q.pc = p.pc + 4 ∧
      (∀ j, (kget q.contrib j).getD [] = if j = k then (kget p.contrib j).getD [] ++ xs else (kget p.contrib j).getD []) ∧
      (∀ j, j ∈ q.partials ↔ j ∈ p.partials ∨ (j = k ∧ part))) ∧
  (∀ s gid n g o op ord addrs xs ys dst pf res l bs v u p k mon, s.opAt gid n = some (g, o) → o.kind = .atom op ord addrs xs ys dst pf res →
    l < 64 → bit (o.todo &&& ~~~ pf) l = true → storeReady s g n o (BitVec.ofNat 64 (2 ^ l)) = true →
    ownHostRefuses s g.asid op (addrs.getD l 0) (translateFor s g.core g.asid n (addrs.getD l 0)) = false →
    readIn s g.core g.asid (addrs.getD l 0) 4 true (translateFor s g.core g.asid n (addrs.getD l 0)) = .ok bs →
    atomNew op (leNat bs) (xs.getD l 0) (ys.getD l 0) = some v → laneWrite s g n (addrs.getD l 0) (leBytes 4 v) = .ok u →
    (s.core g.core).mons = [(k, mon)] → mon.launch = s.launchOf g → monHit mon.cfg (addrs.getD l 0) = true →
    g.path o.path = some p → p.uid = o.uid → p.entryDue ≠ none →
    ∃ t h q, exec (.storePerformed gid n (BitVec.ofNat 64 (2 ^ l))) s = .next t ∧ t.group gid = some h ∧ h.path o.path = some q ∧
      (kget q.contrib k).getD [] = (kget p.contrib k).getD [] ++ [decodeTy ((tyOfCode mon.cfg.type).getD .i32) false v] ∧
      ∀ j, j ≠ k → kget q.contrib j = kget p.contrib j)

/-- The result of the atomics (R151), on 32-bit words: `m` in memory, `x` the lane's operand, `y` the second of .cas. .fadd adds as F32,
rounded to nearest even with subnormals kept; a NaN is the canonical one. -/
def AtomicResults : Prop :=
  ∀ m x y : Word,
    atomNew .add m.toNat x.toNat y.toNat = some (m + x).toNat ∧ atomNew .and m.toNat x.toNat y.toNat = some (m &&& x).toNat ∧
    atomNew .or m.toNat x.toNat y.toNat = some (m ||| x).toNat ∧ atomNew .xor m.toNat x.toNat y.toNat = some (m ^^^ x).toNat ∧
    atomNew .exch m.toNat x.toNat y.toNat = some x.toNat ∧ atomNew .cas m.toNat x.toNat y.toNat = (if m = x then some y.toNat else none) ∧
    atomNew (.min true) m.toNat x.toNat y.toNat = some (if m.toInt ≤ x.toInt then m else x).toNat ∧
    atomNew (.max true) m.toNat x.toNat y.toNat = some (if x.toInt ≤ m.toInt then m else x).toNat ∧
    atomNew (.min false) m.toNat x.toNat y.toNat = some (if m ≤ x then m else x).toNat ∧
    atomNew (.max false) m.toNat x.toNat y.toNat = some (if x ≤ m then m else x).toNat ∧
    (let a := ieeeDecode ieeeF32 false m.toNat
     let b := ieeeDecode ieeeF32 false x.toNat
     atomNew .fadd m.toNat x.toNat y.toNat = some (ieeeRound ieeeF32 .rne false (exactAdd .rne a b)) ∧
     ((a = .nan ∨ b = .nan) → atomNew .fadd m.toNat x.toNat y.toNat = some 0x7FC00000))

/-- A lane of a load that finds an error when it is served is the trap of its path, with the lane's address (R145); so is a lane of a store
or an atomic that finds one when it is performed, and what was left of the operation is over. An atomic that HOST memory does not take,
reached through a window of this package, is a memory link error (R151, 20 R368). That an atomic with uncorrectable data, 0x0C, ends so,
with no restart, is the model's choice (log entry 20). -/
def ServedFaultTraps : Prop :=
  (∀ s gid n g o strong gather size addrs dst l c, s.opAt gid n = some (g, o) → o.kind = .load false strong gather size addrs dst →
    o.dropped = false → g.status = .resident → g.stopping = none → l < 64 → bit o.todo l = true →
    loadReady g n o (BitVec.ofNat 64 (2 ^ l)) = true → c ≠ 0x0C → opLive g o = true →
    laneRead s g n (addrs.getD l 0) size = .error (.trap c) →
    exec (.loadComplete gid n (BitVec.ofNat 64 (2 ^ l)) false) s =
      .next (trapEnter (lanesDone s gid n g.core 0) gid (trapAt c (addrs.getD l 0)) o.path false o.pc.toNat o.word)) ∧
  (∀ s gid n g o rel strong gather size addrs data l c, s.opAt gid n = some (g, o) → o.kind = .store rel strong gather size addrs data →
    g.status = .resident → g.stopping = none → l < 64 → bit o.todo l = true → storeReady s g n o (BitVec.ofNat 64 (2 ^ l)) = true →
    postOf s gid n l = none → c ≠ 0x0C → opLive g o = true →
    laneWrite s g n (addrs.getD l 0) (leBytes size (data.getD l 0)) = .error (.trap c) →
    exec (.storePerformed gid n (BitVec.ofNat 64 (2 ^ l))) s =
      .next (trapEnter ((lanesDone s gid n g.core 0).failOp gid n) gid (trapAt c (addrs.getD l 0)) o.path false o.pc.toNat o.word)) ∧
  (∀ s gid n g o op ord addrs xs ys dst pf res l c, s.opAt gid n = some (g, o) → o.kind = .atom op ord addrs xs ys dst pf res →
    g.status = .resident → g.stopping = none → l < 64 → bit (o.todo &&& ~~~ pf) l = true →
    storeReady s g n o (BitVec.ofNat 64 (2 ^ l)) = true → opLive g o = true →
    (let tr := translateFor s g.core g.asid n (addrs.getD l 0)
     let refused := ownHostRefuses s g.asid op (addrs.getD l 0) tr
     (refused = true ∧ c = 0x0B) ∨ (refused = false ∧ readIn s g.core g.asid (addrs.getD l 0) 4 true tr = .error (.trap c))) →
    exec (.storePerformed gid n (BitVec.ofNat 64 (2 ^ l))) s =
      .next (trapEnter (s.failOp gid n) gid (trapAt c (addrs.getD l 0)) o.path false o.pc.toNat o.word)) ∧
  (∀ (d : UReg) (a : Fin 192) (b : BitVec 8) s gid pid g p c, Issues s gid pid g p → p.marks.acqWide = false →
    let va := (g.upair a.val + 4 * b.toNat) % 2 ^ 64
    wellFormed (.ldu d a b) = true → g.parted = false → check145 s g.core g.asid .read 4 va 4 = .ok () →
    kget (s.core g.core).lines (lineKey g.asid va) = none → c ≠ 0x0C → laneRead s g s.nextOp va 4 = .error (.trap c) →
    exec (.ldu d a b) s = .next (trapEnter s gid (trapAt c va) pid false p.pc.toNat (wordOf (.ldu d a b))))

end Sys2Proof.Claims

/-- Loads, stores and atomics complete at issue with their lanes in flight. An access that would raise a completion counter past 62 holds
at issue, and so does an instruction that names a register block which an earlier load has yet to write. -/
def Obligations.MemoryFormsIssue : Prop :=
  Sys2Proof.Claims.LoadsIssue ∧ Sys2Proof.Claims.StoresIssue ∧ Sys2Proof.Claims.AtomicsIssue ∧ Sys2Proof.Claims.CountersHold ∧
    Sys2Proof.Claims.PendingBlocksHold

/-- A load, store or atomic whose deciding lane fails a check of R145 at issue, or finds an error when it is served, traps with that lane's
address; LDU and STU with theirs. -/
def Obligations.FailingLaneTraps : Prop := Sys2Proof.Claims.FailingLaneTraps ∧ Sys2Proof.Claims.ServedFaultTraps

/-- LDU and STU, FENCE, and RPREF complete. -/
def Obligations.UniformMemoryFenceHintComplete : Prop :=
  Sys2Proof.Claims.UniformMemoryCompletes ∧ Sys2Proof.Claims.FenceCompletes ∧ Sys2Proof.Claims.PrefetchHintCompletes

/-- A load's completion delivers memory's bytes to the destination's words and to no other; an acquire discards the load cache. -/
def Obligations.LoadCompletionDelivers : Prop := Sys2Proof.Claims.LoadCompletionDelivers ∧ Sys2Proof.Claims.AcquireDropsCache

/-- A performed store changes exactly its bytes; an atomic reads, computes and writes its word, keeps the old value, and delivers it; both
add to the monitor that their words hit. -/
def Obligations.StoresAndAtomicsPerform : Prop :=
  Sys2Proof.Claims.StorePerformedWrites ∧ Sys2Proof.Claims.AtomicPerforms ∧ Sys2Proof.Claims.AtomicDelivers ∧
    Sys2Proof.Claims.AtomicResults ∧ Sys2Proof.Claims.MonitoredWritesContribute

/-! ## Scratchpad and copies -/
namespace Sys2Proof.Claims
open Sys2Proof.Machine

/-- As `PutsInFlight`, for an instruction that also changes its core: `C` says how. -/
def FliesWith (i : Instr) (s : State) (gid pid : Nat) (g : Group) (p : Path) (m : Mask) (k : OpKind) (due : Option Half) (C : State → Prop) :
    Prop :=
  ∃ t h q o, exec i s = .next t ∧ t = { s with groups := t.groups, cores := t.cores, nextOp := s.nextOp + 1 } ∧
    (∀ n, n ≠ gid → t.group n = s.group n) ∧ t.group gid = some h ∧ PathAt g h pid p (p.pc + 4) ∧ h.path pid = some q ∧ q.entryDue = due ∧
    Signed g h p (wordOf i) ∧ h = { g with ops := [(s.nextOp, o)], sig := h.sig, paths := h.paths, stall := 0 } ∧
    o.path = pid ∧ o.uid = p.uid ∧ o.mask = p.mask ∧ o.pc = p.pc ∧ o.todo = m ∧ o.kind = k ∧ o.dropped = false ∧ C t

/-- Of all cores only `core` has changed, and of it only entry `k` of its tile table, which is now `v`. -/
def TileNow (s t : State) (core k : Nat) (v : Tile) : Prop :=
  (∀ c, c ≠ core → t.core c = s.core c) ∧ t.core core = { s.core core with tiles := (t.core core).tiles } ∧
    ∀ j, (t.core core).tile j = if j = k then v else (s.core core).tile j

/-- The tile's row of R169 lets the instruction act, and the scratchpad is out of retention. -/
def TileReady (s : State) (gid : Nat) (g : Group) (n : Nat) (r : TileRow) (k : Nat) : Prop :=
  tileCheck s gid g n r = .go k ∧ (s.core g.core).retScr = false

/-- What the table of R169 says for a group's tile in each state: proceed, hold, or the tile trap. -/
def TileTable : Prop :=
  ∀ (g : Group) (t : Tile),
    let own : Prop := t.soft = true ∧ t.owner = g.grpidx
    (t.state = .empty → rowSays g t .read = none ∧ rowSays g t .spst = none ∧ rowSays g t .fill = some true ∧ rowSays g t .copyo = none ∧
      rowSays g t .trel = none ∧ rowSays g t .claim = some true) ∧
    (t.state = .filling → own → rowSays g t .read = none ∧ rowSays g t .spst = some true ∧ rowSays g t .fill = none ∧
      rowSays g t .copyo = none ∧ rowSays g t .trel = some true ∧ rowSays g t .claim = none) ∧
    (t.state = .filling → ¬ own → rowSays g t .read = some false ∧ rowSays g t .spst = some false ∧ rowSays g t .fill = none ∧
      rowSays g t .copyo = some false ∧ rowSays g t .trel = some false ∧ rowSays g t .claim = none) ∧
    (t.state = .ready → rowSays g t .read = some true ∧ rowSays g t .spst = some true ∧ rowSays g t .fill = some true ∧
      rowSays g t .copyo = some true ∧ rowSays g t .trel = some true ∧ rowSays g t .claim = none) ∧
    (t.state = .draining → rowSays g t .read = some true ∧ rowSays g t .spst = some false ∧ rowSays g t .fill = some false ∧
      rowSays g t .copyo = some (decide (t.drains < 7)) ∧ rowSays g t .trel = some false ∧ rowSays g t .claim = none)

/-- The lanes' offsets are words of the tile (R193). -/
def offsOk (m : Mask) (offs : List Nat) : Prop := ∀ l ∈ lanesOf m, offs.getD l 0 % 4 = 0 ∧ offs.getD l 0 < 4096

/-- SPLD and SPST complete at issue with their lanes in flight (R193). -/
def ScratchIssue : Prop :=
  (∀ (d : VReg) (a : Fin 192) (b : VSrc) s gid pid g p k, Issues s gid pid g p → srcIn g b → dstIn g d → TileReady s gid g a.val .read k →
    active g p ≠ 0 → p.marks.acqWide = false → offsOk (active g p) ((srcVals g p b).map (·.toNat)) →
    PutsInFlight (.spld d a b) s gid pid g p (active g p) (.spld ⟨g.core, k⟩ ((srcVals g p b).map (·.toNat)) (dstAddr g d)) none) ∧
  (∀ (d : VSrc) (a : Fin 192) (b : VSrc) s gid pid g p k, Issues s gid pid g p → srcIn g b → srcIn g d → TileReady s gid g a.val .spst k →
    active g p ≠ 0 → p.marks.acqWide = false → offsOk (active g p) ((srcVals g p b).map (·.toNat)) →
    PutsInFlight (.spst d a b) s gid pid g p (active g p)
      (.spst ⟨g.core, k⟩ ((srcVals g p b).map (·.toNat)) ((srcVals g p d).map (·.toNat))) none)

/-- The instruction that meets a row of the table on the group's tile `a`, and its word. -/
inductive TileUse : Instr → Fin 192 → TileRow → (Group → Prop) → Prop
  | tclaim a : TileUse (.tclaim a) a .claim (fun _ => True)
  | trel a : TileUse (.trel a) a .trel (fun _ => True)
  | spld d a b : TileUse (.spld d a b) a .read (fun g => srcIn g b ∧ dstIn g d)
  | spst d a b : TileUse (.spst d a b) a .spst (fun g => srcIn g b ∧ srcIn g d)

/-- The tile trap (R193, R169): cause 6 where the group has no such tile; 4 where a release of it by the group is pending; else the number
of the tile's state, 0 EMPTY, 1 FILLING, 2 READY, 3 DRAINING, where the table says trap. What the trap does to tiles: a tile that the
group claimed in its current regions turns EMPTY, also where an SPFENCE of another of its paths has made it READY, releases pending of
them are taken back, and every other tile stays as it was (08 R170; while another group's COPYO drains one of them the trap waits, log entry
91). -/
def TileTraps : Prop :=
  (∀ i (a : Fin 192) r ok, TileUse i a r ok → ∀ s gid pid g p, Issues s gid pid g p → ok g →
    ((s.tilesOf g)[a.val]? = none → TrapsAt i s gid pid p (trapCause 0x13 6)) ∧
    (∀ k, (s.tilesOf g)[a.val]? = some k →
      let t := (s.core g.core).tile k
      ((∃ q, (gid, q) ∈ t.relBy) → TrapsAt i s gid pid p (trapCause 0x13 4)) ∧
      ((∀ q, (gid, q) ∉ t.relBy) → rowSays g t r = none →
        (t.state = .empty → TrapsAt i s gid pid p (trapCause 0x13 0)) ∧ (t.state = .filling → TrapsAt i s gid pid p (trapCause 0x13 1)) ∧
        (t.state = .ready → TrapsAt i s gid pid p (trapCause 0x13 2)) ∧ (t.state = .draining → TrapsAt i s gid pid p (trapCause 0x13 3))))) ∧
  (∀ s gid g k pathNo pc w j, s.group gid = some g → g.handler = none → g.ops = [] → g.stopping = none → s.pairings = [] →
    (∀ e ∈ g.paths, e.2.behind = false) → drainsOut s g = false →
    let t := trapEnter s gid k pathNo false pc w
    let old := (s.core g.core).tile j
    ((∃ e ∈ g.paths, j ∈ e.2.claims) → old.owner = g.grpidx → (t.core g.core).tile j = tileEmpty) ∧
    ((∀ e ∈ g.paths, j ∉ e.2.claims) →
      (t.core g.core).tile j = { old with relBy := old.relBy.filter fun r => !(r.1 = gid && g.paths.any fun e => e.1 = r.2) }))

/-- TCLAIM, TREL, TSTAT and SPFENCE (R195 to R198); a tile claimed anew is none that an earlier SPFENCE of the group makes READY (R169). -/
def TilesComplete : Prop :=
  ∀ s gid pid g p, Issues s gid pid g p →
    (∀ (a : Fin 192) k, TileReady s gid g a.val .claim k → ∃ t h q, exec (.tclaim a) s = .next t ∧
      t = { s with groups := t.groups, cores := t.cores } ∧ (∀ n, n ≠ gid → t.group n = s.group n) ∧ t.group gid = some h ∧
      PathAt (unfence g k) h pid p (p.pc + 4) ∧ Signed g h p (wordOf (.tclaim a)) ∧ GroupBut (unfence g k) h ∧ h.path pid = some q ∧
      q.claims = k :: p.claims ∧
      TileNow s t g.core k { (s.core g.core).tile k with state := .filling, soft := true, owner := g.grpidx }) ∧
    (∀ (a : Fin 192) k, TileReady s gid g a.val .trel k → ∃ t h q, exec (.trel a) s = .next t ∧
      t = { s with groups := t.groups, cores := t.cores } ∧ (∀ n, n ≠ gid → t.group n = s.group n) ∧ t.group gid = some h ∧
      PathAt g h pid p (p.pc + 4) ∧ Signed g h p (wordOf (.trel a)) ∧ GroupBut g h ∧ h.path pid = some q ∧ q.trel = k :: p.trel ∧
      TileNow s t g.core k { (s.core g.core).tile k with relBy := (gid, pid) :: ((s.core g.core).tile k).relBy }) ∧
    (∀ (d : UReg) (a : Fin 192) k, g.parted = false → (s.tilesOf g)[a.val]? = some k →
      Completes (.tstat d a) s gid pid g p fun h => UniformSet g h d (tileWord ((s.core g.core).tile k))) ∧
    (∃ t h q, exec .spfence s = .next t ∧ t = { s with groups := t.groups, cores := t.cores } ∧ (∀ n, n ≠ gid → t.group n = s.group n) ∧
      t.group gid = some h ∧ PathAt g h pid p (p.pc + 4) ∧ Signed g h p (wordOf .spfence) ∧ GroupBut g h ∧ h.path pid = some q ∧
      q.spfence = p.spfence ++ softTiles s g ∧ q.marks = { p.marks with spf := s.nextOp } ∧ (∀ c, c ≠ g.core → t.core c = s.core c) ∧
      t.core g.core = { s.core g.core with otags := (s.core g.core).otags.filter fun e => e.asid ≠ g.asid })

/-- SPLD's data are the tile's words, SPST's go to the tile and nowhere else (R193). -/
def ScratchPerforms : Prop :=
  (∀ s gid n g o tile offs dst m, s.opAt gid n = some (g, o) → o.kind = .spld tile offs dst → o.dropped = false → g.status = .resident →
    m ≠ 0 → m &&& o.todo = m → loadReady g n o m = true →
    (∀ l ∈ lanesOf m, tilePoisoned (s.core tile.core) tile.tile (offs.getD l 0) 4 = false) →
    ∃ t h, exec (.loadComplete gid n m false) s = .next t ∧ OnlyGroup s t gid h ∧
      h = { g with regs := h.regs, regPoison := h.regPoison
                   ops := if o.todo &&& ~~~ m = 0 then kdel g.ops n else kupd g.ops n fun q => { q with todo := o.todo &&& ~~~ m } } ∧
      ∀ k, mget 0 h.regs k = match dst with
        | none => mget 0 g.regs k
        | some a => if a / 4 ≤ k ∧ k < a / 4 + 64 ∧ bit m (k - a / 4) = true
            then wordAtOf (tileBytes (s.core tile.core) tile.tile (offs.getD (k - a / 4) 0) 4) 0 else mget 0 g.regs k) ∧
  (∀ s gid n g o tile offs data l, s.opAt gid n = some (g, o) → o.kind = .spst tile offs data → l < 64 → bit o.todo l = true →
    storeReady s g n o (BitVec.ofNat 64 (2 ^ l)) = true →
    ∃ t h, exec (.storePerformed gid n (BitVec.ofNat 64 (2 ^ l))) s = .next t ∧ t = { s with groups := t.groups, cores := t.cores } ∧
      (∀ k, k ≠ gid → t.group k = s.group k) ∧ t.group gid = some h ∧ h = { g with ops := h.ops } ∧
      (∀ c, c ≠ tile.core → t.core c = s.core c) ∧
      t.core tile.core = { s.core tile.core with scr := (t.core tile.core).scr, scrPoison := (t.core tile.core).scrPoison } ∧
      ∀ x, mget 0 (t.core tile.core).scr x =
        let b := 4096 * tile.tile + offs.getD l 0
        if b ≤ x ∧ x < b + 4 then (leBytes 4 (data.getD l 0)).getD (x - b) 0 else mget 0 (s.core tile.core).scr x)

/-! ## Copies at issue -/

/-- The checks of COPY and COPYO (R199, R200, R202). -/
def ShapeOk (s : State) (g : Group) (k : AKind) (addr : Nat) (w : Word) : Prop :=
  addr % 16 = 0 ∧ shapePitch w % 16 = 0 ∧ shapeOk w = true ∧
    ∀ va ∈ rowAddrs addr (shapePitch w) (shapeRows w), checkSpan s g.core g.asid k va 128 = .ok ()

/-- COPY, COPYG, COPYO and COPYW complete at issue with their transfer in flight: a tile that fills turns FILLING, one that is written
out turns DRAINING with one drain more, and a COPYO begins a region; a COPYW's slot is busy, a generation later (R199 to R203). -/
def CopiesIssue : Prop :=
  ∀ s gid pid g p, Issues s gid pid g p →
    (∀ (d a : Fin 192) (b : UReg) k, wellFormed (.copy d a b) = true → ShapeOk s g .read (g.upair a.val) (g.us b) →
      TileReady s gid g d.val .fill k →
      FliesWith (.copy d a b) s gid pid g p (lanesBelow (shapeRows (g.us b)))
        (.copy ⟨g.core, k⟩ (g.upair a.val) (shapePitch (g.us b)) (shapeRows (g.us b))) none
        (fun t => TileNow s t g.core k { (s.core g.core).tile k with state := .filling, soft := false })) ∧
    (∀ (d a : Fin 192) (b : UReg) k, wellFormed (.copyg d a b) = true → g.upair a.val % 8 = 0 → gatherOk (g.us b) = true →
      checkBytes s g.core g.asid .read ((8 + 4 * gatherCount (g.us b)) / 256 + 2) (g.upair a.val) (8 + 4 * gatherCount (g.us b)) = .ok () →
      TileReady s gid g d.val .fill k →
      FliesWith (.copyg d a b) s gid pid g p 1
        (.copyg ⟨g.core, k⟩ (g.upair a.val) (gatherSize (g.us b)) (gatherCount (g.us b)) [] (List.range (gatherCount (g.us b)))) none
        (fun t => TileNow s t g.core k { (s.core g.core).tile k with state := .filling, soft := false })) ∧
    (∀ (d a : Fin 192) (b : UReg) k, wellFormed (.copyo d a b) = true → ShapeOk s g .write (g.upair d.val) (g.us b) →
      TileReady s gid g a.val .copyo k →
      FliesWith (.copyo d a b) s gid pid g p (lanesBelow (shapeRows (g.us b)))
        (.copyo ⟨g.core, k⟩ (g.upair d.val) (shapePitch (g.us b)) (shapeRows (g.us b))) (some 0xFFFF)
        (fun t => TileNow s t g.core k
          { (s.core g.core).tile k with state := .draining, drains := ((s.core g.core).tile k).drains + 1 })) ∧
    (∀ (d : UReg) (a : Fin 192) (b : UReg),
      let n := handleSlot (g.us d)
      let l := (g.us b).toNat
      let sl := (s.core g.core).slot n
      wellFormed (.copyw d a b) = true → handleOk (g.us d) = true → lengthOk (g.us d) (g.us b) = true → g.upair a.val % 64 = 0 →
      sl.valid = true → sl.asid = g.asid → sl.retained = false → sl.busy = false → sl.pend = [] → slotReaders s g.core n = false →
      checkSpan s g.core g.asid .read (g.upair a.val) l = .ok () →
      FliesWith (.copyw d a b) s gid pid g p (lanesBelow ((l + 511) / 512)) (.copyw n (64 * handleOff (g.us d)) (g.upair a.val) l) none
        (fun t => (∀ c, c ≠ g.core → t.core c = s.core c) ∧
          t.core g.core = { s.core g.core with slots := (t.core g.core).slots, otags := (t.core g.core).otags } ∧
          (∀ e ∈ (t.core g.core).otags, e.slot ≠ n) ∧
          ∀ j, (t.core g.core).slot j = if j = n then { sl with gen := (sl.gen + 1) % 65536, busy := true } else (s.core g.core).slot j))

/-- PUBLISH flips the current half of a pair range once the path's accesses are over, and begins a region; no core keeps a load-cache line
of the range, or its entry in a lookaside buffer, and nothing else of any core changes (R206, R300, 08 R166). -/
def PublishCompletes : Prop :=
  ∀ (a : Fin 192) s gid pid g p r d, Issues s gid pid g p → wellFormed (.publish a) = true →
    check145 s g.core g.asid .write 1 (g.upair a.val) 1 = .ok () → translate s g.core g.asid (g.upair a.val) = some (r, d) → d.pair = true → 0 < d.length →
    ∃ t h q, exec (.publish a) s = .next t ∧
      t = { s with groups := t.groups, cores := t.cores, raux := t.raux } ∧
      (∀ n, n ≠ gid → t.group n = s.group n) ∧ t.group gid = some h ∧ PathAt g h pid p (p.pc + 4) ∧ h.path pid = some q ∧
      q.entryDue = some 0xFFFF ∧ Signed g h p (wordOf (.publish a)) ∧ GroupBut g h ∧
      (∀ n, t.aux n = if n = r then { s.aux r with half := !(s.aux r).half } else s.aux n) ∧
      ∀ c, ∃ ls rs, t.core c = { s.core c with lines := ls, rlb := rs } ∧
        (∀ k, kget ls k = if k / 2 ^ 50 = g.asid ∧ d.vbase < (k % 2 ^ 50 + 1) * 128 ∧ k % 2 ^ 50 * 128 < d.vbase + d.length then none
          else kget (s.core c).lines k) ∧
        ∀ e, e ∈ rs ↔ e ∈ (s.core c).rlb ∧ ¬ (e.asid = g.asid ∧ d.vbase < e.vbase + e.length ∧ e.vbase < d.vbase + d.length)

/-! ## Copies at completion -/

/-- A copy in flight that runs. -/
def CopyRuns (s : State) (gid n : Nat) (g : Group) (o : Op) : Prop := runningCopy s gid n = some (g, o)

/-- COPY_FILL_COMPLETE: the tile holds the rows that were left, its rest is zero, and it is READY; COPYG likewise with its rows
(R200, R201). What is read is memory as it stands. -/
def FillCompletes : Prop :=
  (∀ s gid n g o tile src pitch rows (f : Nat → List Byte), CopyRuns s gid n g o → o.pieces = [] → o.kind = .copy tile src pitch rows → rows ≤ 32 →
    o.todo = lanesBelow rows →
    (∀ r, r < rows → vread s g.core g.asid ((src + r * pitch) % 2 ^ 64) 128 = .ok (f r) ∧ (f r).length = 128) →
    ∃ t h, exec (.copyFillComplete gid n) s = .next t ∧ t = { s with groups := t.groups, cores := t.cores } ∧
      (∀ k, k ≠ gid → t.group k = s.group k) ∧ t.group gid = some h ∧ h = { g with ops := kdel g.ops n } ∧
      (∀ c, c ≠ tile.core → t.core c = s.core c) ∧
      (t.core tile.core).tile tile.tile = { (s.core tile.core).tile tile.tile with state := .ready, soft := false } ∧
      (∀ j, j ≠ tile.tile → (t.core tile.core).tile j = (s.core tile.core).tile j) ∧
      ∀ x, mget 0 (t.core tile.core).scr x =
        let y := x - 4096 * tile.tile
        if 4096 * tile.tile ≤ x ∧ y < 4096 then (if y < 128 * rows then (f (y / 128)).getD (y % 128) 0 else 0)
        else mget 0 (s.core tile.core).scr x) ∧
  (∀ s gid n g o tile list size count vas (f : Nat → List Byte), CopyRuns s gid n g o → o.pieces = [] → o.kind = .copyg tile list size count [] (List.range count) →
    0 < count → 4 ≤ size → count * size ≤ 4096 → gatherRows s g o.taken list size count = .ok vas → vas.length = count →
    (∀ r, r < count → vread s g.core g.asid (vas.getD r 0) size = .ok (f r) ∧ (f r).length = size) →
    ∃ t h, exec (.copyFillComplete gid n) s = .next t ∧ t = { s with groups := t.groups, cores := t.cores } ∧
      (∀ k, k ≠ gid → t.group k = s.group k) ∧ t.group gid = some h ∧ h = { g with ops := kdel g.ops n } ∧
      (∀ c, c ≠ tile.core → t.core c = s.core c) ∧
      (t.core tile.core).tile tile.tile = { (s.core tile.core).tile tile.tile with state := .ready, soft := false } ∧
      (∀ j, j ≠ tile.tile → (t.core tile.core).tile j = (s.core tile.core).tile j) ∧
      ∀ x, mget 0 (t.core tile.core).scr x =
        let y := x - 4096 * tile.tile
        if 4096 * tile.tile ≤ x ∧ y < 4096 then (if y < count * size then (f (y / size)).getD (y % size) 0 else 0)
        else mget 0 (s.core tile.core).scr x)

/-- COPYO_COMPLETE and COPYW_COMPLETE with their last unit left: the unit is written, a drain ends, the slot is no longer busy
(R202, R203). -/
def CopyOutCompletes : Prop :=
  (∀ s gid n g o tile dst pitch rows u v, CopyRuns s gid n g o → o.pieces = [] → o.kind = .copyo tile dst pitch rows → u < 64 →
    o.todo = BitVec.ofNat 64 (2 ^ u) → tilePoisoned (s.core tile.core) tile.tile (128 * u) 128 = false →
    vwrite s g.core g.asid ((dst + u * pitch) % 2 ^ 64) (tileBytes (s.core tile.core) tile.tile (128 * u) 128) = (v, none) →
    let e := (s.core tile.core).tile tile.tile
    ∃ t h, exec (.copyoComplete gid n) s = .next t ∧ t = { v with groups := t.groups, cores := t.cores } ∧
      (∀ k, k ≠ gid → t.group k = s.group k) ∧ t.group gid = some h ∧ h = { g with ops := kdel g.ops n } ∧
      TileNow s t tile.core tile.tile { e with drains := e.drains - 1, state := if e.drains ≤ 1 then .ready else .draining }) ∧
  (∀ s gid n g o slot off src len u bs, CopyRuns s gid n g o → o.pieces = [] → o.kind = .copyw slot off src len → u < 64 →
    o.todo = BitVec.ofNat 64 (2 ^ u) → 512 * u < len → rawBytes s g.core g.asid ((min 512 (len - 512 * u)) / 64) (src + 512 * u) = .ok bs →
    ∃ t h, exec (.copywComplete gid n) s = .next t ∧ t = { s with groups := t.groups, cores := t.cores } ∧
      (∀ k, k ≠ gid → t.group k = s.group k) ∧ t.group gid = some h ∧ h = { g with ops := kdel g.ops n } ∧
      (∀ c, c ≠ g.core → t.core c = s.core c) ∧
      (∀ j, (t.core g.core).slot j = if j = slot then { (s.core g.core).slot slot with busy := false, poisoned := false }
        else (s.core g.core).slot j) ∧
      ∀ x, mget 0 (t.core g.core).ws x =
        let b := 32768 * slot + off + 512 * u
        if b ≤ x ∧ x < b + bs.length then bs.getD (x - b) 0 else mget 0 (s.core g.core).ws x)

/-- What a copy's end by a fault leaves of its group, its tile or its slot: a tile that was being filled is EMPTY, one that was written out
has a drain less, a slot is poisoned; the fault waits behind those the group has pending (R205). -/
def FaultPends (v t : State) (gid n : Nat) (g : Group) (o : Op) (i : TrapInfo) (qual : Bool) : Prop :=
  ∃ h, t = { v with groups := t.groups, cores := t.cores } ∧ (∀ k, k ≠ gid → t.group k = v.group k) ∧ t.group gid = some h ∧
    kget h.ops n = none ∧ h.pending = g.pending ++ [⟨i, o.path, o.uid, o.pc, o.word, qual⟩] ∧
    (∀ tile src pitch rows, o.kind = .copy tile src pitch rows →
      (t.core tile.core).tile tile.tile = { (v.core tile.core).tile tile.tile with state := .empty, soft := false }) ∧
    (∀ tile list size count rows left, o.kind = .copyg tile list size count rows left →
      (t.core tile.core).tile tile.tile = { (v.core tile.core).tile tile.tile with state := .empty, soft := false }) ∧
    (∀ tile dst pitch rows, o.kind = .copyo tile dst pitch rows →
      let e := (v.core tile.core).tile tile.tile
      (t.core tile.core).tile tile.tile = { e with drains := e.drains - 1, state := if e.drains ≤ 1 then .ready else .draining }) ∧
    (∀ slot off src len, o.kind = .copyw slot off src len →
      (t.core g.core).slot slot = { (v.core g.core).slot slot with busy := false, poisoned := true })

/-- Unit `u` meets the trap class `c` at `va`; `v` is the state with what was written before. -/
inductive UnitFails (s : State) (g : Group) (o : Op) (u : Nat) : State → Nat → Nat → Prop
  | copy tile src pitch rows c va : o.kind = .copy tile src pitch rows →
      vread s g.core g.asid ((src + u * pitch) % 2 ^ 64) 128 = .error ⟨.trap c, va⟩ → UnitFails s g o u s c va
  | copyg tile list size count left rows c va : o.kind = .copyg tile list size count [] left → gatherRows s g o.taken list size count = .ok rows →
      vread s g.core g.asid (rows.getD u 0) size = .error ⟨.trap c, va⟩ → UnitFails s g o u s c va
  | copyo tile dst pitch rows v c va : o.kind = .copyo tile dst pitch rows →
      tilePoisoned (s.core tile.core) tile.tile (128 * u) 128 = false →
      vwrite s g.core g.asid ((dst + u * pitch) % 2 ^ 64) (tileBytes (s.core tile.core) tile.tile (128 * u) 128) = (v, some ⟨.trap c, va⟩) →
      UnitFails s g o u v c va
  | copyw slot off src len c va : o.kind = .copyw slot off src len →
      rawBytes s g.core g.asid ((min 512 (len - 512 * u)) / 64) (src + 512 * u) = .error ⟨.trap c, va⟩ → UnitFails s g o u s c va

/-- COPY_FAULT: a link error on memory beyond the HBM stacks, or what the first unit left meets; the copy is over and the fault waits for
the group's next instruction boundary (R205; a malformed block, 15 R312, is stated apart). -/
def CopyFaultPends : Prop :=
  (∀ s gid n g o, CopyRuns s gid n g o → g.status = .resident → rangeType s g.core g.asid (copyAddr o) ≠ 0 →
    ∃ t, exec (.copyFault gid n true) s = .next t ∧ FaultPends s t gid n g o (trapAt 0x0B (copyAddr o)) false) ∧
  (∀ s gid n g o u us v c va, CopyRuns s gid n g o → g.status = .resident → o.pieces = [] → unitsLeft o = u :: us → UnitFails s g o u v c va →
    (c = 0x0C → malformedAt v g.core g.asid va = false) →
    ∃ t, exec (.copyFault gid n false) s = .next t ∧ FaultPends v t gid n g o (trapAt c va) true)

/-- The oldest pending fault is taken at the group's next boundary, by any of its paths, charged to the path that issued the copy; of a
path that has ended the frame names no path, and nothing of it is restarted (R205). -/
def PendingFaultTaken : Prop :=
  ∀ i s gid pid g p f fs, s.cur = some (gid, pid) → s.group gid = some g → g.path pid = some p → g.status = .resident →
    isYielded p = false → g.stopping = none → g.pending = f :: fs → isStep i = false →
    (∀ q, g.path f.path = some q → q.uid = f.uid → f.info.cls ≠ 0x0C →
      exec i s = .next (trapEnter (s.setGroup gid { g with pending := fs }) gid f.info f.path true f.pc.toNat f.word)) ∧
    ((∀ q, g.path f.path = some q → q.uid ≠ f.uid) →
      exec i s = .next (trapEnter (s.setGroup gid { g with pending := fs }) gid f.info 0xFFFF false f.pc.toNat f.word))

end Sys2Proof.Claims

/-- SPLD, SPST, TCLAIM, TREL, TSTAT and SPFENCE complete; what each tile state lets each instruction do, the tile trap with its causes, and
what a trap leaves of the tiles. -/
def Obligations.ScratchAndTilesComplete : Prop :=
  Sys2Proof.Claims.ScratchIssue ∧ Sys2Proof.Claims.TilesComplete ∧ Sys2Proof.Claims.ScratchPerforms ∧ Sys2Proof.Claims.TileTable ∧
    Sys2Proof.Claims.TileTraps

/-- The copies and PUBLISH complete at issue. -/
def Obligations.CopiesIssue : Prop := Sys2Proof.Claims.CopiesIssue ∧ Sys2Proof.Claims.PublishCompletes

/-- The copies' transfers complete: the bytes, the tile or slot, and the end of the operation; a copy fault ends the copy and is taken at
the group's next boundary. -/
def Obligations.CopiesComplete : Prop :=
  Sys2Proof.Claims.FillCompletes ∧ Sys2Proof.Claims.CopyOutCompletes ∧ Sys2Proof.Claims.CopyFaultPends ∧ Sys2Proof.Claims.PendingFaultTaken

/-! ## Accumulator banks and the matrix engine -/
namespace Sys2Proof.Claims
open Sys2Proof.Machine

/-- Only this core's banks and requests have changed among the cores: bank `k` is what `f` says. -/
def BanksNow (s t : State) (core : Nat) (f : Nat → Option Bank) : Prop :=
  (∀ c, c ≠ core → t.core c = s.core c) ∧
  t.core core = { s.core core with banks := (t.core core).banks, acreqs := (t.core core).acreqs } ∧ ∀ k, kget (t.core core).banks k = f k

/-- ACALLOC at its own region entry takes the lowest free run of banks, zero and with clear flags, and names the first; ACFREE gives
up the named ranks. Each begins a region at the next word (08 R171, R224, R225). -/
def BanksComplete : Prop :=
  (∀ (d : UReg) (b : BitVec 8) s gid pid g p f, Issues s gid pid g p → wellFormed (.acalloc d b) = true → g.parted = false → entered p = true →
    g.banks.length + b.toNat ≤ 16 → (s.core g.core).retAccs = false → (s.core g.core).acreqs = [] →
    freeRun (s.core g.core) b.toNat = some f →
    ∃ t h q, exec (.acalloc d b) s = .next t ∧ t = { s with groups := t.groups, cores := t.cores } ∧
      (∀ n, n ≠ gid → t.group n = s.group n) ∧ t.group gid = some h ∧ PathAt g h pid p (p.pc + 4) ∧ h.path pid = some q ∧
      q.entryDue = some 0xFFFF ∧ Signed g h p (wordOf (.acalloc d b)) ∧
      UniformSet { g with banks := g.banks ++ (List.range b.toNat).map (f + ·) } h d (BitVec.ofNat 32 f) ∧
      BanksNow s t g.core fun k => if f ≤ k ∧ k < f + b.toNat then some ⟨gid, [], []⟩ else kget (s.core g.core).banks k) ∧
  (∀ (d : Fin 16) (b : BitVec 8) s gid pid g p, Issues s gid pid g p → wellFormed (.acfree d b) = true → g.parted = false →
    d.val + b.toNat ≤ g.banks.length →
    let gone := (g.banks.drop d.val).take b.toNat
    ∃ t h q, exec (.acfree d b) s = .next t ∧ t = { s with groups := t.groups, cores := t.cores } ∧
      (∀ n, n ≠ gid → t.group n = s.group n) ∧ t.group gid = some h ∧ PathAt g h pid p (p.pc + 4) ∧ h.path pid = some q ∧
      q.entryDue = some 0xFFFF ∧ Signed g h p (wordOf (.acfree d b)) ∧
      GroupBut { g with banks := g.banks.filter fun k => !gone.contains k } h ∧
      BanksNow s t g.core fun k => if k ∈ gone then none else kget (s.core g.core).banks k)

/-- ACALLOC of more than the group may own, and a bank the group does not own, are the bank trap (R224, R225). -/
def BankTraps : Prop :=
  ∀ s gid pid g p, Issues s gid pid g p →
    (∀ (d : UReg) (b : BitVec 8), wellFormed (.acalloc d b) = true → g.parted = false → 16 < g.banks.length + b.toNat →
      TrapsAt (.acalloc d b) s gid pid p (trapOf 0x12)) ∧
    (∀ (d : Fin 16) (b : BitVec 8), wellFormed (.acfree d b) = true → g.parted = false → g.banks.length < d.val + b.toNat →
      TrapsAt (.acfree d b) s gid pid p (trapOf 0x12)) ∧
    (∀ (d : Fin 16), g.converged = true → g.banks.length ≤ d.val → TrapsAt (.aczero d) s gid pid p (trapOf 0x12))

/-- ACALLOC_GRANT reserves the lowest free run for the first request without one. -/
def GrantReserves : Prop :=
  ∀ s core r rs f, (s.core core).acreqs = r :: rs → r.first = none → freeRun (s.core core) r.count = some f →
    ∃ t, exec (.acallocGrant core) s = .next t ∧ t = { s with cores := t.cores } ∧ (∀ c, c ≠ core → t.core c = s.core c) ∧
      t.core core = { s.core core with acreqs := { r with first := some f } :: rs }

/-- A matrix operation has joined its core's queue. -/
def Joined (s t : State) (gid : Nat) (core : Nat) : Prop :=
  (∀ c, c ≠ core → t.core c = s.core c) ∧
  t.core core = { s.core core with mq := (s.core core).mq ++ [(gid, s.nextOp)], headAt := (t.core core).headAt }

/-- Every lane holds lane 0's word (R221). -/
def Voted (vs : List Word) : Prop := ∀ w ∈ vs, w = vs.headD 0

/-- A scale array in memory may be read. -/
def ScaleOk (s : State) (g : Group) (f : OpFmt) (base : Nat) : Prop :=
  f.scale = 1 ∨ f.scale = 2 → checkBytes s g.core g.asid .read (scaleBytes f / 256 + 2) base (scaleBytes f) = .ok ()

/-- A tile operand is there: a tile register of the view, or a scratchpad tile that its row lets be read. -/
def TileThere (s : State) (gid : Nat) (g : Group) (w : Word) : Prop :=
  if locScratch w then ∃ k, tileCheck s gid g (locIndex w) .read = .go k else locIndex w < g.views.tvcount.toNat

/-- The four multiplications. -/
inductive MmaInstr : Instr → MmaForm → Fin 16 → Fin 248 → VSrc → Prop
  | mma d a b : MmaInstr (.mma d a b) .solo d a b
  | mmap d a b : MmaInstr (.mmap d a b) .pair d a b
  | mmaq d a b : MmaInstr (.mmaq d a b) .quad d a b
  | mmaw d a b : MmaInstr (.mmaw d a b) .weight d a b

/-- The multiplications join the queue where their words pass the steps of R220. -/
def MultiplicationsIssue : Prop :=
  ∀ i form d a b, MmaInstr i form d a b → ∀ s gid pid g p k, Issues s gid pid g p → wellFormed i = true → g.converged = true →
    spanIn g a 2 → srcIn g b → g.banks[d.val]? = some k → (s.core g.core).mq.length < 8 →
    (p.marks.acqWide = true → memScaled form g.core ((srcVals g p b).getD 0 0) = false) →
    let lo := (g.v a.val).getD 0 0
    let hi := (g.v (a.val + 1)).getD 0 0
    let fmt := (srcVals g p b).getD 0 0
    let slot := (s.core g.core).slot (handleSlot hi)
    Voted (g.v a.val) → Voted (g.v (a.val + 1)) → Voted (srcVals g p b) → mmaLayoutOk form g.core lo hi fmt = true →
    TileThere s gid g lo → (suppliesB form g.core = true → formHandle form = false → TileThere s gid g hi) →
    (suppliesB form g.core = true → formHandle form = true → slot.valid = true ∧ slot.asid = g.asid) →
    ScaleOk s g (fmtA fmt) g.sa.toNat → (suppliesB form g.core = true → ScaleOk s g (fmtB fmt) g.sb.toNat) →
    FliesWith i s gid pid g p 1 (.mat (.mma form k lo hi fmt g.views g.sa g.sb)) none (fun t => Joined s t gid g.core)

/-- Lane votes that fail and layouts that R228 to R231 do not accept trap before anything is queued (R220, R221). -/
def MultiplicationTraps : Prop :=
  ∀ i form d a b, MmaInstr i form d a b → ∀ s gid pid g p, Issues s gid pid g p → wellFormed i = true → spanIn g a 2 → srcIn g b →
    (g.converged = false → TrapsAt i s gid pid p (trapOf 0x04)) ∧
    (g.converged = true → g.banks.length ≤ d.val → TrapsAt i s gid pid p (trapOf 0x12)) ∧
    (g.converged = true → d.val < g.banks.length → ¬ Voted (g.v a.val) → TrapsAt i s gid pid p (trapOf 0x05)) ∧
    (g.converged = true → d.val < g.banks.length → Voted (g.v a.val) → Voted (g.v (a.val + 1)) → Voted (srcVals g p b) →
      mmaLayoutOk form g.core ((g.v a.val).getD 0 0) ((g.v (a.val + 1)).getD 0 0) ((srcVals g p b).getD 0 0) = false →
      TrapsAt i s gid pid p (trapOf 0x06))

/-- ACZERO, ACLD, ACST, SEEDX and TTRANS join the queue (R226, R238, R240, R241). -/
def MatrixOpsIssue : Prop :=
  ∀ s gid pid g p, Issues s gid pid g p → g.converged = true → (s.core g.core).mq.length < 8 →
    (∀ (d : Fin 16) k, g.banks[d.val]? = some k →
      FliesWith (.aczero d) s gid pid g p 0 (.mat (.aczero k)) none (fun t => Joined s t gid g.core)) ∧
    (∀ (d : Fin 248) (a : Fin 16) (b : VSrc) k, okRead g.mode = true → srcIn g b → d.val < g.views.tvcount.toNat → g.banks[a.val]? = some k →
      Voted (srcVals g p b) → readCode (((srcVals g p b).getD 0 0).toNat % 32) = true → ((srcVals g p b).getD 0 0).toNat < 32 →
      FliesWith (.acld d a b) s gid pid g p 0 (.mat (.acld k (g.taddr d.val) ((srcVals g p b).getD 0 0) g.mode)) none
        (fun t => Joined s t gid g.core)) ∧
    (∀ (d : Fin 192) (a : Fin 16) (b : VSrc) k, wellFormed (.acst d a b) = true → okRead g.mode = true → srcIn g b → g.banks[a.val]? = some k →
      let fmt := (srcVals g p b).getD 0 0
      let pitch := fmt.toNat / 65536
      let n := 31 * pitch + 4 * readWidth fmt
      Voted (srcVals g p b) → readCode (fmt.toNat % 32) = true → fmt.toNat / 32 % 2048 = 0 → pitch % 16 = 0 → 4 * readWidth fmt ≤ pitch →
      g.upair d.val % 16 = 0 → checkBytes s g.core g.asid .write (n / 256 + 2) (g.upair d.val) n = .ok () →
      FliesWith (.acst d a b) s gid pid g p 0 (.mat (.acst k (g.upair d.val) pitch fmt g.mode)) none (fun t => Joined s t gid g.core)) ∧
    (∀ (d a : Fin 248) (b : UReg), okRound g.mode = true → d.val < g.views.tvcount.toNat → a.val < g.views.tvcount.toNat → (g.us b).toNat < 2048 →
      FliesWith (.seedx d a b) s gid pid g p 1 (.mat (.seedx (g.taddr d.val) (g.taddr a.val) (g.us b) g.mode)) none
        (fun t => Joined s t gid g.core)) ∧
    (∀ (d a : Fin 248) (z : TSize), d.val < g.views.tvcount.toNat → a.val < g.views.tvcount.toNat →
      FliesWith (.ttrans d a z) s gid pid g p 1 (.mat (.ttrans (g.taddr d.val) (g.taddr a.val) (match z with
        | .b1 => 1
        | .b2 => 2
        | .b4 => 4))) none (fun t => Joined s t gid g.core))

/-- MFENCE answers the open batch's number, of 16 bits, and opens the next; WAITB goes on when nothing of its batch is left (R236, R237). SEEK writes
the seed it finds to the four lanes of each slice, and leaves a slice without one as it was (R239). -/
def BatchesAndSeekComplete : Prop :=
  ∀ s gid pid g p, Issues s gid pid g p →
    (∀ d : UReg, g.parted = false →
      Completes (.mfence d) s gid pid g p fun h => UniformSet { g with batch := g.batch + 1 } h d (BitVec.ofNat 32 (g.batch % 65536))) ∧
    (∀ a : UReg, Completes (.waitb a) s gid pid g p fun h => GroupBut g h) ∧
    (∀ (d : VReg) (a : Fin 248) (b : UReg), wellFormed (.seek d a b) = true → g.converged = true → spanIn g a 4 → dstIn g d →
      (g.us b).toNat / 65536 ≤ 256 →
      Completes (.seek d a b) s gid pid g p fun h => VectorFrame g h 0 ∧ Rows g h d allLanes fun l =>
        (seekWord g (((srcVals g p (dsrc d)).getD (4 * (l / 4)) 0).toNat) a ((g.us b).toNat % 65536) ((g.us b).toNat / 65536) (l / 4)).getD
          ((srcVals g p (dsrc d)).getD l 0))

/-! ## The engine -/

/-- MATRIX_OP_START of a multiplication, alone or as an instance: each participant's bank holds, as working values, the old value plus
the products in ascending k (R233, R172); memory and every register stay. -/
def MultiplicationRuns : Prop :=
  ∀ s core p0 ps B (A : Part → Operand), headParts s core = some (p0 :: ps) → (∀ p ∈ p0 :: ps, (s.core p.core).spaced ≤ s.now) →
    retainedSlot s (p0 :: ps) = none → (∀ p ∈ p0 :: ps, ∃ form k lo hi fmt v sa sb, p.o.kind = .mat (.mma form k lo hi fmt v sa sb)) →
    ((p0 :: ps).map (·.core)).Nodup → fetchB s p0.g p0.n p0.o = .ok B → (∀ p ∈ p0 :: ps, fetchA s p.g p.n p.o = .ok (A p)) →
    (∀ p ∈ p0 :: ps, bankBad ((s.core p.core).bank (opBank p.o.kind)) p.o.uid = none) →
    ∃ t, exec (.matrixOpStart core) s = .next t ∧ t = { s with groups := t.groups, cores := t.cores } ∧
      ∀ p ∈ p0 :: ps, (t.core p.core).running = some (p.gid, p.n) ∧
        (∀ e, e < 1024 →
          elemRead ((t.core p.core).bank (opBank p.o.kind)) p.o.uid e =
            dotAdd (elemRead ((s.core p.core).bank (opBank p.o.kind)) p.o.uid e) ((A p).1.getD (e / 32) []) (B.1.getD (e % 32) []) ∧
          (elemOf ((t.core p.core).bank (opBank p.o.kind)) e).com = (elemOf ((s.core p.core).bank (opBank p.o.kind)) e).com) ∧
        (∀ k, k ≠ opBank p.o.kind → (t.core p.core).bank k = (s.core p.core).bank k) ∧
        ∃ h, t.group p.gid = some h ∧ h.regs = p.g.regs ∧ h.uni = p.g.uni ∧ h.preds = p.g.preds ∧ h.paths = p.g.paths

/-- ACZERO's bank reads zero from its start on, as working values (R226); the others begin to run with nothing changed. -/
def OtherOpsStart : Prop :=
  ∀ s core p, headParts s core = some [p] → (s.core p.core).spaced ≤ s.now → retainedSlot s [p] = none → p.core = core →
    (∀ k, p.o.kind = .mat (.aczero k) → ∃ t, exec (.matrixOpStart core) s = .next t ∧ t = { s with groups := t.groups, cores := t.cores } ∧
      (t.core core).running = some (p.gid, p.n) ∧ (∀ e, e < 1024 → elemRead ((t.core core).bank k) p.o.uid e = accZero ∧
        (elemOf ((t.core core).bank k) e).com = (elemOf ((s.core core).bank k) e).com) ∧
      ∀ j, j ≠ k → (t.core core).bank j = (s.core core).bank j) ∧
    ((∃ k dst fmt mode, p.o.kind = .mat (.acld k dst fmt mode)) ∨ (∃ d a w m, p.o.kind = .mat (.seedx d a w m)) ∨
        (∃ d a z, p.o.kind = .mat (.ttrans d a z)) →
      ∃ t, exec (.matrixOpStart core) s = .next t ∧ t = { s with groups := t.groups, cores := t.cores } ∧
        (t.core core).running = some (p.gid, p.n) ∧ ∀ j, (t.core core).bank j = (s.core core).bank j)

/-- Rows of 128 bytes or less written to a tile register at `a`, one every 128 bytes: the words they cover, and no other. -/
def TileRows (g h : Group) (a : Nat) (rows : List (List Byte)) : Prop :=
  ∀ k, mget 0 h.regs k =
    let x := k - a / 4
    if a / 4 ≤ k ∧ x / 32 < rows.length ∧ x % 32 < (rows.getD (x / 32) []).length / 4 then wordAtOf (rows.getD (x / 32) []) (x % 32)
    else mget 0 g.regs k

/-- MATRIX_OP_COMPLETE ends the running operation: ACLD's tile holds the bank's elements as R238 reads them, SEEDX's and TTRANS's the
rows of R240 and R241; a multiplication's bank is as it was at its end. -/
def OperationsEnd : Prop :=
  ∀ s core p, (s.core core).running = some (p.gid, p.n) → pairingOf s (p.gid, p.n) = none → partAt s (p.gid, p.n) = some p → p.core = core →
    let Ends (R : Group → Prop) : Prop := ∃ t h, exec (.matrixOpComplete core) s = .next t ∧ t = { s with groups := t.groups, cores := t.cores } ∧
      (∀ n, n ≠ p.gid → t.group n = s.group n) ∧ t.group p.gid = some h ∧ h.ops = kdel p.g.ops p.n ∧
      (∀ c, c ≠ core → t.core c = s.core c) ∧
      t.core core = { s.core core with running := none, spaced := s.now + (s.die (core / 256)).gap } ∧ R h
    (∀ form k lo hi fmt v sa sb, p.o.kind = .mat (.mma form k lo hi fmt v sa sb) → Ends fun h => h = { p.g with ops := h.ops }) ∧
    (∀ k, p.o.kind = .mat (.aczero k) → Ends fun h => h = { p.g with ops := h.ops }) ∧
    (∀ k dst fmt mode, p.o.kind = .mat (.acld k dst fmt mode) → dst % 4 = 0 → bankBad ((s.core core).bank k) p.o.uid = none →
      let r := readOut ((s.core core).bank k) p.o.uid fmt mode
      Ends fun h => h = { p.g with regs := h.regs, regPoison := h.regPoison, ops := h.ops, flags := p.g.flags ||| (if r.2 then 1 else 0) } ∧
        TileRows p.g h dst r.1) ∧
    (∀ dst src w mode, p.o.kind = .mat (.seedx dst src w mode) → dst % 4 = 0 → regBad p.g p.o src (seedSpans w) = none →
      Ends fun h => h = { p.g with regs := h.regs, regPoison := h.regPoison, ops := h.ops } ∧ TileRows p.g h dst (seedxRows p.g src w mode)) ∧
    (∀ dst src z, p.o.kind = .mat (.ttrans dst src z) → dst % 4 = 0 → (z = 1 ∨ z = 2 ∨ z = 4) → regBad p.g p.o src fullSpans = none →
      Ends fun h => h = { p.g with regs := h.regs, regPoison := h.regPoison, ops := h.ops } ∧
        TileRows p.g h dst ((List.range 32).map (transRow p.g src z)))

/-- ACST's rows go to memory (R238): row `i`, the read-outs of elements 32 i to 32 i + 31 packed at their width, is written at the address
plus `i` pitches, row after row; `u i` is the state before row `i`, the rows before it being noted as written. -/
def AcstStores : Prop :=
  ∀ s core p k addr pitch fmt mode (u : Nat → State), (s.core core).running = some (p.gid, p.n) → pairingOf s (p.gid, p.n) = none →
    partAt s (p.gid, p.n) = some p → p.core = core → p.o.kind = .mat (.acst k addr pitch fmt mode) → p.o.todo = lanesBelow 32 → p.o.pieces = [] →
    bankBad ((s.core core).bank k) p.o.uid = none →
    let ty := (tyOfCode (fmt.toNat % 32)).getD .i32
    let read (i j : Nat) := accRead ty (numMode mode) (elemRead ((s.core core).bank k) p.o.uid (32 * i + j))
    let sat := (List.range 32).any fun i => (List.range 32).any fun j => (read i j).2
    u 0 = s.updGroup p.gid (·.noteSat sat) →
    (∀ i, i < 32 → ∃ v, vwrite (u i) p.g.core p.g.asid (addr + i * pitch)
      (leBytes (4 * tyWidth ty) (packElems (tyWidth ty) ((List.range 32).map fun j => (read i j).1))) = (v, none) ∧
      u (i + 1) = v.updOp p.gid p.n (unitServed i)) →
    ∃ t h, exec (.matrixOpComplete core) s = .next t ∧ t = { u 32 with groups := t.groups, cores := t.cores } ∧ t.group p.gid = some h ∧
      h = { p.g with ops := kdel p.g.ops p.n, flags := p.g.flags ||| (if sat then 1 else 0) }

/-- An instance not formed within 4096 cycles, and a link error, end the operation with a pending fault of its group (R222, R234). -/
def MatrixFaultPends : Prop :=
  (∀ s core p, (s.core core).mq.head? = some (p.gid, p.n) → partAt s (p.gid, p.n) = some p → p.core = core → isPaired p.o.kind = true →
    pairingOf s (p.gid, p.n) = none → (s.core core).headAt + 4096 ≤ s.now → p.g.status = .resident →
    ∃ t h, exec (.pairingTimeout core) s = .next t ∧ t = { s with groups := t.groups, cores := t.cores } ∧ t.group p.gid = some h ∧
      kget h.ops p.n = none ∧ h.pending = p.g.pending ++ [⟨trapOf 0x14, p.o.path, p.o.uid, p.o.pc, p.o.word, false⟩] ∧
      (t.core core).mq = (s.core core).mq.filter (· ≠ (p.gid, p.n))) ∧
  (∀ s core p a, atWork s core = some p → partAt s (p.gid, p.n) = some p → p.core = core → linkAddr s p = some a →
    p.g.status = .resident →
    ∃ t h, exec (.matrixFault core true) s = .next t ∧ t = { s with groups := t.groups, cores := t.cores } ∧ t.group p.gid = some h ∧
      kget h.ops p.n = none ∧ h.pending = p.g.pending ++ [⟨trapAt 0x0B a, p.o.path, p.o.uid, p.o.pc, p.o.word, false⟩])

/-- PAIRING_INSTANCE_FORM: heads of one form, of one launch, with one format word, become an instance; INSTANCE_CANCEL ends an instance
that has lost a participant, and restarts the others' regions, at once or when their groups' copies are over (R234, R235). -/
def InstancesFormAndCancel : Prop :=
  (∀ s quad first ps, instanceParts s quad first = some ps → (∀ p ∈ ps, ∀ q ∈ ps, opFmtWord p.o.kind = opFmtWord q.o.kind) →
    exec (.pairingInstanceForm quad first) s =
      .next { s with pairings := kset s.pairings (kfresh s.pairings) (ps.map fun p => (p.gid, p.n)) }) ∧
  (∀ s inst es, kget s.pairings inst = some es → (es.filterMap (partAt s)).length < es.length →
    exec (.instanceCancel inst) s =
      .next ((es.filterMap (partAt s)).foldl (fun s p => restartSoon s p.gid) { s with pairings := kdel s.pairings inst }))

/-- An instance's operation ends on all its cores at once (R234). -/
def InstanceEnds : Prop :=
  ∀ s core r id es, (s.core core).running = some r → pairingOf s r = some (id, es) → (es.filterMap (partAt s)).length = es.length →
    ∃ t, exec (.matrixOpComplete core) s = .next t ∧ kget t.pairings id = none ∧ t.mem = s.mem ∧
      ∀ p ∈ es.filterMap (partAt s), (t.core p.core).running = none

end Sys2Proof.Claims

/-- ACALLOC, ACFREE and ACALLOC_GRANT, and the bank trap; MFENCE, WAITB and SEEK. -/
def Obligations.AccumulatorBanks : Prop :=
  Sys2Proof.Claims.BanksComplete ∧ Sys2Proof.Claims.BankTraps ∧ Sys2Proof.Claims.GrantReserves ∧ Sys2Proof.Claims.BatchesAndSeekComplete

/-- The matrix instructions join the queue, with their operands as R220 to R241 admit them; a multiplication traps in the order of R220:
convergence, bank, lane vote, layout. -/
def Obligations.MatrixInstructionsIssue : Prop :=
  Sys2Proof.Claims.MultiplicationsIssue ∧ Sys2Proof.Claims.MatrixOpsIssue ∧ Sys2Proof.Claims.MultiplicationTraps

/-- The engine's operations start: a multiplication adds its products to its banks, as working values. -/
def Obligations.MatrixOperationsStart : Prop := Sys2Proof.Claims.MultiplicationRuns ∧ Sys2Proof.Claims.OtherOpsStart

/-- The engine's operations end: read-outs, expansions and transpositions write their tiles, ACST memory, instances end together; instances
form and are cancelled; one not formed in time, and a link error, are pending matrix faults. -/
def Obligations.MatrixOperationsEnd : Prop :=
  Sys2Proof.Claims.OperationsEnd ∧ Sys2Proof.Claims.AcstStores ∧ Sys2Proof.Claims.InstanceEnds ∧
    Sys2Proof.Claims.InstancesFormAndCancel ∧ Sys2Proof.Claims.MatrixFaultPends

/-! ## Parting and joining, regions, signatures, barriers -/
namespace Sys2Proof.Claims
open Sys2Proof.Machine

/-- The issuing path has no monitor contribution, release or SPFENCE pending, no path that ended has left one or waits to be joined, and no
instance has lanes waiting. -/
structure PathClean (s : State) (g : Group) (p : Path) : Prop where
  contrib : p.contrib = []
  partials : p.partials = []
  trel : p.trel = []
  spfence : p.spfence = []
  fenceLeft : g.fenceLeft = SpFence.none
  left : g.left = []
  barriers : s.barriers = []

/-- A created path: its lanes, where it begins, its side; its signature is clear and its region entry due there (R78, R81). -/
def PathMade (h : Group) (m : Mask) (pc : Addr) (side : Side) : Prop :=
  (∃ q, h.path (pathNumber m) = some q ∧ q.mask = m ∧ q.mask0 = m ∧ q.pc = pc ∧ q.side = side ∧ q.status = .run ∧ q.entryDue = some 0xFFFF ∧
    q.attempts = 0) ∧ ∀ c ∈ slicesOf m, h.sigOf c = 0

/-- The group is `h` but for what a path's end and creation change. -/
def PathsBut (g h : Group) : Prop := h = { g with paths := h.paths, sig := h.sig, spc := h.spc, made := h.made, stall := 0 }

/-- BRD pushes the entry of R81 and parts the path: the wholly taken slices at the target, the not-taken lanes at the next word. -/
def BrdCompletes : Prop :=
  ∀ (disp : BitVec 24) s gid pid g p, Issues s gid pid g p → PathClean s g p → g.stack.length < 32 →
    let pre := pathLanes g p
    let tk := pre &&& guardMask g
    let nt := pre &&& ~~~ tk
    let owed := sliceSet tk &&& sliceSet nt
    let target := p.pc + 4 + BitVec.ofInt 56 (4 * disp.toInt)
    let now := tk &&& ~~~ lanesOfSlices owed
    ∃ t h, exec (.brd disp) s = .next t ∧ t = { s with groups := t.groups, nextOp := t.nextOp } ∧ (∀ n, n ≠ gid → t.group n = s.group n) ∧
      t.group gid = some h ∧
      PathsBut { g with
        stack := { pre := pre, tk := tk, target := target, join := none, arrT := 0, arrN := 0, owed := owed,
                   parting := decide (tk ≠ 0) && decide (nt ≠ 0), complete := false, side := p.side } :: g.stack } h ∧
      (now ≠ 0 → PathMade h now target .taken) ∧ (nt ≠ 0 → PathMade h nt (p.pc + 4) .fall) ∧
      ∀ k, k ≠ pid → (now = 0 ∨ k ≠ pathNumber now) → (nt = 0 ∨ k ≠ pathNumber nt) → h.path k = g.path k

/-- REGANG at the newest entry, held in hardware (R82): the join address is noted, the lanes are counted on the path's side, owed slices
start their taken path; when every lane of the entry has arrived or exited, the entry goes and the merged path runs on. -/
def RegangCompletes : Prop :=
  ∀ s gid pid g p e rest, Issues s gid pid g p → PathClean s g p → g.stack = e :: rest → rest.length < 32 → g.spilled = 0 → g.spillOpen = [] →
    e.complete = false → (∀ r ∈ rest.head?, r.complete = false) → e.pre &&& pathLanes g p ≠ 0 → (e.join = none ∨ e.join = some p.pc) →
    let q := pathLanes g p
    let w := sliceSet p.mask &&& e.owed
    let e' : Entry := { e with
      join := some p.pc, owed := e.owed &&& ~~~ w
      arrT := if p.side = .taken then e.arrT ||| q else e.arrT
      arrN := if p.side = .taken then e.arrN else e.arrN ||| q }
    let start := e.tk &&& lanesOfSlices w
    let merged := e.pre &&& ~~~ g.exited
    let run := merged &&& lanesBelow g.lanes
    (e'.arrT ||| e'.arrN ||| (e.pre &&& g.exited) ≠ e.pre →
      ∃ t h, exec .regang s = .next t ∧ t = { s with groups := t.groups, nextOp := t.nextOp } ∧ (∀ n, n ≠ gid → t.group n = s.group n) ∧
        t.group gid = some h ∧ PathsBut { g with stack := e' :: rest, left := [(q, p.marks)] } h ∧ (start ≠ 0 → PathMade h start e.target .taken) ∧
        (start = 0 → h.path pid = none) ∧ ∀ k, k ≠ pid → (start = 0 ∨ k ≠ pathNumber start) → h.path k = g.path k) ∧
    (e'.arrT ||| e'.arrN ||| (e.pre &&& g.exited) = e.pre → e'.arrT &&& e'.arrN = 0 → e'.arrT ||| e'.arrN = merged → run ≠ 0 →
      ∃ t h, exec .regang s = .next t ∧ t = { s with groups := t.groups, nextOp := t.nextOp } ∧ (∀ n, n ≠ gid → t.group n = s.group n) ∧
        t.group gid = some h ∧ PathsBut { g with stack := rest } h ∧ PathMade h run (p.pc + 4) e.side) ∧
    (e'.arrT ||| e'.arrN ||| (e.pre &&& g.exited) = e.pre → (e'.arrT &&& e'.arrN ≠ 0 ∨ e'.arrT ||| e'.arrN ≠ merged) →
      exec .regang s = .next (faultOrRestart s gid pid (trapOf 0x0D) false p.pc.toNat (wordOf .regang)))

/-- REGANG with no entry, or at another entry's join, is the illegal-convergence trap (R82). -/
def RegangTraps : Prop :=
  ∀ s gid pid g p, Issues s gid pid g p →
    (g.stack = [] → g.spilled = 0 → TrapsAt .regang s gid pid p (trapOf 0x04)) ∧
    (∀ e rest a, g.stack = e :: rest → e.complete = false → e.pre &&& pathLanes g p ≠ 0 → e.join = some a → a ≠ p.pc →
      TrapsAt .regang s gid pid p (trapOf 0x04))

/-- EXIT ends the path's lanes for good; with none left the group begins to end, and what the path leaves is settled at that end (08 R185). With an entry in hardware that the exit completes, the
merged path of what remains is created (R83). -/
def ExitCompletes : Prop :=
  ∀ s gid pid g p, Issues s gid pid g p → PathClean s g p →
    (g.stack = [] → g.spilled = 0 → g.spillOpen = [] →
      ∃ t h, exec .exit s = .next t ∧ t = { s with groups := t.groups } ∧ (∀ n, n ≠ gid → t.group n = s.group n) ∧ t.group gid = some h ∧
        PathsBut { g with
          exited := g.exited ||| p.mask
          lastPath := if lanesBelow g.lanes &&& ~~~ (g.exited ||| p.mask) = 0 then some (pid, p) else g.lastPath
          status := if lanesBelow g.lanes &&& ~~~ (g.exited ||| p.mask) = 0 then .ending false else .resident } h ∧
        h.path pid = none ∧ ∀ k, k ≠ pid → h.path k = g.path k) ∧
    (∀ e, g.stack = [e] → g.spilled = 0 → g.spillOpen = [] → e.complete = false → sliceSet p.mask &&& e.owed = 0 →
      let ex := g.exited ||| p.mask
      let merged := e.pre &&& ~~~ ex
      let run := merged &&& lanesBelow g.lanes
      e.arrT ||| e.arrN ||| (e.pre &&& ex) = e.pre → e.arrT &&& e.arrN = 0 → e.arrT ||| e.arrN = merged → run ≠ 0 →
      lanesBelow g.lanes &&& ~~~ ex ≠ 0 →
      ∃ t h j, exec .exit s = .next t ∧ t = { s with groups := t.groups, nextOp := t.nextOp } ∧ (∀ n, n ≠ gid → t.group n = s.group n) ∧
        t.group gid = some h ∧ PathsBut { g with exited := ex, stack := [] } h ∧ PathMade h run j e.side ∧ (∀ a, e.join = some a → j = a + 4))

/-- REGION begins a region at its own word, with the index it names, and makes the working values of the path's last region
final (R121, R172); those of other live paths stay working. -/
def RegionCompletes : Prop :=
  ∀ (imm : BitVec 16) s gid pid g p, Issues s gid pid g p → PathClean s g p → (entered p = false ∨ p.region.regidx ≠ imm) →
    ∃ t h q, exec (.region imm) s = .next t ∧ t = { s with groups := t.groups, cores := t.cores } ∧ (∀ n, n ≠ gid → t.group n = s.group n) ∧
      t.group gid = some h ∧ h.path pid = some q ∧ (∀ k, k ≠ pid → h.path k = g.path k) ∧ q.pc = p.pc + 4 ∧ q.mask = p.mask ∧ q.status = .run ∧
      q.region = recordRegion g p.mask p.pc imm ∧ q.attempts = 0 ∧ q.claims = [] ∧ Signed g h p (wordOf (.region imm)) ∧
      h = { g with paths := h.paths, sig := h.sig, made := kdel g.made pid, stall := 0 } ∧
      (∀ c, c ≠ g.core → t.core c = s.core c) ∧ t.core g.core = { s.core g.core with banks := (t.core g.core).banks } ∧
      ∀ k b, kget (s.core g.core).banks k = some b → b.owner = gid → (b.elems.map (·.1)).Nodup →
        ∃ b', kget (t.core g.core).banks k = some b' ∧ ∀ e, (∀ w ∈ (elemOf b e).work, w.1 ∈ liveUids g) →
          ((elemOf b e).work.map (·.1)).Nodup →
          (elemOf b' e).com = elemRead b p.uid e ∧ ∀ u, kget (elemOf b' e).work u = if u = p.uid then none else kget (elemOf b e).work u

/-- The read-first check of R90, in a region that asks for it: a lanewise instruction that writes a register word which the region has read
and not written before, or which it reads itself and the region has not written, takes the idempotence trap, before the write; any other
goes on, its reads marking the words not yet written, its writes the words it writes. -/
def IdempotenceChecked : Prop :=
  ∀ i ok d srcs us f, IntegerLane i ok d srcs us f ∨ FloatLane i ok d srcs us f → ∀ s gid pid g p, AtWord s gid pid g p → g.ops = [] →
    p.idem = true → wellFormed i = true → ok g.mode = true → (∀ a ∈ srcs, srcIn g a) → dstIn g d →
    let read (n : Fin 248) (l : Nat) := bit (mget 0 p.readFirst (g.vblock n.val)) l
    let wrote (n : Fin 248) (l : Nat) := bit (mget 0 p.written (g.vblock n.val)) l
    let act (l : Nat) : Prop := l < 64 ∧ bit (active g p) l = true
    let clash : Prop := ∃ n l, d = .reg n ∧ act l ∧ (read n l = true ∨ (.reg n ∈ srcs ∧ wrote n l = false))
    (clash → TrapsAt i s gid pid p (trapOf 0x17)) ∧
    (¬ clash → (∀ k, .latch k ∉ srcs) → ∃ t h q, exec i s = .next t ∧ t.group gid = some h ∧ h.path pid = some q ∧ q.pc = p.pc + 4 ∧
      (∀ n l, .reg n ∈ srcs → act l → bit (mget 0 q.readFirst (g.vblock n.val)) l = (read n l || !wrote n l)) ∧
      ∀ n l, d = .reg n → act l → bit (mget 0 q.written (g.vblock n.val)) l = true)

/-- SIGCHK clears the signatures and goes on where the check of R87 holds or is not enabled; else it is the signature trap, after one
restart of the region. -/
def SigchkCompletes : Prop :=
  ∀ (imm : BitVec 16) s gid pid g p, Issues s gid pid g p → slicesOf p.mask ≠ [] →
    let good : Prop := (∃ S : Word, (∀ c ∈ slicesOf p.mask, g.sigOf c = S) ∧ S.setWidth 16 ^^^ S.extractLsb' 16 16 = imm) ∧ p.mask = p.mask0
    (modeSigen g.mode = false ∨ good → Jumps (.sigchk imm) s gid pid g p (p.pc + 4)) ∧
    (modeSigen g.mode = true → ¬ good →
      exec (.sigchk imm) s = .next (faultOrRestart s gid pid (trapOf 0x0D) false p.pc.toNat (wordOf (.sigchk imm))))

/-- WAIT whose condition holds goes on at once; a WAIT that has waited begins a region at the next word as it ends (R123). -/
def WaitCompletes : Prop :=
  ∀ (l st c m : BitVec 6) s gid pid g p, Issues s gid pid g p →
    (p.waiting = false → Completes (.wait l st c m) s gid pid g p fun h => GroupBut g h ∧ ∃ q, h.path pid = some q ∧ q.entryDue = none) ∧
    (p.waiting = true → entered p = true → Completes (.wait l st c m) s gid pid g p fun h => GroupBut g h ∧ ∃ q, h.path pid = some q ∧
      q.entryDue = some 0xFFFF ∧ q.waiting = false)

/-- A WAIT with more operations outstanding than it admits does not go on: the path stays at its word, and waits. -/
def WaitHolds : Prop :=
  ∀ (l st c m : BitVec 6) s gid pid g p, s.cur = some (gid, pid) → s.group gid = some g → g.path pid = some p → g.status = .resident →
    isYielded p = false → g.pending = [] → g.stopping = none → p.entryDue = none → g.regPoison = [] → (s.core g.core).retRegs = false → p.waiting = false →
    drainedButLoads g p = false → waitHolds g l st c m = false →
    ∃ t h q, exec (.wait l st c m) s = .next t ∧ OnlyGroup s t gid h ∧ h = { g with paths := h.paths } ∧ h.path pid = some q ∧
      q = { p with waiting := true } ∧ ∀ k, k ≠ pid → h.path k = g.path k

/-! ## Barriers -/

/-- The path's arrival makes its group's arrival whole, at an instance with an expected count, where no earlier arrival of the group is
open and no monitor is bound (R209, R210). -/
structure Arriving (s : State) (gid : Nat) (g : Group) (p : Path) (sc : Scope) (idx : Nat) (b : Barrier) : Prop where
  inst : b = s.barrier sc idx (ownerOf s g sc) (domainOf gid g sc)
  counted : sc = .group ∨ sc = .core ∨ ∃ l, kget s.launches (s.launchOf g) = some l ∧ recordCount l.rcd sc ≠ 0
  notYet : partOf b gid &&& p.mask = 0 ∧ kget b.last gid ≠ some b.phase
  lanes : pathLanes g p ≠ 0
  whole : liveLanes g &&& ~~~ (partOf b gid ||| pathLanes g p) = 0
  present : g.present &&& ~~~ (partOf b gid ||| pathLanes g p) = 0
  noMons : ∀ e ∈ s.cores, e.2.mons = []
  noWork : p.contrib = [] ∧ p.partials = []
  noDrift : b.drifts = []

/-- The arrival completes the phase. -/
def Completing (s : State) (sc : Scope) (b : Barrier) : Prop :=
  sc = .group ∨ (sc ≠ .pod ∧ b.arrivals + 1 = expectedOf s b)

/-- The instance after an arrival: the phase ends, or one arrival more is counted (R210). -/
def InstanceAfter (s t : State) (gid : Nat) (g : Group) (sc : Scope) (idx : Nat) (b : Barrier) : Prop :=
  let c := t.barrier sc idx (ownerOf s g sc) (domainOf gid g sc)
  kget c.last gid = some b.phase ∧
  (Completing s sc b → c.phase = b.phase + 1 ∧ c.arrivals = 0) ∧
  (¬ Completing s sc b → c.phase = b.phase ∧ c.arrivals = b.arrivals + 1) ∧
  ∀ sc' i o d, (sc', i, o, d) ≠ (sc, idx, ownerOf s g sc, domainOf gid g sc) → t.barrier sc' i o d = s.barrier sc' i o d

/-- Memory, hosts and every other group are as they were. -/
def Elsewhere (s t : State) (gid : Nat) : Prop :=
  t = { s with groups := t.groups, cores := t.cores, barriers := t.barriers, quads := t.quads, dies := t.dies, outputs := t.outputs, pods := t.pods } ∧
  (∀ n, n ≠ gid → t.group n = s.group n) ∧ ∀ c, ∃ ls, t.core c = { s.core c with lines := ls }

/-- BARA arrives and goes on, and begins a region (R211). An arrival at POD scope goes to the tenant's root node with the bpod of the
group's launch; where this package is the root it waits there to be counted (20 R369). -/
def BaraCompletes : Prop :=
  ∀ (d : BitVec 8) (sc : Scope) s gid pid g p b, Issues s gid pid g p → wellFormed (.bara d sc) = true → Arriving s gid g p sc d.toNat b →
    ∃ t h q, exec (.bara d sc) s = .next t ∧ Elsewhere s t gid ∧ t.group gid = some h ∧ PathAt g h pid p (p.pc + 4) ∧ h.path pid = some q ∧
      q.entryDue = some 0xFFFF ∧ Signed g h p (wordOf (.bara d sc)) ∧ GroupBut g h ∧ InstanceAfter s t gid g sc d.toNat b ∧
      let ten := s.tenantOf g.asid
      let bpod := ((kget s.launches (s.launchOf g)).map (·.rcd.bpod)).getD 0
      t.outputs = s.outputs ++ (if sc = .pod ∧ isRoot s ten = false then [.podArrival ((s.tenant ten).podroot % 1024) ten d.toNat bpod] else []) ∧
      ∀ k, kget t.pods k = if sc = .pod ∧ isRoot s ten = true ∧ k = podKey ten d.toNat
        then some { s.pod ten d.toNat with own := (s.pod ten d.toNat).own ++ [bpod] } else kget s.pods k

/-- BAR arrives and waits for its phase: the last to arrive goes on, every other path is blocked at its word (R210). -/
def BarCompletes : Prop :=
  ∀ (d : BitVec 8) (sc : Scope) s gid pid g p b, Issues s gid pid g p → wellFormed (.bar d sc) = true → entered p = true →
    kget g.made pid = none → Arriving s gid g p sc d.toNat b →
    (Completing s sc b → ∃ t h q, exec (.bar d sc) s = .next t ∧ Elsewhere s t gid ∧ t.group gid = some h ∧ PathAt g h pid p (p.pc + 4) ∧
      h.path pid = some q ∧ q.entryDue = some 0xFFFF ∧ Signed g h p (wordOf (.bar d sc)) ∧
      h = { g with sig := h.sig, paths := h.paths, made := h.made, stall := 0 } ∧ kget h.made pid = none ∧ InstanceAfter s t gid g sc d.toNat b) ∧
    (¬ Completing s sc b → ∃ t h q, exec (.bar d sc) s = .next t ∧ Elsewhere s t gid ∧ t.group gid = some h ∧ h.path pid = some q ∧ q.pc = p.pc ∧
      q.status = .blocked (.bar sc d.toNat) ∧ kget h.made pid = some p.pc.toNat ∧ InstanceAfter s t gid g sc d.toNat b)

/-- BARW goes on when the group's last arrival has completed with no drift to tell, and is blocked while it has not (R211). That it
is blocked also while the group's own arrival is not whole is the model's choice (log entry 79): R210 lets a WaitFor with no arrival pass. -/
def BarwCompletes : Prop :=
  ∀ (d : BitVec 8) (sc : Scope) s gid pid g p, Issues s gid pid g p → wellFormed (.barw d sc) = true → entered p = true →
    (sc = .group ∨ sc = .core ∨ ∃ l, kget s.launches (s.launchOf g) = some l ∧ recordCount l.rcd sc ≠ 0) →
    (waitOpen s gid g sc d.toNat = false → driftDue s gid g sc d.toNat = none →
      ∃ t h q, exec (.barw d sc) s = .next t ∧ Elsewhere s t gid ∧ t.barriers = s.barriers ∧ t.group gid = some h ∧ PathAt g h pid p (p.pc + 4) ∧
        h.path pid = some q ∧ q.entryDue = some 0xFFFF ∧ Signed g h p (wordOf (.barw d sc)) ∧
        h = { g with sig := h.sig, paths := h.paths, made := kdel g.made pid, stall := 0 }) ∧
    (waitOpen s gid g sc d.toNat = true → ∃ t h q, exec (.barw d sc) s = .next t ∧ OnlyGroup s t gid h ∧ h.path pid = some q ∧ q.pc = p.pc ∧
      q.status = .blocked (.bar sc d.toNat))

/-- A scope the launch gives no count is the launch-argument trap (R209); the model's cause is 0 (log entry 17). -/
def BarrierTraps : Prop :=
  ∀ (d : BitVec 8) (sc : Scope) s gid pid g p l, Issues s gid pid g p → wellFormed (.bara d sc) = true → sc ≠ .group → sc ≠ .core →
    kget s.launches (s.launchOf g) = some l → recordCount l.rcd sc = 0 →
    TrapsAt (.bara d sc) s gid pid p (trapOf 0x16) ∧
    (entered p = true → TrapsAt (.bar d sc) s gid pid p (trapOf 0x16) ∧ TrapsAt (.barw d sc) s gid pid p (trapOf 0x16))

/-! ## WAITM -/

/-- WAITM at its region entry reads the watched word: where its condition holds it goes on with an acquire, else it is blocked; a later
look at the word wakes it, and it goes on at its next issue with no other look, which the model reads from
R208 for a resident group (R207, R208; log entry 78). -/
def WaitmCompletes : Prop :=
  ∀ (c : WCond) (wide : Bool) (a : Fin 192) (b : UReg) s gid pid g p bs, Issues s gid pid g p → wellFormed (.waitm c wide a b) = true →
    entered p = true →
    let va := g.upair a.val
    let n := if wide then 8 else 4
    check145 s g.core g.asid .read n va n = .ok () →
    let Goes : Prop := ∃ t h q, exec (.waitm c wide a b) s = .next t ∧ t = { s with groups := t.groups, cores := t.cores } ∧
      (∀ k, k ≠ gid → t.group k = s.group k) ∧ t.group gid = some h ∧ PathAt g h pid p (p.pc + 4) ∧ h.path pid = some q ∧
      q.entryDue = some 0xFFFF ∧ Signed g h p (wordOf (.waitm c wide a b)) ∧ GroupBut g h ∧
      (∀ k, k ≠ g.core → t.core k = s.core k) ∧ t.core g.core = { s.core g.core with lines := [] }
    (p.status = .woken → Goes) ∧
    (p.status = .run → readUnit s g.core g.asid va n = .ok bs → wcondHolds c (leNat bs) (waitmOperand g wide b) = true → Goes) ∧
    (p.status = .run → readUnit s g.core g.asid va n = .ok bs → wcondHolds c (leNat bs) (waitmOperand g wide b) = false →
      ∃ t h, exec (.waitm c wide a b) s = .next t ∧ OnlyGroup s t gid h ∧ h = { g with paths := h.paths } ∧
        h.path pid = some { p with status := .blocked (.waitm va c wide (waitmOperand g wide b) []), since := s.now })

/-- WAITM_REEVALUATION wakes the path where the condition holds, and where it does not changes nothing but this: words of a HOST double that
it had read before the rest (14 R283) are read anew by the next. -/
def WaitmReevaluates : Prop :=
  ∀ s gid pid g p va c wide v ts bs, s.group gid = some g → g.path pid = some p → g.locks = [] → p.status = .blocked (.waitm va c wide v ts) →
    readUnit s g.core g.asid va (if wide then 8 else 4) = .ok bs →
    (wcondHolds c (leNat (withTaken ts 0 va bs)) v = true → exec (.waitmReevaluation gid pid) s =
      .next (s.setGroup gid { g with paths := kset g.paths pid { p with status := .woken } })) ∧
    (wcondHolds c (leNat (withTaken ts 0 va bs)) v = false → exec (.waitmReevaluation gid pid) s = .next (if ts = [] then s else
      s.setGroup gid { g with paths := kset g.paths pid { p with status := .blocked (.waitm va c wide v []) } }))

/-- YIELD_EXPIRY and WAIT_REMOTE_LOAD_TIMEOUT (R214, 08 R182). -/
def WaitsEnd : Prop :=
  ∀ s gid pid g p, s.group gid = some g → g.path pid = some p →
    (∀ rs, p.status = .yielded rs → p.since + 64 ≤ s.now →
      exec (.yieldExpiry gid pid) s = .next (s.setGroup gid { g with paths := kset g.paths pid { p with status := .run } })) ∧
    (∀ rs, p.status = .yielded rs → s.now < p.since + 64 → (∃ r ∈ rs, hasIssued s r = false) → exec (.yieldExpiry gid pid) s = .next s) ∧
    (g.status = .resident → p.waiting = true → p.status = .run → (∃ e ∈ g.ops, slowLoad s g p e.1 e.2 = true) →
      exec (.waitRemoteLoadTimeout gid pid) s =
        .next (s.setGroup gid { g with paths := kset g.paths pid { p with status := .blocked .wait, since := s.now } }))

end Sys2Proof.Claims

/-- BRD, REGANG and EXIT part, join and end paths as R81 to R83 say. -/
def Obligations.PartingAndJoiningComplete : Prop :=
  Sys2Proof.Claims.BrdCompletes ∧ Sys2Proof.Claims.RegangCompletes ∧ Sys2Proof.Claims.RegangTraps ∧ Sys2Proof.Claims.ExitCompletes

/-- REGION, SIGCHK and WAIT complete, and a WAIT waits; a region that asks for it has its reads and writes checked for idempotence. -/
def Obligations.RegionsSignaturesWaits : Prop :=
  Sys2Proof.Claims.RegionCompletes ∧ Sys2Proof.Claims.IdempotenceChecked ∧ Sys2Proof.Claims.SigchkCompletes ∧ Sys2Proof.Claims.WaitCompletes ∧ Sys2Proof.Claims.WaitHolds

/-- BAR, BARA and BARW keep their instance's phase and arrivals (R209 to R211); at a scope without an expected count they trap. -/
def Obligations.BarriersComplete : Prop :=
  Sys2Proof.Claims.BaraCompletes ∧ Sys2Proof.Claims.BarCompletes ∧ Sys2Proof.Claims.BarwCompletes ∧ Sys2Proof.Claims.BarrierTraps

/-- WAITM, its re-evaluation, the end of a YIELD, and a WAIT on a slow load. -/
def Obligations.MemoryWaitsComplete : Prop :=
  Sys2Proof.Claims.WaitmCompletes ∧ Sys2Proof.Claims.WaitmReevaluates ∧ Sys2Proof.Claims.WaitsEnd

/-! ## Traps, handlers, time -/
namespace Sys2Proof.Claims
open Sys2Proof.Machine

/-- The trap of a group with no handler running and no copy to wait for that finds a valid handler and can write its frame (R186, R188): one path of every
launched lane at the handler's entry, the descriptor's mode and views, the frame's address and the class in s0 to s2, empty stacks, clear
signatures; FLAGS, SA, SB, every other uniform, the predicates and the register space are as the restart of R91 left them, and memory
holds the frame of R187 beside. -/
def TrapEntry : Prop :=
  ∀ s gid g i pathNo rs pc word g1 k s2, s.group gid = some g → g.handler = none → stopWaits s g = false →
    (restart s gid).group gid = some g1 → handlerOf (restart s gid) g1 = some k →
    let fa := ((restart s gid).tenant ((restart s gid).tenantOf g1.asid)).tfbase + 8192 * g1.frame
    let gf := { g1 with paths := g1.paths.map fun e =>
      (e.1, { e.2 with pc := (kget ((List.range 16).map fun c => (c, slicePc g c)) e.1).getD e.2.pc }) }
    vwrite (restart s gid) g1.core g1.asid fa (frameBytes gf i (((g.path pathNo).map (·.attempts)).getD 0) pathNo rs pc word) = (s2, none) →
    let t := trapEnter s gid i pathNo rs pc word
    ∃ h hd q, t = { s2 with groups := t.groups, nextOp := s2.nextOp + 1 } ∧ (∀ n, n ≠ gid → t.group n = s2.group n) ∧ t.group gid = some h ∧
      h.handler = some hd ∧ hd.cls = i.cls ∧ hd.exited = g1.exited ∧ hd.paths = g1.paths ∧
      hd.made = g1.made ∧ hd.pending = g1.pending ∧ hd.spillEnd = g1.spill.toNat + g1.spillBytes ∧
      h.exited = 0 ∧ h.mode = k.mode ∧ h.views = k.views ∧ h.stack = [] ∧ h.spilled = 0 ∧ h.ret = [] ∧ (∀ c, h.sigOf c = 0) ∧
      h.spill = g1.spill + BitVec.ofNat 64 (64 * g1.spilled) ∧ h.pending = [] ∧
      h.u 0 = BitVec.ofNat 32 fa ∧ h.u 1 = BitVec.ofNat 32 (fa / 2 ^ 32) ∧ h.u 2 = BitVec.ofNat 32 i.cls ∧ (∀ n, 2 < n → h.u n = g1.u n) ∧
      h.preds = g1.preds ∧ h.sa = g1.sa ∧ h.sb = g1.sb ∧ h.flags = g1.flags ∧ h.regs = g1.regs ∧ h.ops = g1.ops ∧ h.batch = g1.batch ∧
      h.paths = [(pathNumber (lanesBelow g1.lanes), q)] ∧ q.mask = lanesBelow g1.lanes ∧ q.pc = BitVec.ofNat 56 k.entry ∧ q.status = .run ∧
      q.latch = [] ∧ q.attempts = 0 ∧ q.region.pc = q.pc ∧ q.region.regidx = 0xFFFF

/-- A trap raised while a handler runs is a handler machine check, and so is one that finds no valid handler: there is no nested handler
(R190). A trap that finds copies of the group in flight waits for them (R170, R180); that it also waits for a COPYO of another group which drains
a tile that the region claimed is the model's choice (log entry 91). -/
def HandlerMachineCheck : Prop :=
  (∀ s gid g i pathNo rs pc word, s.group gid = some g → g.handler.isSome = true →
    trapEnter s gid i pathNo rs pc word = machineCheck s g i.cls) ∧
  (∀ s gid g i pathNo rs pc word, s.group gid = some g → g.handler = none → g.stopping = none → stopHeld s g = true → s.pairings = [] →
    ∃ h, (trapEnter s gid i pathNo rs pc word).group gid = some h ∧ h = { g with ops := keptOps g, stopping := some (.trap i pathNo rs pc word) }) ∧
  (∀ s gid g i pathNo rs pc word g1, s.group gid = some g → g.handler = none → stopWaits s g = false → (restart s gid).group gid = some g1 →
    handlerOf (restart s gid) g1 = none → trapEnter s gid i pathNo rs pc word = machineCheck (restart s gid) g1 i.cls) ∧
  (∀ s g cls c, kget s.cohorts g.cohort = some c → s.pairings = [] →
    let t := machineCheck s g cls
    (∃ c', kget t.cohorts g.cohort = some c' ∧ c'.aborted = some cls ∧ c'.event = 5 ∧ c'.groups = c.groups) ∧
    ∀ n ∈ c.groups, ∀ k, s.group n = some k → ∃ h, t.group n = some h ∧ h.status = .ending true ∧ h.paths = [] ∧ h.handler = none ∧
      h.regs = k.regs)

/-- The frame has 8192 bytes, and these fields, little-endian; every byte that no field takes is 0 (R187). -/
def FrameFields : Prop :=
  ∀ (g : Group) (i : TrapInfo) att pn rs pc (word : Word),
    let b := frameBytes g i att pn rs pc word
    let r := (g.paths.head?.map (·.2.region)).getD (recordRegion g 0 0 0xFFFF)
    let f (o n : Nat) : Nat := frameField b o n
    g.stack.length ≤ 32 → i.mon.length ≤ 48 →
    b.length = 8192 ∧ f 0 1 = i.cls % 256 ∧ f 1 1 = i.cause % 256 ∧ f 2 1 = att % 256 ∧
      f 3 1 = (if i.daddr.isSome then 1 else 0) + (if rs then 2 else 0) ∧ f 4 2 = pn % 65536 ∧ f 6 2 = i.code % 65536 ∧
      f 8 8 = pc % 2 ^ 64 ∧ f 16 4 = word.toNat ∧ f 24 8 = (i.daddr.getD 0) % 2 ^ 64 ∧ f 32 4 = r.mode.toNat ∧ f 36 4 = g.flags.toNat ∧
      f 40 4 = r.views.vvbase.toNat ∧ f 44 2 = r.views.vvcount.toNat % 65536 ∧ f 46 2 = r.views.tvcount.toNat % 65536 ∧
      f 48 4 = r.views.tvbase.toNat ∧ f 52 2 = r.views.tvstride.toNat / 256 % 65536 ∧ f 54 2 = depthOf g % 65536 ∧
      f 56 4 = r.views.avbase.toNat ∧
      (∀ c, c < 16 → f (0x40 + 8 * c) 8 = (slicePc g c).toNat) ∧
      (∀ c n q, c < 16 → slicePath g c = some (n, q) → f (0xC0 + 4 * c) 4 = ((kget q.region.sigs c).getD 0).toNat ∧
        f (0x100 + 8 * c) 8 = q.region.pc.toNat ∧ f (0x180 + 2 * c) 2 = q.region.regidx.toNat ∧ f (0x1A0 + c) 1 = n % 256 ∧
        f (0x1B0 + c) 1 = (kget q.region.depths c).getD 0 % 256) ∧
      (∀ c, c < 16 → slicePath g c = none → f (0xC0 + 4 * c) 4 = (g.sigOf c).toNat ∧ f (0x100 + 8 * c) 8 = 0 ∧ f (0x180 + 2 * c) 2 = 0 ∧
        f (0x1A0 + c) 1 = 0xFF ∧ f (0x1B0 + c) 1 = (g.retStack c).depth % 256) ∧
      (∀ n, n < 16 → f (0x1C0 + 8 * n) 8 = match g.path n with
        | some q => q.region.mask.toNat
        | none => 0) ∧
      (∀ n, n < 8 → f (0x240 + 8 * n) 8 = (g.pred n).toNat) ∧ (∀ n, n < 192 → f (0x280 + 4 * n) 4 = (g.u n).toNat) ∧
      f 0x580 8 = r.spill.toNat ∧ f 0x588 8 = r.sa.toNat ∧ f 0x590 8 = r.sb.toNat ∧
      (∀ k, k < 48 → f (0x5A0 + k) 1 = (i.mon.getD k 0).toNat) ∧
      (∀ k e, g.stack.reverse[k]? = some e → let o := 0x600 + 64 * k
        f o 8 = e.pre.toNat ∧ f (o + 8) 8 = e.tk.toNat ∧ f (o + 16) 8 = e.target.toNat ∧
        f (o + 24) 8 = (match e.join with
          | some a => a.toNat
          | none => 2 ^ 64 - 1) ∧
        f (o + 32) 8 = e.arrT.toNat ∧ f (o + 40) 8 = e.arrN.toNat ∧ f (o + 48) 2 = e.owed.toNat ∧
        f (o + 50) 2 = (if e.parting then 1 else 0) + (if e.complete then 2 else 0) + (match e.side with
          | .none => 0
          | .taken => 4
          | .fall => 8) ∧ f (o + 52) 12 = 0) ∧
      (∀ k, g.stack.length ≤ k → k < 32 → f (0x600 + 64 * k) 64 = 0) ∧
      (∀ c k, c < 16 → k < 16 → f (0xE00 + 128 * c + 8 * k) 8 = ((g.retStack c).slots.getD k 0).toNat) ∧
      f 20 4 = 0 ∧ f 60 4 = 0 ∧ f 0x598 8 = 0 ∧ f 0x5D0 48 = 0 ∧ f 0x1600 (8192 - 0x1600) = 0

/-- The restart of R91: every path of a group with no pairing is back at its region entry, with the entry's mask, signatures and
return-stack depths (R122); the working accumulator values of those paths' regions are gone, and memory, uniforms, predicates and the
register space stay. -/
def RestartReturns : Prop :=
  ∀ s gid g, s.group gid = some g → s.pairings = [] → (∀ e ∈ g.paths, e.2.entryDue = none) → (g.paths.map (·.1)).Nodup →
    ∃ h, (restart s gid).group gid = some h ∧ (restart s gid).mem = s.mem ∧ (restart s gid).hostMem = s.hostMem ∧
      (∀ n, n ≠ gid → (restart s gid).group n = s.group n) ∧ h.regs = g.regs ∧ h.uni = g.uni ∧ h.preds = g.preds ∧ h.flags = g.flags ∧
      (∀ n p, g.path n = some p → ∃ q, h.path n = some q ∧ q.pc = p.region.pc ∧ q.mask = p.region.mask ∧ q.region = p.region ∧
        q.status = .run ∧ q.attempts = p.attempts ∧ q.contrib = [] ∧ q.claims = []) ∧
      (∀ n, g.path n = none → h.path n = none) ∧
      (∀ n p, g.path n = some p → (p.region.sigs.map (·.1)).Nodup → (p.region.depths.map (·.1)).Nodup →
        (∀ m q, g.path m = some q → m ≠ n → ∀ c, (kget p.region.sigs c).isSome = true → kget q.region.sigs c = none) →
        (∀ m q, g.path m = some q → m ≠ n → ∀ c, (kget p.region.depths c).isSome = true → kget q.region.depths c = none) →
        (∀ c v, kget p.region.sigs c = some v → h.sigOf c = v) ∧
        ∀ c d, kget p.region.depths c = some d → (h.retStack c).depth = d ∧ (h.retStack c).slots = (g.retStack c).slots) ∧
      (∀ n p, g.paths = [(n, p)] → h.mode = p.region.mode ∧ h.views = p.region.views ∧ h.spill = p.region.spill ∧ h.sa = p.region.sa ∧
        h.sb = p.region.sb) ∧
      ∀ k b e, kget (s.core g.core).banks k = some b → b.owner = gid → (b.elems.map (·.1)).Nodup →
        ∃ b', kget ((restart s gid).core g.core).banks k = some b' ∧
          elemOf b' e = ⟨(elemOf b e).com, (elemOf b e).work.filter fun w => g.paths.all fun q => q.2.uid ≠ w.1⟩

/-- A fault that qualifies, with no copy of the group outstanding, restarts a path's region once; with the attempt spent it is the trap
(R181). -/
def QualifiedFaultRestartsOnce : Prop :=
  ∀ s gid g pid p i rs pc word, s.group gid = some g → g.path pid = some p → g.handler = none → stopWaits s g = false →
    (p.attempts = 0 → ∀ h, (restart s gid).group gid = some h →
      faultOrRestart s gid pid i rs pc word =
        (restart s gid).setGroup gid { h with paths := kupd h.paths pid fun p => { p with attempts := 1 } }) ∧
    (p.attempts ≠ 0 → faultOrRestart s gid pid i rs pc word = trapEnter s gid i pid rs pc word)

/-- YIELD completes: the path is at the next word, and not ready until its expiry. CLOCK reads a time within 8 cycles of the time base
that never falls back in the group (R214, R218). -/
def YieldAndClockComplete : Prop :=
  ∀ s gid pid g p, Issues s gid pid g p →
    (∃ t h q, exec .yield s = .next t ∧ OnlyGroup s t gid h ∧ GroupBut g h ∧ Signed g h p (wordOf .yield) ∧ h.path pid = some q ∧
      q.pc = p.pc + 4 ∧ q.mask = p.mask ∧ q.status = .yielded (readyOthers s g.core p.uid) ∧ q.since = s.now ∧
      ∀ k, k ≠ pid → h.path k = g.path k) ∧
    (∀ d : Fin 192, wellFormed (.clock d) = true → g.parted = false →
      ∃ t h v, exec (.clock d) s = .next t ∧ t = { s with groups := t.groups, fresh := s.fresh + 1 } ∧
        (∀ n, n ≠ gid → t.group n = s.group n) ∧ t.group gid = some h ∧ PathAt g h pid p (p.pc + 4) ∧ Signed g h p (wordOf (.clock d)) ∧
        s.now ≤ v ∧ (v ≤ s.now + 8 ∨ v = g.clockLast) ∧ g.clockLast ≤ v ∧ h.clockLast = v ∧
        h = { g with uni := h.uni, clockLast := v, sig := h.sig, paths := h.paths, stall := 0 } ∧ h.u d.val = BitVec.ofNat 32 v ∧
        h.u (d.val + 1) = BitVec.ofNat 32 (v / 2 ^ 32) ∧ ∀ k, k ≠ d.val → k ≠ d.val + 1 → h.u k = g.u k)

/-- TRAP takes the software trap with its immediate as code, at its own word, after a region has begun at the next word (R215). -/
def TrapInstructionTraps : Prop :=
  ∀ (imm : BitVec 16) s gid pid g p, Issues s gid pid g p →
    exec (.trap imm) s = .next (trapEnter
      (enterRegion (s.setGroup gid { g with paths := kupd g.paths pid fun q => { q with pc := p.pc + 4, icount := q.icount + 1 } }) gid pid 0xFFFF)
      gid ⟨0x10, 0, imm.toNat, none, []⟩ pid false p.pc.toNat (wordOf (.trap imm)))

/-- RESUME in a handler, by its one path, from a frame that keeps R216: the group's state is the frame's, and each path is at its region
entry (R189), and the barriers at which lanes of the group wait for the rest are looked at again; outside a handler it is illegal. -/
def ResumeCompletes : Prop :=
  ∀ s gid pid g p, Issues s gid pid g p →
    (g.handler = none → TrapsAt .resume s gid pid p (trapOf 0x01)) ∧
    (∀ hd b, g.handler = some hd → p.mask = lanesBelow g.lanes → g.paths.length = 1 →
      let tn := s.tenant (s.tenantOf g.asid)
      vread s g.core g.asid (tn.tfbase + 8192 * g.frame) 8192 = .ok b → frameOk b g.regbytes g.spillBytes = true →
      ∃ t h, exec .resume s = .next (settleGroup t gid) ∧ t = { s with groups := t.groups, cores := t.cores, nextOp := s.nextOp + 16 } ∧
        (∀ n, n ≠ gid → t.group n = s.group n) ∧ t.group gid = some h ∧ h.handler = none ∧ h.exited = hd.exited ∧ h.regs = g.regs ∧
        h.mode = BitVec.ofNat 32 (frameField b 32 4) ∧ h.flags = BitVec.ofNat 32 (frameField b 36 4 % 8) ∧ h.views = frameViews b ∧
        h.spill = BitVec.ofNat 64 (frameField b 0x580 8) ∧ h.sa = BitVec.ofNat 64 (frameField b 0x588 8) ∧
        h.sb = BitVec.ofNat 64 (frameField b 0x590 8) ∧
        (∀ n, n < 192 → h.u n = BitVec.ofNat 32 (frameField b (0x280 + 4 * n) 4)) ∧
        (∀ n, 0 < n → n < 8 → h.pred n = BitVec.ofNat 64 (frameField b (0x240 + 8 * n) 8)) ∧
        (∀ c, c < 16 → h.sigOf c = BitVec.ofNat 32 (frameField b (0xC0 + 4 * c) 4)) ∧
        depthOf h = frameField b 54 2 ∧
        (∀ k, k < 32 → k < frameField b 54 2 → h.stack.reverse[k]? = some (entryOfBytes ((b.drop (0x600 + 64 * k)).take 64))) ∧
        (∀ c, c < 16 → frameField b (0x1B0 + c) 1 ≤ 16 → (h.retStack c).depth = frameField b (0x1B0 + c) 1 ∧
          ∀ k, k < 16 → (h.retStack c).slots.getD k 0 = BitVec.ofNat 56 (frameField b (0xE00 + 128 * c + 8 * k) 8)) ∧
        (∀ n, n ∉ frameNumbers b → h.path n = none) ∧
        ∀ n, n ∈ frameNumbers b → ∃ q, h.path n = some q ∧ q.pc = BitVec.ofNat 56 (frameField b (0x100 + 8 * n) 8) ∧
          q.mask = BitVec.ofNat 64 (frameField b (0x1C0 + 8 * n) 8) ∧ q.status = .run ∧ q.region.pc = q.pc ∧ q.region.mask = q.mask)

/-- ABORT ends the group's cohort with the class its handler handles: no path of it runs on, and registers and memory stay (R217). -/
def AbortEnds : Prop :=
  ∀ s gid pid g p c, Issues s gid pid g p → s.pairings = [] → kget s.cohorts g.cohort = some c → c.groups.Nodup →
    ∃ t, exec .abort s = .next t ∧
      kget t.cohorts g.cohort = some { c with aborted := some ((g.handler.map (·.cls)).getD 0), event := 2 } ∧
      t.mem = s.mem ∧ t.hostMem = s.hostMem ∧
      (∀ n ∈ c.groups, ∀ k, s.group n = some k → ∃ h, t.group n = some h ∧ h.status = .ending true ∧ h.paths = [] ∧ h.regs = k.regs) ∧
      ∀ n, n ∉ c.groups → n ≠ gid → t.group n = s.group n

/-! ## Launches from a kernel -/

/-- The launch record can be read and keeps R212 and R248. -/
def RecordGood (s : State) (g : Group) (va : Nat) (r : LaunchRec) (kd : KDesc) : Prop :=
  ∃ b, check145 s g.core g.asid .read 64 va 64 = .ok () ∧ vread s g.core g.asid va 64 = .ok b ∧ r = launchRecOfBytes b ∧
    kdescAt s g.core g.asid r.kdesc = some kd ∧ recBreak r (b.drop 52) (some kd) = none

/-- Launch `lid` is in hand, from the group, with its record and descriptor, holding an entry. -/
def Enqueued (s t : State) (g : Group) (r : LaunchRec) (kd : KDesc) : Prop :=
  (∃ l, kget t.launches s.nextOp = some l ∧ l.rcd = r ∧ l.kd = kd ∧ l.asid = g.asid ∧ l.tenant = s.tenantOf g.asid ∧ l.dies = [g.core / 256] ∧
    l.holdsEntry = true ∧ l.nextCohort = 0 ∧ l.live = 0) ∧ (∀ k, k ≠ s.nextOp → kget t.launches k = kget s.launches k)

/-- LAUNCH and LAUNCHT enqueue the launch of a good record where the store has room; LAUNCHT answers in a predicate, and LAUNCH waits
where it has none, until an entry is reserved for it (R212, R213, 13 R277). That the record
enqueued then is the one that memory holds at that moment is the model's choice (log entry 97). -/
def LaunchesComplete : Prop :=
  ∀ (a : Fin 192) s gid pid g p r kd, Issues s gid pid g p → wellFormed (.launch a) = true → RecordGood s g (g.upair a.val) r kd →
    (s.tenant (s.tenantOf g.asid)).valid = true →
    let full := storeFull s (g.core / 256) (s.tenantOf g.asid)
    (entered p = true → (∀ w ∈ (s.die (g.core / 256)).lwaits, ¬ (w.gid = gid ∧ w.uid = p.uid)) → full = false →
      ∃ t h q, exec (.launch a) s = .next t ∧ t = { s with groups := t.groups, launches := t.launches, nextOp := s.nextOp + 1 } ∧
        (∀ n, n ≠ gid → t.group n = s.group n) ∧ t.group gid = some h ∧ PathAt g h pid p (p.pc + 4) ∧ h.path pid = some q ∧
        q.entryDue = some 0xFFFF ∧ Signed g h p (wordOf (.launch a)) ∧ GroupBut g h ∧ Enqueued s t g r kd) ∧
    (entered p = true → (∀ w ∈ (s.die (g.core / 256)).lwaits, ¬ (w.gid = gid ∧ w.uid = p.uid)) → full = true →
      ∃ t h q, exec (.launch a) s = .next t ∧ t = { s with groups := t.groups, dies := t.dies } ∧ t.group gid = some h ∧ h.path pid = some q ∧
        q.pc = p.pc ∧ q.status = .blocked .launch ∧
        (t.die (g.core / 256)).lwaits = (s.die (g.core / 256)).lwaits ++ [⟨gid, p.uid, s.tenantOf g.asid, false⟩]) ∧
    (entered p = true → (∃ w ∈ (s.die (g.core / 256)).lwaits, w.gid = gid ∧ w.uid = p.uid) →
      (∀ w ∈ (s.die (g.core / 256)).lwaits, w.gid = gid → w.uid = p.uid → w.reserved = true) →
      ∃ t h q, exec (.launch a) s = .next t ∧
        t = { s with groups := t.groups, dies := t.dies, launches := t.launches, nextOp := s.nextOp + 1 } ∧
        (∀ n, n ≠ gid → t.group n = s.group n) ∧ t.group gid = some h ∧ PathAt g h pid p (p.pc + 4) ∧ h.path pid = some q ∧
        q.entryDue = some 0xFFFF ∧ Signed g h p (wordOf (.launch a)) ∧ GroupBut g h ∧ Enqueued s t g r kd ∧
        ∀ w ∈ (t.die (g.core / 256)).lwaits, ¬ (w.gid = gid ∧ w.uid = p.uid)) ∧
    (∀ d : Fin 8, full = false →
      ∃ t h q, exec (.launcht d a) s = .next t ∧ t = { s with groups := t.groups, launches := t.launches, nextOp := s.nextOp + 1 } ∧
        (∀ n, n ≠ gid → t.group n = s.group n) ∧ t.group gid = some h ∧ PathAt g h pid p (p.pc + 4) ∧ h.path pid = some q ∧
        q.entryDue = some 0xFFFF ∧ Signed g h p (wordOf (.launcht d a)) ∧ PredicateSet g h d (pathLanes g p) allLanes ∧ Enqueued s t g r kd) ∧
    (∀ d : Fin 8, full = true → Completes (.launcht d a) s gid pid g p fun h => PredicateSet g h d (pathLanes g p) 0)

/-! ## Monitors -/

/-- Of all cores only `core` has changed, and of it only monitor `n`. -/
def MonNow (s t : State) (core n : Nat) (v : Option Monitor) : Prop :=
  (∀ c, c ≠ core → t.core c = s.core c) ∧ t.core core = { s.core core with mons := (t.core core).mons } ∧
    ∀ j, kget (t.core core).mons j = if j = n then v else kget (s.core core).mons j

/-- A commit point that changes one monitor of its core, and begins a region. One that unbinds it drops what the paths set aside for the
handler have yet to commit to it (R350). -/
def MonStep (i : Instr) (s : State) (gid pid : Nat) (g : Group) (p : Path) (n : Nat) (v : Option Monitor) : Prop :=
  ∃ t h q, exec i s = .next t ∧ t = { s with groups := t.groups, cores := t.cores } ∧ t.group gid = some h ∧ h.path pid = some q ∧
    q.pc = p.pc + 4 ∧ q.mask = p.mask ∧ q.status = .run ∧ q.entryDue = some 0xFFFF ∧ Signed g h p (wordOf i) ∧
    GroupBut { g with lastPath := h.lastPath, handler := h.handler } h ∧
    (v.isSome = true → h.lastPath = g.lastPath ∧ h.handler = g.handler ∧ ∀ k, k ≠ gid → t.group k = s.group k) ∧
    (v = none → ∀ hd, h.handler = some hd → ∀ e ∈ hd.paths, kget e.2.contrib n = none) ∧ MonNow s t g.core n v

/-- MONSET binds a free monitor, finds its own with the same block and leaves it as it is, and traps where the block differs; MONREF and its .last form set the reference, MONRD reads, MONCLR unbinds (R347 to
R350). -/
def MonitorsComplete : Prop :=
  ∀ (d : BitVec 2) (a : Fin 192) s gid pid g p, Issues s gid pid g p → g.parted = false →
    (∀ c, wellFormed (.monset d a) = true → monCfgOf (uniWords g a.val 6) = some c →
      (c.scope = .core ∨ ∃ l, kget s.launches (s.launchOf g) = some l ∧ recordCount l.rcd c.scope ≠ 0) → kget (s.core g.core).mons d.toNat = none →
      MonStep (.monset d a) s gid pid g p d.toNat (some (monBound c (s.launchOf g)))) ∧
    (∀ c m, wellFormed (.monset d a) = true → monCfgOf (uniWords g a.val 6) = some c →
      (c.scope = .core ∨ ∃ l, kget s.launches (s.launchOf g) = some l ∧ recordCount l.rcd c.scope ≠ 0) →
      kget (s.core g.core).mons d.toNat = some m → m.launch = s.launchOf g →
      (m.cfg = c → MonStep (.monset d a) s gid pid g p d.toNat (some m)) ∧
      (m.cfg ≠ c → TrapsAt (.monset d a) s gid pid p (trapCause 0x16 66))) ∧
    (∀ m, kget (s.core g.core).mons d.toNat = some m → m.launch = s.launchOf g →
      (monHeld s g.core m = false → wellFormed (.monref d a) = true →
        MonStep (.monref d a) s gid pid g p d.toNat (some { m with ref := wideOfWords (uniWords g a.val 6) })) ∧
      (monHeld s g.core m = false → MonStep (.monrefLast d) s gid pid g p d.toNat (some { m with ref := m.total.v })) ∧
      (monHeld s g.core m = false → MonStep (.monclr d) s gid pid g p d.toNat none) ∧
      (∀ (e : Fin 192) (b : MonSel), wellFormed (.monrd e d b) = true → Completes (.monrd e d b) s gid pid g p fun h =>
        h = { g with uni := h.uni, sig := h.sig, paths := h.paths, stall := 0 } ∧
        (∀ k, k < 6 → h.u (e.val + k) = (monSelected m b).v.extractLsb' (32 * k) 32) ∧ h.u (e.val + 6) = monStatus m (monSelected m b) ∧
        ∀ k, (k < e.val ∨ e.val + 6 < k) → h.u k = g.u k)) ∧
    (kget (s.core g.core).mons d.toNat = none → TrapsAt (.monrefLast d) s gid pid p (trapCause 0x16 65)) ∧
    (∀ m, kget (s.core g.core).mons d.toNat = some m → m.launch ≠ s.launchOf g → TrapsAt (.monclr d) s gid pid p (trapCause 0x16 64))

/-! ## The quad's instructions -/

/-- `Elsewhere`, but that in chain-stitch mode the buffer of the publication on the next core around the quad begins to fill (12 R257). -/
def PubElsewhere (s t : State) (gid : Nat) (g : Group) (i : Nat) : Prop :=
  let next := 4 * (g.core / 4) + (g.core % 4 + 1) % 4
  t = { s with groups := t.groups, cores := t.cores, barriers := t.barriers, quads := t.quads, dies := t.dies } ∧
  (∀ n, n ≠ gid → t.group n = s.group n) ∧
  (∀ c, ¬ ((s.quad (g.core / 4)).chain = true ∧ c = next) → ∃ ls, t.core c = { s.core c with lines := ls }) ∧
  ((s.quad (g.core / 4)).chain = true → t.core next = { s.core next with lines := (t.core next).lines, tiles := (t.core next).tiles } ∧
    ((t.core next).tile (192 + i)).state = .filling ∧ ∀ k, k ≠ 192 + i → (t.core next).tile k = (s.core next).tile k)

/-- QMAP, CHAINW, SPRD and QPUB (12 R249, R252, R254, R258). -/
def QuadInstructionsComplete : Prop :=
  ∀ s gid pid g p, Issues s gid pid g p →
    (∀ d : UReg, g.parted = false →
      (Completes (.qmap d true) s gid pid g p fun h => UniformSet g h d (BitVec.ofNat 32 (g.core % 4))) ∧
      (Completes (.qmap d false) s gid pid g p fun h => UniformSet g h d
        (BitVec.ofNat 32 (g.core / 4 % 64 + 64 * (g.core / 256) + (if (s.quad (g.core / 4)).chain then 2 ^ 31 else 0))))) ∧
    (∀ d : Fin 192, (s.quad (g.core / 4)).chain = false ∨ (s.quad (g.core / 4)).pubs = [] →
      Completes (.chainw d) s gid pid g p fun h => GroupBut g h) ∧
    (∀ (d : VReg) (a : UReg) (b : VSrc) c h0 k key e, srcIn g b → dstIn g d → (g.us a).toNat < 1024 → c = (g.us a).toNat / 256 → c ≠ g.core % 4 →
      let core := g.core / 4 * 4 + c
      cohortOn s (s.launchOf g) core = some h0 → h0.tiles[(g.us a).toNat % 256]? = some k → pubOf s core k = some (key, e) →
      bufFilling e (hopsTo c (g.core % 4)) = false → (s.core core).retScr = false → active g p ≠ 0 → p.marks.acqWide = false →
      offsOk (active g p) ((srcVals g p b).map (·.toNat)) →
      PutsInFlight (.sprd d a b) s gid pid g p (active g p)
        (.sprd (if e.chained then ⟨g.core, 192 + 8 * (hopsTo (key / 8) (g.core % 4) - 1) + key % 8⟩ else ⟨core, k⟩) ((srcVals g p b).map (·.toNat)) (dstAddr g d) (some (c, key % 8))) none) ∧
    (∀ (d : VReg) (a : UReg) (b : VSrc) k, srcIn g b → dstIn g d → (g.us a).toNat < 1024 → (g.us a).toNat / 256 = g.core % 4 →
      TileReady s gid g ((g.us a).toNat % 256) .read k → active g p ≠ 0 → p.marks.acqWide = false →
      offsOk (active g p) ((srcVals g p b).map (·.toNat)) →
      PutsInFlight (.sprd d a b) s gid pid g p (active g p) (.spld ⟨g.core, k⟩ ((srcVals g p b).map (·.toNat)) (dstAddr g d)) none) ∧
    (∀ (d : Fin 192) (a : UReg) k b, (g.us a).toNat < 8 → TileReady s gid g d.val .read k → Arriving s gid g p .quad (g.us a).toNat b →
      let key := 8 * (g.core % 4) + (g.us a).toNat
      kget (s.quad (g.core / 4)).pubs key = none →
      ∃ t h q, exec (.qpub d a) s = .next t ∧ PubElsewhere s t gid g (g.us a).toNat ∧ t.group gid = some h ∧ PathAt g h pid p (p.pc + 4) ∧ h.path pid = some q ∧
        q.entryDue = some 0xFFFF ∧ Signed g h p (wordOf (.qpub d a)) ∧ GroupBut g h ∧ InstanceAfter s t gid g .quad (g.us a).toNat b ∧
        kget (t.quad (g.core / 4)).pubs key = some
          { tile := ⟨g.core, k⟩, spec := d.val, cohort := g.cohort, phase := b.phase, hops := 0, fails := 0, poisonedFrom := none,
            chained := (s.quad (g.core / 4)).chain, withdrawn := false })

/-- A tile that no publication holds is the tile trap with cause 5 (R254). -/
def UnpublishedTraps : Prop :=
  ∀ (d : VReg) (a : UReg) (b : VSrc) s gid pid g p c h0 k, Issues s gid pid g p → srcIn g b → dstIn g d → (g.us a).toNat < 1024 →
    c = (g.us a).toNat / 256 → c ≠ g.core % 4 → cohortOn s (s.launchOf g) (g.core / 4 * 4 + c) = some h0 →
    h0.tiles[(g.us a).toNat % 256]? = some k → pubOf s (g.core / 4 * 4 + c) k = none →
    TrapsAt (.sprd d a b) s gid pid p (trapCause 0x13 5)

/-! ## The network's instructions -/

/-- NPOST, NWAIT, NCNT and NQSTAT (20 R371 to R373); the trap causes are those of R370. That NQSTAT of a queue that is not enabled traps as
one that is not the tenant's does is the model's reading (log entry 64): R373 lists state 0 for a disabled queue. -/
def NetworkInstructionsComplete : Prop :=
  ∀ s gid pid g p, Issues s gid pid g p →
    (∀ (d : UReg) (a : Fin 192) b, wellFormed (.npost d a) = true → queueOk s g (g.us d) = true →
      let n := (g.u (a.val + 2)).toNat
      let va := g.upair a.val
      let sq := s.sendQ (queueEng (g.us d)) (queueNum (g.us d))
      1 ≤ n → n ≤ 64 → va % 64 = 0 → checkBytes s g.core g.asid .read (n + 1) va (64 * n) = .ok () → vread s g.core g.asid va (64 * n) = .ok b →
      (∀ x : Ctx, x.g = g → reqsFail s x (s.tenantOf g.asid) 0 (chunksOf 64 n b) = none) → (chunksOf 64 n b).length = n → n ≤ freeSlots sq →
      ∃ t h q, exec (.npost d a) s = .next t ∧
        t = { placeReqs s sq sq.wpos (chunksOf 64 n b) with groups := t.groups, engines := t.engines } ∧
        (∀ k, k ≠ gid → t.group k = s.group k) ∧ t.group gid = some h ∧ PathAt g h pid p (p.pc + 4) ∧ h.path pid = some q ∧
        q.entryDue = some 0xFFFF ∧ Signed g h p (wordOf (.npost d a)) ∧ GroupBut g h ∧
        t.sendQ (queueEng (g.us d)) (queueNum (g.us d)) = { sq with
          wpos := sq.wpos + n, posted := sq.posted ++ (List.range n).map fun i => (sq.wpos + i, gid) }) ∧
    (∀ d a : UReg, counterOk s g (g.us d) = true → entered p = true →
      ((s.counter (g.us d).toNat - g.us a).toNat < 2 ^ 31 →
        ∃ t h q, exec (.nwait d a) s = .next t ∧ t = { s with groups := t.groups, cores := t.cores } ∧ (∀ k, k ≠ gid → t.group k = s.group k) ∧
          t.group gid = some h ∧ PathAt g h pid p (p.pc + 4) ∧ h.path pid = some q ∧ q.entryDue = some 0xFFFF ∧
          Signed g h p (wordOf (.nwait d a)) ∧ GroupBut g h ∧ t.core g.core = { s.core g.core with lines := [] } ∧
          ∀ c, c ≠ g.core → t.core c = s.core c) ∧
      (2 ^ 31 ≤ (s.counter (g.us d).toNat - g.us a).toNat →
        ∃ t h q, exec (.nwait d a) s = .next t ∧ OnlyGroup s t gid h ∧ h.path pid = some q ∧ q.pc = p.pc ∧
          q.status = .blocked (.nwait (g.us d).toNat (g.us a)))) ∧
    (∀ d a : UReg, g.parted = false → counterOk s g (g.us a) = true →
      ∃ t h, exec (.ncnt d a) s = .next t ∧ t = { s with groups := t.groups, cores := t.cores } ∧ (∀ k, k ≠ gid → t.group k = s.group k) ∧
        t.group gid = some h ∧ PathAt g h pid p (p.pc + 4) ∧ Signed g h p (wordOf (.ncnt d a)) ∧
        UniformSet g h d (s.counter (g.us a).toNat) ∧ t.core g.core = { s.core g.core with lines := [] } ∧
        ∀ c, c ≠ g.core → t.core c = s.core c) ∧
    (∀ d a : UReg, g.parted = false → queueOk s g (g.us a) = true →
      Completes (.nqstat d a) s gid pid g p fun h => UniformSet g h d (queueStatus (s.eng (queueEng (g.us a))) (queueNum (g.us a)))) ∧
    (∀ d a : UReg, g.parted = false → counterOk s g (g.us a) = false → TrapsAt (.ncnt d a) s gid pid p ⟨0x15, 5, 0, none, []⟩) ∧
    (∀ d a : UReg, g.parted = false → queueOk s g (g.us a) = false → TrapsAt (.nqstat d a) s gid pid p ⟨0x15, 1, 0, none, []⟩)

end Sys2Proof.Claims

/-- Taking a trap: the frame, and the handler's state (R186, R188); a trap in a handler, or without a valid one, is a handler machine
check, which aborts the cohort (R190). -/
def Obligations.TrapEntersHandler : Prop := Sys2Proof.Claims.TrapEntry ∧ Sys2Proof.Claims.HandlerMachineCheck

/-- The frame's fields (R187). -/
def Obligations.TrapFrameHoldsState : Prop := Sys2Proof.Claims.FrameFields

/-- A restart returns every path to its region entry and keeps what R91 keeps; a qualifying fault restarts once (R181). -/
def Obligations.RestartReturnsToEntry : Prop := Sys2Proof.Claims.RestartReturns ∧ Sys2Proof.Claims.QualifiedFaultRestartsOnce

/-- YIELD, CLOCK, TRAP, RESUME and ABORT do what R214 to R218 say. -/
def Obligations.SystemInstructionsComplete : Prop :=
  Sys2Proof.Claims.YieldAndClockComplete ∧ Sys2Proof.Claims.TrapInstructionTraps ∧ Sys2Proof.Claims.ResumeCompletes ∧
    Sys2Proof.Claims.AbortEnds

/-- LAUNCH and LAUNCHT enqueue a launch, or find the store full. -/
def Obligations.KernelLaunchesComplete : Prop := Sys2Proof.Claims.LaunchesComplete

/-- MONSET, MONREF, MONREF.last, MONRD and MONCLR. -/
def Obligations.MonitorInstructionsComplete : Prop := Sys2Proof.Claims.MonitorsComplete

/-- QMAP, CHAINW, SPRD and QPUB. -/
def Obligations.QuadInstructionsComplete : Prop := Sys2Proof.Claims.QuadInstructionsComplete ∧ Sys2Proof.Claims.UnpublishedTraps

/-- NPOST, NWAIT, NCNT and NQSTAT. -/
def Obligations.NetworkInstructionsComplete : Prop := Sys2Proof.Claims.NetworkInstructionsComplete

/-! ## Ends, placement, eviction -/
namespace Sys2Proof.Claims
open Sys2Proof.Machine

/-- GROUP_END: the group is gone, with its banks and its trap-frame slot, and the tiles that its last path released are empty; a cohort with groups left goes on, the last group's cohort ends
and its tiles are empty and zero (08 R185, R167). -/
def GroupEndCompletes : Prop :=
  ∀ s gid g a c l, s.group gid = some g → g.status = .ending a → groupReady s gid g = true → g.endFault = none →
    s.barriers = [] → kget s.cohorts g.cohort = some c → c.aborted = none → c.core = g.core → kget s.launches c.launch = some l →
    ∃ t, exec (.groupEnd gid) s = .next t ∧ t.group gid = none ∧ t.mem = s.mem ∧ t.hostMem = s.hostMem ∧
      (∀ n k, n ≠ gid → s.group n = some k → ∃ h, t.group n = some h ∧ h = { k with paths := h.paths, lastPath := h.lastPath, handler := h.handler }) ∧
      (kget t.frames (s.tenantOf g.asid)).getD [] = ((kget s.frames (s.tenantOf g.asid)).getD []).filter (· ≠ g.frame) ∧
      (∀ k b, kget (t.core g.core).banks k = some b → b.owner ≠ gid) ∧
      (∀ k b, kget (s.core g.core).banks k = some b → b.owner ≠ gid → kget (t.core g.core).banks k = some b) ∧
      (∀ pid p k e, g.lastPath = some (pid, p) → p.trel ≠ [] → kget (s.core g.core).tiles k = some e → e.relBy.contains (gid, pid) = true →
        (t.core g.core).tile k = tileEmpty) ∧
      (c.groups.filter (· ≠ gid) ≠ [] → kget t.cohorts g.cohort = some { c with groups := c.groups.filter (· ≠ gid) } ∧
        kget t.launches c.launch = some l) ∧
      (c.groups.filter (· ≠ gid) = [] → kget t.cohorts g.cohort = none ∧ kget t.launches c.launch = some { l with live := l.live - 1 } ∧
        ∀ k ∈ c.tiles, (t.core g.core).tile k = tileEmpty ∧ ∀ x, x < 4096 → mget 0 (t.core g.core).scr (4096 * k + x) = 0)

/-- LAUNCH_COMPLETION_SIGNAL: the launch whose cohorts have all ended is gone, with its packet; its signal has risen by the addend
(R212, 13 R268), in an address space of the launch's tenant (20 R376): where the ASID map has given that to another tenant the packet
fails with 0x08, by the model's choice (log entry 106). -/
def LaunchCompletes : Prop :=
  ∀ s lid l, kget s.launches lid = some l → launchOver l = true →
    (l.rcd.flags % 2 = 0 → ∃ t, exec (.launchCompletionSignal lid) s = .next t ∧ kget t.launches lid = none ∧ t.mem = s.mem ∧
      (∀ k, k ≠ lid → kget t.launches k = kget s.launches k) ∧
      ∀ d q k slot tag, l.source = .queue d q k slot tag → kget (t.queue d q).pkts k = none ∧
        ∀ j, j ≠ k → kget (t.queue d q).pkts j = kget (s.queue d q).pkts j) ∧
    (l.rcd.flags % 2 = 1 → s.tenantOf l.asid ≠ l.tenant → ∀ d q k slot tag p, l.source = .queue d q k slot tag →
      kget (s.queue d q).pkts k = some p →
      ∃ t, exec (.launchCompletionSignal lid) s = .next t ∧ kget t.launches lid = none ∧ (t.queue d q).halted = some 0x08 ∧
        (t.queue d q).haltSlot = p.slot ∧ kget (t.queue d q).pkts k = none) ∧
    (∀ b u, l.rcd.flags % 2 = 1 → s.tenantOf l.asid = l.tenant → cpLocked s true l.asid l.rcd.signal 8 = false → check145 s (sourceCore l) l.asid (.atom true) 8 l.rcd.signal 8 = .ok () →
      atomUnit s (sourceCore l) l.asid l.rcd.signal 8 = .ok b →
      writeUnit s (sourceCore l) l.asid l.rcd.signal (leBytes 8 (leNat b + l.rcd.sigadd)) = .ok u →
      ∃ t, exec (.launchCompletionSignal lid) s = .next t ∧ kget t.launches lid = none ∧ t.mem = u.mem ∧ t.hostMem = u.hostMem)

/-- GROUP_EVICT: a group whose paths are all blocked and that has only loads outstanding leaves its core where R274 gives a reason: its
paths stay blocked at their region entries, its loads are dropped, its registers kept. GROUP_RESTORE brings it back once its wake condition has come true, in the order in which those of its core's groups did (08 R183,
R184, R275). -/
def EvictionAndRestoration : Prop :=
  (∀ s gid g, s.group gid = some g → mayLeave s g = true → evictReason s gid g = true → (∀ e ∈ g.paths, e.2.entryDue = none) →
    ∃ t h, exec (.groupEvict gid) s = .next t ∧ t.group gid = some h ∧ (∀ n, n ≠ gid → t.group n = s.group n) ∧ t.mem = s.mem ∧
      h.status = .evicted s.now none ∧ h.regs = g.regs ∧ h.uni = g.uni ∧ h.preds = g.preds ∧ h.flags = g.flags ∧
      (∀ n p, g.path n = some p → ∃ q, h.path n = some q ∧ q.pc = p.region.pc ∧ q.mask = p.region.mask ∧ q.status = p.status ∧ q.region = p.region) ∧
      ∀ n o, kget h.ops n = some o → o.dropped = true) ∧
  (∀ s gid g since k, s.group gid = some g → g.status = .evicted since (some k) →
    (∀ e ∈ s.groups, e.2.core = g.core → ∀ j, wokeAt e.2 = some j → k ≤ j) → 0 < slotsFree s g.core →
    g.regbytes ≤ regsFree s g.core → (s.quad (g.core / 4)).draining = false →
    ∃ t h, exec (.groupRestore gid) s = .next t ∧ OnlyGroup s t gid h ∧ h.status = .resident ∧ h.regs = g.regs ∧ h.uni = g.uni ∧
      h.preds = g.preds ∧ h.core = g.core ∧
      (∀ n p, g.path n = some p → ∃ q, h.path n = some q ∧ q.pc = p.pc ∧ q.mask = p.mask ∧ (∀ w, p.status = .blocked w → q.status = .run)) ∧
      ∀ n o, kget h.ops n = some o → o.dropped = false) ∧
  (∀ s gid g since k, s.group gid = some g → g.status = .evicted since (some k) →
    (∃ e ∈ s.groups, e.2.core = g.core ∧ ∃ j, wokeAt e.2 = some j ∧ j < k) → exec (.groupRestore gid) s = .next s) ∧
  (∀ s gid g, s.group gid = some g → (mayLeave s g = false ∨ evictReason s gid g = false) → exec (.groupEvict gid) s = .next s)

/-- A group as it is placed (04 R68, 12 R248): lanes, registers zero but for the arguments, one path at the entry, the descriptor's mode
and views. -/
def FreshGroup (l : Launch) (cid core index i : Nat) (h : Group) : Prop :=
  let n := if index + 1 = l.rcd.cohorts ∧ i + 1 = l.kd.groups then l.rcd.lastlanes else 64
  h.asid = l.asid ∧ h.core = core ∧ h.cohort = cid ∧ h.grpidx = i ∧ h.lanes = n ∧ h.status = .resident ∧ h.regbytes = l.kd.regbytes ∧
    h.regs = [] ∧ h.u 0 = l.rcd.args.extractLsb' 0 32 ∧ h.u 1 = l.rcd.args.extractLsb' 32 32 ∧ (∀ k, 1 < k → h.u k = 0) ∧ h.preds = [] ∧
    h.mode = l.kd.mode ∧ h.views = l.kd.views ∧ h.flags = 0 ∧ h.sa = 0 ∧ h.sb = 0 ∧ h.exited = 0 ∧ h.stack = [] ∧ h.ret = [] ∧ h.ops = [] ∧
    h.banks = [] ∧ h.handler = none ∧
    ∃ q, h.paths = [(pathNumber (lanesBelow n), q)] ∧ q.mask = lanesBelow n ∧ q.pc = BitVec.ofNat 56 l.kd.entry ∧ q.status = .run ∧
      q.region.pc = q.pc ∧ q.region.regidx = 0xFFFF

/-- COHORT_PLACEMENT of a launch without quad sets: the highest-ranked launch's next cohort stands on the core chosen, with its tiles
empty and zero, and its groups fresh; no load-cache line of the core is left (13 R272, R273, 09 R213). -/
def CohortPlaced : Prop :=
  ∀ (die : Nat) (spill : Dbl) s lid l rest core, ranked s die = (lid, l) :: rest → (∀ e ∈ (lid, l) :: rest, couldFit s die e.2 = true) →
    l.rcd.bquad = 0 → chooseCores s die lid l = some [core] → kget s.launches lid = some l →
    ∃ t c, exec (.cohortPlacement die spill) s = .next t ∧ t.mem = s.mem ∧ kget t.cohorts s.nextOp = some c ∧ c.launch = lid ∧
      c.index = l.nextCohort ∧ c.core = core ∧ c.tiles = lowestFree (tilesUsed s core) 192 (l.kd.scratch / 4096) ∧
      c.groups = (List.range l.kd.groups).map (fun i => s.nextOp + 2 + 2 * i) ∧ c.aborted = none ∧
      (∀ k ∈ c.tiles, (t.core core).tile k = tileEmpty ∧ ∀ x, x < 4096 → mget 0 (t.core core).scr (4096 * k + x) = 0) ∧
      (∀ i, i < l.kd.groups → ∃ h, t.group (s.nextOp + 2 + 2 * i) = some h ∧ FreshGroup l s.nextOp core l.nextCohort i h) ∧
      (t.core core).lines = [] ∧ (∀ n, n < s.nextOp → t.group n = s.group n) ∧
      ∃ l', kget t.launches lid = some l' ∧ l'.nextCohort = l.nextCohort + 1 ∧ l'.live = l.live + 1 ∧ l'.rcd = l.rcd

/-- A launch that could not fit even an empty die is dropped: no further cohort of it is placed (13 R273), and it gives no signal: the
spec says that of a device launch (R277), and for one from a queue, of which this speaks, it is the model's choice (log entry 21). -/
def NeverFitDropped : Prop :=
  ∀ (die : Nat) (spill : Dbl) s lid l rest d q k slot tag, ranked s die = (lid, l) :: rest → couldFit s die l = false →
    l.source = .queue d q k slot tag →
    ∃ t l', exec (.cohortPlacement die spill) s = .next t ∧ kget t.launches lid = some l' ∧ l'.killed = true ∧ l'.rcd.flags = 0 ∧
      l'.nextCohort = l.nextCohort ∧ (t.queue d q).halted = some 0x09 ∧ (t.queue d q).haltSlot = slot

/-- PENDING_LAUNCH_ENTRY_FREE reserves the freed entry for the LAUNCH that has waited longest (13 R277). -/
def EntryFreed : Prop :=
  ∀ s die w ws, entriesHeld s die < 2048 → (s.die die).lwaits = w :: ws → w.reserved = false → underCap s die w.tenant = true →
    (∀ v ∈ ws, ¬ (v.gid = w.gid ∧ v.uid = w.uid)) →
    ∃ t, exec (.pendingLaunchEntryFree die) s = .next t ∧ t = { s with dies := t.dies } ∧ (∀ d, d ≠ die → t.die d = s.die d) ∧
      t.die die = { s.die die with lwaits := { w with reserved := true } :: ws }

/-! ## Watchdogs and quads -/

/-- The kill of a launch (13 R280): no path of its cohorts runs on, its queue halts with 0x0B, and it places nothing more. -/
def KillEnds : Prop :=
  ∀ s die lid l, kget s.launches lid = some l → l.killed = false → s.pairings = [] →
    let t := killLaunch s die lid
    (∃ l', kget t.launches lid = some l' ∧ l'.killed = true ∧ l'.aborted = true ∧ l'.holdsEntry = false ∧ l'.rcd = l.rcd) ∧
    (∀ d q k slot tag, l.source = .queue d q k slot tag → (t.queue d q).halted = some 0x0B ∧ (t.queue d q).haltSlot = slot) ∧
    ∀ cid c, kget s.cohorts cid = some c → c.launch = lid → c.aborted = none →
      (∃ c', kget t.cohorts cid = some c' ∧ c'.aborted = some 0 ∧ c'.event = 0) ∧
      ∀ n ∈ c.groups, ∀ g, s.group n = some g → ∃ h, t.group n = some h ∧ h.status = .ending true ∧ h.paths = []

/-- GROUP_WATCHDOG_EXPIRY is the stall trap of a group runnable for gcyc cycles, counted on its quad; CP_WATCHDOG_EXPIRY kills the oldest
launch of a queue without progress; QUAD_BARRIER_TIMEOUT counts an instance once (13 R279, R280, 12 R261). -/
def WatchdogsExpire : Prop :=
  (∀ s gid g pid p rest, s.group gid = some g → g.status = .resident → (s.die (g.core / 256)).gcyc ≠ 0 → (s.die (g.core / 256)).gcyc ≤ g.stall →
    g.paths = (pid, p) :: rest → pathRunnable p = true →
    exec (.groupWatchdogExpiry gid) s = .next (countStall
      (trapEnter (s.setGroup gid { g with stall := 0 }) gid (trapOf 0x0F) pid false p.pc.toNat
        (wordAt (s.setGroup gid { g with stall := 0 }) g p.pc)) (g.core / 4) (s.launchOf g))) ∧
  (∀ s gid g, s.group gid = some g → ((s.die (g.core / 256)).gcyc = 0 ∨ g.stall < (s.die (g.core / 256)).gcyc) →
    exec (.groupWatchdogExpiry gid) s = .next s) ∧
  (∀ s qn lid, (s.quad qn).stalls < 255 → ((s.quad qn).esc = 0 ∨ (s.quad qn).stalls + (s.quad qn).btos + 1 < (s.quad qn).esc) →
    (countStall s qn lid).quad qn = { s.quad qn with
      stalls := (s.quad qn).stalls + 1
      stallBy := if (s.quad qn).stallBy.contains lid then (s.quad qn).stallBy else (s.quad qn).stallBy ++ [lid] }) ∧
  (∀ s die q k p rest lid, (s.die die).cpms ≠ 0 → (s.queue die q).pkts = (k, p) :: rest → p.kind = .launch lid →
    (∀ e ∈ (k, p) :: rest, pktWaits e.2 = false) → (s.queue die q).progress + 1200000 * (s.die die).cpms ≤ s.now →
    exec (.cpWatchdogExpiry die q) s = .next (killLaunch s die lid)) ∧
  (∀ s quad idx b rest, s.barriers = b :: rest → b.scope = .quad → b.idx = idx → b.domain = quad → b.arrivals ≠ 0 → b.timedOut = false →
    (s.quad quad).bto ≠ 0 → b.firstAt + 1200 * (s.quad quad).bto ≤ s.now → (s.quad quad).btos < 255 →
    ((s.quad quad).esc = 0 ∨ (s.quad quad).stalls + (s.quad quad).btos + 1 < (s.quad quad).esc) →
    ∃ t, exec (.quadBarrierTimeout quad idx) s = .next t ∧ t = { s with barriers := t.barriers, quads := t.quads } ∧
      t.quad quad = { s.quad quad with btos := (s.quad quad).btos + 1, lastbar := idx % 8 } ∧
      ∀ n, n ≠ quad → t.quad n = s.quad n)

/-- The quad's controls (12 R250, R251, R256, R261) write their own quad and nothing else; a remap moves every slot's generation on; a
failed quad goes offline and the launches with cohorts there are killed. That the cohorts on
a quad written offline run on is the model's choice (log entry 101), and that a remap or a mode change drains a quad that has groups its
reading (log entry 53). -/
def QuadControlsComplete : Prop :=
  ∀ s quad, s.recovery = false → quad < 1024 →
    (∀ phys, phys < 66 → physUsed s quad phys = false → quadEmpty s quad = true →
      ∃ t, exec (.quadRemap quad phys) s = .next t ∧ t = { s with quads := t.quads, cores := t.cores } ∧
        t.quad quad = { s.quad quad with phys := phys, draining := false } ∧ (∀ n, n ≠ quad → t.quad n = s.quad n) ∧
        (∀ c, c / 4 = quad → (t.core c).otags = [] ∧ (t.core c).ws = (s.core c).ws ∧
          ∀ n, n < 64 → (t.core c).slot n = { (s.core c).slot n with gen := (((s.core c).slot n).gen + 1) % 65536 }) ∧
        ∀ c, c / 4 ≠ quad → t.core c = s.core c) ∧
    (∀ phys, phys < 66 → physUsed s quad phys = false → quadEmpty s quad = false →
      exec (.quadRemap quad phys) s = .next (s.setQuad quad { s.quad quad with draining := true })) ∧
    (∀ off, exec (.quadOffline quad off) s = .next (s.setQuad quad { s.quad quad with offline := off })) ∧
    (∀ on, quadEmpty s quad = true → (on = true → ∀ c ∈ quadCores quad, (tilesUsed s c).length ≤ 168) →
      (on = false → ∀ e ∈ (s.quad quad).pubs, e.2.chained = false) →
      exec (.chainModeSet quad on) s = .next (s.setQuad quad { s.quad quad with chain := on, wantChain := on, draining := false })) ∧
    (∀ on, quadEmpty s quad = false → ∃ t, exec (.chainModeSet quad on) s = .next t ∧ (t.quad quad).chain = (s.quad quad).chain ∧
      (t.quad quad).wantChain = on ∧ ((t.quad quad).draining = true ↔ (s.quad quad).draining = true ∨ on ≠ (s.quad quad).chain)) ∧
    (∀ v : Word, v.toNat / 2 ^ 24 % 2 = 1 → exec (.qwctlClr quad v) s = .next (s.setQuad quad { s.quad quad with
      bto := v.toNat % 65536, esc := v.toNat / 65536 % 256, stalls := 0, btos := 0, stallBy := [] })) ∧
    (∃ t, exec (.quadFailure quad) s = .next t ∧ (t.quad quad).offline = true ∧ t.mem = s.mem ∧
      ∀ lid l cid c, kget s.launches lid = some l → kget s.cohorts cid = some c → c.launch = lid → c.core / 4 = quad →
        ∃ l', kget t.launches lid = some l' ∧ l'.killed = true ∧ l'.aborted = true)

/-- CHAIN_HOP_COMPLETE: the receiving core's buffer holds the bytes of the tile or buffer before it and is READY, and the next buffer
begins to fill; a fourth failed try, the third resend, poisons the buffers from there on, which is the
model's reading of R259 (log entry 127). A withdrawn publication's entry goes (12 R257, R259). -/
def ChainHopCompletes : Prop :=
  ∀ s core pub idx e, kget (s.quad (core / 4)).pubs (8 * (pub % 4) + idx % 8) = some e → hopInto e (pub % 4) core = true →
    let key := 8 * (pub % 4) + idx % 8
    let src : TileRef := if e.hops = 0 then e.tile else ⟨4 * (core / 4) + (pub % 4 + e.hops) % 4, 192 + 8 * (e.hops - 1) + idx % 8⟩
    let dst := 192 + 8 * e.hops + idx % 8
    (e.withdrawn = false →
      (∃ t, exec (.chainHopComplete core pub idx false) s = .next t ∧ t = { s with quads := t.quads, cores := t.cores } ∧
        kget (t.quad (core / 4)).pubs key = some { e with hops := e.hops + 1, fails := 0 } ∧
        ((t.core core).tile dst).state = .ready ∧
        (∀ x, x < 4096 → mget 0 (t.core core).scr (4096 * dst + x) = mget 0 (s.core src.core).scr (4096 * src.tile + x)) ∧
        (e.hops < 2 → ((t.core (4 * (core / 4) + (pub % 4 + e.hops + 2) % 4)).tile (dst + 8)).state = .filling)) ∧
      (e.fails < 3 → ∃ t, exec (.chainHopComplete core pub idx true) s = .next t ∧ t = { s with quads := t.quads } ∧
        kget (t.quad (core / 4)).pubs key = some { e with fails := e.fails + 1 }) ∧
      (3 ≤ e.fails → ∃ t, exec (.chainHopComplete core pub idx true) s = .next t ∧ t = { s with quads := t.quads } ∧
        (t.quad (core / 4)).hop = true ∧
        kget (t.quad (core / 4)).pubs key = some { e with poisonedFrom := some (e.hops + 1), fails := 0 })) ∧
    (e.withdrawn = true → ∃ t, exec (.chainHopComplete core pub idx false) s = .next t ∧ kget (t.quad (core / 4)).pubs key = none)

end Sys2Proof.Claims

/-- Groups, cohorts and launches end; groups are evicted and restored. -/
def Obligations.EndsAndEvictions : Prop :=
  Sys2Proof.Claims.GroupEndCompletes ∧ Sys2Proof.Claims.LaunchCompletes ∧ Sys2Proof.Claims.EvictionAndRestoration

/-- Cohorts are placed, with fresh groups and empty tiles; a launch that can never fit is dropped; freed entries are reserved in turn. -/
def Obligations.PlacementCompletes : Prop :=
  Sys2Proof.Claims.CohortPlaced ∧ Sys2Proof.Claims.NeverFitDropped ∧ Sys2Proof.Claims.EntryFreed

/-- The watchdogs and the quad's own steps. -/
def Obligations.WatchdogsAndQuads : Prop :=
  Sys2Proof.Claims.KillEnds ∧ Sys2Proof.Claims.WatchdogsExpire ∧ Sys2Proof.Claims.QuadControlsComplete ∧ Sys2Proof.Claims.ChainHopCompletes

/-! ## Hardware queues -/
namespace Sys2Proof.Claims
open Sys2Proof.Machine

/-- QUEUE_ENABLE, QUEUE_DISABLE and QRESUME_GO (13 R264, R265, R270): only the queue changes, but that a queue that passes from one tenant
to another interrupts both (20 R358). A queue whose address space is not its tenant's is not enabled (20 R376). -/
def QueueControlsComplete : Prop :=
  ∀ s die q, die < 16 → q < 128 →
    let x := s.queue die q
    (∀ (v : Word) b, x.en = false → v.toNat / 128 % 2 = 1 → enableOk s die (qctlFields x v) = true →
      vread s (cpCore die) (qctlFields x v).asid (x.ptrblk + 64) 4 = .ok b →
      exec (.queueEnable die q v) s = .next (quotaMoved (s.setQueue die q
        { qctlFields x v with en := true, halted := none, resumed := false, rptr := leNat b, wptr := leNat b, progress := s.now }) x.tenant (v.toNat / 256 % 64))) ∧
    (∀ v : Word, x.en = false → v.toNat / 128 % 2 = 1 → enableOk s die (qctlFields x v) = false →
      exec (.queueEnable die q v) s = .next (quotaMoved (s.setQueue die q (qctlFields x v)) x.tenant (v.toNat / 256 % 64))) ∧
    (∀ v : Word, s.tenantOf (v.toNat / 2 ^ 14 % 1024) ≠ v.toNat / 256 % 64 → enableOk s die (qctlFields x v) = false) ∧
    (∀ v : Word, x.en = true → v.toNat / 128 % 2 = 0 →
      exec (.queueDisable die q v) s = .next (s.setQueue die q { x with en := false, halted := none, prio := v.toNat / 32 % 4 })) ∧
    (x.en = true → x.halted.isSome = true →
      exec (.qresumeGo die q) s = .next (s.setQueue die q { x with halted := none, resumed := true }) ∧
      (sigBlocked x = false → (qstatus { x with halted := none, resumed := true }).toNat % 8 = 1))

/-- QUEUE_POINTER_POLL takes the write pointer from the pointer block; more packets than the ring holds halt the queue with 0x07. With new
slots, up to the ring's size, the packet at the read pointer is looked at: a malformed one halts the queue, and any other waits for its
start (R265, R266, R270). -/
def PointerPolled : Prop :=
  ∀ s die q b,
    let x := s.queue die q
    x.en = true → x.halted = none → s.tenantOf x.asid = x.tenant → locked (s.die die).locks 0 false x.asid x.ptrblk 4 = false →
    vread s (cpCore die) x.asid x.ptrblk 4 = .ok b →
    (2 ^ x.lsize < (leNat b + 2 ^ 32 - x.rptr) % 2 ^ 32 → ∃ t, exec (.queuePointerPoll die q) s = .next t ∧
      (t.queue die q).wptr = leNat b ∧ (t.queue die q).halted = some 0x07 ∧ (t.queue die q).rptr = x.rptr) ∧
    ((leNat b + 2 ^ 32 - x.rptr) % 2 ^ 32 = 0 →
      exec (.queuePointerPoll die q) s = .next (s.setQueue die q { x with wptr := leNat b })) ∧
    (1 ≤ (leNat b + 2 ^ 32 - x.rptr) % 2 ^ 32 → (leNat b + 2 ^ 32 - x.rptr) % 2 ^ 32 ≤ 2 ^ x.lsize →
      let y : Queue := { x with wptr := leNat b }
      let u := s.setQueue die q y
      ∃ t, exec (.queuePointerPoll die q) s = .next t ∧ (t.queue die q).wptr = leNat b ∧ (t.queue die q).rptr = x.rptr ∧
        (t.queue die q).pkts = x.pkts ∧ match lookAt u die y with
        | .bad c _ => (t.queue die q).halted = some c ∧ (t.queue die q).haltSlot = x.rptr % 2 ^ x.lsize
        | .ask .. => t.queue die q = y
        | _ => t = u)

/-- The packet at the read pointer starts: a body of type `t`, checked. -/
def Starts (s : State) (die q t : Nat) (x : Queue) (b : List Byte) : Prop :=
  x = s.queue die q ∧ lookAt s die x = .ready b ∧ pf b 0 1 = t

/-- The read pointer has passed the packet, in the queue and in its pointer block, and nothing else of memory has changed but what `u`
already holds (R266). -/
def Passed (u t : State) (die q : Nat) (x : Queue) (b : List Byte) : Prop :=
  (t.queue die q).rptr = (x.rptr + b.length / 64) % 2 ^ 32 ∧
  t.mem = (vwrite u (cpCore die) x.asid (x.ptrblk + 64) (leBytes 4 ((x.rptr + b.length / 64) % 2 ^ 32))).1.mem

/-- The packet has completed at its start; its interrupt is the queue's completion vector (R267). -/
def DoneAtStart (i : Instr) (s u : State) (die q : Nat) (x : Queue) (b : List Byte) : Prop :=
  ∃ t, exec i s = .next t ∧ Passed u t die q x b ∧ (t.queue die q).pkts = x.pkts ∧ (t.queue die q).halted = x.halted ∧
    t.groups = s.groups ∧ t.outputs = u.outputs ++ (if pf b 1 1 / 4 % 2 = 1 then [.msix (x.tenant + 1) 1] else [])

/-- The packet is in hand, started and incomplete. -/
def InHand (i : Instr) (s u : State) (die q : Nat) (x : Queue) (b : List Byte) (k : PktKind) : Prop :=
  ∃ t, exec i s = .next t ∧ Passed u t die q x b ∧ t.groups = s.groups ∧
    kget (t.queue die q).pkts x.nextPkt = some ⟨k, x.asid, x.tenant, decide (pf b 1 1 / 4 % 2 = 1), BitVec.ofNat 32 (pf b 4 4), x.rptr % 2 ^ x.lsize⟩

/-- NOP, SETSIG and MARKER complete at their start, and PREFETCH where the migrations it asks for have started; LAUNCH, COPY, CHECKPOINT, a
WAITSIG whose signal is below its value, and a PREFETCH whose migrations wait, stay in hand (R268). -/
def PacketsStart : Prop :=
  ∀ s die q x b,
    (Starts s die q 1 x b → DoneAtStart (.packetNop die q) s s die q x b) ∧
    (Starts s die q 3 x b →
      let lo := pf b 8 8 / 65536 * 65536
      let hi := lo + 65536 * pf b 16 4
      let u := hintWindow s (iodOf (cpCore die)) x.asid lo hi
      (windowWaits u (iodOf (cpCore die)) x.asid lo hi = false → DoneAtStart (.packetPrefetch die q) s u die q x b) ∧
      (windowWaits u (iodOf (cpCore die)) x.asid lo hi = true → InHand (.packetPrefetch die q) s u die q x b (.prefetch lo hi))) ∧
    (∀ v, Starts s die q 4 x b → readSignal s die x.asid (pf b 8 8) = .ok v →
      (pf b 16 8 ≤ v → DoneAtStart (.packetWaitsig die q) s s die q x b) ∧
      (v < pf b 16 8 → InHand (.packetWaitsig die q) s s die q x b (.waitsig (pf b 8 8) (pf b 16 8) (pf b 24 4) s.now))) ∧
    (∀ u, Starts s die q 5 x b → pf b 24 1 = 0 → check145 s (cpCore die) x.asid .write 8 (pf b 8 8) 8 = .ok () →
      cpLocked s true x.asid (pf b 8 8) 8 = false → writeUnit s (cpCore die) x.asid (pf b 8 8) ((b.drop 16).take 8) = .ok u → DoneAtStart (.packetSetsig die q) s u die q x b) ∧
    (∀ u, Starts s die q 5 x b → pf b 24 1 = 1 → addWord s (cpCore die) x.asid (pf b 8 8) (pf b 16 8) = .ok u →
      DoneAtStart (.packetSetsig die q) s u die q x b) ∧
    (∀ u, Starts s die q 8 x b → check145 s (cpCore die) x.asid .write 32 (pf b 8 8) 32 = .ok () →
      cpLocked s true x.asid (pf b 8 8) 32 = false → writeUnit s (cpCore die) x.asid (pf b 8 8) (markerBytes s die q (x.rptr % 2 ^ x.lsize) b) = .ok u →
      DoneAtStart (.packetMarker die q) s u die q x b) ∧
    (∀ r k, Starts s die q 2 x b → packetRec s die x b = some (r, k) →
      InHand (.packetLaunch die q) s s die q x b (.launch s.nextOp) ∧
      ∀ t, exec (.packetLaunch die q) s = .next t → ∃ l, kget t.launches s.nextOp = some l ∧ l.rcd = r ∧ l.kd = k ∧ l.asid = x.asid ∧
        l.tenant = x.tenant ∧ l.dies = maskDies die (pf b 8 2) ∧ l.nextCohort = 0) ∧
    (Starts s die q 6 x b → operandBad s (cpCore die) x.asid .read (pf b 8 8) (pf b 24 8) = none →
      operandBad s (cpCore die) x.asid .write (pf b 16 8) (pf b 24 8) = none →
      (pf b 32 8 ≠ 0 → operandBad s (cpCore die) x.asid (.atom true) (pf b 32 8) 8 = none) →
      InHand (.packetCopy die q) s s die q x b (.copy (pf b 8 8) (pf b 16 8) (pf b 24 8) 0 (pf b 32 8) (pf b 40 8))) ∧
    (Starts s die q 7 x b → quiesced s (pf b 8 1) die q = true →
      (rangeType s (cpCore die) x.asid (pf b 32 8) = 0 ∨ rangeType s (cpCore die) x.asid (pf b 32 8) = 3) →
      InHand (.packetCheckpoint die q) s s die q x b (.checkpoint b))

/-- A packet that cannot start halts the queue at its slot, with its code, and does not pass the pointer, whichever packet's start finds it
(R269, R270). -/
def MalformedHalts : Prop :=
  ∀ s die q code tag, lookAt s die (s.queue die q) = .bad code tag →
    ∀ i ∈ [Instr.packetNop die q, .packetLaunch die q, .packetPrefetch die q, .packetWaitsig die q, .packetSetsig die q,
      .packetCopy die q, .packetCheckpoint die q, .packetMarker die q],
    ∃ t, exec i s = .next t ∧ (t.queue die q).halted = some code ∧
      (t.queue die q).haltSlot = (s.queue die q).rptr % 2 ^ (s.queue die q).lsize ∧ (t.queue die q).rptr = (s.queue die q).rptr

/-- The codes of R269 that a packet's first bytes decide: an unknown type, a length bit that does not fit its type, a long packet in the
ring's last slot; a long packet of which only the first slot is covered is left alone (R266). -/
def PacketCodes : Prop :=
  ∀ s die q b,
    let x := s.queue die q
    s.tenantOf x.asid = x.tenant → x.en = true → x.halted = none → x.pkts = [] → 1 ≤ (x.wptr + 2 ^ 32 - x.rptr) % 2 ^ 32 → (x.wptr + 2 ^ 32 - x.rptr) % 2 ^ 32 ≤ 2 ^ x.lsize →
    vread s (cpCore die) x.asid (x.base + 64 * (x.rptr % 2 ^ x.lsize)) 64 = .ok b →
    ((pf b 0 1 = 0 ∨ 8 < pf b 0 1) → lookAt s die x = .bad 0x01 (BitVec.ofNat 32 (pf b 4 4))) ∧
    (1 ≤ pf b 0 1 → pf b 0 1 ≤ 8 → ((pf b 0 1 = 2 ∨ pf b 0 1 = 7) ↔ pf b 1 1 % 2 = 0) →
      lookAt s die x = .bad 0x02 (BitVec.ofNat 32 (pf b 4 4))) ∧
    ((pf b 0 1 = 2 ∨ pf b 0 1 = 7) → pf b 1 1 % 2 = 1 → (x.wptr + 2 ^ 32 - x.rptr) % 2 ^ 32 = 1 → lookAt s die x = .none) ∧
    ((pf b 0 1 = 2 ∨ pf b 0 1 = 7) → pf b 1 1 % 2 = 1 → 2 ≤ (x.wptr + 2 ^ 32 - x.rptr) % 2 ^ 32 →
      x.rptr % 2 ^ x.lsize + 1 = 2 ^ x.lsize → lookAt s die x = .bad 0x03 (BitVec.ofNat 32 (pf b 4 4)))

/-- Byte `k` of a packet of type `t` belongs to no field (R268, 15 R317; those of a launch record are R212's). -/
def ReservedByte (t k : Nat) : Prop :=
  k = 2 ∨ k = 3 ∨ (t = 1 ∧ 8 ≤ k) ∨ (t = 2 ∧ 10 ≤ k ∧ k < 64) ∨ (t = 3 ∧ 21 ≤ k) ∨ (t = 4 ∧ 28 ≤ k) ∨ (t = 5 ∧ 25 ≤ k) ∨ (t = 6 ∧ 48 ≤ k) ∨
    (t = 7 ∧ ((10 ≤ k ∧ k < 16) ∨ 72 ≤ k)) ∨ (t = 8 ∧ 16 ≤ k)

/-- A reserved bit or byte of the packet is not zero. -/
def ReservedSet (b : List Byte) : Prop :=
  8 ≤ pf b 1 1 ∨ (pf b 0 1 = 3 ∧ 2 ≤ pf b 20 1) ∨ (pf b 0 1 = 7 ∧ 4 ≤ pf b 9 1) ∨
    ∃ k, k < b.length ∧ ReservedByte (pf b 0 1) k ∧ b.getD k 0 ≠ 0

/-- The launch record of a packet breaks R212 or R248, or its descriptor is not installed, or the tenant has no valid one. -/
def RecordBroken (s : State) (die : Nat) (x : Queue) (b : List Byte) : Prop :=
  let r := launchRecOfBytes (b.drop 64)
  (s.tenant x.tenant).valid = false ∨ kdescAt s (cpCore die) x.asid r.kdesc = none ∨
    ∃ k, kdescAt s (cpCore die) x.asid r.kdesc = some k ∧ recBreak r (b.drop 116) (some k) ≠ none

/-- A misaligned address, a length or count out of range, a value that is not listed. -/
def FieldsBad (b : List Byte) : Prop :=
  (pf b 0 1 = 3 ∧ (pf b 16 4 = 0 ∨ 2 ^ 20 < pf b 16 4)) ∨ ((pf b 0 1 = 4 ∨ pf b 0 1 = 5) ∧ pf b 8 8 % 8 ≠ 0) ∨ (pf b 0 1 = 5 ∧ 1 < pf b 24 1) ∨
    (pf b 0 1 = 6 ∧ (pf b 8 8 % 64 ≠ 0 ∨ pf b 16 8 % 64 ≠ 0 ∨ pf b 24 8 % 64 ≠ 0 ∨ pf b 24 8 = 0 ∨ 2 ^ 40 < pf b 24 8 ∨ pf b 32 8 % 8 ≠ 0)) ∨
    (pf b 0 1 = 7 ∧ (63 < pf b 8 1 ∨ pf b 16 8 % 32 ≠ 0 ∨ (pf b 9 1 % 2 = 0 ∧ pf b 16 8 ≠ 0) ∨ pf b 24 8 % 32 ≠ 0 ∨ pf b 32 8 % 64 ≠ 0 ∨
      pf b 48 8 % 8 ≠ 0)) ∨ (pf b 0 1 = 8 ∧ pf b 8 8 % 32 ≠ 0)

/-- Codes 0x04, 0x05 and 0x06 of R269, in that order, for a packet whose type, length bit and slots are right and whose bar lets it start;
with none of them it starts. That they
rank in the order of the table is the model's reading (log entry 126), and so is 0x05 for reserved bytes of a launch record (log entry 31). -/
def BodyCodes : Prop :=
  ∀ s die q b b2,
    let x := s.queue die q
    let n := (x.wptr + 2 ^ 32 - x.rptr) % 2 ^ 32
    let slot := x.rptr % 2 ^ x.lsize
    let long := pf b 0 1 = 2 ∨ pf b 0 1 = 7
    s.tenantOf x.asid = x.tenant → x.en = true → x.halted = none → x.pkts = [] → 1 ≤ n → n ≤ 2 ^ x.lsize →
    vread s (cpCore die) x.asid (x.base + 64 * slot) 64 = .ok b → 1 ≤ pf b 0 1 → pf b 0 1 ≤ 8 → (long ↔ pf b 1 1 % 2 = 1) →
    (long → 2 ≤ n ∧ slot + 1 ≠ 2 ^ x.lsize ∧ vread s (cpCore die) x.asid (x.base + 64 * (slot + 1)) 64 = .ok b2) → (¬ long → b2 = []) →
    let c := b ++ b2
    let broken := pf b 0 1 = 2 ∧ RecordBroken s die x c
    (ReservedSet c → lookAt s die x = .bad 0x04 (BitVec.ofNat 32 (pf b 4 4))) ∧
    (¬ ReservedSet c → broken → lookAt s die x = .bad 0x05 (BitVec.ofNat 32 (pf b 4 4))) ∧
    (¬ ReservedSet c → ¬ broken → FieldsBad c → lookAt s die x = .bad 0x06 (BitVec.ofNat 32 (pf b 4 4))) ∧
    (¬ ReservedSet c → ¬ broken → ¬ FieldsBad c → lookAt s die x = .ready c)

/-- The 32-byte record of a MARKER: tag, queue, die, time, slot, zeros (R268). -/
def MarkerRecord : Prop :=
  ∀ s die q slot (b : List Byte), 8 ≤ b.length →
    let m := markerBytes s die q slot b
    m.length = 32 ∧ m.take 4 = (b.drop 4).take 4 ∧ pf m 4 2 = q % 65536 ∧ pf m 6 2 = die % 65536 ∧ pf m 8 8 = s.now % 2 ^ 64 ∧
      pf m 16 4 = slot % 2 ^ 32 ∧ pf m 20 12 = 0

/-! ## Packets in hand -/

/-- A PREFETCH in hand is done with as soon as no migration of its window waits, and not before (R268). -/
def PrefetchEnds : Prop :=
  ∀ s die q k p lo hi, (s.dies.map (·.1)).Nodup → ((s.die die).queues.map (·.1)).Nodup → ((s.queue die q).pkts.map (·.1)).Nodup →
    kget (s.queue die q).pkts k = some p → p.kind = .prefetch lo hi →
    let over_ := windowWaits s (iodOf (cpCore die)) p.asid lo hi = false
    (over_ → kget ((settlePrefetches s).queue die q).pkts k = none) ∧
    (¬ over_ → kget ((settlePrefetches s).queue die q).pkts k = some p)

/-- Packet `k` is done with, and no other. -/
def PacketGone (s t : State) (die q k : Nat) : Prop :=
  kget (t.queue die q).pkts k = none ∧ (∀ j, j ≠ k → kget (t.queue die q).pkts j = kget (s.queue die q).pkts j) ∧
    (t.queue die q).rptr = (s.queue die q).rptr

/-- The packet fails because the ASID map has since given its address space to another tenant: the queue halts with 0x08 at its slot, by the
model's choice (20 R376, log entry 106). -/
def DisownedFails (i : Instr) (s : State) (die q k slot : Nat) : Prop :=
  ∃ t, exec i s = .next t ∧ PacketGone s t die q k ∧ (t.queue die q).halted = some 0x08 ∧ (t.queue die q).haltSlot = slot

/-- WAITSIG ends when its signal stands at its value. WAITSIG_TIMEOUT ends one whose timeout in µs has elapsed, and halts the queue with 0x0A
at the packet's slot (R268, R269). -/
def WaitsigEnds : Prop :=
  ∀ s die q k as a v lim f p, waitsigOf (s.queue die q) = some (k, as, a, v, lim, f) → kget (s.queue die q).pkts k = some p →
    (s.tenantOf as ≠ p.tenant → DisownedFails (.waitsigReevaluation die q) s die q k p.slot) ∧
    (∀ w, s.tenantOf as = p.tenant → readSignal s die as a = .ok w → v ≤ w → ∃ t, exec (.waitsigReevaluation die q) s = .next t ∧
      PacketGone s t die q k ∧ t.mem = s.mem ∧ (t.queue die q).halted = (s.queue die q).halted) ∧
    (∀ w, s.tenantOf as = p.tenant → readSignal s die as a = .ok w → w < v → exec (.waitsigReevaluation die q) s = .next s) ∧
    (lim ≠ 0 → f + 1200 * lim ≤ s.now → ∃ t, exec (.waitsigTimeout die q) s = .next t ∧ PacketGone s t die q k ∧
      (t.queue die q).halted = some 0x0A ∧ (t.queue die q).haltSlot = p.slot) ∧
    ((lim = 0 ∨ s.now < f + 1200 * lim) → exec (.waitsigTimeout die q) s = .next s)

/-- QUEUE_COPY_COMPLETE moves the units that are left, in order, in the address space under which the packet started; it adds the addend to
the signal, where there is one, and the packet is done with (R268). -/
def QueueCopyCompletes : Prop :=
  ∀ s die q k src dst len d sig add as ten intr tag slot u,
    kget (s.queue die q).pkts k = some ⟨.copy src dst len d sig add, as, ten, intr, tag, slot⟩ → d ≤ len → (len - d) % 64 = 0 →
    s.contextHalted (engDie die) as = false → s.tenantOf as = ten → moveUnits (cpCore die) as ((len - d) / 64) s src dst d = (u, len, none) →
    (sig = 0 → ∃ t, exec (.queueCopyComplete die q k) s = .next t ∧ PacketGone s t die q k ∧ t.mem = u.mem ∧ t.hostMem = u.hostMem) ∧
    (∀ v, let over_ : Pkt := ⟨.copy src dst len len sig add, as, ten, intr, tag, slot⟩
      sig ≠ 0 → addWord (u.setQueue die q { u.queue die q with pkts := kset (u.queue die q).pkts k over_ }) (cpCore die) as sig add = .ok v →
      ∃ t, exec (.queueCopyComplete die q k) s = .next t ∧ PacketGone s t die q k ∧ t.mem = v.mem ∧ t.hostMem = v.hostMem)

/-- A copy whose address space is no longer its tenant's fails, by the model's choice (20 R376, log entry 106). -/
def QueueCopyDisowned : Prop :=
  ∀ s die q k src dst len d sig add as ten intr tag slot,
    kget (s.queue die q).pkts k = some ⟨.copy src dst len d sig add, as, ten, intr, tag, slot⟩ →
    s.contextHalted (engDie die) as = false → s.tenantOf as ≠ ten → DisownedFails (.queueCopyComplete die q k) s die q k slot

/-- A unit is the 64 bytes at its source, written at its destination. -/
def UnitMoved : Prop :=
  ∀ s core as src dst b t, readUnit s core as src 64 = .ok b → writeUnit s core as dst b = .ok t →
    moveUnits core as 1 s src dst 0 = (t, 64, none)

/-! ## Checkpoints (15 R318) -/

/-- The blocks that a checkpoint of tenant `ten` hashes: those of the tenant's resident HBM ranges, and of the present chunks of its stopped
ones; a short last block has its own length. -/
def CheckpointBlocks : Prop :=
  ∀ s ten k, k ∈ (ckBlocks s ten).1 ↔ ∃ asid, asid < 1024 ∧ s.tenantOf asid = ten ∧ ∃ e ∈ descsOf s asid, e.2.type = 0 ∧
    ∃ i, 4096 * i < e.2.length ∧ (s.rstate e.1 e.2 = 0 ∨ (s.rstate e.1 e.2 = 3 ∧ mget 0 (s.aux e.1).pres (i / 16) = 1)) ∧
      k = ⟨asid, e.2.vbase, i, storedBase s e + 4096 * i, Nat.min 4096 (e.2.length - 4096 * i)⟩

/-- With delta, an entry is unchanged where the previous table, read in rising order up to its end, holds it with the same hash (R318). That
the table ends where its keys stop rising is the model's choice (log entry 52). -/
def DeltaChanged : Prop :=
  ∀ s core as va (prev : List (List Byte)) (es : List (CkBlock × List Byte)), prev.length < 2 ^ 32 →
    (∀ i b, prev[i]? = some b → vread s core as (va + 32 * i) 32 = .ok b) → prev.Pairwise (fun a b => entryKey a < entryKey b) →
    (∀ b, vread s core as (va + 32 * prev.length) 32 = .ok b → ∃ a ∈ prev.getLast?, entryKey b ≤ entryKey a) →
    es.Pairwise (fun a b => entryKey a.2 < entryKey b.2) → changedFrom s core as va none es = es.filter fun e => !prev.contains e.2

/-- The records of the log, one after another from record `n` on: an entry, the block's bytes as stored, padding to 4096. -/
def LogWritten (s0 : State) (core as log : Nat) : State → Nat → List (CkBlock × List Byte) → State → Prop
  | u, _, [], v => v = u
  | u, n, e :: es, v => ∃ w, ckWrite u core as (log + 64 + 4128 * n) (e.2 ++ s0.bytes e.1.pa e.1.len ++ zeros (4096 - e.1.len)) = (w, none) ∧
      LogWritten s0 core as log w (n + 1) es v

/-- CHECKPOINT_COMPLETE writes the sorted table of entries, the records of the changed blocks, the header last, and then adds the signal; the
packet is done with. A log that would pass its capacity ends with the header of the records written, no signal, and the queue halted with
0x06 (R318). That the header counts among the bytes used, and that it is written where the capacity stops the log, are the model's choices
(log entry 52). -/
def CheckpointCompletes : Prop :=
  ∀ s die q k b as ten intr tag slot rest (es changed : List (CkBlock × List Byte)) s1,
    (s.queue die q).pkts = (k, ⟨.checkpoint b, as, ten, intr, tag, slot⟩) :: rest → s.tenantOf as = ten →
    let core := cpCore die
    let header (n : Nat) : List Byte := leBytes 8 (pf b 64 8) ++ leBytes 8 n ++ leBytes 8 (64 + 4128 * n) ++
      leBytes 8 (ckBlocks s (pf b 8 1)).2 ++ zeros 32
    (∀ c ∈ (ckBlocks s (pf b 8 1)).1, memErr s c.pa c.len = none) →
    es.Perm ((ckBlocks s (pf b 8 1)).1.map fun c => (c, leBytes 2 c.asid ++ zeros 2 ++ leBytes 4 c.num ++ leBytes 8 c.vbase ++
      shake256 16 (s.bytes c.pa c.len))) →
    es.Pairwise (fun a b => entryKey a.2 < entryKey b.2) → ckWrite s core as (pf b 24 8) (es.flatMap (·.2)) = (s1, none) →
    changed = (if pf b 9 1 % 2 = 0 then es else changedFrom s core as (pf b 16 8) none es) →
    (∀ s2 s3 s4, 64 + 4128 * changed.length ≤ pf b 40 8 → LogWritten s core as (pf b 32 8) s1 0 changed s2 →
      ckWrite s2 core as (pf b 32 8) (header changed.length) = (s3, none) →
      (if pf b 9 1 / 2 % 2 = 0 then s4 = s3 else addNow s3 core as (pf b 48 8) (pf b 56 8) = .ok s4) →
      (∀ e ∈ s4.raux, e.2.waiting = false) → (s4.queue die q).pkts = (s.queue die q).pkts →
      ∃ t, exec (.checkpointComplete die q) s = .next t ∧ t.mem = s4.mem ∧ t.hostMem = s4.hostMem ∧ kget (t.queue die q).pkts k = none ∧
        (t.queue die q).halted = (s4.queue die q).halted) ∧
    (∀ n s2 s3, 64 + 4128 * n ≤ pf b 40 8 → pf b 40 8 < 64 + 4128 * (n + 1) → n < changed.length →
      LogWritten s core as (pf b 32 8) s1 0 (changed.take n) s2 → ckWrite s2 core as (pf b 32 8) (header n) = (s3, none) →
      (∀ e ∈ s3.raux, e.2.waiting = false) → kget (s3.queue die q).pkts k = some ⟨.checkpoint b, as, ten, intr, tag, slot⟩ →
      ∃ t, exec (.checkpointComplete die q) s = .next t ∧ t = startWaiting (packetFails s3 die q k 0x06) ∧
        (t.queue die q).halted = some 0x06 ∧ kget (t.queue die q).pkts k = none)

end Sys2Proof.Claims

/-- Enabling, disabling, resuming and polling a queue. -/
def Obligations.QueueControlsComplete : Prop := Sys2Proof.Claims.QueueControlsComplete ∧ Sys2Proof.Claims.PointerPolled

/-- Packets start: completed, in hand, or malformed and the queue halted. -/
def Obligations.PacketsStart : Prop :=
  Sys2Proof.Claims.PacketsStart ∧ Sys2Proof.Claims.MalformedHalts ∧ Sys2Proof.Claims.PacketCodes ∧ Sys2Proof.Claims.BodyCodes ∧
    Sys2Proof.Claims.MarkerRecord

/-- Packets in hand complete. -/
def Obligations.PacketsInHandComplete : Prop :=
  Sys2Proof.Claims.PrefetchEnds ∧ Sys2Proof.Claims.WaitsigEnds ∧ Sys2Proof.Claims.QueueCopyCompletes ∧ Sys2Proof.Claims.QueueCopyDisowned ∧
    Sys2Proof.Claims.UnitMoved ∧ Sys2Proof.Claims.CheckpointBlocks ∧
    Sys2Proof.Claims.DeltaChanged ∧ Sys2Proof.Claims.CheckpointCompletes

/-! ## Range commands and the work behind them -/
namespace Sys2Proof.Claims
open Sys2Proof.Machine

/-- A command of op `op` on the descriptor `d` at `a` passes the checks of codes 1 and 4 (15 R291); the array lies in HBM (R288). -/
def CmdOn (s : State) (op : Nat) (c : RangeCmd) (a : Nat) (d : Desc) : Prop :=
  s.recovery = false ∧ c.done.toNat % 8 = 0 ∧ cmdMalformed op c = false ∧ cmdDesc s c = some (a, d) ∧ a / 2 ^ 48 = 0

/-- The generation rises with every change (R291). -/
def raised (d : Desc) : Desc := { d with gen := (d.gen + 1) % 2 ^ 32 }

/-- Descriptor `a` reads `d`, every byte outside it reads as before, and no group has changed. -/
def DescNow (s t : State) (a : Nat) (d : Desc) : Prop :=
  t.desc a = d ∧ (∀ x, (x < a ∨ a + 64 ≤ x) → Memory.byte t.mem x = Memory.byte s.mem x) ∧ t.groups = s.groups

/-- A shootdown of the range is under way; its end writes `done`. -/
def Shooting (t : State) (asid : Nat) (d : Desc) (done : Option Nat) : Prop :=
  ∃ k mark old, kget t.shoots k = some ⟨asid, d.vbase, d.length, done, mark, old⟩

/-- The entry that accesses already translated go by while a replacement is shot down: that of a range that served them. -/
def oldEntry (s : State) (e : Nat × Desc) : List (Nat × Desc) :=
  if s.rstate e.1 e.2 = 0 ∨ s.rstate e.1 e.2 = 3 then [(e.1, { e.2 with state := 0 })] else []

/-- The commands on a descriptor. -/
inductive OnDesc : Nat → (RangeCmd → Instr) → Prop
  | replace : OnDesc 1 .replaceDescriptor
  | slide : OnDesc 3 .slide
  | demote : OnDesc 4 .demote
  | migrate : OnDesc 5 .migrate

/-- Commands that fail their first checks write their code to the done word, in memory, host memory or a peer's (R286), and change nothing
else; a new descriptor or root entry that cannot be read has bad fields, by the model's choice (log entry 116). One whose done word is misaligned does nothing (R291).
Code 2 of a demote or migrate command whose range already has one under way is the model's choice (log entry 104). -/
def RangeCommandCodes : Prop :=
  (∀ op f c s, OnDesc op f → s.recovery = false → (op = 3 → checkpointing s (s.tenantOf c.asid.toNat) = false) →
    (c.done.toNat % 8 ≠ 0 → exec (f c) s = .next s) ∧
    (c.done.toNat % 8 = 0 → cmdMalformed op c = true → exec (f c) s = .next (s.unitWrite c.done.toNat (leBytes 8 (2 ^ 63 + 4)))) ∧
    (c.done.toNat % 8 = 0 → cmdMalformed op c = false → cmdDesc s c = none →
      exec (f c) s = .next (s.unitWrite c.done.toNat (leBytes 8 (2 ^ 63 + 1))))) ∧
  (∀ op c s, s.recovery = false → c.done.toNat % 8 = 0 → (op.toNat = 0 ∨ 5 < op.toNat ∨ cmdMalformed op.toNat c = true) →
    exec (.malformedRangeCommand op c) s = .next (s.unitWrite c.done.toNat (leBytes 8 (2 ^ 63 + 4)))) ∧
  (∀ c s a d, CmdOn s 1 c a d → rangeMoving s (a, d) = true →
    exec (.replaceDescriptor c) s = .next (s.unitWrite c.done.toNat (leBytes 8 (2 ^ 63 + 2)))) ∧
  (∀ c s a d, CmdOn s 1 c a d → rangeMoving s (a, d) = false → (∀ b, s.unitRead c.arg.toNat 64 = some b → newDescOk b = false) →
    exec (.replaceDescriptor c) s = .next (s.unitWrite c.done.toNat (leBytes 8 (2 ^ 63 + 3)))) ∧
  (∀ c s a d, CmdOn s 3 c a d → checkpointing s (s.tenantOf c.asid.toNat) = false →
    (s.rstate a d ≠ 0 ∨ d.type ≠ 0 ∨ d.pin = true ∨ d.pair = true) →
    exec (.slide c) s = .next (s.unitWrite c.done.toNat (leBytes 8 (2 ^ 63 + 2)))) ∧
  (∀ c s a d, CmdOn s 3 c a d → checkpointing s (s.tenantOf c.asid.toNat) = false → s.rstate a d = 0 → d.type = 0 → d.pin = false →
    d.pair = false → (c.arg.toNat / 2 ^ 48 ≠ 0 ∨ c.arg.toNat % 4 ≠ 0 ∨ (d.packed = true ∧ c.arg.toNat % 2048 ≠ 0) ∨
      hbmLimit < c.arg.toNat + d.extent) →
    exec (.slide c) s = .next (s.unitWrite c.done.toNat (leBytes 8 (2 ^ 63 + 3)))) ∧
  (∀ c s a d, CmdOn s 4 c a d → (demotable s a d = false ∨ (kget s.demotions a).isSome = true) →
    exec (.demote c) s = .next (s.unitWrite c.done.toNat (leBytes 8 (2 ^ 63 + 2)))) ∧
  (∀ c s a d, CmdOn s 5 c a d → (d.pin = true ∨ d.pair = true ∨ (s.aux a).done.isSome = true ∨ s.rstate a d = 0 ∨ s.rstate a d = 1 ∨
      s.rstate a d = 4 ∨ (s.rstate a d = 3 ∧ d.stopped = false)) →
    exec (.migrate c) s = .next (s.unitWrite c.done.toNat (leBytes 8 (2 ^ 63 + 2)))) ∧
  (∀ c s, s.recovery = false →
    let ends (n : Nat) : Prop := exec (.replaceTable c) s = .next (s.unitWrite c.done.toNat (leBytes 8 (2 ^ 63 + n)))
    (c.done.toNat % 8 ≠ 0 → exec (.replaceTable c) s = .next s) ∧
    (c.done.toNat % 8 = 0 → cmdMalformed 2 c = true → ends 4) ∧
    (c.done.toNat % 8 = 0 → cmdMalformed 2 c = false → 1024 ≤ c.asid.toNat → ends 1) ∧
    (c.done.toNat % 8 = 0 → cmdMalformed 2 c = false → c.asid.toNat < 1024 →
      ((∃ e ∈ descsOf s c.asid.toNat, rangeMoving s e = true) → ends 2) ∧
      ((∀ e ∈ descsOf s c.asid.toNat, rangeMoving s e = false) →
        (∀ entry, s.unitRead c.arg.toNat 32 = some entry → pf entry 12 4 % 2 = 1 ∧ (pf entry 0 8 % 64 ≠ 0 ∨ 65536 < pf entry 8 4)) → ends 3)))

/-- REPLACE_DESCRIPTOR and REPLACE_TABLE write the new descriptor, or the new root entry, and shoot the range, or the address space,
down with their done word (R289 to R291). A migrate command that still waited to start on a range replaced fails with code 2, by the model's
choice (log entry 104). -/
def ReplacesComplete : Prop :=
  (∀ c s a d b, CmdOn s 1 c a d → rangeMoving s (a, d) = false → s.unitRead c.arg.toNat 64 = some b → newDescOk b = true →
    s.held = [] → (s.aux a).done = none →
    let n := descOfBytes b
    ∃ t, exec (.replaceDescriptor c) s = .next t ∧ DescNow s t a (raised { n with gen := d.gen }) ∧
      (∃ k, kget t.shoots k = some ⟨c.asid.toNat, d.vbase, d.length, some c.done.toNat, s.nextOp, oldEntry s (a, d)⟩) ∧ (d.pair = true → n.pair = true → (t.aux a).half = (s.aux a).half) ∧
      (n.pair = false → (t.aux a).half = false)) ∧
  (∀ c s a d w b, CmdOn s 1 c a d → rangeMoving s (a, d) = false → s.unitRead c.arg.toNat 64 = some b → newDescOk b = true →
    s.held = [] → (s.aux a).done = some w →
    ∃ t, exec (.replaceDescriptor c) s = .next t ∧ t.desc a = raised { descOfBytes b with gen := d.gen } ∧
      (t.aux a).done = none ∧ ∀ x, (x < a ∨ a + 64 ≤ x) →
        Memory.byte t.mem x = Memory.byte (s.unitWrite w (leBytes 8 (2 ^ 63 + 2))).mem x) ∧
  (∀ c s b, s.recovery = false → c.done.toNat % 8 = 0 → cmdMalformed 2 c = false → c.asid.toNat < 1024 →
    (∀ e ∈ descsOf s c.asid.toNat, rangeMoving s e = false) → s.unitRead c.arg.toNat 32 = some b →
    (pf b 12 4 % 2 = 1 → pf b 0 8 % 64 = 0 ∧ pf b 8 4 ≤ 65536) → s.held = [] →
    (∀ e ∈ descsOf s c.asid.toNat, (s.aux e.1).done = none ∧ kget s.demotions e.1 = none) →
    ∃ t, exec (.replaceTable c) s = .next t ∧
      t.mem = (s.physStore (s.rootAddr 0 c.asid.toNat) b).mem ∧ t.groups = s.groups ∧
      ∃ k, kget t.shoots k = some ⟨c.asid.toNat, 0, 0, some c.done.toNat, s.nextOp, (descsOf s c.asid.toNat).flatMap (oldEntry s)⟩) ∧
  (∀ c s e w b, s.recovery = false → c.done.toNat % 8 = 0 → cmdMalformed 2 c = false → c.asid.toNat < 1024 →
    descsOf s c.asid.toNat = [e] → rangeMoving s e = false → s.unitRead c.arg.toNat 32 = some b → pf b 12 4 % 2 = 0 → s.held = [] →
    ((s.aux e.1).done = some w ∧ kget s.demotions e.1 = none ∨
      (s.aux e.1).done = none ∧ ∃ j, kget s.demotions e.1 = some j ∧ j.done = w) →
    ∃ t, exec (.replaceTable c) s = .next t ∧ kget t.demotions e.1 = none ∧
      t.mem = ((s.unitWrite w (leBytes 8 (2 ^ 63 + 2))).physStore (s.rootAddr 0 c.asid.toNat) b).mem)

/-- SHOOTDOWN_COMPLETE writes 1 to its done word, once no access translated under the old entries is left to perform; one that is left holds
it back (R291). -/
def ShootdownCompletes : Prop :=
  (∀ s id j gid g n o l d, kget s.shoots id = some j → s.group gid = some g → g.asid = j.asid → kget g.ops n = some o → n < j.mark →
    o.dropped = false → d ∈ j.old → (∃ acq st ga sz addrs dst, o.kind = .load acq st ga sz addrs dst) → l < 64 → bit o.todo l = true →
    d.2.vbase ≤ laneAddr o.kind l → laneAddr o.kind l < d.2.vbase + d.2.length → exec (.shootdownComplete id) s = .next s) ∧
  ∀ s id j, kget s.shoots id = some j →
    (∀ e ∈ s.groups, e.2.asid = j.asid → ∀ o ∈ e.2.ops, o.1 < j.mark → o.2.dropped = true ∨ ∀ d ∈ j.old, ∀ l, l < 64 →
      ¬ (d.2.vbase ≤ laneAddr o.2.kind l ∧ laneAddr o.2.kind l < d.2.vbase + d.2.length)) →
    exec (.shootdownComplete id) s = .next (match j.done with
      | some a => ({ s with shoots := kdel s.shoots id }).unitWrite a (leBytes 8 1)
      | none => { s with shoots := kdel s.shoots id })

/-- SLIDE puts the range into SLIDING at its first chunk, or waits while a checkpoint of the tenant runs and then starts (R317); each SLIDE_CHUNK moves one and passes the seam on; after the last the range is
RESIDENT at its new base (R295 to R299). A PACKED range moves in whole slots of 2 KiB (R310). That a slide command waits for
the checkpoint and runs after it is the model's choice (log entry 104). -/
def SlidesComplete : Prop :=
  (∀ c s, s.recovery = false → checkpointing s (s.tenantOf c.asid.toNat) = true →
    exec (.slide c) s = .next { s with slideWaits := s.slideWaits ++ [c] } ∧
    (s.slideWaits = [c] → settleSlides s = s)) ∧
  (∀ c s, s.recovery = false → checkpointing s (s.tenantOf c.asid.toNat) = false → s.slideWaits = [c] →
    exec (.slide c) { s with slideWaits := [] } = .next (settleSlides s)) ∧
  (∀ c s a d, CmdOn s 3 c a d → checkpointing s (s.tenantOf c.asid.toNat) = false → s.rstate a d = 0 → d.type = 0 → d.pin = false →
    d.pair = false → c.arg.toNat / 2 ^ 48 = 0 → c.arg.toNat % 4 = 0 → (d.packed = true → c.arg.toNat % 2048 = 0) →
    c.arg.toNat + d.extent ≤ hbmLimit →
    let log := if c.chunk = 0 then 8 else c.chunk.toNat
    ∃ t, exec (.slide c) s = .next t ∧ kget t.slides a = some ⟨c.asid.toNat, c.done.toNat⟩ ∧
      DescNow s t a (raised { d with
        state := 1, pbase2 := c.arg.toNat, ctl := if c.arg.toNat < d.pbase then log else log + 16
        seam := if c.arg.toNat < d.pbase then 0 else (d.extent - 1) / 2 ^ log * 2 ^ log }) ∧ Shooting t c.asid.toNat d none) ∧
  (∀ s a j, kget s.slides a = some j → a / 2 ^ 48 = 0 → (s.desc a).state = 1 →
    let d := s.desc a
    let n := if d.seam + d.chunk ≤ d.extent then d.chunk else d.extent - d.seam
    d.pbase + d.extent ≤ hbmLimit → d.pbase2 + d.extent ≤ hbmLimit →
    (d.pbase2 + d.seam + n ≤ a ∨ a + 64 ≤ d.pbase2 + d.seam) →
    ∃ t, exec (.slideChunk a) s = .next t ∧ t.groups = s.groups ∧
      (∀ i, i < n → Memory.byte t.mem (d.pbase2 + d.seam + i) = Memory.byte s.mem (d.pbase + d.seam + i)) ∧
      (∀ x, (x < a ∨ a + 64 ≤ x) → (x < d.pbase2 + d.seam ∨ d.pbase2 + d.seam + n ≤ x) → Memory.byte t.mem x = Memory.byte s.mem x) ∧
      (∀ x, nextSeam d = some x → t.desc a = { d with seam := x % 2 ^ 64 } ∧ kget t.slides a = some j) ∧
      (nextSeam d = none → t.desc a = raised { d with pbase := d.pbase2, pbase2 := 0, seam := 0, state := 0 } ∧
        kget t.slides a = none ∧ Shooting t j.asid d (some j.done)))

/-- DEMOTE takes the range on; DEMOTE_COMPLETE leaves each block of it packed, or raw, in its slot of the image, and the range ABSENT
with its old base as the next destination; its done word waits for the accesses translated under the old entry (R291, R302, R310). -/
def DemotionsComplete : Prop :=
  (∀ c s a d, CmdOn s 4 c a d → demotable s a d = true → kget s.demotions a = none → c.arg.toNat / 2 ^ 48 = 1 →
    c.arg.toNat % 2048 = 0 →
    exec (.demote c) s = .next { s with demotions := kset s.demotions a ⟨c.asid.toNat, c.arg.toNat, c.done.toNat⟩ }) ∧
  (∀ s a j, kget s.demotions a = some j → a / 2 ^ 48 = 0 → s.contextHalted engFault j.asid = false → demotable s a (s.desc a) = true →
    let d := s.desc a
    let n := (d.length + 2047) / 2048
    capDown s j.dest d.length = false → j.dest / 2 ^ 48 = 1 → j.dest % 2048 = 0 → j.dest + 2048 * n ≤ 2 ^ 49 →
    (d.packed = true → ∀ k, k < n → slotMalformed s (PSlot.whole (d.pbase + 2048 * k)) d.bmap k = false) →
    ∃ t, exec (.demoteComplete a) s = .next t ∧ t.groups = s.groups ∧ kget t.demotions a = none ∧
      t.desc a = raised { d with state := 2, pbase := j.dest, pbase2 := d.pbase } ∧
      (∃ k, kget t.shoots k = some ⟨j.asid, d.vbase, d.length, some j.done, s.nextOp, [(a, { d with state := 0 })]⟩) ∧
      (∀ k b, k < n → demoteBlock s d k = some b → t.bytes (j.dest + 2048 * k) 2048 = (blockEncode b).getD b) ∧
      ∀ x, (x < a ∨ a + 64 ≤ x) → (∀ i, i < 2048 * n → cellOf s (j.dest + i) ≠ some x) → Memory.byte t.mem x = Memory.byte s.mem x)

/-- The chunk that is first in the order of R305 among those still absent: the triggering one, those of later parks, those hinted, the rest
from the triggering one on, wrapping round. -/
def NextChunk (d : Desc) (x : RAux) (c : Nat) : Prop :=
  let absent (k : Nat) : Prop := k < d.chunks ∧ mget 0 x.pres k = 0
  absent c ∧ ∃ before rest, x.trigger :: x.order ++ x.hints ++ (List.range d.chunks).map (fun i => (x.trigger + i) % d.chunks) =
    before ++ c :: rest ∧ ∀ k ∈ before, ¬ absent k

/-- Block `n` of the range in `t` after it has been moved from its image in `s`: as stored where the range is PACKED, else expanded, with
what lies past the range's length left out (R305). -/
def BlockMoved (s t : State) (d : Desc) (n : Nat) : Prop :=
  if d.packed then Memory.bytes t.mem (d.pbase + 2048 * n) 2048 = s.bytes (d.pbase2 + 2048 * n) 2048
  else ∃ b, blockBytes s (PSlot.whole (d.pbase2 + 2048 * n)) d.bmap n = .ok b ∧
    Memory.bytes t.mem (d.pbase + 2048 * n) (Nat.min 2048 (d.length - 2048 * n)) = b.take (Nat.min 2048 (d.length - 2048 * n))

/-- The migration of the range at `a` moves chunk `c` next, and can read it: image in the capacity tier, place, map and descriptor in HBM
beside the chunk's place. -/
structure Movable (s : State) (a c : Nat) : Prop where
  state : s.rstate a (s.desc a) = 3
  goes : (s.desc a).stopped = false ∧ s.contextHalted engFault (s.aux a).asid = false ∧
    capDown s (s.desc a).pbase2 (s.desc a).length = false
  next : NextChunk (s.desc a) (s.aux a) c
  image : (s.desc a).pbase2 / 2 ^ 48 = 1 ∧ (s.desc a).pbase2 % 2048 = 0 ∧ s.poison = []
  place : (s.desc a).pbase + (s.desc a).extent ≤ hbmLimit
  beside : a / 2 ^ 48 = 0 ∧ (a + 64 ≤ (s.desc a).pbase + 65536 * c ∨
    (s.desc a).pbase + Nat.min (65536 * c + 65536) (s.desc a).extent ≤ a)
  map : ∀ i x, i < 4 → cellOf s ((s.desc a).bmap + 4 * c + i) = some x →
    x < (s.desc a).pbase + 65536 * c ∨ (s.desc a).pbase + Nat.min (65536 * c + 65536) (s.desc a).extent ≤ x
  quiet : s.held = [] ∧ ∀ e ∈ s.raux, e.2.waiting = false

/-- MIGRATE starts an ABSENT range's migration, or resumes a stopped one with its lost chunks absent again; MIGRATION_CHUNK_MOVE moves the
next chunk's blocks to the range's place, changes no other byte, and sets the chunk present; after the last the range is RESIDENT
(R303 to R307). A chunk with a malformed block is lost, and the ASID's streams in the fault unit are drained with errors: the chunks asked
for turn lost, demotions end with code 2 (R312; which chunks these are is log entry 87, the code 46). That a chunk which cannot be read, with no malformed block, is lost
is the model's choice (log entry 49). -/
def MigrationsComplete : Prop :=
  (∀ c s a d, CmdOn s 5 c a d → d.pin = false → d.pair = false → (s.aux a).done = none → s.rstate a d = 2 →
    capDown s d.pbase d.length = false → migrating s < 256 → checkpointing s (s.tenantOf c.asid.toNat) = false →
    ∃ t, exec (.migrate c) s = .next t ∧
      DescNow s t a (raised { d with state := 3, pbase := d.pbase2, pbase2 := d.pbase, ctl := d.ctl % 32 }) ∧ (t.aux a).pres = [] ∧
      Shooting t c.asid.toNat d (some c.done.toNat)) ∧
  (∀ c s a d, CmdOn s 5 c a d → d.pin = false → d.pair = false → (s.aux a).done = none → s.rstate a d = 3 → d.stopped = true →
    capDown s d.pbase2 d.length = false → migrating s < 256 → checkpointing s (s.tenantOf c.asid.toNat) = false →
    ((s.aux a).pres.map (·.1)).Nodup →
    ∃ t, exec (.migrate c) s = .next t ∧ DescNow s t a (raised { d with ctl := d.ctl - 32 }) ∧
      Shooting t c.asid.toNat d (some c.done.toNat) ∧
      ∀ k, mget 0 (t.aux a).pres k = if mget 0 (s.aux a).pres k = 2 then 0 else mget 0 (s.aux a).pres k) ∧
  (∀ s a c, Movable s a c →
    let d := s.desc a
    let mine (n : Nat) : Prop := 32 * c ≤ n ∧ n < 32 * c + 32 ∧ 2048 * n < d.length
    let else_ (t : State) : Prop := ∀ x, (x < a ∨ a + 64 ≤ x) → (x < d.pbase + 65536 * c ∨ d.pbase + Nat.min (65536 * c + 65536) d.extent ≤ x) →
      Memory.byte t.mem x = Memory.byte s.mem x
    (∀ n, mine n → ∃ b, blockBytes s (PSlot.whole (d.pbase2 + 2048 * n)) d.bmap n = .ok b ∧ b.length = 2048) →
    ((∃ k, k < d.chunks ∧ k ≠ c ∧ mget 0 (s.aux a).pres k ≠ 1) →
      ∃ t, exec (.migrationChunkMove a) s = .next t ∧ t.groups = s.groups ∧ t.desc a = d ∧
        t.aux a = { s.aux a with pres := mset 0 (s.aux a).pres c 1 } ∧ (∀ n, mine n → BlockMoved s t d n) ∧ else_ t) ∧
    ((∀ k, k < d.chunks → k ≠ c → mget 0 (s.aux a).pres k = 1) →
      ∃ t, exec (.migrationChunkMove a) s = .next t ∧ t.groups = s.groups ∧ t.desc a = raised { d with state := 0, pbase2 := 0 } ∧
        kget t.raux a = none ∧ Shooting t (s.aux a).asid d none ∧ (∀ n, mine n → BlockMoved s t d n) ∧ else_ t)) ∧
  (∀ s a c n e, Movable s a c → 32 * c ≤ n → n < 32 * c + 32 → 2048 * n < (s.desc a).length →
    blockBytes s (PSlot.whole ((s.desc a).pbase2 + 2048 * n)) (s.desc a).bmap n = .error e →
    (∀ k, slotMalformed s (PSlot.whole ((s.desc a).pbase2 + 2048 * k)) (s.desc a).bmap k = false) →
    exec (.migrationChunkMove a) s = .next (s.setAux a { s.aux a with pres := mset 0 (s.aux a).pres c 2 })) ∧
  (∀ s a c n, Movable s a c → (s.raux.map (·.1)).Nodup → 32 * c ≤ n → n < 32 * c + 32 → 2048 * n < (s.desc a).length →
    slotMalformed s (PSlot.whole ((s.desc a).pbase2 + 2048 * n)) (s.desc a).bmap n = true →
    ∃ t, exec (.migrationChunkMove a) s = .next t ∧ t.groups = s.groups ∧ t.contextHalted engFault (s.aux a).asid = true ∧
      (∀ k, k < (s.desc a).chunks → mget 0 (t.aux a).pres k =
        if k = c ∨ (mget 0 (s.aux a).pres k = 0 ∧ (k = (s.aux a).trigger ∨ k ∈ (s.aux a).order ∨ k ∈ (s.aux a).hints)) then 2
        else mget 0 (s.aux a).pres k) ∧
      ∀ b j, kget s.demotions b = some j → j.asid = (s.aux a).asid → kget t.demotions b = none)

end Sys2Proof.Claims

/-- Range commands: the codes of those that fail, the effects of those that succeed. -/
def Obligations.RangeCommandsComplete : Prop :=
  Sys2Proof.Claims.RangeCommandCodes ∧ Sys2Proof.Claims.ReplacesComplete ∧ Sys2Proof.Claims.ShootdownCompletes

/-- Slides, demotions and migrations, chunk by chunk. -/
def Obligations.RangeWorkCompletes : Prop :=
  Sys2Proof.Claims.SlidesComplete ∧ Sys2Proof.Claims.DemotionsComplete ∧ Sys2Proof.Claims.MigrationsComplete

/-! ## Ports and the host -/
namespace Sys2Proof.Claims
open Sys2Proof.Machine

/-- The links of the capacity ports and of the host ports go up and down; nothing else of an idle package changes but the report that a
failing CXL port sends (15 R306, 20 R357). -/
def LinksComplete : Prop :=
  (∀ s p, p < 8 → exec (.cxlLinkUp p) s = .next { s with cxl := kset s.cxl p { s.cxlPort p with down := false } }) ∧
  (∀ s p, p < 2 → exec (.pcieLinkUp p) s = .next { s with pcie := kset s.pcie p { s.pciePort p with down := false } }) ∧
  (∀ s p, p < 8 → s.groups = [] → s.raux = [] → s.held = [] →
    exec (.cxlLinkDown p) s = .next (sendOut { s with cxl := kset s.cxl p { s.cxlPort p with down := true } } (.report (0x100 + p))) ∧
    exec (.cxlCompletionTimeout p) s = .next (sendOut s (.report (0x100 + p)))) ∧
  (∀ s p, p < 2 → s.groups = [] →
    exec (.pcieLinkDown p) s = .next { s with pcie := kset s.pcie p { s.pciePort p with down := true } })

/-- An operation through a port that fails is dropped, and its group takes the memory link error of its first lane there; a migration
through it stops with its absent chunks lost (R306, R357). -/
def FailingPorts : Prop :=
  (∀ s p gid g n o l, s.groups = [(gid, g)] → opsVia s g p = [(n, o, l)] →
    failPort s p = accessFault (s.failOp gid n) gid o (trapAt 0x0B (laneAddr o.kind l)) false) ∧
  (∀ s p gid g, s.groups = [(gid, g)] → opsVia s g p = [] → failPort s p = s) ∧
  (∀ s p a x, p < 8 → a / 2 ^ 48 = 0 → s.groups = [] → s.raux = [(a, x)] → s.held = [] → x.waiting = false → s.rstate a (s.desc a) = 3 →
    (s.desc a).stopped = false → migratesVia s (s.desc a) p = true →
    ∃ t, exec (.cxlCompletionTimeout p) s = .next t ∧ DescNow s t a (raised { s.desc a with ctl := (s.desc a).ctl + 32 }) ∧
      ∀ c, c < (s.desc a).chunks → mget 0 (t.aux a).pres c = if mget 0 x.pres c = 0 then 2 else mget 0 x.pres c)

/-- PCIE_COMPLETION_TIMEOUT and the last failed try of a PEER_REQUEST end the access with a memory link error; a PEER_REQUEST that gets
through binds or performs its lanes (R357, R368). -/
def RemoteAccesses : Prop :=
  ∀ s gid n g o, s.opAt gid n = some (g, o) → o.dropped = false →
    (lanesOfType s g n o 2 ≠ 0 → exec (.pcieCompletionTimeout gid n) s = .next (linkFault s gid n o ((lanesOf (lanesOfType s g n o 2)).headD 0))) ∧
    (∀ m, m &&& lanesOfType s g n o 1 ≠ 0 →
      let k := m &&& lanesOfType s g n o 1
      exec (.peerRequest gid n m true) s = .next (linkFault s gid n o ((lanesOf k).headD 0)) ∧
      (k &&& unwritten o = 0 → loadReady g n o k = true →
        exec (.peerRequest gid n m false) s = .next (bindLanes s gid n g o k false)) ∧
      (k &&& unwritten o ≠ 0 → storeReady s g n o (k &&& unwritten o) = true →
        exec (.peerRequest gid n m false) s = .next (performLanes s gid n g o (k &&& unwritten o))))

/-- A part that the host may read. -/
def hostMayRead (s : State) (p : Nat × Nat × Option (Nat × Desc)) : Prop :=
  ∃ a d, p.2.2 = some (a, d) ∧ d.rd = true ∧ hostAway s a d = false

/-- No write or atomic that the port received earlier is held, so that the next access through it may go (16 R333). -/
def PortFree (s : State) (port : Nat) : Prop := ∀ e ∈ s.held, e.2.port = port → isHostRead e.2.req = true

/-- HOST_READ answers the bytes, or Completer Abort where a part may not be read (20 R356). -/
def HostReads : Prop :=
  ∀ s port t off n tag, inWindow s t off n = true → PortFree s port →
    (∀ b, (∀ p ∈ partsOf s t off n, hostMayRead s p) →
      vread s hostCore (s.tenant t).hwasid (windowVa s t off) n = .ok b →
      exec (.hostRead ⟨port, t⟩ off n tag) s = .next (sendOut s (.reply tag b))) ∧
    ((∃ p ∈ partsOf s t off n, ¬ hostMayRead s p) → exec (.hostRead ⟨port, t⟩ off n tag) s = .next (sendOut s (.completerAbort tag))) ∧
    ∀ e a, (∀ p ∈ partsOf s t off n, hostMayRead s p) → (∀ c, e ≠ .trap c) →
      vread s hostCore (s.tenant t).hwasid (windowVa s t off) n = .error ⟨e, a⟩ →
      exec (.hostRead ⟨port, t⟩ off n tag) s =
        .next (holdHost (askChunk s (s.tenant t).hwasid a e) (kfresh s.held) ⟨t, off, .read n tag, port⟩)

/-- HOST_WRITE stores the bytes of a part; a part that may not be written is discarded with an event of type 6, one in a SEEDED range is an
Unsupported Request, and one in a range that is ABSENT without AUTO-MIGRATE a Completer Abort (20 R356, R378, 15 R302, R303). That a part in a
LOST range makes the event of type 6, and one in an ABSENT range that also lacks write permission the Completer Abort, is the model's
reading (log entry 57). -/
def HostWrites : Prop :=
  ∀ s port t off b, inWindow s t off b.length = true → PortFree s port →
    (∀ a d u, partsOf s t off b.length = [(windowVa s t off, b.length, some (a, d))] → d.seeded = false → d.wr = true →
      hostAway s a d = false → vwrite s hostCore (s.tenant t).hwasid (windowVa s t off) b = (u, none) →
      exec (.hostWrite ⟨port, t⟩ off b) s = .next u) ∧
    (∀ a d, partsOf s t off b.length = [(windowVa s t off, b.length, some (a, d))] → d.seeded = true →
      exec (.hostWrite ⟨port, t⟩ off b) s = .next (sendOut s (.unsupported off))) ∧
    (∀ a d, partsOf s t off b.length = [(windowVa s t off, b.length, some (a, d))] → d.seeded = false → s.rstate a d = 2 → d.auto = false →
      exec (.hostWrite ⟨port, t⟩ off b) s = .next (sendOut s (.completerAbort off))) ∧
    (∀ r, partsOf s t off b.length = [(windowVa s t off, b.length, r)] →
      (r = none ∨ ∃ a d, r = some (a, d) ∧ d.seeded = false ∧ ¬ (s.rstate a d = 2 ∧ d.auto = false) ∧ (d.wr = false ∨ s.rstate a d = 4)) →
      exec (.hostWrite ⟨port, t⟩ off b) s = .next (appendEvent s t (eventBytes s 6 0 (t + 1) 0 0 (off % 2 ^ 32) 0xFFFFFFFF)))

/-- HOST_ATOMICOP of 32 or 64 bits writes the new value and answers the old one; other widths are Unsupported Requests (R356, 06 R151). The
answers for ranges that an atomic of the device may not touch (without permission, CAP, PUBLISH-PAIR, SEEDED, away, none) and for an unaligned
address are the model's choice (log entry 57). -/
def HostAtomics : Prop :=
  ∀ s port t off op n x y tag, inWindow s t off n = true → PortFree s port → s.tenantOf (s.tenant t).hwasid = t →
    let here := translate s hostCore (s.tenant t).hwasid (windowVa s t off)
    let i : Instr := .hostAtomicop ⟨port, t⟩ off op n x y tag
    let new (o : Nat) : Nat := match op with
      | .fetchAdd => (o + x) % 2 ^ (8 * n)
      | .swap => x % 2 ^ (8 * n)
      | .cas => if o = x % 2 ^ (8 * n) then y % 2 ^ (8 * n) else o
    (n ≠ 4 → n ≠ 8 → exec i s = .next (sendOut s (.unsupported tag))) ∧
    ((n = 4 ∨ n = 8) → windowVa s t off % n ≠ 0 → exec i s = .next (sendOut s (.unsupported tag))) ∧
    ((n = 4 ∨ n = 8) → windowVa s t off % n = 0 →
      (∀ a d b u, here = some (a, d) → d.seeded = false → d.wr = true → d.pair = false → d.type ≠ 3 → hostAway s a d = false →
        atomUnit s hostCore (s.tenant t).hwasid (windowVa s t off) n = .ok b →
        writeUnit s hostCore (s.tenant t).hwasid (windowVa s t off) (leBytes n (new (leNat b))) = .ok u →
        exec i s = .next (sendOut u (.reply tag b))) ∧
      (∀ a d, here = some (a, d) → d.seeded = true → exec i s = .next (sendOut s (.unsupported tag))) ∧
      (∀ a d, here = some (a, d) → d.seeded = false → (d.wr = false ∨ d.pair = true ∨ d.type = 3 ∨ hostAway s a d = true) →
        exec i s = .next (sendOut s (.completerAbort tag))) ∧
      (here = none → exec i s = .next (sendOut s (.completerAbort tag))))

/-- An access that arrives behind a held write or atomic of its port waits behind it (16 R333). -/
def HostOrder : Prop :=
  ∀ s port t off h, (∃ e ∈ s.held, e.2.port = port ∧ isHostRead e.2.req = false) →
    (∀ n tag, inWindow s t off n = true → h = ⟨t, off, .read n tag, port⟩ →
      exec (.hostRead ⟨port, t⟩ off n tag) s = .next (holdHost s (kfresh s.held) h)) ∧
    (∀ b, inWindow s t off b.length = true → h = ⟨t, off, .write b, port⟩ →
      exec (.hostWrite ⟨port, t⟩ off b) s = .next (holdHost s (kfresh s.held) h)) ∧
    ∀ op n x y tag, inWindow s t off n = true → h = ⟨t, off, .atom op n x y tag, port⟩ →
      exec (.hostAtomicop ⟨port, t⟩ off op n x y tag) s = .next (holdHost s (kfresh s.held) h)

/-- HOST_ACCESS_TIMEOUT answers a held access with Completer Abort; those that waited behind it are tried again (15 R304). -/
def HostTimeouts : Prop :=
  ∀ s k h, kget s.held k = some h → exec (.hostAccessTimeout k) s = .next (serveHeld (sendOut { s with held := kdel s.held k }
    (.completerAbort (match h.req with
      | .read _ t => t
      | .atom _ _ _ _ t => t
      | .write _ => h.off))))

/-! ## Refresh, weight-store tags, retention, monitors, power -/

/-- A write to the slot's tag has taken effect between two states, and nothing but that core and signals to the host has changed. -/
def Assigned (s t : State) (core n : Nat) (v : Word) : Prop :=
  let sl := (s.core core).slot n
  let new := (t.core core).slot n
  t = { s with cores := t.cores, outputs := t.outputs } ∧ (∀ c, c ≠ core → t.core c = s.core c) ∧
  new = { sl with asid := v.toNat % 1024, valid := decide (v.toNat / 32768 % 2 = 1), gen := (sl.gen + 1) % 65536, poisoned := false, pend := [] } ∧
  (∀ k, k ≠ n → (t.core core).slot k = (s.core core).slot k) ∧
  ∀ x, mget 0 (t.core core).ws x = if 32768 * n ≤ x ∧ x < 32768 * n + 32768 then 0 else mget 0 (s.core core).ws x

/-- HBM_REFRESH is a stall and changes nothing (15 R314). WS_TAG_WRITE assigns the slot: its bytes read zero, its generation rises; a
slot still in use keeps the write, behind those it keeps already, and the write takes effect when the readers queued before it and a COPYW in
flight are over (08 R177; that a write is compared with the one kept before it is log entry 113). An idle array goes into retention with its contents (15 R316). -/
def StoresAndRetention : Prop :=
  (∀ s a b c, exec (.hbmRefresh a b c) s = .next s) ∧
  (∀ s core n (v : Word), s.recovery = false → core < 4096 → n < 64 →
    let sl := (s.core core).slot n
    let now : Nat × Bool := match sl.pend.getLast? with
      | some e => (e.1.toNat % 1024, decide (e.1.toNat / 32768 % 2 = 1))
      | none => (sl.asid, sl.valid)
    (now = (v.toNat % 1024, decide (v.toNat / 32768 % 2 = 1)) → exec (.wsTagWrite core n v) s = .next s) ∧
    (now ≠ (v.toNat % 1024, decide (v.toNat / 32768 % 2 = 1)) →
      (sl.pend = [] → sl.busy = false → tagReaders s core n s.nextOp = false →
        ∃ t, exec (.wsTagWrite core n v) s = .next t ∧ Assigned s t core n v) ∧
      (sl.busy = true ∨ (∃ e ∈ (sl.pend ++ [(v, s.nextOp)]).head?, tagReaders s core n e.2 = true) →
        exec (.wsTagWrite core n v) s = .next (s.setCore core ((s.core core).setSlot n { sl with pend := sl.pend ++ [(v, s.nextOp)] }))))) ∧
  (∀ s core n (v : Word) m, let sl := (s.core core).slot n
    sl.pend = [(v, m)] → sl.busy = false → tagReaders s core n m = false → Assigned s (applyTags s core n sl.pend) core n v) ∧
  (∀ s core arr, arrayIdle s core arr = true → ∃ t, exec (.arrayRetentionEntry core arr) s = .next t ∧
    t = { s with cores := t.cores } ∧ (∀ c, c ≠ core → t.core c = s.core c) ∧ (t.core core).ws = (s.core core).ws ∧
    (t.core core).scr = (s.core core).scr ∧ (t.core core).banks = (s.core core).banks ∧ (match arr with
      | .regs => (t.core core).retRegs = true
      | .scratch => (t.core core).retScr = true
      | .accs => (t.core core).retAccs = true
      | .slot n => (t.core core).slot n = { (s.core core).slot n with retained := true })) ∧
  (∀ s core arr, arrayIdle s core arr = false → exec (.arrayRetentionEntry core arr) s = .next s)

/-- A monitor channel starts, samples, the timed quantities once a µs and a queue's occupancy by its pointers, and closes its window when the
window's µs have passed; a sample taken later is not counted (13 R282; that one taken just as they end still is, is the model's choice, log
entry 107). -/
def ChannelsComplete : Prop :=
  ∀ s die ch, s.recovery = false → ch < 8 → die < 16 →
    let c := (s.die die).pm ch
    (∃ t d, exec (.pmStart die ch) s = .next t ∧ t = s.setPm die ch d ∧ d.sel = c.sel ∧ d.win = c.win ∧ d.cont = c.cont ∧
      d.open_ = true ∧ d.opened = s.now ∧ d.count = 0 ∧ d.min = 0 ∧ d.max = 0 ∧ d.bins = [] ∧ d.rcount = 0) ∧
    (∀ w v, c.open_ = true → s.now ≤ c.opened + 1200 * c.win.toNat → pmSelected c.sel = true → (pmTimed c.sel = true → c.sampled + 1200 ≤ s.now) →
      v = (if c.sel.toNat % 16 = 4 then queueSlots s die (c.sel.toNat / 16 % 4096) else w) →
      ∃ t d, exec (.pmSample die ch w) s = .next t ∧ t = s.setPm die ch d ∧ d.sampled = s.now ∧
      d.rcount = sat32 (c.rcount + 1) ∧ d.rmin = (if c.rcount = 0 ∨ v < c.rmin then v else c.rmin) ∧
      d.rmax = (if c.rmax < v then v else c.rmax) ∧
      (∀ b, mget 0 d.rbins b = if b = pmBin v then sat32 (mget 0 c.rbins b + 1) else mget 0 c.rbins b) ∧ d.count = c.count ∧ d.min = c.min ∧ d.max = c.max) ∧
    (∀ v, (c.open_ = false ∨ c.opened + 1200 * c.win.toNat < s.now ∨ pmSelected c.sel = false ∨ (pmTimed c.sel = true ∧ s.now < c.sampled + 1200)) →
      exec (.pmSample die ch v) s = .next s) ∧
    ((c.open_ = false ∨ s.now < c.opened + 1200 * c.win.toNat) → exec (.pmWindowClose die ch) s = .next s) ∧
    (c.open_ = true → c.opened + 1200 * c.win.toNat ≤ s.now → ∃ t d, exec (.pmWindowClose die ch) s = .next t ∧ t = s.setPm die ch d ∧ d.done = true ∧ d.min = c.rmin ∧
      d.max = c.rmax ∧ d.count = c.rcount ∧ d.bins = c.rbins ∧ d.open_ = c.cont ∧ d.rcount = 0)

/-- POWER_ARBITER_TICK gives each unit its demand while the sum keeps the cap, and no die less than its idle draw; POWER_OVERSHOOT doubles the
die's gap and signals vector 4 of PF 0 (20 R383, R384). That a stack has its demand also above the cap, and a die that asks for less than its
idle draw the idle draw, are the model's choices (log entry 69). -/
def PowerComplete : Prop :=
  (∀ s dies hbms, hbms.length ≤ 16 → ∃ t, exec (.powerArbiterTick dies hbms) s = .next t ∧ t.mem = s.mem ∧ t.groups = s.groups ∧ t.cores = s.cores ∧
    t.outputs = s.outputs ∧ (∀ i, mget 0 t.hbmShare i = hbms.getD i 0) ∧
    (∀ i, i < 16 → (Config.idleDraw i).toNat ≤ mget 0 t.dieShare i) ∧
    (dies.length = 16 → (∀ i, i < 16 → (Config.idleDraw i).toNat ≤ dies.getD i 0) → dies.sum + hbms.sum ≤ s.pwrcap.toNat →
      ∀ i, mget 0 t.dieShare i = dies.getD i 0)) ∧
  (∀ s die, die < 16 → exec (.powerOvershoot die) s = .next (sendOut (s.setDie die { s.die die with gap := 2 * (s.die die).gap }) (.msix 0 4)))

end Sys2Proof.Claims

/-- Links and the accesses that fail with them. -/
def Obligations.PortsComplete : Prop :=
  Sys2Proof.Claims.LinksComplete ∧ Sys2Proof.Claims.FailingPorts ∧ Sys2Proof.Claims.RemoteAccesses

/-- Accesses of the host to a tenant's window. -/
def Obligations.HostAccessesComplete : Prop :=
  Sys2Proof.Claims.HostReads ∧ Sys2Proof.Claims.HostWrites ∧ Sys2Proof.Claims.HostAtomics ∧ Sys2Proof.Claims.HostOrder ∧ Sys2Proof.Claims.HostTimeouts

/-- Refresh, slot tags, retention, monitor channels and the power arbiter. -/
def Obligations.DeviceStepsComplete : Prop :=
  Sys2Proof.Claims.StoresAndRetention ∧ Sys2Proof.Claims.ChannelsComplete ∧ Sys2Proof.Claims.PowerComplete

/-! ## The network engines and POD barriers -/
namespace Sys2Proof.Claims
open Sys2Proof.Machine

/-- Message `k` of engine `e`. -/
def msgOf (s : State) (e k : Nat) : Option Msg := (s.eng e).msg k

/-- A packet not yet sent. -/
def newPkt : NPkt := ⟨false, false, 0, 0, 0, 0, 0⟩

/-- NETWORK_MESSAGE_START takes the request at the start position: its slot is free, and the message stands with its packets, none sent.
A request that breaks R363 fails, with a code that is free (log entry 63; 20 R361 to R365). -/
def MessagesStart : Prop :=
  (∀ s e q b, canStart s e q = true → againOf (s.eng e) q = none → (s.sendQ e q).spos < (s.sendQ e q).wpos →
    vread s (engIo e) (s.sendQ e q).asid ((s.sendQ e q).base + 64 * ((s.sendQ e q).spos % 2 ^ (s.sendQ e q).lsize)) 64 = .ok b →
    fenceOk (s.eng e) q (s.sendQ e q).spos (workReqOfBytes b).flags = true →
    (workReqOk s (s.sendQ e q).tenant b = true →
      ∃ t m, exec (.networkMessageStart e q) s = .next t ∧ t = { s with engines := t.engines } ∧ (∀ k, k ≠ e → t.eng k = s.eng k) ∧
        t.sendQ e q = { s.sendQ e q with spos := (s.sendQ e q).spos + 1, posted := kdel (s.sendQ e q).posted (s.sendQ e q).spos } ∧
        m.gid = kget (s.sendQ e q).posted (s.sendQ e q).spos ∧ (∀ k, k ≠ q → t.sendQ e k = s.sendQ e k) ∧
        msgOf t e (s.eng e).nextMsg = some m ∧ m.queue = q ∧ m.wr = workReqOfBytes b ∧ m.order = (s.sendQ e q).spos ∧ m.failed = none ∧
        m.finished = false ∧
        m.pkts = List.replicate (((workReqOfBytes b).length + (s.eng e).payload - 1) / (s.eng e).payload) newPkt ∧
        ∀ k, k ≠ (s.eng e).nextMsg → msgOf t e k = msgOf s e k) ∧
    (workReqOk s (s.sendQ e q).tenant b = false →
      ∃ t m c, exec (.networkMessageStart e q) s = .next t ∧ msgOf t e (s.eng e).nextMsg = some m ∧ m.failed = some c ∧
        (t.sendQ e q).halted = some c ∧ (t.sendQ e q).spos = (s.sendQ e q).spos + 1)) ∧
  (∀ s e q, canStart s e q = false → exec (.networkMessageStart e q) s = .next s)

/-- The limits of R363 on a work request of a queue of tenant `t`. -/
def WorkRequestLimits : Prop :=
  ∀ s t (b : List Byte), b.length = 64 → (workReqOk s t b = true ↔
    pf b 0 1 = 1 ∧ pf b 1 1 < 8 ∧ pf b 2 2 < 4096 ∧ pf b 4 2 < 1024 ∧ pf b 6 2 < 4096 ∧
      (pf b 1 1 % 2 = 1 → counterOwner s (pf b 6 2) = t ∧ t ≠ 255) ∧ pf b 16 8 % 4 = 0 ∧ pf b 24 4 % 4 = 0 ∧ 4 ≤ pf b 24 4 ∧
      pf b 24 4 ≤ 2 ^ 30 ∧ pf b 28 4 = 0 ∧ pf b 40 24 = 0)

/-- Codes 1 and 2 of R366: a window that is invalid, not writable, or of an address space that is not its tenant's (R376); with rcnt, one
whose counter is not its tenant's; bytes outside its length. Code 1 for an address
space of another tenant is the model's reading (log entry 61). -/
def WindowRefusals : Prop :=
  ∀ s (w : RecvWin) rcnt off n,
    let bad : Prop := w.valid = false ∨ w.write = false ∨ s.tenantOf w.asid ≠ w.tenant ∨
      (rcnt = true ∧ (counterOwner s w.counter ≠ w.tenant ∨ w.tenant = 255))
    (bad → winRefuses s w rcnt off n = some 1) ∧ (¬ bad → w.length < off + n → winRefuses s w rcnt off n = some 2) ∧
      (¬ bad → off + n ≤ w.length → winRefuses s w rcnt off n = none)

/-- NETWORK_PACKET_ARRIVAL of a packet for this node: a duplicate is acknowledged again and not placed; one that its window refuses is
refused with the code, and with 3 where its bytes do not translate or may not be written there; one that is placed is stored and acknowledged, and the last of its message moves the counter (R364 to R366). Code 3 for a placement
that meets a link error is the model's reading (log entry 61). -/
def PacketsArrive : Prop :=
  ∀ s w src e k i window off total rcnt bytes,
    kget s.wires w = some (.data src e k i s.nodeNum window off total rcnt bytes) →
    let u : State := { s with wires := kdel s.wires w }
    let r := recvOf s src e k
    let win := s.recvWin window
    ((r.finished = true ∨ i ∈ r.placed) → exec (.networkPacketArrival w) s = .next (sendAck u src e k i 0)) ∧
    (r.finished = false → i ∉ r.placed →
      (∀ c, winRefuses s win rcnt off bytes.length = some c → exec (.networkPacketArrival w) s = .next (sendAck u src e k i c)) ∧
      (∀ c a, winRefuses s win rcnt off bytes.length = none → s.contextHalted (engNet e) win.asid = false →
        checkBytes u (engIo e) win.asid .write (bytes.length + 1) (win.base + off) bytes.length = .error ⟨.trap c, a⟩ →
        exec (.networkPacketArrival w) s = .next (sendAck u src e k i 3)) ∧
      (∀ v c a, winRefuses s win rcnt off bytes.length = none → s.contextHalted (engNet e) win.asid = false →
        checkBytes u (engIo e) win.asid .write (bytes.length + 1) (win.base + off) bytes.length = .ok () →
        vwrite u (engIo e) win.asid (win.base + off) bytes = (v, some ⟨.trap c, a⟩) → c ≠ 0x0C →
        exec (.networkPacketArrival w) s = .next (sendAck v src e k i 3)) ∧
      (∀ v, winRefuses s win rcnt off bytes.length = none → s.contextHalted (engNet e) win.asid = false →
        checkBytes u (engIo e) win.asid .write (bytes.length + 1) (win.base + off) bytes.length = .ok () →
        vwrite u (engIo e) win.asid (win.base + off) bytes = (v, none) →
        ∃ t, exec (.networkPacketArrival w) s = .next t ∧ t.mem = v.mem ∧ t.groups = s.groups ∧
          (∃ n, kget t.wires n = some (.ack src e k i 0)) ∧
          (r.placed.length + 1 < total → i ∈ (recvOf t src e k).placed ∧ (recvOf t src e k).finished = false ∧ t.counters = s.counters) ∧
          (total ≤ r.placed.length + 1 → (recvOf t src e k).finished = true ∧
            t.counters = if rcnt then mset 0 s.counters win.counter (s.counter win.counter + 1) else s.counters)))

/-- A peer's request at a window of this package (R368): a load answers the window's bytes and a store writes them, in the window's address
space; one that its window does not admit, or whose addresses fail, is answered with an error and changes nothing. -/
def PeersServed : Prop :=
  ∀ s w src e tag r, kget s.wires w = some (.peer src s.nodeNum e tag r) →
    let u : State := { s with wires := kdel s.wires w }
    let answers (v : State) (b : Option (List Byte)) : Prop := exec (.networkPacketArrival w) s = .next (sendOut v (.peerAnswer src tag b))
    (∀ win off n, r = .load win off n →
      let x := s.recvWin win
      let good : Prop := x.valid = true ∧ x.read = true ∧ s.tenantOf x.asid = x.tenant ∧ off + n ≤ x.length
      (¬ good → answers u none) ∧
      (good → ∀ c, checkSpan u (engIo e) x.asid .read (x.base + off) n = .error (.trap c) → answers u none) ∧
      (good → checkSpan u (engIo e) x.asid .read (x.base + off) n = .ok () → ∀ b, vread u (engIo e) x.asid (x.base + off) n = .ok b →
        answers u (some b))) ∧
    (∀ win off b, r = .store win off b →
      let x := s.recvWin win
      let good : Prop := x.valid = true ∧ x.write = true ∧ s.tenantOf x.asid = x.tenant ∧ off + b.length ≤ x.length
      (¬ good → answers u none) ∧
      (good → ∀ c, checkSpan u (engIo e) x.asid .write (x.base + off) b.length = .error (.trap c) → answers u none) ∧
      (good → checkSpan u (engIo e) x.asid .write (x.base + off) b.length = .ok () →
        ∀ v, vwrite u (engIo e) x.asid (x.base + off) b = (v, none) → answers v (some [])))

/-- NETWORK_ACK_ARRIVAL: a refusal fails the message with its code; the last acknowledgement ends it, its local counter moved; a second
acknowledgement of a packet does nothing (R365, R366). RETRANSMISSION_TIMEOUT sends the packet again, or, its tries gone, fails the
message with 4; one whose source cannot be read fails with 5, and so, by the model's choice (R376, log entry 106), does one of a queue whose
address space the ASID map no longer gives to its tenant. -/
def AcksArrive : Prop :=
  (∀ s w e k i code m, kget s.wires w = some (.ack s.nodeNum e k i code) → msgOf s e k = some m →
    let u : State := { s with wires := kdel s.wires w }
    (code ≠ 0 → exec (.networkAckArrival w) s = .next (failMsg u e k code)) ∧
    (∀ p, code = 0 → m.pkts[i]? = some p → p.acked = true → exec (.networkAckArrival w) s = .next u) ∧
    (∀ p, code = 0 → m.pkts = [p] → i = 0 → p.acked = false → p.sent = true → m.live = true → (s.eng e).msgs = [(k, m)] →
      exec (.networkAckArrival w) s = .next
        (if m.wr.flags % 2 = 1 then State.countUp (u.setEng e { s.eng e with msgs := [] }) m.wr.lcounter
         else u.setEng e { s.eng e with msgs := [] }))) ∧
  (∀ s e k m code, msgOf s e k = some m → m.live = true → (s.sendQ e m.queue).halted = none →
    (msgOf (failMsg s e k code) e k = some { m with failed := some code, drop := none } ∧
      ((failMsg s e k code).sendQ e m.queue).halted = some code)) ∧
  (∀ s e k i m p, msgOf s e k = some m → m.pkts[i]? = some p →
    (m.live = true → p.sent = true → p.acked = false → p.at_ + 1200 * orOne (s.eng e).rto ≤ s.now →
      (orOne (s.eng e).tries ≤ p.tries → exec (.retransmissionTimeout e k i) s = .next (failMsg s e k 4)) ∧
      (p.tries < orOne (s.eng e).tries → exec (.retransmissionTimeout e k i) s = .next (transmit s e k i true)) ∧
      (s.tenantOf (s.sendQ e m.queue).asid ≠ (s.sendQ e m.queue).tenant → transmit s e k i true = failMsg s e k 5) ∧
      (∀ c va, s.tenantOf (s.sendQ e m.queue).asid = (s.sendQ e m.queue).tenant → c ≠ 0x0C →
        vread s (engIo e) (s.sendQ e m.queue).asid (m.wr.src + i * m.payload) (m.size i) = .error ⟨.trap c, va⟩ →
        transmit s e k i true = failMsg s e k 5) ∧
      ∀ b, p.tries < orOne (s.eng e).tries → s.tenantOf (s.sendQ e m.queue).asid = (s.sendQ e m.queue).tenant →
        vread s (engIo e) (s.sendQ e m.queue).asid (m.wr.src + i * m.payload) (m.size i) = .ok b →
        (∃ n, kget (transmit s e k i true).wires n = some (.data s.nodeNum e k i m.wr.node m.wr.window (m.wr.offset + i * m.payload)
          m.pkts.length (m.wr.flags / 2 % 2 = 1) b)) ∧
        ((transmit s e k i true).eng e).rexmit = (if (s.eng e).rexmit < 65535 then (s.eng e).rexmit + 1 else (s.eng e).rexmit)) ∧
    ((m.live = false ∨ p.sent = false ∨ p.acked = true ∨ s.now < p.at_ + 1200 * orOne (s.eng e).rto) →
      exec (.retransmissionTimeout e k i) s = .next s))

/-- NTEST_ARM and the controls of a send queue (R361, R362, R366). That a halt stays while en is cleared or set is the model's choice (log
entry 60). -/
def EngineControls : Prop :=
  ∀ s e, s.recovery = false →
    (∀ v : Word, ∃ t, exec (.ntestArm e v) s = .next t ∧ t = { s with engines := t.engines } ∧ (∀ k, k ≠ e → t.eng k = s.eng k) ∧
      (t.eng e).tqueue = v.toNat % 256 ∧ (t.eng e).tpkt = v.toNat / 256 % 65536 ∧ (t.eng e).arm = decide (v.toNat / 2 ^ 31 = 1)) ∧
    ∀ q,
      ((s.sendQ e q).en = false → 4 ≤ (s.sendQ e q).lsize → (s.sendQ e q).lsize ≤ 12 → (s.sendQ e q).base % 4096 = 0 →
        ringPinned s e (s.sendQ e q) = true →
        exec (.sendQueueEnable e q) s = .next (s.setSendQ e q { s.sendQ e q with en := true, wpos := 0, spos := 0, posted := [] })) ∧
      ((s.sendQ e q).en = false → ((s.sendQ e q).lsize < 4 ∨ 12 < (s.sendQ e q).lsize ∨ (s.sendQ e q).base % 4096 ≠ 0 ∨
        ringPinned s e (s.sendQ e q) = false) → exec (.sendQueueEnable e q) s = .next s) ∧
      ((s.sendQ e q).en = true → ∃ t, exec (.sendQueueDisable e q) s = .next t ∧ t = { s with engines := t.engines } ∧
        t.sendQ e q = { s.sendQ e q with en := false, spos := (s.sendQ e q).wpos, posted := [] }) ∧
      ((s.sendQ e q).halted ≠ none → ∃ t, exec (.sendQueueGo e q) s = .next t ∧ t = { s with engines := t.engines } ∧
        t.sendQ e q = { s.sendQ e q with halted := none } ∧
        ∀ k m, msgOf s e k = some m → m.queue = q → m.failed ≠ none → m.finished = false → msgOf t e k = some { m with again := true })

/-! ### POD barriers (20 R369) -/

/-- Monitor `m`, of number `n` on core `core`, is bound to instance `i` of tenant `t` at POD scope. -/
def OnPod (s : State) (t i n core : Nat) (m : Monitor) : Prop :=
  n < 4 ∧ (∃ c, kget s.cores core = some c ∧ kget c.mons n = some m) ∧ m.cfg.scope = .pod ∧ m.cfg.idx = i ∧
    (∃ l, kget s.launches m.launch = some l ∧ l.tenant = t)

/-- Every monitor of the instance is as `f` makes it, every other monitor as it was, and of the cores nothing but monitors has changed. -/
def PodMonsNow (s u : State) (t i : Nat) (f : Nat → Monitor → Monitor) : Prop :=
  (∀ n core m, OnPod s t i n core m → kget (u.core core).mons n = some (f n m)) ∧
    (∀ n core, n < 4 → (∀ m, ¬ OnPod s t i n core m) → kget (u.core core).mons n = kget (s.core core).mons n) ∧
    ∀ core, u.core core = { s.core core with mons := (u.core core).mons }

/-- The root counts the arrival of a group of its own, or of another member's, to the bpod it carries; nothing else changes. -/
def PodArrivals : Prop :=
  ∀ s t i node n, isRoot s t = true → 0 < n →
    ((s.pod t i).expected = 0 ∨ ((s.pod t i).expected = n ∧ (s.pod t i).arrivals < n)) →
    let p : Pod := { s.pod t i with arrivals := (s.pod t i).arrivals + 1, expected := n }
    (∀ rest, node = s.nodeNum → (s.pod t i).own = n :: rest →
      exec (.podBarrierArrival t i ⟨node, n⟩) s = .next { s with pods := kset s.pods (podKey t i) { p with own := rest } }) ∧
    (node ≠ s.nodeNum → node ∈ podMembers s t →
      exec (.podBarrierArrival t i ⟨node, n⟩) s = .next { s with pods := kset s.pods (podKey t i) p })

/-- What the root does not count: another's barrier, no count, a node that is no member, more than the count:
the model's reading (log entry 62). -/
def PodArrivalsRefused : Prop :=
  ∀ s t i node n, (isRoot s t = false ∨ n = 0 ∨ (node ≠ s.nodeNum ∧ node ∉ podMembers s t) ∨ (node = s.nodeNum ∧ (s.pod t i).own = []) ∨
      ((s.pod t i).expected ≠ 0 ∧ ((s.pod t i).expected ≠ n ∨ (s.pod t i).expected ≤ (s.pod t i).arrivals))) →
    exec (.podBarrierArrival t i ⟨node, n⟩) s = .next s

/-- POD_MONITOR_GATHER: a member takes its open sums and sends them to the root; the root, all arrivals in and every member heard, takes its
own, judges all of them and sends the completion (20 R369, 18 R344). That a member's sum is taken as it is gathered, and what is committed from then
on belongs to the next phase, is the model's choice (log entries 62 and 86): 18 R343 takes the open sum at the phase's completion. -/
def PodGathers : Prop :=
  ∀ s t i, (s.cores.map (·.1)).Nodup →
    let taken (_ : Nat) (m : Monitor) : Monitor := { m with open_ := m.next, next := accZero, gathered := true }
    (isRoot s t = false → podGathered s t i = false → (s.pod t i).verdict = none →
      ∃ u, exec (.podMonitorGather t i) s = .next u ∧ u = { s with cores := u.cores, outputs := u.outputs } ∧
        u.outputs = s.outputs ++ [.podSums ((s.tenant t).podroot % 1024) t i (ownSums s t i)] ∧ PodMonsNow s u t i taken) ∧
    (isRoot s t = true → (s.pod t i).expected ≠ 0 → (s.pod t i).expected ≤ (s.pod t i).arrivals → (s.pod t i).verdict = none →
      sumsIn s t (s.pod t i) = true →
      let v := podVerdicts s t i (s.pod t i)
      ∃ u, exec (.podMonitorGather t i) s = .next u ∧ u = { s with cores := u.cores, outputs := u.outputs, pods := u.pods } ∧
        u.outputs = s.outputs ++ [.podDone t i v] ∧ u.pods = kset s.pods (podKey t i) { s.pod t i with verdict := some v } ∧
        PodMonsNow s u t i taken) ∧
    (isRoot s t = true → ((s.pod t i).arrivals < (s.pod t i).expected ∨ sumsIn s t (s.pod t i) = false) →
      exec (.podMonitorGather t i) s = .next s)

/-- The judgement of a number is of the total of the open sums of its monitors, this package's and those the members sent, in the order of
their logical cores, the lowest first (18 R344, R345). -/
def PodVerdictsJudge : Prop :=
  (∀ s t i n p, (podMons s t i n p).Pairwise (fun a b => a.1 ≤ b.1) ∧ (podMons s t i n p).Perm
    (gatherMons s (s.barrier .pod i t 0) n ++ p.sums.flatMap fun e => (e.2.filter fun m => m.mon = n).map fun m => (m.core, m.held))) ∧
  ∀ s t i p x, x ∈ podVerdicts s t i p ↔ x.mon < 4 ∧ podMons s t i x.mon p ≠ [] ∧
    x.total = sumAcc ((podMons s t i x.mon p).map fun e => e.2.open_) ∧ x.drift = judge x.mon (podMons s t i x.mon p) x.total

/-- POD_BARRIER_COMPLETION: the gathered monitors take the total and the status of their number, the sums committed since become the open
sums, the phase ends, and the waits of the groups that have arrived are over. -/
def PodCompletes : Prop :=
  (∀ s t i v, (s.pod t i).verdict = some v → (v.map (·.mon)).Nodup → (s.cores.map (·.1)).Nodup →
    let b := s.barrier .pod i t 0
    ∃ u, exec (.podBarrierCompletion t i) s = .next u ∧ u.mem = s.mem ∧ u.groups = s.groups ∧
      u.pods = kset s.pods (podKey t i) ⟨(s.pod t i).own, 0, 0, [], none⟩ ∧
      PodMonsNow s u t i (fun n m =>
        let m' : Monitor := { m with open_ := sumAcc [m.open_, m.next], next := accZero, gathered := false }
        match v.find? fun x => x.mon = n with
        | some x => if m.gathered then { m' with
            total := x.total, drift := m.drift || x.drift.isSome, mismatch := m.mismatch || (x.drift.any fun d => d.cause = 3) } else m'
        | none => m') ∧
      (u.barrier .pod i t 0).phase = b.phase + 1 ∧ (u.barrier .pod i t 0).arrivals = 0 ∧
      (∀ d, v.findSome? (·.drift) = some d → kget (u.barrier .pod i t 0).drifts b.phase = some d) ∧
      ∀ gid g, s.group gid = some g → s.tenantOf g.asid = t → partOf b gid = 0 → kget b.last gid = some b.phase → waitOpen u gid g .pod i = false) ∧
  (∀ s t i, (s.pod t i).verdict = none → exec (.podBarrierCompletion t i) s = .next s)

end Sys2Proof.Claims

/-- The network engines: starts, placement, peers' requests, acknowledgement, retransmission, and the queues' controls. -/
def Obligations.NetworkEnginesComplete : Prop :=
  Sys2Proof.Claims.MessagesStart ∧ Sys2Proof.Claims.WorkRequestLimits ∧ Sys2Proof.Claims.WindowRefusals ∧ Sys2Proof.Claims.PacketsArrive ∧
    Sys2Proof.Claims.PeersServed ∧ Sys2Proof.Claims.AcksArrive ∧ Sys2Proof.Claims.EngineControls

/-- Barriers at POD scope: arrivals counted, sums gathered and judged, the phase completed. -/
def Obligations.PodBarriersComplete : Prop :=
  Sys2Proof.Claims.PodArrivals ∧ Sys2Proof.Claims.PodArrivalsRefused ∧ Sys2Proof.Claims.PodGathers ∧ Sys2Proof.Claims.PodVerdictsJudge ∧
    Sys2Proof.Claims.PodCompletes

/-! ## Tenants, resets, attestation, control registers -/
namespace Sys2Proof.Claims
open Sys2Proof.Machine

/-- TENANT_VALID_SET sets the byte where the checks of R374 and R375 pass and signals the tenant's vector 3 (R358), and otherwise does
nothing. -/
def TenantValidSets : Prop :=
  (∀ s t, t < 64 → s.tenantAddr t / 2 ^ 48 = 0 → s.phys (s.tenantAddr t) 1 = 0 → tenantFieldsOk (s.tenant t) = true → tenantRangesOk s (s.tenant t) = true →
    ∃ u, exec (.tenantValidSet t) s = .next u ∧ (u.tenant t).valid = true ∧
      (∀ x, x ≠ s.tenantAddr t → Memory.byte u.mem x = Memory.byte s.mem x) ∧ u.groups = s.groups ∧ u.outputs = s.outputs ++ [.msix (t + 1) 3]) ∧
  (∀ s t, (s.phys (s.tenantAddr t) 1 ≠ 0 ∨ tenantFieldsOk (s.tenant t) = false ∨ tenantRangesOk s (s.tenant t) = false) → exec (.tenantValidSet t) s = .next s)

/-- The reset of a tenant by PF 0 or of its function (20 R379): its queues halt, its launches place nothing more, its cohorts are aborted;
once its work is over its counters and slots are zeroed, the status bit is set and vector 3 signalled. That the reset goes on in steps is the
model's choice (log entry 65). -/
def TenantResets : Prop :=
  ∀ i t, (i = .tenantReset t ∨ i = .functionLevelReset t) → ∀ s, s.recovery = false →
    (64 ≤ t → exec i s = .next s) ∧
    (t < 64 → t ∉ s.resetting → ∃ u, exec i s = .next u ∧
      (∀ d q, (s.queue d q).en = true → (s.queue d q).tenant = t → (u.queue d q).halted ≠ none) ∧
      (∀ lid l l', kget s.launches lid = some l → l.tenant = t → kget u.launches lid = some l' → l'.killed = true) ∧
      (∀ cid c l, kget s.cohorts cid = some c → c.aborted = none → kget s.launches c.launch = some l → l.tenant = t →
        ∃ c', kget u.cohorts cid = some c' ∧ c'.aborted ≠ none)) ∧
    (t < 64 → t ∈ s.resetting → tenantQuiet s t = false → exec i s = .next s) ∧
    (t < 64 → t ∈ s.resetting → tenantQuiet s t = true → ∃ u, exec i s = .next u ∧ t ∉ u.resetting ∧ u.mem = s.mem ∧
      u.groups = s.groups ∧ u.outputs = s.outputs ++ [.msix (t + 1) 3] ∧ u.rststat = s.rststat ||| BitVec.ofNat 64 (2 ^ t) ∧
      ∀ n, u.counter n = if counterOwner s n = t then 0 else s.counter n)

/-- WARM_RESET of an idle package resets every tenant and leaves it ready, links up, its quads at their factory map, memory kept; one whose
tenants have work left is not ready until a step finds that work over. COLD_RESET leaves the state after reset,
ready or, its image not verified, in recovery mode (R380, R382). That a second WARM_RESET does nothing while one is under way, and what lies
outside the package and so stays, are the model's choices (log entry 67); so is the factory map of the quads (log entry 88). -/
def ResetsComplete : Prop :=
  (∀ s, s.recovery = false → s.groups = [] → s.cohorts = [] → s.launches = [] → s.dies = [] → s.engines = [] → s.cores = [] →
    s.resetting = [] → s.warm = false →
    ∃ t, exec .warmReset s = .next t ∧ t.ready = true ∧ t.mem = s.mem ∧ t.resetting = [] ∧ t.rststat = BitVec.allOnes 64 ∧
      (∀ p, (t.cxlPort p).down = false ∧ (t.pciePort p).down = false) ∧ (∀ q, (t.quad q).phys = (Quad.zero q).phys) ∧ t.groups = []) ∧
  (∀ s t, t ∈ s.resetting → tenantQuiet s t = true → t ∉ (settleResets s).resetting) ∧
  (∀ s, s.warm = true → (settleResets s).resetting = [] → (settleResets s).ready = true ∧ (settleResets s).warm = false) ∧
  (∀ s, s.recovery = false → s.warm = true → exec .warmReset s = .next s) ∧
  (∀ s, ∃ t, exec .warmReset s = .next t ∧ (s.recovery = true → t = s)) ∧
  (∀ s, ∃ b, exec .coldReset s = .next { State.reset with
    agenda := s.agenda, fresh := s.fresh + 1, hostMem := s.hostMem, remMem := s.remMem, remWins := s.remWins, wires := s.wires
    outputs := s.outputs, fwDigests := s.fwDigests, ready := b, recovery := !b })

/-- FIRMWARE_UPDATE answers accepted or rejected, and an accepted image ends recovery mode and changes its digest; ATTESTATION_REQUEST writes
the report with the digests and the nonce, at a
physical address for PF 0, at one of hwasid for a function, where the ASID map gives that to the tenant (R376, R380, R381). The address
spaces, that an accepted image ends recovery and becomes the digest of its body, and the order of what the fifth digest covers are the model's
choices (log entry 88). That a function's report goes
through hwasid is the model's choice too (log entry 68), and that it is left out where hwasid is another tenant's (log entry 106). -/
def FirmwareAndAttestation : Prop :=
  (∀ s, ∃ ok d, exec .firmwareUpdate s = .next { s with
    fwDone := true, fwRejected := !ok, ready := s.ready || (ok && s.recovery), recovery := s.recovery && !ok, fwDigests := d } ∧
    (ok = false → d = s.fwDigests) ∧ (ok = true → ∃ n body, n < 4 ∧ d = kset s.fwDigests n (shake256 32 body))) ∧
  (∀ s (nonce : BitVec 256) (addr : Dbl), s.recovery = false → addr.toNat + 30000 ≤ 2 ^ 48 → ∃ t, exec (.attestationRequest 0 nonce addr) s = .next t ∧
    t.attDone = true ∧ t.groups = s.groups ∧
    Memory.bytes t.mem addr.toNat 16 = [0x4C, 0x57, 0x41, 0x54, 1, 0, 0, 0] ++ leBytes 2 s.nodeNum ++ [0xFF, 0xFF, 0, 0, 0, 0] ∧
    Memory.bytes t.mem (addr.toNat + 176) 32 = leBytes 32 nonce.toNat ∧
    (∀ n d, n < 4 → kget s.fwDigests n = some d → d.length = 32 → Memory.bytes t.mem (addr.toNat + 16 + 32 * n) 32 = d) ∧
    ∀ x, (x < addr.toNat ∨ addr.toNat + 30000 ≤ x) → Memory.byte t.mem x = Memory.byte s.mem x) ∧
  (∀ s n (nonce : BitVec 256) (addr : Dbl), n < 64 → s.tenantOf (s.tenant n).hwasid ≠ n → exec (.attestationRequest (n + 1) nonce addr) s = .next s) ∧
  (∀ s n (nonce : BitVec 256) (addr : Dbl), n < 64 → s.tenantOf (s.tenant n).hwasid = n → exec (.attestationRequest (n + 1) nonce addr) s =
    .next (vwrite s (ioCore 0) (s.tenant n).hwasid addr.toNat (reportBytes s n nonce)).1) ∧
  (∀ s n (nonce : BitVec 256), n < 64 → s.tenantOf (s.tenant n).hwasid = n →
    ((reportBytes s n nonce).drop 144).take 32 = shake256 32 (s.bytes (s.tenantAddr n) 128 ++ handlerText s n))

/-! ### Register writes (R355) -/

/-- The write of register `r` leaves exactly `t`. -/
def Writes (s : State) (r : CtlReg) (v : Dbl) (t : State) : Prop := exec (.registerWrite r v) s = .next t

/-- What passes from one tenant to another interrupts both with vector 3 (R358, R377); 255 is no tenant. -/
def QuotaMoves : Prop :=
  ∀ s a b, (a = b → quotaMoved s a b = s) ∧
    (a ≠ b → quotaMoved s a b = { s with
      outputs := s.outputs ++ (if a < 64 then [.msix (a + 1) 3] else []) ++ (if b < 64 then [.msix (b + 1) 3] else []) })

/-- Registers of the package and of the tables of PF 0 (R355). That PWRCAP ignores 0 and values above 3600 is the model's choice (log
entry 66). -/
def PackageRegisters : Prop :=
  ∀ s (v : Dbl), s.recovery = false →
    Writes s .node v { s with node := v.toNat % 1024 } ∧
    (1 ≤ v.toNat % 2 ^ 32 → v.toNat % 2 ^ 32 ≤ 3600 → Writes s .pwrcap v { s with pwrcap := BitVec.ofNat 32 v.toNat }) ∧
    ((v.toNat % 2 ^ 32 = 0 ∨ 3600 < v.toNat % 2 ^ 32) → Writes s .pwrcap v s) ∧
    Writes s .tenbase v { s with tenbase := v } ∧ Writes s .nwinbase v { s with nwinbase := v } ∧
    Writes s .capdec v { s with capdec := BitVec.ofNat 32 (v.toNat % 256 + 2048 * (v.toNat / 2048 % 2)) } ∧
    Writes s .rststat v { s with rststat := s.rststat &&& ~~~v } ∧ Writes s .attestAddr v { s with attAddr := v } ∧
    (∀ k, k < 4 → ∃ x, Writes s (.attestNonce k) v { s with attNonce := x } ∧ x.extractLsb' (64 * k) 64 = v ∧
      ∀ j, j < 4 → j ≠ k → x.extractLsb' (64 * j) 64 = s.attNonce.extractLsb' (64 * j) 64) ∧
    (∀ a, a < 1024 → ∃ t, Writes s (.asidMap a) v t ∧ t = { s with asidMap := t.asidMap } ∧ t.tenantOf a = v.toNat % 256 ∧
      ∀ b, b ≠ a → t.tenantOf b = s.tenantOf b) ∧
    (∀ i, i < 256 → Writes s (.hostWin i 0) v { s with hostWins := kset s.hostWins i { s.hostWin i with hbase := v.toNat } } ∧
      Writes s (.hostWin i 1) v { s with hostWins := kset s.hostWins i { s.hostWin i with hsize := v.toNat } } ∧
      Writes s (.hostWin i 2) v (quotaMoved { s with hostWins := kset s.hostWins i { s.hostWin i with
        valid := v.toNat % 2 = 1, port := v.toNat / 2 % 2, tenant := v.toNat / 256 % 256 } }
        (if (s.hostWin i).valid then (s.hostWin i).tenant else 255) (if v.toNat % 2 = 1 then v.toNat / 256 % 256 else 255))) ∧
    (∀ i, i < 128 → ∃ t, Writes s (.peerWin i) v t ∧ t = { s with peerWins := t.peerWins, outputs := t.outputs } ∧
      mget 0 t.peerWins i = v &&& 0x8000003F0FFF03FF ∧ ∀ j, j ≠ i → mget 0 t.peerWins j = mget 0 s.peerWins j) ∧
    (∀ i, i < 4096 → ∃ t, Writes s (.counterVal i) v t ∧ t = { s with counters := t.counters } ∧
      t.counter i = BitVec.ofNat 32 v.toNat ∧ ∀ j, j ≠ i → t.counter j = s.counter j) ∧
    (∀ i, i < 4096 → ∃ t, Writes s (.counterTenant i) v t ∧ t = { s with counterTen := t.counterTen, outputs := t.outputs } ∧
      t.outputs = (quotaMoved s (counterOwner s i) (v.toNat % 256)).outputs ∧
      counterOwner t i = v.toNat % 256 ∧ ∀ j, j ≠ i → counterOwner t j = counterOwner s j) ∧
    (∀ p, p < 2 → ∃ c, Writes s (.pcieCto p) v { s with pcie := kset s.pcie p { s.pciePort p with cto := c } } ∧
      c = if v.toNat % 128 = 0 ∨ 64 < v.toNat % 128 then 64 else v.toNat % 128) ∧
    (∀ p, p < 8 → ∃ c, Writes s (.cxlCto p) v { s with cxl := kset s.cxl p { s.cxlPort p with cto := c } } ∧
      c = if v.toNat % 128 = 0 ∨ 64 < v.toNat % 128 then 64 else v.toNat % 128) ∧
    (∀ i, i < 2 → ∃ t, Writes s (.asidtb i) v t ∧ t = { s with asidtb := t.asidtb } ∧ mget 0 t.asidtb i = v)

/-- Registers of the network engines, the dies, the queues, the quads and the event rings (R355, R361). That NSTAT.tdrops clears bit by bit,
where R361 says that writing 1s clears the field, is the model's choice (log entry 66). -/
def UnitRegisters : Prop :=
  ∀ s (v : Dbl), s.recovery = false →
    (∀ e, e < 16 →
      Writes s (.ncfg e) v (s.setEng e { s.eng e with
        psize := if v.toNat % 4 = 3 then 2 else v.toNat % 4, en := v.toNat / 4 % 2 = 1 }) ∧
      Writes s (.nrto e) v (s.setEng e { s.eng e with
        rto := v.toNat % 65536, tries := v.toNat / 65536 % 16, dup := v.toNat / 2 ^ 20 % 16 }) ∧
      Writes s (.nstat e) v (s.setEng e { s.eng e with
        tdrops := (s.eng e).tdrops - ((s.eng e).tdrops &&& v.toNat / 65536 % 65536) }) ∧
      ∀ q, q < 256 → ((s.sendQ e q).en = false →
          Writes s (.sqBase e q) v (s.setSendQ e q { s.sendQ e q with base := v.toNat }) ∧
          Writes s (.sqLsize e q) v (s.setSendQ e q { s.sendQ e q with lsize := v.toNat % 16 }) ∧
          Writes s (.sqTenant e q) v (quotaMoved (s.setSendQ e q { s.sendQ e q with tenant := v.toNat % 256 }) (s.sendQ e q).tenant
            (v.toNat % 256)) ∧
          Writes s (.sqAsid e q) v (s.setSendQ e q { s.sendQ e q with asid := v.toNat % 65536 })) ∧
        ((s.sendQ e q).en = true → Writes s (.sqBase e q) v s ∧ Writes s (.sqLsize e q) v s ∧ Writes s (.sqTenant e q) v s ∧
          Writes s (.sqAsid e q) v s)) ∧
    (∀ d, d < 16 → Writes s (.wdgrp d) v (s.setDie d { s.die d with gcyc := v.toNat % 2 ^ 32 }) ∧
      Writes s (.wdcp d) v (s.setDie d { s.die d with cpms := v.toNat % 65536, cpesc := v.toNat / 65536 % 256 }) ∧
      Writes s (.wdstat d) v (s.setDie d { s.die d with fault := (s.die d).fault && decide (v.toNat / 65536 % 2 = 0) }) ∧
      Writes s (.wsidle d) v (s.setDie d { s.die d with wsidle := BitVec.ofNat 32 v.toNat }) ∧
      ∀ m, m < 8 → Writes s (.pmsel d m) v (s.setPm d m { (s.die d).pm m with sel := BitVec.ofNat 32 (v.toNat % 65536) }) ∧
        Writes s (.pmwin d m) v (s.setPm d m { (s.die d).pm m with win := BitVec.ofNat 32 v.toNat }) ∧
        (v.toNat % 2 = 0 → Writes s (.pmctl d m) v (s.setPm d m { (s.die d).pm m with
          cont := v.toNat / 2 % 2 = 1, done := ((s.die d).pm m).done && decide (v.toNat / 4 % 2 = 0) })) ∧
        (v.toNat % 2 = 1 → ∃ t, Writes s (.pmctl d m) v t ∧ t = { s with dies := t.dies } ∧
          (t.die d).pm m = { (s.die d).pm m with
            cont := v.toNat / 2 % 2 = 1, done := ((s.die d).pm m).done && decide (v.toNat / 4 % 2 = 0), open_ := true, opened := s.now
            sampled := s.now, min := 0, max := 0, count := 0, bins := [], rmin := 0, rmax := 0, rcount := 0, rbins := [] }) ∧
        ∀ q, q < 128 → ((s.queue d q).en = false →
            Writes s (.qbase d q) v (s.setQueue d q { s.queue d q with base := v.toNat }) ∧
            Writes s (.qptra d q) v (s.setQueue d q { s.queue d q with ptrblk := v.toNat }) ∧
            (v.toNat / 128 % 2 = 0 → Writes s (.qctl d q) v (quotaMoved (s.setQueue d q { s.queue d q with
              lsize := v.toNat % 32, prio := v.toNat / 32 % 4, tenant := v.toNat / 256 % 64, asid := v.toNat / 2 ^ 14 % 1024 })
              (s.queue d q).tenant (v.toNat / 256 % 64)))) ∧
          ((s.queue d q).en = true → Writes s (.qbase d q) v s ∧ Writes s (.qptra d q) v s ∧
            (v.toNat / 128 % 2 = 1 → Writes s (.qctl d q) v (s.setQueue d q { s.queue d q with prio := v.toNat / 32 % 4 })))) ∧
    (∀ q, q < 1024 →
      (v.toNat / 2 ^ 24 % 2 = 0 →
        Writes s (.qwctl q) v (s.setQuad q { s.quad q with bto := v.toNat % 65536, esc := v.toNat / 65536 % 256 })) ∧
      (v.toNat / 2 ^ 24 % 2 = 1 → ∃ t, Writes s (.qwctl q) v t ∧ t = { s with quads := t.quads } ∧ t.quad q = { s.quad q with
        bto := v.toNat % 65536, esc := v.toNat / 65536 % 256, stalls := 0, btos := 0, stallBy := [] } ∧ ∀ k, k ≠ q → t.quad k = s.quad k) ∧
      Writes s (.qwstat q) v (s.setQuad q { s.quad q with
        escd := (s.quad q).escd && decide (v.toNat / 2 ^ 19 % 2 = 0), hop := (s.quad q).hop && decide (v.toNat / 2 ^ 20 % 2 = 0) })) ∧
    (∀ t, t < 64 → (∃ u, Writes s (.evcons t) v u ∧ u = { s with evcons := u.evcons } ∧ mget 0 u.evcons t = BitVec.ofNat 32 v.toNat ∧
        ∀ j, j ≠ t → mget 0 u.evcons j = mget 0 s.evcons j) ∧
      (v.toNat % 2 = 1 → ∃ u, Writes s (.evstat t) v u ∧ u = { s with evstat := u.evstat } ∧ mget false u.evstat t = false) ∧
      (v.toNat % 2 = 0 → Writes s (.evstat t) v s))

/-! ### BAR 0 (R354, R355) -/

/-- A word write at these offsets of PF 0's BAR 0 is the write of the register that the table of R355 lists there. -/
inductive Listed : Nat → CtlReg → Prop
  | node : Listed 0x004 .node
  | pwrcap : Listed 0x008 .pwrcap
  | capdec : Listed 0x020 .capdec
  | counter i : i < 4096 → Listed (0x8000 + 8 * i) (.counterVal i)
  | pcie p : p < 2 → Listed (0x10010 + 4 * p) (.pcieCto p)
  | cxl p : p < 8 → Listed (0x10020 + 4 * p) (.cxlCto p)
  | ncfg e : e < 16 → Listed (0x40000 + 0x4000 * e) (.ncfg e)
  | nrto e : e < 16 → Listed (0x40004 + 0x4000 * e) (.nrto e)
  | nstat e : e < 16 → Listed (0x4000C + 0x4000 * e) (.nstat e)
  | wdgrp d : d < 16 → Listed (0x1000000 + 0x100000 * d) (.wdgrp d)
  | wdcp d : d < 16 → Listed (0x1000004 + 0x100000 * d) (.wdcp d)
  | wdstat d : d < 16 → Listed (0x1000008 + 0x100000 * d) (.wdstat d)
  | wsidle d : d < 16 → Listed (0x100000C + 0x100000 * d) (.wsidle d)
  | pmsel d m : d < 16 → m < 8 → Listed (0x1000100 + 0x100000 * d + 0x80 * m) (.pmsel d m)
  | pmwin d m : d < 16 → m < 8 → Listed (0x1000104 + 0x100000 * d + 0x80 * m) (.pmwin d m)
  | pmctl d m : d < 16 → m < 8 → Listed (0x1000108 + 0x100000 * d + 0x80 * m) (.pmctl d m)

/-- A listed offset writes its register; an offset not listed ignores writes and reads zero; a virtual function reaches the registers of its
own tenant's queues and none of another's. -/
def BarWindows : Prop :=
  (∀ o r s v, Listed o r → s.recovery = false → v < 2 ^ 32 → barWrite 0 o (leBytes 4 v) s = exec (.registerWrite r (BitVec.ofNat 64 v)) s) ∧
  (∀ fn o s (b : List Byte), o % 4 = 0 → b.length = 4 → cellAt s fn o = none →
    barWrite fn o b s = .next s ∧ ∀ tag, barRead s fn o 4 tag = sendOut s (.reply tag [0, 0, 0, 0])) ∧
  (∀ s t d q k, t < 64 → d < 16 → q < 128 → k < 16 → (s.queue d q).tenant ≠ t → cellAt s (t + 1) (0x10000 * d + 64 * q + 4 * k) = none) ∧
  (∀ s t d q k, t < 64 → d < 16 → q < 128 → k < 16 → (s.queue d q).tenant = t →
    cellAt s (t + 1) (0x10000 * d + 64 * q + 4 * k) = cellAt s 0 (0x1001000 + 0x100000 * d + 64 * q + 4 * k))

/-- In recovery mode PF 0 accepts only a new image (R380). The registers that a virtual function reaches, its event ring's and its queues', keep
their effect, by the model's choice (log entry 66). -/
def RecoveryMode : Prop :=
  ∀ s (v : Dbl), Writes s .fwAddr v { s with fwAddr := v } ∧ Writes s .fwLen v { s with fwLen := v } ∧
    (s.recovery = true → (∀ r, r ≠ .fwAddr → r ≠ .fwLen → tenantReg r = false → Writes s r v s) ∧
      (∀ r, tenantReg r = true ↔ (∃ t, r = .evcons t ∨ r = .evstat t) ∨ ∃ d q, r = .qbase d q ∨ r = .qptra d q ∨ r = .qctl d q) ∧
      (∀ t, t < 64 → ∃ u, Writes s (.evcons t) v u ∧ u = { s with evcons := u.evcons } ∧ mget 0 u.evcons t = BitVec.ofNat 32 v.toNat) ∧
      (∀ d q, d < 16 → q < 128 → (s.queue d q).en = false →
        Writes s (.qbase d q) v (s.setQueue d q { s.queue d q with base := v.toNat })) ∧ (∀ t, exec (.tenantReset t) s = .next s) ∧
      exec .warmReset s = .next s ∧ (∀ c, exec (.replaceDescriptor c) s = .next s) ∧ (∀ c, exec (.slide c) s = .next s) ∧
      ∀ q n, exec (.quadRemap q n) s = .next s)

end Sys2Proof.Claims

/-- Tenants are set valid and reset; the package is reset; firmware and attestation. -/
def Obligations.TenantsAndResetsComplete : Prop :=
  Sys2Proof.Claims.TenantValidSets ∧ Sys2Proof.Claims.TenantResets ∧ Sys2Proof.Claims.ResetsComplete ∧
    Sys2Proof.Claims.FirmwareAndAttestation

/-- Every control register stores what its table says, at its offset; recovery mode takes only a new image. -/
def Obligations.RegisterWritesComplete : Prop :=
  Sys2Proof.Claims.PackageRegisters ∧ Sys2Proof.Claims.UnitRegisters ∧ Sys2Proof.Claims.QuotaMoves ∧ Sys2Proof.Claims.BarWindows ∧
    Sys2Proof.Claims.RecoveryMode
end

