-- ==== Sys2Proof/Laws/Decode.lean ====
section
/-! SUPPORT. Laws of the encoding (spec/01_instruction_words.md R8 to R10): the fields of a word built from its fields, and
each operand code read back. -/
namespace Sys2Proof

/-! ## Fields of formats T, U, I and J -/

theorem fOp_cat (b a d o : BitVec 8) : fOp (b ++ a ++ d ++ o) = o := by
  apply BitVec.eq_of_toNat_eq
  simp only [fOp, BitVec.extractLsb'_toNat, BitVec.toNat_append, Nat.shiftRight_zero]
  rw [← Nat.shiftLeft_add_eq_or_of_lt o.isLt]; have := o.isLt; omega

theorem fD_cat (b a d o : BitVec 8) : fD (b ++ a ++ d ++ o) = d := by
  apply BitVec.eq_of_toNat_eq
  simp only [fD, BitVec.extractLsb'_toNat, BitVec.toNat_append, Nat.shiftRight_eq_div_pow]
  rw [← Nat.shiftLeft_add_eq_or_of_lt o.isLt, ← Nat.shiftLeft_add_eq_or_of_lt d.isLt]
  simp only [Nat.shiftLeft_eq]; have := o.isLt; have := d.isLt; omega

theorem fA_cat (b a d o : BitVec 8) : fA (b ++ a ++ d ++ o) = a := by
  apply BitVec.eq_of_toNat_eq
  simp only [fA, BitVec.extractLsb'_toNat, BitVec.toNat_append, Nat.shiftRight_eq_div_pow]
  rw [← Nat.shiftLeft_add_eq_or_of_lt o.isLt, ← Nat.shiftLeft_add_eq_or_of_lt d.isLt, ← Nat.shiftLeft_add_eq_or_of_lt a.isLt]
  simp only [Nat.shiftLeft_eq]; have := o.isLt; have := d.isLt; have := a.isLt; omega

theorem fB_cat (b a d o : BitVec 8) : fB (b ++ a ++ d ++ o) = b := by
  apply BitVec.eq_of_toNat_eq
  simp only [fB, BitVec.extractLsb'_toNat, BitVec.toNat_append, Nat.shiftRight_eq_div_pow]
  rw [← Nat.shiftLeft_add_eq_or_of_lt o.isLt, ← Nat.shiftLeft_add_eq_or_of_lt d.isLt, ← Nat.shiftLeft_add_eq_or_of_lt a.isLt]
  simp only [Nat.shiftLeft_eq]; have := o.isLt; have := d.isLt; have := a.isLt; have := b.isLt; omega

theorem fOp_imm (i : BitVec 16) (d o : BitVec 8) : fOp (i ++ d ++ o) = o := by
  apply BitVec.eq_of_toNat_eq
  simp only [fOp, BitVec.extractLsb'_toNat, BitVec.toNat_append, Nat.shiftRight_zero]
  rw [← Nat.shiftLeft_add_eq_or_of_lt o.isLt]; simp only [Nat.shiftLeft_eq]; have := o.isLt; omega

theorem fD_imm (i : BitVec 16) (d o : BitVec 8) : fD (i ++ d ++ o) = d := by
  apply BitVec.eq_of_toNat_eq
  simp only [fD, BitVec.extractLsb'_toNat, BitVec.toNat_append, Nat.shiftRight_eq_div_pow]
  rw [← Nat.shiftLeft_add_eq_or_of_lt o.isLt, ← Nat.shiftLeft_add_eq_or_of_lt d.isLt]
  simp only [Nat.shiftLeft_eq]; have := o.isLt; have := d.isLt; omega

theorem fImm_imm (i : BitVec 16) (d o : BitVec 8) : fImm (i ++ d ++ o) = i := by
  apply BitVec.eq_of_toNat_eq
  simp only [fImm, BitVec.extractLsb'_toNat, BitVec.toNat_append, Nat.shiftRight_eq_div_pow]
  rw [← Nat.shiftLeft_add_eq_or_of_lt o.isLt, ← Nat.shiftLeft_add_eq_or_of_lt d.isLt]
  simp only [Nat.shiftLeft_eq]; have := o.isLt; have := d.isLt; have := i.isLt; omega

theorem fOp_disp (i : BitVec 24) (o : BitVec 8) : fOp (i ++ o) = o := by
  apply BitVec.eq_of_toNat_eq
  simp only [fOp, BitVec.extractLsb'_toNat, BitVec.toNat_append, Nat.shiftRight_zero]
  rw [← Nat.shiftLeft_add_eq_or_of_lt o.isLt]; simp only [Nat.shiftLeft_eq]; have := o.isLt; omega

theorem disp_cat (i : BitVec 24) (o : BitVec 8) : (i ++ o).extractLsb' 8 24 = i := by
  apply BitVec.eq_of_toNat_eq
  simp only [BitVec.extractLsb'_toNat, BitVec.toNat_append, Nat.shiftRight_eq_div_pow]
  rw [← Nat.shiftLeft_add_eq_or_of_lt o.isLt]
  simp only [Nat.shiftLeft_eq]; have := o.isLt; have := i.isLt; omega

/-! ## Operand codes read back -/

theorem finCode_toNat {n : Nat} (h : n < 256) : (finCode n).toNat = n := by
  simp only [finCode, BitVec.toNat_ofNat]; omega

theorem ok_of_toOption {ε α : Type} {e : Except ε α} {a : α} (h : e.toOption = some a) : e = .ok a := by
  cases e with
  | error x => cases h
  | ok x => cases h; rfl

@[simp] theorem slotVSrc_code (a : VSrc) : slotVSrc a.code = .ok a := by
  cases a with
  | reg n => simp [slotVSrc, VSrc.code, finCode_toNat (by omega : n.val < 256)]
  | latch k => obtain ⟨k, hk⟩ := k; match k, hk with
    | 0, _ => rfl
    | 1, _ => rfl
    | 2, _ => rfl
  | lane => rfl
  | zero => rfl

@[simp] theorem slotVReg_code (a : VReg) : slotVReg a.code = .ok a := by
  cases a with
  | reg n => simp [slotVReg, VReg.code, finCode_toNat (by omega : n.val < 256)]
  | zero => rfl

@[simp] theorem slotUReg_code (a : UReg) : slotUReg a.code = .ok a := by
  cases a with
  | reg n => simp [slotUReg, UReg.code, finCode_toNat (by omega : n.val < 256)]
  | zero => rfl

@[simp] theorem slotFin248_code (n : Fin 248) : slotFin248 (finCode n.val) = .ok n := by
  simp [slotFin248, finCode_toNat (by omega : n.val < 256)]
@[simp] theorem slotFin192_code (n : Fin 192) : slotFin192 (finCode n.val) = .ok n := by
  simp [slotFin192, finCode_toNat (by omega : n.val < 256)]
@[simp] theorem slotFin16_code (n : Fin 16) : slotFin16 (finCode n.val) = .ok n := by
  simp [slotFin16, finCode_toNat (by omega : n.val < 256)]
@[simp] theorem slotFin8_code (n : Fin 8) : slotFin8 (finCode n.val) = .ok n := by
  simp [slotFin8, finCode_toNat (by omega : n.val < 256)]
@[simp] theorem slotBool_code (b : Bool) : slotBool (boolCode b) = .ok b := by cases b <;> rfl
@[simp] theorem slotB6_code (x : BitVec 6) : slotB6 (b6Code x) = .ok x := ok_of_toOption (by revert x; decide)
@[simp] theorem slotB5_code (x : BitVec 5) : slotB5 (b5Code x) = .ok x := ok_of_toOption (by revert x; decide)
@[simp] theorem slotB3_code (x : BitVec 3) : slotB3 (b3Code x) = .ok x := ok_of_toOption (by revert x; decide)
@[simp] theorem slotB2_code (x : BitVec 2) : slotB2 (b2Code x) = .ok x := ok_of_toOption (by revert x; decide)
@[simp] theorem slotVote_code (x : VoteKind) : slotVote x.code = .ok x := by cases x <;> rfl
@[simp] theorem slotView_code (x : ViewSel) : slotView x.code = .ok x := by cases x <;> rfl
@[simp] theorem slotROp_code (x : ROp) : slotROp x.code = .ok x := by cases x <;> rfl
@[simp] theorem slotTSize_code (x : TSize) : slotTSize x.code = .ok x := by cases x <;> rfl
@[simp] theorem slotMonSel_code (x : MonSel) : slotMonSel x.code = .ok x := by cases x <;> rfl
@[simp] theorem slotScope_code (x : Scope) : slotScope x.code = .ok x := by cases x <;> rfl
@[simp] theorem slotPredI_code (p : Fin 8) (c : ICond) : slotPredI (predICode p c) = .ok (p, c) := by
  cases c <;> exact ok_of_toOption (by revert p; decide)
@[simp] theorem slotPredF_code (p : Fin 8) (c : FCond) : slotPredF (predFCode p c) = .ok (p, c) := by
  cases c <;> exact ok_of_toOption (by revert p; decide)
@[simp] theorem slotSCmp_code (d : BitVec 5) (c : SCond) : slotSCmp (scmpCode d c) = .ok (d, c) := by
  cases c <;> exact ok_of_toOption (by revert d; decide)
@[simp] theorem slotLdBase_code (o : LdOrd) (b : BitVec 6) : slotLdBase (ldBaseCode o b) = .ok (o, b) := by
  cases o <;> exact ok_of_toOption (by revert b; decide)
@[simp] theorem slotStBase_code (o : StOrd) (b : BitVec 6) : slotStBase (stBaseCode o b) = .ok (o, b) := by
  cases o <;> exact ok_of_toOption (by revert b; decide)
@[simp] theorem slotGaBase_code (o : GaOrd) (b : BitVec 6) : slotGaBase (gaBaseCode o b) = .ok (o, b) := by
  cases o <;> exact ok_of_toOption (by revert b; decide)
@[simp] theorem slotAtBase_code (o : AtOrd) (b : BitVec 6) : slotAtBase (atBaseCode o b) = .ok (o, b) := by
  cases o <;> exact ok_of_toOption (by revert b; decide)
@[simp] theorem slotScan_code (o : ROp) (e : Bool) : slotScan (scanCode o e) = .ok (o, e) := by
  cases o <;> cases e <;> rfl
@[simp] theorem slotShr_code (h : BitVec 4) (r : Bool) : slotShr (shrCode h r) = .ok (h, r) := by
  cases r <;> exact ok_of_toOption (by revert h; decide)
@[simp] theorem slotWaitm_code (c : WCond) (w : Bool) : slotWaitm (waitmCode c w) = .ok (c, w) := by
  cases c <;> cases w <;> rfl
@[simp] theorem slotFence_code (k : FenceKind) (x : FenceScope) : slotFence (fenceCode k x) = .ok (k, x) := by
  rcases x with s | _
  · cases k <;> cases s <;> rfl
  · cases k <;> rfl

end Sys2Proof
end

