-- ==== Sys2Proof/Laws/SMap.lean ====
section
/-! SUPPORT. Laws of the sparse maps: a read after a write, writes elsewhere, and the canonical form. -/
namespace Sys2Proof.Machine

/-! ## Tables of records -/

/-- A table read after a write. -/
theorem kget_kset {β : Type} {m : List (Nat × β)} {k j : Nat} {v : β} :
    kget (kset m k v) j = if k = j then some v else kget m j := by
  induction m with
  | nil => simp [kset, kget]
  | cons e m ih =>
    obtain ⟨a, w⟩ := e
    simp only [kset]
    split
    · simp [kget]
    · split
      · rename_i hka
        subst hka
        simp only [kget]
        by_cases hkj : k = j <;> simp [hkj]
      · rename_i hka hne
        simp only [kget]
        by_cases haj : a = j
        · subst haj; simp [hne]
        · simp [haj, ih]

theorem kget_kset_same {β : Type} {m : List (Nat × β)} {k : Nat} {v : β} : kget (kset m k v) k = some v := by
  simp [kget_kset]

theorem kget_kset_other {β : Type} {m : List (Nat × β)} {k j : Nat} {v : β} (h : k ≠ j) : kget (kset m k v) j = kget m j := by
  simp [kget_kset, h]

/-- A table read after a change of one record. -/
theorem kget_kupd {β : Type} {m : List (Nat × β)} {k j : Nat} {f : β → β} :
    kget (kupd m k f) j = if k = j then (kget m j).map f else kget m j := by
  induction m with
  | nil => simp [kupd, kget]
  | cons e m ih =>
    obtain ⟨a, w⟩ := e
    simp only [kupd, List.map_cons] at ih ⊢
    by_cases hak : a = k
    · subst hak
      simp only [if_true, kget]
      by_cases haj : a = j
      · simp [haj]
      · simp only [haj, if_false]
        rw [ih]
        simp [haj]
    · simp only [hak, if_false, kget]
      by_cases haj : a = j
      · subst haj
        have : k ≠ a := fun h => hak h.symm
        simp [this]
      · simp [haj, ih]

/-- A table read after a removal. -/
theorem kget_kdel {β : Type} {m : List (Nat × β)} {k j : Nat} : kget (kdel m k) j = if k = j then none else kget m j := by
  induction m with
  | nil => simp [kdel, kget]
  | cons e m ih =>
    obtain ⟨a, w⟩ := e
    by_cases hak : a = k
    · subst hak
      have : kdel ((a, w) :: m) a = kdel m a := by simp [kdel]
      rw [this, ih]
      by_cases haj : a = j <;> simp [kget, haj]
    · have : kdel ((a, w) :: m) k = (a, w) :: kdel m k := by simp [kdel, hak]
      rw [this]
      simp only [kget, ih]
      by_cases haj : a = j
      · subst haj
        have : k ≠ a := fun h => hak h.symm
        simp [this]
      · simp [haj]

/-! ## Maps with a default -/

theorem mget_eq_kget {β : Type} {z : β} {m : List (Nat × β)} {k : Nat} : mget z m k = (kget m k).getD z := by
  induction m with
  | nil => rfl
  | cons e m ih =>
    obtain ⟨a, v⟩ := e
    simp only [mget, kget]
    split
    · rfl
    · exact ih

/-- A read after a write. -/
theorem mget_mset {β : Type} [DecidableEq β] {z : β} {m : List (Nat × β)} {k j : Nat} {v : β} :
    mget z (mset z m k v) j = if k = j then v else mget z m j := by
  simp only [mget_eq_kget, mset]
  split
  · rename_i hv
    rw [kget_kdel]
    by_cases h : k = j <;> simp [h, hv]
  · rw [kget_kset]
    by_cases h : k = j <;> simp [h]

/-- A read after a write of several values. -/
theorem mget_msetList {β : Type} [DecidableEq β] {z : β} {vs : List β} {m : List (Nat × β)} {k j : Nat} :
    mget z (msetList z m k vs) j = if k ≤ j ∧ j < k + vs.length then vs.getD (j - k) z else mget z m j := by
  induction vs generalizing m k with
  | nil =>
    have h0 : ¬ (k ≤ j ∧ j < k + ([] : List β).length) := by simp only [List.length_nil]; omega
    rw [if_neg h0]
    rfl
  | cons v vs ih =>
    simp only [msetList]
    rw [ih, mget_mset]
    by_cases hkj : k = j
    · subst hkj
      have h1 : ¬ (k + 1 ≤ k ∧ k < k + 1 + vs.length) := by omega
      simp [h1]
    · by_cases hin : k + 1 ≤ j ∧ j < k + 1 + vs.length
      · have h2 : k ≤ j ∧ j < k + (v :: vs).length := by simp only [List.length_cons]; omega
        have h3 : j - k = (j - (k + 1)) + 1 := by omega
        simp only [hin, and_self, if_true, h2, h3, List.getD_cons_succ]
      · have h2 : ¬ (k ≤ j ∧ j < k + (v :: vs).length) := by simp only [List.length_cons]; omega
        simp only [hin, h2, hkj, if_false]

theorem length_mgetList {β : Type} {z : β} {m : List (Nat × β)} {k n : Nat} : (mgetList z m k n).length = n := by
  induction n generalizing k with
  | zero => rfl
  | succ n ih => simp [mgetList, ih]

theorem getD_mgetList {β : Type} {z : β} {m : List (Nat × β)} {k n i : Nat} (h : i < n) :
    (mgetList z m k n).getD i z = mget z m (k + i) := by
  induction n generalizing k i with
  | zero => omega
  | succ n ih =>
    cases i with
    | zero => simp [mgetList]
    | succ i =>
      simp only [mgetList, List.getD_cons_succ]
      rw [ih (by omega)]
      congr 1
      omega

/-- Reading back what was stored. -/
theorem mgetList_msetList {β : Type} [DecidableEq β] {z : β} {vs : List β} {m : List (Nat × β)} {k : Nat} :
    mgetList z (msetList z m k vs) k vs.length = vs := by
  apply List.ext_getElem
  · exact length_mgetList
  · intro i h1 h2
    have e1 := getD_mgetList (z := z) (m := msetList z m k vs) (k := k) h2
    rw [mget_msetList] at e1
    have h3 : k ≤ k + i ∧ k + i < k + vs.length := by omega
    simp only [h3, and_self, if_true, Nat.add_sub_cancel_left] at e1
    simpa [List.getD, h1, h2] using e1

/-! ## The canonical form -/

theorem mwfFrom_mono {β : Type} [DecidableEq β] {z : β} {lo hi : Nat} {m : List (Nat × β)} (hle : lo ≤ hi)
    (h : mwfFrom z hi m = true) : mwfFrom z lo m = true := by
  cases m with
  | nil => rfl
  | cons e m =>
    obtain ⟨a, v⟩ := e
    simp only [mwfFrom, Bool.and_eq_true, decide_eq_true_eq] at h ⊢
    exact ⟨⟨Nat.le_trans hle h.1.1, h.1.2⟩, h.2⟩

theorem mwfFrom_kset {β : Type} [DecidableEq β] {z : β} {lo : Nat} {m : List (Nat × β)} {k : Nat} {v : β}
    (h : mwfFrom z lo m = true) (hk : lo ≤ k) (hv : v ≠ z) : mwfFrom z lo (kset m k v) = true := by
  induction m generalizing lo with
  | nil => simp [kset, mwfFrom, hk, hv]
  | cons e m ih =>
    obtain ⟨a, w⟩ := e
    simp only [mwfFrom, Bool.and_eq_true, decide_eq_true_eq] at h
    obtain ⟨⟨hla, hw⟩, hm⟩ := h
    simp only [kset]
    split
    · simp only [mwfFrom, Bool.and_eq_true, decide_eq_true_eq]
      exact ⟨⟨hk, hv⟩, ⟨by omega, hw⟩, hm⟩
    · split
      · rename_i hka
        simp only [mwfFrom, Bool.and_eq_true, decide_eq_true_eq]
        exact ⟨⟨hk, hv⟩, by rw [hka]; exact hm⟩
      · simp only [mwfFrom, Bool.and_eq_true, decide_eq_true_eq]
        exact ⟨⟨hla, hw⟩, ih hm (by omega)⟩

theorem mwfFrom_filter {β : Type} [DecidableEq β] {z : β} {lo : Nat} {m : List (Nat × β)} {f : Nat × β → Bool}
    (h : mwfFrom z lo m = true) : mwfFrom z lo (m.filter f) = true := by
  induction m generalizing lo with
  | nil => rfl
  | cons e m ih =>
    obtain ⟨a, w⟩ := e
    simp only [mwfFrom, Bool.and_eq_true, decide_eq_true_eq] at h
    obtain ⟨⟨hla, hw⟩, hm⟩ := h
    simp only [List.filter]
    split
    · simp only [mwfFrom, Bool.and_eq_true, decide_eq_true_eq]
      exact ⟨⟨hla, hw⟩, ih hm⟩
    · exact mwfFrom_mono (by omega) (ih hm)

/-- A write keeps the canonical form. -/
theorem mwf_mset {β : Type} [DecidableEq β] {z : β} {m : List (Nat × β)} {k : Nat} {v : β} (h : mwf z m = true) :
    mwf z (mset z m k v) = true := by
  simp only [mset]
  split
  · exact mwfFrom_filter h
  · rename_i hv; exact mwfFrom_kset h (Nat.zero_le _) hv

theorem mwf_msetList {β : Type} [DecidableEq β] {z : β} {vs : List β} {m : List (Nat × β)} {k : Nat} (h : mwf z m = true) :
    mwf z (msetList z m k vs) = true := by
  induction vs generalizing m k with
  | nil => exact h
  | cons v vs ih => exact ih (mwf_mset h)

end Sys2Proof.Machine
end

