-- ==== Sys2Proof/Laws/Fabric.lean ====
section
/-! SUPPORT. Laws of the fabric's shared operations: what a quota's move, the gathering at POD scope and a sequence of register writes can
do, and when a receive window admits an access (spec/20_fabric_and_system.md). -/
namespace Sys2Proof.Machine

theorem pod_setPod (s : State) (t i : Nat) (p : Pod) : (s.setPod t i p).pod t i = p := by
  simp [State.pod, State.setPod, kget_kset_same]

/-- A quota that moves changes nothing but what is sent out. -/
theorem quotaMoved_frame (s : State) (a b : Nat) : ∃ o, quotaMoved s a b = { s with outputs := o } := by
  simp only [quotaMoved, List.foldl]
  by_cases h : a = b
  · exact ⟨s.outputs, by simp [h]⟩
  · by_cases ha : a < 64 <;> by_cases hb : b < 64 <;> simp only [h, ha, hb, if_true, if_false] <;> exact ⟨_, rfl⟩

/-- A fold whose every step changes the cores alone changes the cores alone. -/
theorem foldl_cores {β : Type} {f : State → β → State} (hf : ∀ s e, ∃ c, f s e = { s with cores := c }) (l : List β) :
    ∀ s : State, ∃ c, l.foldl f s = { s with cores := c } := by
  induction l with
  | nil => exact fun s => ⟨s.cores, rfl⟩
  | cons e l ih =>
    intro s
    obtain ⟨c, hc⟩ := hf s e
    obtain ⟨d, hd⟩ := ih (f s e)
    exact ⟨d, by rw [List.foldl_cons, hd, hc]⟩

/-- A change of the monitors of a POD instance changes nothing but cores. -/
theorem onPodMons_frame (s : State) (t i n : Nat) (f : Monitor → Monitor) : ∃ c, onPodMons s t i n f = { s with cores := c } :=
  foldl_cores (fun _ _ => ⟨_, rfl⟩) _ s

/-- Taking the open sums changes nothing but cores. -/
theorem takeSums_frame (s : State) (t i : Nat) : ∃ c, takeSums s t i = { s with cores := c } :=
  foldl_cores (fun s n => onPodMons_frame s t i n takeSum) _ s

/-- Instructions one after another: the rest run in the state that the first leaves. -/
theorem inOrder_next {f : Act} {fs : List Act} {s t : State} (h : f s = .next t) : inOrder (f :: fs) s = inOrder fs t := by
  simp [inOrder, h]

theorem winAdmits_iff {s : State} {w : RecvWin} {writes : Bool} {off n : Nat} :
    winAdmits s w writes off n = true ↔
      w.valid = true ∧ (if writes then w.write else w.read) = true ∧ s.tenantOf w.asid = w.tenant ∧ off + n ≤ w.length := by
  simp [winAdmits, and_assoc]

end Sys2Proof.Machine
end

