-- ==== Sys2Proof/Laws/State.lean ====
section
/-! SUPPORT. One lemma per field per update of State and Group, true by rfl: no later proof unfolds a record update. -/
namespace Sys2Proof.Machine

/-! ## State.setCore -/

@[simp] theorem State.setCore_agenda (s : State) (c : Nat) (v : Core) : (s.setCore c v).agenda = s.agenda := rfl
@[simp] theorem State.setCore_cur (s : State) (c : Nat) (v : Core) : (s.setCore c v).cur = s.cur := rfl
@[simp] theorem State.setCore_now (s : State) (c : Nat) (v : Core) : (s.setCore c v).now = s.now := rfl
@[simp] theorem State.setCore_fresh (s : State) (c : Nat) (v : Core) : (s.setCore c v).fresh = s.fresh := rfl
@[simp] theorem State.setCore_nextOp (s : State) (c : Nat) (v : Core) : (s.setCore c v).nextOp = s.nextOp := rfl
@[simp] theorem State.setCore_mem (s : State) (c : Nat) (v : Core) : (s.setCore c v).mem = s.mem := rfl
@[simp] theorem State.setCore_hostMem (s : State) (c : Nat) (v : Core) : (s.setCore c v).hostMem = s.hostMem := rfl
@[simp] theorem State.setCore_remMem (s : State) (c : Nat) (v : Core) : (s.setCore c v).remMem = s.remMem := rfl
@[simp] theorem State.setCore_posts (s : State) (c : Nat) (v : Core) : (s.setCore c v).posts = s.posts := rfl
@[simp] theorem State.setCore_hostBad (s : State) (c : Nat) (v : Core) : (s.setCore c v).hostBad = s.hostBad := rfl
@[simp] theorem State.setCore_poison (s : State) (c : Nat) (v : Core) : (s.setCore c v).poison = s.poison := rfl
@[simp] theorem State.setCore_groups (s : State) (c : Nat) (v : Core) : (s.setCore c v).groups = s.groups := rfl
@[simp] theorem State.setCore_cohorts (s : State) (c : Nat) (v : Core) : (s.setCore c v).cohorts = s.cohorts := rfl
@[simp] theorem State.setCore_launches (s : State) (c : Nat) (v : Core) : (s.setCore c v).launches = s.launches := rfl
@[simp] theorem State.setCore_barriers (s : State) (c : Nat) (v : Core) : (s.setCore c v).barriers = s.barriers := rfl
@[simp] theorem State.setCore_cores (s : State) (c : Nat) (v : Core) : (s.setCore c v).cores = kset s.cores c v := rfl
@[simp] theorem State.setCore_quads (s : State) (c : Nat) (v : Core) : (s.setCore c v).quads = s.quads := rfl
@[simp] theorem State.setCore_dies (s : State) (c : Nat) (v : Core) : (s.setCore c v).dies = s.dies := rfl
@[simp] theorem State.setCore_frames (s : State) (c : Nat) (v : Core) : (s.setCore c v).frames = s.frames := rfl
@[simp] theorem State.setCore_raux (s : State) (c : Nat) (v : Core) : (s.setCore c v).raux = s.raux := rfl
@[simp] theorem State.setCore_slides (s : State) (c : Nat) (v : Core) : (s.setCore c v).slides = s.slides := rfl
@[simp] theorem State.setCore_slideWaits (s : State) (c : Nat) (v : Core) : (s.setCore c v).slideWaits = s.slideWaits := rfl
@[simp] theorem State.setCore_demotions (s : State) (c : Nat) (v : Core) : (s.setCore c v).demotions = s.demotions := rfl
@[simp] theorem State.setCore_shoots (s : State) (c : Nat) (v : Core) : (s.setCore c v).shoots = s.shoots := rfl
@[simp] theorem State.setCore_drained (s : State) (c : Nat) (v : Core) : (s.setCore c v).drained = s.drained := rfl
@[simp] theorem State.setCore_asidtb (s : State) (c : Nat) (v : Core) : (s.setCore c v).asidtb = s.asidtb := rfl
@[simp] theorem State.setCore_cmdWin (s : State) (c : Nat) (v : Core) : (s.setCore c v).cmdWin = s.cmdWin := rfl
@[simp] theorem State.setCore_ready (s : State) (c : Nat) (v : Core) : (s.setCore c v).ready = s.ready := rfl
@[simp] theorem State.setCore_recovery (s : State) (c : Nat) (v : Core) : (s.setCore c v).recovery = s.recovery := rfl
@[simp] theorem State.setCore_resetting (s : State) (c : Nat) (v : Core) : (s.setCore c v).resetting = s.resetting := rfl
@[simp] theorem State.setCore_node (s : State) (c : Nat) (v : Core) : (s.setCore c v).node = s.node := rfl
@[simp] theorem State.setCore_pwrcap (s : State) (c : Nat) (v : Core) : (s.setCore c v).pwrcap = s.pwrcap := rfl
@[simp] theorem State.setCore_tenbase (s : State) (c : Nat) (v : Core) : (s.setCore c v).tenbase = s.tenbase := rfl
@[simp] theorem State.setCore_nwinbase (s : State) (c : Nat) (v : Core) : (s.setCore c v).nwinbase = s.nwinbase := rfl
@[simp] theorem State.setCore_capdec (s : State) (c : Nat) (v : Core) : (s.setCore c v).capdec = s.capdec := rfl
@[simp] theorem State.setCore_rststat (s : State) (c : Nat) (v : Core) : (s.setCore c v).rststat = s.rststat := rfl
@[simp] theorem State.setCore_dieShare (s : State) (c : Nat) (v : Core) : (s.setCore c v).dieShare = s.dieShare := rfl
@[simp] theorem State.setCore_hbmShare (s : State) (c : Nat) (v : Core) : (s.setCore c v).hbmShare = s.hbmShare := rfl
@[simp] theorem State.setCore_attNonce (s : State) (c : Nat) (v : Core) : (s.setCore c v).attNonce = s.attNonce := rfl
@[simp] theorem State.setCore_attAddr (s : State) (c : Nat) (v : Core) : (s.setCore c v).attAddr = s.attAddr := rfl
@[simp] theorem State.setCore_attDone (s : State) (c : Nat) (v : Core) : (s.setCore c v).attDone = s.attDone := rfl
@[simp] theorem State.setCore_fwAddr (s : State) (c : Nat) (v : Core) : (s.setCore c v).fwAddr = s.fwAddr := rfl
@[simp] theorem State.setCore_fwLen (s : State) (c : Nat) (v : Core) : (s.setCore c v).fwLen = s.fwLen := rfl
@[simp] theorem State.setCore_fwDone (s : State) (c : Nat) (v : Core) : (s.setCore c v).fwDone = s.fwDone := rfl
@[simp] theorem State.setCore_fwRejected (s : State) (c : Nat) (v : Core) : (s.setCore c v).fwRejected = s.fwRejected := rfl
@[simp] theorem State.setCore_fwDigests (s : State) (c : Nat) (v : Core) : (s.setCore c v).fwDigests = s.fwDigests := rfl
@[simp] theorem State.setCore_warm (s : State) (c : Nat) (v : Core) : (s.setCore c v).warm = s.warm := rfl
@[simp] theorem State.setCore_asidMap (s : State) (c : Nat) (v : Core) : (s.setCore c v).asidMap = s.asidMap := rfl
@[simp] theorem State.setCore_hostWins (s : State) (c : Nat) (v : Core) : (s.setCore c v).hostWins = s.hostWins := rfl
@[simp] theorem State.setCore_peerWins (s : State) (c : Nat) (v : Core) : (s.setCore c v).peerWins = s.peerWins := rfl
@[simp] theorem State.setCore_counters (s : State) (c : Nat) (v : Core) : (s.setCore c v).counters = s.counters := rfl
@[simp] theorem State.setCore_counterTen (s : State) (c : Nat) (v : Core) : (s.setCore c v).counterTen = s.counterTen := rfl
@[simp] theorem State.setCore_pcie (s : State) (c : Nat) (v : Core) : (s.setCore c v).pcie = s.pcie := rfl
@[simp] theorem State.setCore_cxl (s : State) (c : Nat) (v : Core) : (s.setCore c v).cxl = s.cxl := rfl
@[simp] theorem State.setCore_engines (s : State) (c : Nat) (v : Core) : (s.setCore c v).engines = s.engines := rfl
@[simp] theorem State.setCore_wires (s : State) (c : Nat) (v : Core) : (s.setCore c v).wires = s.wires := rfl
@[simp] theorem State.setCore_rmsgs (s : State) (c : Nat) (v : Core) : (s.setCore c v).rmsgs = s.rmsgs := rfl
@[simp] theorem State.setCore_remWins (s : State) (c : Nat) (v : Core) : (s.setCore c v).remWins = s.remWins := rfl
@[simp] theorem State.setCore_pods (s : State) (c : Nat) (v : Core) : (s.setCore c v).pods = s.pods := rfl
@[simp] theorem State.setCore_held (s : State) (c : Nat) (v : Core) : (s.setCore c v).held = s.held := rfl
@[simp] theorem State.setCore_evcons (s : State) (c : Nat) (v : Core) : (s.setCore c v).evcons = s.evcons := rfl
@[simp] theorem State.setCore_evstat (s : State) (c : Nat) (v : Core) : (s.setCore c v).evstat = s.evstat := rfl
@[simp] theorem State.setCore_evseq (s : State) (c : Nat) (v : Core) : (s.setCore c v).evseq = s.evseq := rfl
@[simp] theorem State.setCore_pairings (s : State) (c : Nat) (v : Core) : (s.setCore c v).pairings = s.pairings := rfl
@[simp] theorem State.setCore_outputs (s : State) (c : Nat) (v : Core) : (s.setCore c v).outputs = s.outputs := rfl

/-! ## State.setQuad -/

@[simp] theorem State.setQuad_agenda (s : State) (q : Nat) (v : Quad) : (s.setQuad q v).agenda = s.agenda := rfl
@[simp] theorem State.setQuad_cur (s : State) (q : Nat) (v : Quad) : (s.setQuad q v).cur = s.cur := rfl
@[simp] theorem State.setQuad_now (s : State) (q : Nat) (v : Quad) : (s.setQuad q v).now = s.now := rfl
@[simp] theorem State.setQuad_fresh (s : State) (q : Nat) (v : Quad) : (s.setQuad q v).fresh = s.fresh := rfl
@[simp] theorem State.setQuad_nextOp (s : State) (q : Nat) (v : Quad) : (s.setQuad q v).nextOp = s.nextOp := rfl
@[simp] theorem State.setQuad_mem (s : State) (q : Nat) (v : Quad) : (s.setQuad q v).mem = s.mem := rfl
@[simp] theorem State.setQuad_hostMem (s : State) (q : Nat) (v : Quad) : (s.setQuad q v).hostMem = s.hostMem := rfl
@[simp] theorem State.setQuad_remMem (s : State) (q : Nat) (v : Quad) : (s.setQuad q v).remMem = s.remMem := rfl
@[simp] theorem State.setQuad_posts (s : State) (q : Nat) (v : Quad) : (s.setQuad q v).posts = s.posts := rfl
@[simp] theorem State.setQuad_hostBad (s : State) (q : Nat) (v : Quad) : (s.setQuad q v).hostBad = s.hostBad := rfl
@[simp] theorem State.setQuad_poison (s : State) (q : Nat) (v : Quad) : (s.setQuad q v).poison = s.poison := rfl
@[simp] theorem State.setQuad_groups (s : State) (q : Nat) (v : Quad) : (s.setQuad q v).groups = s.groups := rfl
@[simp] theorem State.setQuad_cohorts (s : State) (q : Nat) (v : Quad) : (s.setQuad q v).cohorts = s.cohorts := rfl
@[simp] theorem State.setQuad_launches (s : State) (q : Nat) (v : Quad) : (s.setQuad q v).launches = s.launches := rfl
@[simp] theorem State.setQuad_barriers (s : State) (q : Nat) (v : Quad) : (s.setQuad q v).barriers = s.barriers := rfl
@[simp] theorem State.setQuad_cores (s : State) (q : Nat) (v : Quad) : (s.setQuad q v).cores = s.cores := rfl
@[simp] theorem State.setQuad_quads (s : State) (q : Nat) (v : Quad) : (s.setQuad q v).quads = kset s.quads q v := rfl
@[simp] theorem State.setQuad_dies (s : State) (q : Nat) (v : Quad) : (s.setQuad q v).dies = s.dies := rfl
@[simp] theorem State.setQuad_frames (s : State) (q : Nat) (v : Quad) : (s.setQuad q v).frames = s.frames := rfl
@[simp] theorem State.setQuad_raux (s : State) (q : Nat) (v : Quad) : (s.setQuad q v).raux = s.raux := rfl
@[simp] theorem State.setQuad_slides (s : State) (q : Nat) (v : Quad) : (s.setQuad q v).slides = s.slides := rfl
@[simp] theorem State.setQuad_slideWaits (s : State) (q : Nat) (v : Quad) : (s.setQuad q v).slideWaits = s.slideWaits := rfl
@[simp] theorem State.setQuad_demotions (s : State) (q : Nat) (v : Quad) : (s.setQuad q v).demotions = s.demotions := rfl
@[simp] theorem State.setQuad_shoots (s : State) (q : Nat) (v : Quad) : (s.setQuad q v).shoots = s.shoots := rfl
@[simp] theorem State.setQuad_drained (s : State) (q : Nat) (v : Quad) : (s.setQuad q v).drained = s.drained := rfl
@[simp] theorem State.setQuad_asidtb (s : State) (q : Nat) (v : Quad) : (s.setQuad q v).asidtb = s.asidtb := rfl
@[simp] theorem State.setQuad_cmdWin (s : State) (q : Nat) (v : Quad) : (s.setQuad q v).cmdWin = s.cmdWin := rfl
@[simp] theorem State.setQuad_ready (s : State) (q : Nat) (v : Quad) : (s.setQuad q v).ready = s.ready := rfl
@[simp] theorem State.setQuad_recovery (s : State) (q : Nat) (v : Quad) : (s.setQuad q v).recovery = s.recovery := rfl
@[simp] theorem State.setQuad_resetting (s : State) (q : Nat) (v : Quad) : (s.setQuad q v).resetting = s.resetting := rfl
@[simp] theorem State.setQuad_node (s : State) (q : Nat) (v : Quad) : (s.setQuad q v).node = s.node := rfl
@[simp] theorem State.setQuad_pwrcap (s : State) (q : Nat) (v : Quad) : (s.setQuad q v).pwrcap = s.pwrcap := rfl
@[simp] theorem State.setQuad_tenbase (s : State) (q : Nat) (v : Quad) : (s.setQuad q v).tenbase = s.tenbase := rfl
@[simp] theorem State.setQuad_nwinbase (s : State) (q : Nat) (v : Quad) : (s.setQuad q v).nwinbase = s.nwinbase := rfl
@[simp] theorem State.setQuad_capdec (s : State) (q : Nat) (v : Quad) : (s.setQuad q v).capdec = s.capdec := rfl
@[simp] theorem State.setQuad_rststat (s : State) (q : Nat) (v : Quad) : (s.setQuad q v).rststat = s.rststat := rfl
@[simp] theorem State.setQuad_dieShare (s : State) (q : Nat) (v : Quad) : (s.setQuad q v).dieShare = s.dieShare := rfl
@[simp] theorem State.setQuad_hbmShare (s : State) (q : Nat) (v : Quad) : (s.setQuad q v).hbmShare = s.hbmShare := rfl
@[simp] theorem State.setQuad_attNonce (s : State) (q : Nat) (v : Quad) : (s.setQuad q v).attNonce = s.attNonce := rfl
@[simp] theorem State.setQuad_attAddr (s : State) (q : Nat) (v : Quad) : (s.setQuad q v).attAddr = s.attAddr := rfl
@[simp] theorem State.setQuad_attDone (s : State) (q : Nat) (v : Quad) : (s.setQuad q v).attDone = s.attDone := rfl
@[simp] theorem State.setQuad_fwAddr (s : State) (q : Nat) (v : Quad) : (s.setQuad q v).fwAddr = s.fwAddr := rfl
@[simp] theorem State.setQuad_fwLen (s : State) (q : Nat) (v : Quad) : (s.setQuad q v).fwLen = s.fwLen := rfl
@[simp] theorem State.setQuad_fwDone (s : State) (q : Nat) (v : Quad) : (s.setQuad q v).fwDone = s.fwDone := rfl
@[simp] theorem State.setQuad_fwRejected (s : State) (q : Nat) (v : Quad) : (s.setQuad q v).fwRejected = s.fwRejected := rfl
@[simp] theorem State.setQuad_fwDigests (s : State) (q : Nat) (v : Quad) : (s.setQuad q v).fwDigests = s.fwDigests := rfl
@[simp] theorem State.setQuad_warm (s : State) (q : Nat) (v : Quad) : (s.setQuad q v).warm = s.warm := rfl
@[simp] theorem State.setQuad_asidMap (s : State) (q : Nat) (v : Quad) : (s.setQuad q v).asidMap = s.asidMap := rfl
@[simp] theorem State.setQuad_hostWins (s : State) (q : Nat) (v : Quad) : (s.setQuad q v).hostWins = s.hostWins := rfl
@[simp] theorem State.setQuad_peerWins (s : State) (q : Nat) (v : Quad) : (s.setQuad q v).peerWins = s.peerWins := rfl
@[simp] theorem State.setQuad_counters (s : State) (q : Nat) (v : Quad) : (s.setQuad q v).counters = s.counters := rfl
@[simp] theorem State.setQuad_counterTen (s : State) (q : Nat) (v : Quad) : (s.setQuad q v).counterTen = s.counterTen := rfl
@[simp] theorem State.setQuad_pcie (s : State) (q : Nat) (v : Quad) : (s.setQuad q v).pcie = s.pcie := rfl
@[simp] theorem State.setQuad_cxl (s : State) (q : Nat) (v : Quad) : (s.setQuad q v).cxl = s.cxl := rfl
@[simp] theorem State.setQuad_engines (s : State) (q : Nat) (v : Quad) : (s.setQuad q v).engines = s.engines := rfl
@[simp] theorem State.setQuad_wires (s : State) (q : Nat) (v : Quad) : (s.setQuad q v).wires = s.wires := rfl
@[simp] theorem State.setQuad_rmsgs (s : State) (q : Nat) (v : Quad) : (s.setQuad q v).rmsgs = s.rmsgs := rfl
@[simp] theorem State.setQuad_remWins (s : State) (q : Nat) (v : Quad) : (s.setQuad q v).remWins = s.remWins := rfl
@[simp] theorem State.setQuad_pods (s : State) (q : Nat) (v : Quad) : (s.setQuad q v).pods = s.pods := rfl
@[simp] theorem State.setQuad_held (s : State) (q : Nat) (v : Quad) : (s.setQuad q v).held = s.held := rfl
@[simp] theorem State.setQuad_evcons (s : State) (q : Nat) (v : Quad) : (s.setQuad q v).evcons = s.evcons := rfl
@[simp] theorem State.setQuad_evstat (s : State) (q : Nat) (v : Quad) : (s.setQuad q v).evstat = s.evstat := rfl
@[simp] theorem State.setQuad_evseq (s : State) (q : Nat) (v : Quad) : (s.setQuad q v).evseq = s.evseq := rfl
@[simp] theorem State.setQuad_pairings (s : State) (q : Nat) (v : Quad) : (s.setQuad q v).pairings = s.pairings := rfl
@[simp] theorem State.setQuad_outputs (s : State) (q : Nat) (v : Quad) : (s.setQuad q v).outputs = s.outputs := rfl

/-! ## State.setDie -/

@[simp] theorem State.setDie_agenda (s : State) (d : Nat) (v : Die) : (s.setDie d v).agenda = s.agenda := rfl
@[simp] theorem State.setDie_cur (s : State) (d : Nat) (v : Die) : (s.setDie d v).cur = s.cur := rfl
@[simp] theorem State.setDie_now (s : State) (d : Nat) (v : Die) : (s.setDie d v).now = s.now := rfl
@[simp] theorem State.setDie_fresh (s : State) (d : Nat) (v : Die) : (s.setDie d v).fresh = s.fresh := rfl
@[simp] theorem State.setDie_nextOp (s : State) (d : Nat) (v : Die) : (s.setDie d v).nextOp = s.nextOp := rfl
@[simp] theorem State.setDie_mem (s : State) (d : Nat) (v : Die) : (s.setDie d v).mem = s.mem := rfl
@[simp] theorem State.setDie_hostMem (s : State) (d : Nat) (v : Die) : (s.setDie d v).hostMem = s.hostMem := rfl
@[simp] theorem State.setDie_remMem (s : State) (d : Nat) (v : Die) : (s.setDie d v).remMem = s.remMem := rfl
@[simp] theorem State.setDie_posts (s : State) (d : Nat) (v : Die) : (s.setDie d v).posts = s.posts := rfl
@[simp] theorem State.setDie_hostBad (s : State) (d : Nat) (v : Die) : (s.setDie d v).hostBad = s.hostBad := rfl
@[simp] theorem State.setDie_poison (s : State) (d : Nat) (v : Die) : (s.setDie d v).poison = s.poison := rfl
@[simp] theorem State.setDie_groups (s : State) (d : Nat) (v : Die) : (s.setDie d v).groups = s.groups := rfl
@[simp] theorem State.setDie_cohorts (s : State) (d : Nat) (v : Die) : (s.setDie d v).cohorts = s.cohorts := rfl
@[simp] theorem State.setDie_launches (s : State) (d : Nat) (v : Die) : (s.setDie d v).launches = s.launches := rfl
@[simp] theorem State.setDie_barriers (s : State) (d : Nat) (v : Die) : (s.setDie d v).barriers = s.barriers := rfl
@[simp] theorem State.setDie_cores (s : State) (d : Nat) (v : Die) : (s.setDie d v).cores = s.cores := rfl
@[simp] theorem State.setDie_quads (s : State) (d : Nat) (v : Die) : (s.setDie d v).quads = s.quads := rfl
@[simp] theorem State.setDie_dies (s : State) (d : Nat) (v : Die) : (s.setDie d v).dies = kset s.dies d v := rfl
@[simp] theorem State.setDie_frames (s : State) (d : Nat) (v : Die) : (s.setDie d v).frames = s.frames := rfl
@[simp] theorem State.setDie_raux (s : State) (d : Nat) (v : Die) : (s.setDie d v).raux = s.raux := rfl
@[simp] theorem State.setDie_slides (s : State) (d : Nat) (v : Die) : (s.setDie d v).slides = s.slides := rfl
@[simp] theorem State.setDie_slideWaits (s : State) (d : Nat) (v : Die) : (s.setDie d v).slideWaits = s.slideWaits := rfl
@[simp] theorem State.setDie_demotions (s : State) (d : Nat) (v : Die) : (s.setDie d v).demotions = s.demotions := rfl
@[simp] theorem State.setDie_shoots (s : State) (d : Nat) (v : Die) : (s.setDie d v).shoots = s.shoots := rfl
@[simp] theorem State.setDie_drained (s : State) (d : Nat) (v : Die) : (s.setDie d v).drained = s.drained := rfl
@[simp] theorem State.setDie_asidtb (s : State) (d : Nat) (v : Die) : (s.setDie d v).asidtb = s.asidtb := rfl
@[simp] theorem State.setDie_cmdWin (s : State) (d : Nat) (v : Die) : (s.setDie d v).cmdWin = s.cmdWin := rfl
@[simp] theorem State.setDie_ready (s : State) (d : Nat) (v : Die) : (s.setDie d v).ready = s.ready := rfl
@[simp] theorem State.setDie_recovery (s : State) (d : Nat) (v : Die) : (s.setDie d v).recovery = s.recovery := rfl
@[simp] theorem State.setDie_resetting (s : State) (d : Nat) (v : Die) : (s.setDie d v).resetting = s.resetting := rfl
@[simp] theorem State.setDie_node (s : State) (d : Nat) (v : Die) : (s.setDie d v).node = s.node := rfl
@[simp] theorem State.setDie_pwrcap (s : State) (d : Nat) (v : Die) : (s.setDie d v).pwrcap = s.pwrcap := rfl
@[simp] theorem State.setDie_tenbase (s : State) (d : Nat) (v : Die) : (s.setDie d v).tenbase = s.tenbase := rfl
@[simp] theorem State.setDie_nwinbase (s : State) (d : Nat) (v : Die) : (s.setDie d v).nwinbase = s.nwinbase := rfl
@[simp] theorem State.setDie_capdec (s : State) (d : Nat) (v : Die) : (s.setDie d v).capdec = s.capdec := rfl
@[simp] theorem State.setDie_rststat (s : State) (d : Nat) (v : Die) : (s.setDie d v).rststat = s.rststat := rfl
@[simp] theorem State.setDie_dieShare (s : State) (d : Nat) (v : Die) : (s.setDie d v).dieShare = s.dieShare := rfl
@[simp] theorem State.setDie_hbmShare (s : State) (d : Nat) (v : Die) : (s.setDie d v).hbmShare = s.hbmShare := rfl
@[simp] theorem State.setDie_attNonce (s : State) (d : Nat) (v : Die) : (s.setDie d v).attNonce = s.attNonce := rfl
@[simp] theorem State.setDie_attAddr (s : State) (d : Nat) (v : Die) : (s.setDie d v).attAddr = s.attAddr := rfl
@[simp] theorem State.setDie_attDone (s : State) (d : Nat) (v : Die) : (s.setDie d v).attDone = s.attDone := rfl
@[simp] theorem State.setDie_fwAddr (s : State) (d : Nat) (v : Die) : (s.setDie d v).fwAddr = s.fwAddr := rfl
@[simp] theorem State.setDie_fwLen (s : State) (d : Nat) (v : Die) : (s.setDie d v).fwLen = s.fwLen := rfl
@[simp] theorem State.setDie_fwDone (s : State) (d : Nat) (v : Die) : (s.setDie d v).fwDone = s.fwDone := rfl
@[simp] theorem State.setDie_fwRejected (s : State) (d : Nat) (v : Die) : (s.setDie d v).fwRejected = s.fwRejected := rfl
@[simp] theorem State.setDie_fwDigests (s : State) (d : Nat) (v : Die) : (s.setDie d v).fwDigests = s.fwDigests := rfl
@[simp] theorem State.setDie_warm (s : State) (d : Nat) (v : Die) : (s.setDie d v).warm = s.warm := rfl
@[simp] theorem State.setDie_asidMap (s : State) (d : Nat) (v : Die) : (s.setDie d v).asidMap = s.asidMap := rfl
@[simp] theorem State.setDie_hostWins (s : State) (d : Nat) (v : Die) : (s.setDie d v).hostWins = s.hostWins := rfl
@[simp] theorem State.setDie_peerWins (s : State) (d : Nat) (v : Die) : (s.setDie d v).peerWins = s.peerWins := rfl
@[simp] theorem State.setDie_counters (s : State) (d : Nat) (v : Die) : (s.setDie d v).counters = s.counters := rfl
@[simp] theorem State.setDie_counterTen (s : State) (d : Nat) (v : Die) : (s.setDie d v).counterTen = s.counterTen := rfl
@[simp] theorem State.setDie_pcie (s : State) (d : Nat) (v : Die) : (s.setDie d v).pcie = s.pcie := rfl
@[simp] theorem State.setDie_cxl (s : State) (d : Nat) (v : Die) : (s.setDie d v).cxl = s.cxl := rfl
@[simp] theorem State.setDie_engines (s : State) (d : Nat) (v : Die) : (s.setDie d v).engines = s.engines := rfl
@[simp] theorem State.setDie_wires (s : State) (d : Nat) (v : Die) : (s.setDie d v).wires = s.wires := rfl
@[simp] theorem State.setDie_rmsgs (s : State) (d : Nat) (v : Die) : (s.setDie d v).rmsgs = s.rmsgs := rfl
@[simp] theorem State.setDie_remWins (s : State) (d : Nat) (v : Die) : (s.setDie d v).remWins = s.remWins := rfl
@[simp] theorem State.setDie_pods (s : State) (d : Nat) (v : Die) : (s.setDie d v).pods = s.pods := rfl
@[simp] theorem State.setDie_held (s : State) (d : Nat) (v : Die) : (s.setDie d v).held = s.held := rfl
@[simp] theorem State.setDie_evcons (s : State) (d : Nat) (v : Die) : (s.setDie d v).evcons = s.evcons := rfl
@[simp] theorem State.setDie_evstat (s : State) (d : Nat) (v : Die) : (s.setDie d v).evstat = s.evstat := rfl
@[simp] theorem State.setDie_evseq (s : State) (d : Nat) (v : Die) : (s.setDie d v).evseq = s.evseq := rfl
@[simp] theorem State.setDie_pairings (s : State) (d : Nat) (v : Die) : (s.setDie d v).pairings = s.pairings := rfl
@[simp] theorem State.setDie_outputs (s : State) (d : Nat) (v : Die) : (s.setDie d v).outputs = s.outputs := rfl

/-! ## State.setEng -/

@[simp] theorem State.setEng_agenda (s : State) (e : Nat) (v : Eng) : (s.setEng e v).agenda = s.agenda := rfl
@[simp] theorem State.setEng_cur (s : State) (e : Nat) (v : Eng) : (s.setEng e v).cur = s.cur := rfl
@[simp] theorem State.setEng_now (s : State) (e : Nat) (v : Eng) : (s.setEng e v).now = s.now := rfl
@[simp] theorem State.setEng_fresh (s : State) (e : Nat) (v : Eng) : (s.setEng e v).fresh = s.fresh := rfl
@[simp] theorem State.setEng_nextOp (s : State) (e : Nat) (v : Eng) : (s.setEng e v).nextOp = s.nextOp := rfl
@[simp] theorem State.setEng_mem (s : State) (e : Nat) (v : Eng) : (s.setEng e v).mem = s.mem := rfl
@[simp] theorem State.setEng_hostMem (s : State) (e : Nat) (v : Eng) : (s.setEng e v).hostMem = s.hostMem := rfl
@[simp] theorem State.setEng_remMem (s : State) (e : Nat) (v : Eng) : (s.setEng e v).remMem = s.remMem := rfl
@[simp] theorem State.setEng_posts (s : State) (e : Nat) (v : Eng) : (s.setEng e v).posts = s.posts := rfl
@[simp] theorem State.setEng_hostBad (s : State) (e : Nat) (v : Eng) : (s.setEng e v).hostBad = s.hostBad := rfl
@[simp] theorem State.setEng_poison (s : State) (e : Nat) (v : Eng) : (s.setEng e v).poison = s.poison := rfl
@[simp] theorem State.setEng_groups (s : State) (e : Nat) (v : Eng) : (s.setEng e v).groups = s.groups := rfl
@[simp] theorem State.setEng_cohorts (s : State) (e : Nat) (v : Eng) : (s.setEng e v).cohorts = s.cohorts := rfl
@[simp] theorem State.setEng_launches (s : State) (e : Nat) (v : Eng) : (s.setEng e v).launches = s.launches := rfl
@[simp] theorem State.setEng_barriers (s : State) (e : Nat) (v : Eng) : (s.setEng e v).barriers = s.barriers := rfl
@[simp] theorem State.setEng_cores (s : State) (e : Nat) (v : Eng) : (s.setEng e v).cores = s.cores := rfl
@[simp] theorem State.setEng_quads (s : State) (e : Nat) (v : Eng) : (s.setEng e v).quads = s.quads := rfl
@[simp] theorem State.setEng_dies (s : State) (e : Nat) (v : Eng) : (s.setEng e v).dies = s.dies := rfl
@[simp] theorem State.setEng_frames (s : State) (e : Nat) (v : Eng) : (s.setEng e v).frames = s.frames := rfl
@[simp] theorem State.setEng_raux (s : State) (e : Nat) (v : Eng) : (s.setEng e v).raux = s.raux := rfl
@[simp] theorem State.setEng_slides (s : State) (e : Nat) (v : Eng) : (s.setEng e v).slides = s.slides := rfl
@[simp] theorem State.setEng_slideWaits (s : State) (e : Nat) (v : Eng) : (s.setEng e v).slideWaits = s.slideWaits := rfl
@[simp] theorem State.setEng_demotions (s : State) (e : Nat) (v : Eng) : (s.setEng e v).demotions = s.demotions := rfl
@[simp] theorem State.setEng_shoots (s : State) (e : Nat) (v : Eng) : (s.setEng e v).shoots = s.shoots := rfl
@[simp] theorem State.setEng_drained (s : State) (e : Nat) (v : Eng) : (s.setEng e v).drained = s.drained := rfl
@[simp] theorem State.setEng_asidtb (s : State) (e : Nat) (v : Eng) : (s.setEng e v).asidtb = s.asidtb := rfl
@[simp] theorem State.setEng_cmdWin (s : State) (e : Nat) (v : Eng) : (s.setEng e v).cmdWin = s.cmdWin := rfl
@[simp] theorem State.setEng_ready (s : State) (e : Nat) (v : Eng) : (s.setEng e v).ready = s.ready := rfl
@[simp] theorem State.setEng_recovery (s : State) (e : Nat) (v : Eng) : (s.setEng e v).recovery = s.recovery := rfl
@[simp] theorem State.setEng_resetting (s : State) (e : Nat) (v : Eng) : (s.setEng e v).resetting = s.resetting := rfl
@[simp] theorem State.setEng_node (s : State) (e : Nat) (v : Eng) : (s.setEng e v).node = s.node := rfl
@[simp] theorem State.setEng_pwrcap (s : State) (e : Nat) (v : Eng) : (s.setEng e v).pwrcap = s.pwrcap := rfl
@[simp] theorem State.setEng_tenbase (s : State) (e : Nat) (v : Eng) : (s.setEng e v).tenbase = s.tenbase := rfl
@[simp] theorem State.setEng_nwinbase (s : State) (e : Nat) (v : Eng) : (s.setEng e v).nwinbase = s.nwinbase := rfl
@[simp] theorem State.setEng_capdec (s : State) (e : Nat) (v : Eng) : (s.setEng e v).capdec = s.capdec := rfl
@[simp] theorem State.setEng_rststat (s : State) (e : Nat) (v : Eng) : (s.setEng e v).rststat = s.rststat := rfl
@[simp] theorem State.setEng_dieShare (s : State) (e : Nat) (v : Eng) : (s.setEng e v).dieShare = s.dieShare := rfl
@[simp] theorem State.setEng_hbmShare (s : State) (e : Nat) (v : Eng) : (s.setEng e v).hbmShare = s.hbmShare := rfl
@[simp] theorem State.setEng_attNonce (s : State) (e : Nat) (v : Eng) : (s.setEng e v).attNonce = s.attNonce := rfl
@[simp] theorem State.setEng_attAddr (s : State) (e : Nat) (v : Eng) : (s.setEng e v).attAddr = s.attAddr := rfl
@[simp] theorem State.setEng_attDone (s : State) (e : Nat) (v : Eng) : (s.setEng e v).attDone = s.attDone := rfl
@[simp] theorem State.setEng_fwAddr (s : State) (e : Nat) (v : Eng) : (s.setEng e v).fwAddr = s.fwAddr := rfl
@[simp] theorem State.setEng_fwLen (s : State) (e : Nat) (v : Eng) : (s.setEng e v).fwLen = s.fwLen := rfl
@[simp] theorem State.setEng_fwDone (s : State) (e : Nat) (v : Eng) : (s.setEng e v).fwDone = s.fwDone := rfl
@[simp] theorem State.setEng_fwRejected (s : State) (e : Nat) (v : Eng) : (s.setEng e v).fwRejected = s.fwRejected := rfl
@[simp] theorem State.setEng_fwDigests (s : State) (e : Nat) (v : Eng) : (s.setEng e v).fwDigests = s.fwDigests := rfl
@[simp] theorem State.setEng_warm (s : State) (e : Nat) (v : Eng) : (s.setEng e v).warm = s.warm := rfl
@[simp] theorem State.setEng_asidMap (s : State) (e : Nat) (v : Eng) : (s.setEng e v).asidMap = s.asidMap := rfl
@[simp] theorem State.setEng_hostWins (s : State) (e : Nat) (v : Eng) : (s.setEng e v).hostWins = s.hostWins := rfl
@[simp] theorem State.setEng_peerWins (s : State) (e : Nat) (v : Eng) : (s.setEng e v).peerWins = s.peerWins := rfl
@[simp] theorem State.setEng_counters (s : State) (e : Nat) (v : Eng) : (s.setEng e v).counters = s.counters := rfl
@[simp] theorem State.setEng_counterTen (s : State) (e : Nat) (v : Eng) : (s.setEng e v).counterTen = s.counterTen := rfl
@[simp] theorem State.setEng_pcie (s : State) (e : Nat) (v : Eng) : (s.setEng e v).pcie = s.pcie := rfl
@[simp] theorem State.setEng_cxl (s : State) (e : Nat) (v : Eng) : (s.setEng e v).cxl = s.cxl := rfl
@[simp] theorem State.setEng_engines (s : State) (e : Nat) (v : Eng) : (s.setEng e v).engines = kset s.engines e v := rfl
@[simp] theorem State.setEng_wires (s : State) (e : Nat) (v : Eng) : (s.setEng e v).wires = s.wires := rfl
@[simp] theorem State.setEng_rmsgs (s : State) (e : Nat) (v : Eng) : (s.setEng e v).rmsgs = s.rmsgs := rfl
@[simp] theorem State.setEng_remWins (s : State) (e : Nat) (v : Eng) : (s.setEng e v).remWins = s.remWins := rfl
@[simp] theorem State.setEng_pods (s : State) (e : Nat) (v : Eng) : (s.setEng e v).pods = s.pods := rfl
@[simp] theorem State.setEng_held (s : State) (e : Nat) (v : Eng) : (s.setEng e v).held = s.held := rfl
@[simp] theorem State.setEng_evcons (s : State) (e : Nat) (v : Eng) : (s.setEng e v).evcons = s.evcons := rfl
@[simp] theorem State.setEng_evstat (s : State) (e : Nat) (v : Eng) : (s.setEng e v).evstat = s.evstat := rfl
@[simp] theorem State.setEng_evseq (s : State) (e : Nat) (v : Eng) : (s.setEng e v).evseq = s.evseq := rfl
@[simp] theorem State.setEng_pairings (s : State) (e : Nat) (v : Eng) : (s.setEng e v).pairings = s.pairings := rfl
@[simp] theorem State.setEng_outputs (s : State) (e : Nat) (v : Eng) : (s.setEng e v).outputs = s.outputs := rfl

/-! ## State.setGroup -/

@[simp] theorem State.setGroup_agenda (s : State) (g : Nat) (v : Group) : (s.setGroup g v).agenda = s.agenda := rfl
@[simp] theorem State.setGroup_cur (s : State) (g : Nat) (v : Group) : (s.setGroup g v).cur = s.cur := rfl
@[simp] theorem State.setGroup_now (s : State) (g : Nat) (v : Group) : (s.setGroup g v).now = s.now := rfl
@[simp] theorem State.setGroup_fresh (s : State) (g : Nat) (v : Group) : (s.setGroup g v).fresh = s.fresh := rfl
@[simp] theorem State.setGroup_nextOp (s : State) (g : Nat) (v : Group) : (s.setGroup g v).nextOp = s.nextOp := rfl
@[simp] theorem State.setGroup_mem (s : State) (g : Nat) (v : Group) : (s.setGroup g v).mem = s.mem := rfl
@[simp] theorem State.setGroup_hostMem (s : State) (g : Nat) (v : Group) : (s.setGroup g v).hostMem = s.hostMem := rfl
@[simp] theorem State.setGroup_remMem (s : State) (g : Nat) (v : Group) : (s.setGroup g v).remMem = s.remMem := rfl
@[simp] theorem State.setGroup_posts (s : State) (g : Nat) (v : Group) : (s.setGroup g v).posts = s.posts := rfl
@[simp] theorem State.setGroup_hostBad (s : State) (g : Nat) (v : Group) : (s.setGroup g v).hostBad = s.hostBad := rfl
@[simp] theorem State.setGroup_poison (s : State) (g : Nat) (v : Group) : (s.setGroup g v).poison = s.poison := rfl
@[simp] theorem State.setGroup_groups (s : State) (g : Nat) (v : Group) : (s.setGroup g v).groups = kset s.groups g v := rfl
@[simp] theorem State.setGroup_cohorts (s : State) (g : Nat) (v : Group) : (s.setGroup g v).cohorts = s.cohorts := rfl
@[simp] theorem State.setGroup_launches (s : State) (g : Nat) (v : Group) : (s.setGroup g v).launches = s.launches := rfl
@[simp] theorem State.setGroup_barriers (s : State) (g : Nat) (v : Group) : (s.setGroup g v).barriers = s.barriers := rfl
@[simp] theorem State.setGroup_cores (s : State) (g : Nat) (v : Group) : (s.setGroup g v).cores = s.cores := rfl
@[simp] theorem State.setGroup_quads (s : State) (g : Nat) (v : Group) : (s.setGroup g v).quads = s.quads := rfl
@[simp] theorem State.setGroup_dies (s : State) (g : Nat) (v : Group) : (s.setGroup g v).dies = s.dies := rfl
@[simp] theorem State.setGroup_frames (s : State) (g : Nat) (v : Group) : (s.setGroup g v).frames = s.frames := rfl
@[simp] theorem State.setGroup_raux (s : State) (g : Nat) (v : Group) : (s.setGroup g v).raux = s.raux := rfl
@[simp] theorem State.setGroup_slides (s : State) (g : Nat) (v : Group) : (s.setGroup g v).slides = s.slides := rfl
@[simp] theorem State.setGroup_slideWaits (s : State) (g : Nat) (v : Group) : (s.setGroup g v).slideWaits = s.slideWaits := rfl
@[simp] theorem State.setGroup_demotions (s : State) (g : Nat) (v : Group) : (s.setGroup g v).demotions = s.demotions := rfl
@[simp] theorem State.setGroup_shoots (s : State) (g : Nat) (v : Group) : (s.setGroup g v).shoots = s.shoots := rfl
@[simp] theorem State.setGroup_drained (s : State) (g : Nat) (v : Group) : (s.setGroup g v).drained = s.drained := rfl
@[simp] theorem State.setGroup_asidtb (s : State) (g : Nat) (v : Group) : (s.setGroup g v).asidtb = s.asidtb := rfl
@[simp] theorem State.setGroup_cmdWin (s : State) (g : Nat) (v : Group) : (s.setGroup g v).cmdWin = s.cmdWin := rfl
@[simp] theorem State.setGroup_ready (s : State) (g : Nat) (v : Group) : (s.setGroup g v).ready = s.ready := rfl
@[simp] theorem State.setGroup_recovery (s : State) (g : Nat) (v : Group) : (s.setGroup g v).recovery = s.recovery := rfl
@[simp] theorem State.setGroup_resetting (s : State) (g : Nat) (v : Group) : (s.setGroup g v).resetting = s.resetting := rfl
@[simp] theorem State.setGroup_node (s : State) (g : Nat) (v : Group) : (s.setGroup g v).node = s.node := rfl
@[simp] theorem State.setGroup_pwrcap (s : State) (g : Nat) (v : Group) : (s.setGroup g v).pwrcap = s.pwrcap := rfl
@[simp] theorem State.setGroup_tenbase (s : State) (g : Nat) (v : Group) : (s.setGroup g v).tenbase = s.tenbase := rfl
@[simp] theorem State.setGroup_nwinbase (s : State) (g : Nat) (v : Group) : (s.setGroup g v).nwinbase = s.nwinbase := rfl
@[simp] theorem State.setGroup_capdec (s : State) (g : Nat) (v : Group) : (s.setGroup g v).capdec = s.capdec := rfl
@[simp] theorem State.setGroup_rststat (s : State) (g : Nat) (v : Group) : (s.setGroup g v).rststat = s.rststat := rfl
@[simp] theorem State.setGroup_dieShare (s : State) (g : Nat) (v : Group) : (s.setGroup g v).dieShare = s.dieShare := rfl
@[simp] theorem State.setGroup_hbmShare (s : State) (g : Nat) (v : Group) : (s.setGroup g v).hbmShare = s.hbmShare := rfl
@[simp] theorem State.setGroup_attNonce (s : State) (g : Nat) (v : Group) : (s.setGroup g v).attNonce = s.attNonce := rfl
@[simp] theorem State.setGroup_attAddr (s : State) (g : Nat) (v : Group) : (s.setGroup g v).attAddr = s.attAddr := rfl
@[simp] theorem State.setGroup_attDone (s : State) (g : Nat) (v : Group) : (s.setGroup g v).attDone = s.attDone := rfl
@[simp] theorem State.setGroup_fwAddr (s : State) (g : Nat) (v : Group) : (s.setGroup g v).fwAddr = s.fwAddr := rfl
@[simp] theorem State.setGroup_fwLen (s : State) (g : Nat) (v : Group) : (s.setGroup g v).fwLen = s.fwLen := rfl
@[simp] theorem State.setGroup_fwDone (s : State) (g : Nat) (v : Group) : (s.setGroup g v).fwDone = s.fwDone := rfl
@[simp] theorem State.setGroup_fwRejected (s : State) (g : Nat) (v : Group) : (s.setGroup g v).fwRejected = s.fwRejected := rfl
@[simp] theorem State.setGroup_fwDigests (s : State) (g : Nat) (v : Group) : (s.setGroup g v).fwDigests = s.fwDigests := rfl
@[simp] theorem State.setGroup_warm (s : State) (g : Nat) (v : Group) : (s.setGroup g v).warm = s.warm := rfl
@[simp] theorem State.setGroup_asidMap (s : State) (g : Nat) (v : Group) : (s.setGroup g v).asidMap = s.asidMap := rfl
@[simp] theorem State.setGroup_hostWins (s : State) (g : Nat) (v : Group) : (s.setGroup g v).hostWins = s.hostWins := rfl
@[simp] theorem State.setGroup_peerWins (s : State) (g : Nat) (v : Group) : (s.setGroup g v).peerWins = s.peerWins := rfl
@[simp] theorem State.setGroup_counters (s : State) (g : Nat) (v : Group) : (s.setGroup g v).counters = s.counters := rfl
@[simp] theorem State.setGroup_counterTen (s : State) (g : Nat) (v : Group) : (s.setGroup g v).counterTen = s.counterTen := rfl
@[simp] theorem State.setGroup_pcie (s : State) (g : Nat) (v : Group) : (s.setGroup g v).pcie = s.pcie := rfl
@[simp] theorem State.setGroup_cxl (s : State) (g : Nat) (v : Group) : (s.setGroup g v).cxl = s.cxl := rfl
@[simp] theorem State.setGroup_engines (s : State) (g : Nat) (v : Group) : (s.setGroup g v).engines = s.engines := rfl
@[simp] theorem State.setGroup_wires (s : State) (g : Nat) (v : Group) : (s.setGroup g v).wires = s.wires := rfl
@[simp] theorem State.setGroup_rmsgs (s : State) (g : Nat) (v : Group) : (s.setGroup g v).rmsgs = s.rmsgs := rfl
@[simp] theorem State.setGroup_remWins (s : State) (g : Nat) (v : Group) : (s.setGroup g v).remWins = s.remWins := rfl
@[simp] theorem State.setGroup_pods (s : State) (g : Nat) (v : Group) : (s.setGroup g v).pods = s.pods := rfl
@[simp] theorem State.setGroup_held (s : State) (g : Nat) (v : Group) : (s.setGroup g v).held = s.held := rfl
@[simp] theorem State.setGroup_evcons (s : State) (g : Nat) (v : Group) : (s.setGroup g v).evcons = s.evcons := rfl
@[simp] theorem State.setGroup_evstat (s : State) (g : Nat) (v : Group) : (s.setGroup g v).evstat = s.evstat := rfl
@[simp] theorem State.setGroup_evseq (s : State) (g : Nat) (v : Group) : (s.setGroup g v).evseq = s.evseq := rfl
@[simp] theorem State.setGroup_pairings (s : State) (g : Nat) (v : Group) : (s.setGroup g v).pairings = s.pairings := rfl
@[simp] theorem State.setGroup_outputs (s : State) (g : Nat) (v : Group) : (s.setGroup g v).outputs = s.outputs := rfl

/-! ## State.setAux -/

@[simp] theorem State.setAux_agenda (s : State) (a : Nat) (v : RAux) : (s.setAux a v).agenda = s.agenda := rfl
@[simp] theorem State.setAux_cur (s : State) (a : Nat) (v : RAux) : (s.setAux a v).cur = s.cur := rfl
@[simp] theorem State.setAux_now (s : State) (a : Nat) (v : RAux) : (s.setAux a v).now = s.now := rfl
@[simp] theorem State.setAux_fresh (s : State) (a : Nat) (v : RAux) : (s.setAux a v).fresh = s.fresh := rfl
@[simp] theorem State.setAux_nextOp (s : State) (a : Nat) (v : RAux) : (s.setAux a v).nextOp = s.nextOp := rfl
@[simp] theorem State.setAux_mem (s : State) (a : Nat) (v : RAux) : (s.setAux a v).mem = s.mem := rfl
@[simp] theorem State.setAux_hostMem (s : State) (a : Nat) (v : RAux) : (s.setAux a v).hostMem = s.hostMem := rfl
@[simp] theorem State.setAux_remMem (s : State) (a : Nat) (v : RAux) : (s.setAux a v).remMem = s.remMem := rfl
@[simp] theorem State.setAux_posts (s : State) (a : Nat) (v : RAux) : (s.setAux a v).posts = s.posts := rfl
@[simp] theorem State.setAux_hostBad (s : State) (a : Nat) (v : RAux) : (s.setAux a v).hostBad = s.hostBad := rfl
@[simp] theorem State.setAux_poison (s : State) (a : Nat) (v : RAux) : (s.setAux a v).poison = s.poison := rfl
@[simp] theorem State.setAux_groups (s : State) (a : Nat) (v : RAux) : (s.setAux a v).groups = s.groups := rfl
@[simp] theorem State.setAux_cohorts (s : State) (a : Nat) (v : RAux) : (s.setAux a v).cohorts = s.cohorts := rfl
@[simp] theorem State.setAux_launches (s : State) (a : Nat) (v : RAux) : (s.setAux a v).launches = s.launches := rfl
@[simp] theorem State.setAux_barriers (s : State) (a : Nat) (v : RAux) : (s.setAux a v).barriers = s.barriers := rfl
@[simp] theorem State.setAux_cores (s : State) (a : Nat) (v : RAux) : (s.setAux a v).cores = s.cores := rfl
@[simp] theorem State.setAux_quads (s : State) (a : Nat) (v : RAux) : (s.setAux a v).quads = s.quads := rfl
@[simp] theorem State.setAux_dies (s : State) (a : Nat) (v : RAux) : (s.setAux a v).dies = s.dies := rfl
@[simp] theorem State.setAux_frames (s : State) (a : Nat) (v : RAux) : (s.setAux a v).frames = s.frames := rfl
@[simp] theorem State.setAux_raux (s : State) (a : Nat) (v : RAux) : (s.setAux a v).raux = kset s.raux a v := rfl
@[simp] theorem State.setAux_slides (s : State) (a : Nat) (v : RAux) : (s.setAux a v).slides = s.slides := rfl
@[simp] theorem State.setAux_slideWaits (s : State) (a : Nat) (v : RAux) : (s.setAux a v).slideWaits = s.slideWaits := rfl
@[simp] theorem State.setAux_demotions (s : State) (a : Nat) (v : RAux) : (s.setAux a v).demotions = s.demotions := rfl
@[simp] theorem State.setAux_shoots (s : State) (a : Nat) (v : RAux) : (s.setAux a v).shoots = s.shoots := rfl
@[simp] theorem State.setAux_drained (s : State) (a : Nat) (v : RAux) : (s.setAux a v).drained = s.drained := rfl
@[simp] theorem State.setAux_asidtb (s : State) (a : Nat) (v : RAux) : (s.setAux a v).asidtb = s.asidtb := rfl
@[simp] theorem State.setAux_cmdWin (s : State) (a : Nat) (v : RAux) : (s.setAux a v).cmdWin = s.cmdWin := rfl
@[simp] theorem State.setAux_ready (s : State) (a : Nat) (v : RAux) : (s.setAux a v).ready = s.ready := rfl
@[simp] theorem State.setAux_recovery (s : State) (a : Nat) (v : RAux) : (s.setAux a v).recovery = s.recovery := rfl
@[simp] theorem State.setAux_resetting (s : State) (a : Nat) (v : RAux) : (s.setAux a v).resetting = s.resetting := rfl
@[simp] theorem State.setAux_node (s : State) (a : Nat) (v : RAux) : (s.setAux a v).node = s.node := rfl
@[simp] theorem State.setAux_pwrcap (s : State) (a : Nat) (v : RAux) : (s.setAux a v).pwrcap = s.pwrcap := rfl
@[simp] theorem State.setAux_tenbase (s : State) (a : Nat) (v : RAux) : (s.setAux a v).tenbase = s.tenbase := rfl
@[simp] theorem State.setAux_nwinbase (s : State) (a : Nat) (v : RAux) : (s.setAux a v).nwinbase = s.nwinbase := rfl
@[simp] theorem State.setAux_capdec (s : State) (a : Nat) (v : RAux) : (s.setAux a v).capdec = s.capdec := rfl
@[simp] theorem State.setAux_rststat (s : State) (a : Nat) (v : RAux) : (s.setAux a v).rststat = s.rststat := rfl
@[simp] theorem State.setAux_dieShare (s : State) (a : Nat) (v : RAux) : (s.setAux a v).dieShare = s.dieShare := rfl
@[simp] theorem State.setAux_hbmShare (s : State) (a : Nat) (v : RAux) : (s.setAux a v).hbmShare = s.hbmShare := rfl
@[simp] theorem State.setAux_attNonce (s : State) (a : Nat) (v : RAux) : (s.setAux a v).attNonce = s.attNonce := rfl
@[simp] theorem State.setAux_attAddr (s : State) (a : Nat) (v : RAux) : (s.setAux a v).attAddr = s.attAddr := rfl
@[simp] theorem State.setAux_attDone (s : State) (a : Nat) (v : RAux) : (s.setAux a v).attDone = s.attDone := rfl
@[simp] theorem State.setAux_fwAddr (s : State) (a : Nat) (v : RAux) : (s.setAux a v).fwAddr = s.fwAddr := rfl
@[simp] theorem State.setAux_fwLen (s : State) (a : Nat) (v : RAux) : (s.setAux a v).fwLen = s.fwLen := rfl
@[simp] theorem State.setAux_fwDone (s : State) (a : Nat) (v : RAux) : (s.setAux a v).fwDone = s.fwDone := rfl
@[simp] theorem State.setAux_fwRejected (s : State) (a : Nat) (v : RAux) : (s.setAux a v).fwRejected = s.fwRejected := rfl
@[simp] theorem State.setAux_fwDigests (s : State) (a : Nat) (v : RAux) : (s.setAux a v).fwDigests = s.fwDigests := rfl
@[simp] theorem State.setAux_warm (s : State) (a : Nat) (v : RAux) : (s.setAux a v).warm = s.warm := rfl
@[simp] theorem State.setAux_asidMap (s : State) (a : Nat) (v : RAux) : (s.setAux a v).asidMap = s.asidMap := rfl
@[simp] theorem State.setAux_hostWins (s : State) (a : Nat) (v : RAux) : (s.setAux a v).hostWins = s.hostWins := rfl
@[simp] theorem State.setAux_peerWins (s : State) (a : Nat) (v : RAux) : (s.setAux a v).peerWins = s.peerWins := rfl
@[simp] theorem State.setAux_counters (s : State) (a : Nat) (v : RAux) : (s.setAux a v).counters = s.counters := rfl
@[simp] theorem State.setAux_counterTen (s : State) (a : Nat) (v : RAux) : (s.setAux a v).counterTen = s.counterTen := rfl
@[simp] theorem State.setAux_pcie (s : State) (a : Nat) (v : RAux) : (s.setAux a v).pcie = s.pcie := rfl
@[simp] theorem State.setAux_cxl (s : State) (a : Nat) (v : RAux) : (s.setAux a v).cxl = s.cxl := rfl
@[simp] theorem State.setAux_engines (s : State) (a : Nat) (v : RAux) : (s.setAux a v).engines = s.engines := rfl
@[simp] theorem State.setAux_wires (s : State) (a : Nat) (v : RAux) : (s.setAux a v).wires = s.wires := rfl
@[simp] theorem State.setAux_rmsgs (s : State) (a : Nat) (v : RAux) : (s.setAux a v).rmsgs = s.rmsgs := rfl
@[simp] theorem State.setAux_remWins (s : State) (a : Nat) (v : RAux) : (s.setAux a v).remWins = s.remWins := rfl
@[simp] theorem State.setAux_pods (s : State) (a : Nat) (v : RAux) : (s.setAux a v).pods = s.pods := rfl
@[simp] theorem State.setAux_held (s : State) (a : Nat) (v : RAux) : (s.setAux a v).held = s.held := rfl
@[simp] theorem State.setAux_evcons (s : State) (a : Nat) (v : RAux) : (s.setAux a v).evcons = s.evcons := rfl
@[simp] theorem State.setAux_evstat (s : State) (a : Nat) (v : RAux) : (s.setAux a v).evstat = s.evstat := rfl
@[simp] theorem State.setAux_evseq (s : State) (a : Nat) (v : RAux) : (s.setAux a v).evseq = s.evseq := rfl
@[simp] theorem State.setAux_pairings (s : State) (a : Nat) (v : RAux) : (s.setAux a v).pairings = s.pairings := rfl
@[simp] theorem State.setAux_outputs (s : State) (a : Nat) (v : RAux) : (s.setAux a v).outputs = s.outputs := rfl

/-! ## State.setBarrier -/

@[simp] theorem State.setBarrier_agenda (s : State) (b : Barrier) : (s.setBarrier b).agenda = s.agenda := rfl
@[simp] theorem State.setBarrier_cur (s : State) (b : Barrier) : (s.setBarrier b).cur = s.cur := rfl
@[simp] theorem State.setBarrier_now (s : State) (b : Barrier) : (s.setBarrier b).now = s.now := rfl
@[simp] theorem State.setBarrier_fresh (s : State) (b : Barrier) : (s.setBarrier b).fresh = s.fresh := rfl
@[simp] theorem State.setBarrier_nextOp (s : State) (b : Barrier) : (s.setBarrier b).nextOp = s.nextOp := rfl
@[simp] theorem State.setBarrier_mem (s : State) (b : Barrier) : (s.setBarrier b).mem = s.mem := rfl
@[simp] theorem State.setBarrier_hostMem (s : State) (b : Barrier) : (s.setBarrier b).hostMem = s.hostMem := rfl
@[simp] theorem State.setBarrier_remMem (s : State) (b : Barrier) : (s.setBarrier b).remMem = s.remMem := rfl
@[simp] theorem State.setBarrier_posts (s : State) (b : Barrier) : (s.setBarrier b).posts = s.posts := rfl
@[simp] theorem State.setBarrier_hostBad (s : State) (b : Barrier) : (s.setBarrier b).hostBad = s.hostBad := rfl
@[simp] theorem State.setBarrier_poison (s : State) (b : Barrier) : (s.setBarrier b).poison = s.poison := rfl
@[simp] theorem State.setBarrier_groups (s : State) (b : Barrier) : (s.setBarrier b).groups = s.groups := rfl
@[simp] theorem State.setBarrier_cohorts (s : State) (b : Barrier) : (s.setBarrier b).cohorts = s.cohorts := rfl
@[simp] theorem State.setBarrier_launches (s : State) (b : Barrier) : (s.setBarrier b).launches = s.launches := rfl
@[simp] theorem State.setBarrier_barriers (s : State) (b : Barrier) : (s.setBarrier b).barriers = putBarrier b s.barriers := rfl
@[simp] theorem State.setBarrier_cores (s : State) (b : Barrier) : (s.setBarrier b).cores = s.cores := rfl
@[simp] theorem State.setBarrier_quads (s : State) (b : Barrier) : (s.setBarrier b).quads = s.quads := rfl
@[simp] theorem State.setBarrier_dies (s : State) (b : Barrier) : (s.setBarrier b).dies = s.dies := rfl
@[simp] theorem State.setBarrier_frames (s : State) (b : Barrier) : (s.setBarrier b).frames = s.frames := rfl
@[simp] theorem State.setBarrier_raux (s : State) (b : Barrier) : (s.setBarrier b).raux = s.raux := rfl
@[simp] theorem State.setBarrier_slides (s : State) (b : Barrier) : (s.setBarrier b).slides = s.slides := rfl
@[simp] theorem State.setBarrier_slideWaits (s : State) (b : Barrier) : (s.setBarrier b).slideWaits = s.slideWaits := rfl
@[simp] theorem State.setBarrier_demotions (s : State) (b : Barrier) : (s.setBarrier b).demotions = s.demotions := rfl
@[simp] theorem State.setBarrier_shoots (s : State) (b : Barrier) : (s.setBarrier b).shoots = s.shoots := rfl
@[simp] theorem State.setBarrier_drained (s : State) (b : Barrier) : (s.setBarrier b).drained = s.drained := rfl
@[simp] theorem State.setBarrier_asidtb (s : State) (b : Barrier) : (s.setBarrier b).asidtb = s.asidtb := rfl
@[simp] theorem State.setBarrier_cmdWin (s : State) (b : Barrier) : (s.setBarrier b).cmdWin = s.cmdWin := rfl
@[simp] theorem State.setBarrier_ready (s : State) (b : Barrier) : (s.setBarrier b).ready = s.ready := rfl
@[simp] theorem State.setBarrier_recovery (s : State) (b : Barrier) : (s.setBarrier b).recovery = s.recovery := rfl
@[simp] theorem State.setBarrier_resetting (s : State) (b : Barrier) : (s.setBarrier b).resetting = s.resetting := rfl
@[simp] theorem State.setBarrier_node (s : State) (b : Barrier) : (s.setBarrier b).node = s.node := rfl
@[simp] theorem State.setBarrier_pwrcap (s : State) (b : Barrier) : (s.setBarrier b).pwrcap = s.pwrcap := rfl
@[simp] theorem State.setBarrier_tenbase (s : State) (b : Barrier) : (s.setBarrier b).tenbase = s.tenbase := rfl
@[simp] theorem State.setBarrier_nwinbase (s : State) (b : Barrier) : (s.setBarrier b).nwinbase = s.nwinbase := rfl
@[simp] theorem State.setBarrier_capdec (s : State) (b : Barrier) : (s.setBarrier b).capdec = s.capdec := rfl
@[simp] theorem State.setBarrier_rststat (s : State) (b : Barrier) : (s.setBarrier b).rststat = s.rststat := rfl
@[simp] theorem State.setBarrier_dieShare (s : State) (b : Barrier) : (s.setBarrier b).dieShare = s.dieShare := rfl
@[simp] theorem State.setBarrier_hbmShare (s : State) (b : Barrier) : (s.setBarrier b).hbmShare = s.hbmShare := rfl
@[simp] theorem State.setBarrier_attNonce (s : State) (b : Barrier) : (s.setBarrier b).attNonce = s.attNonce := rfl
@[simp] theorem State.setBarrier_attAddr (s : State) (b : Barrier) : (s.setBarrier b).attAddr = s.attAddr := rfl
@[simp] theorem State.setBarrier_attDone (s : State) (b : Barrier) : (s.setBarrier b).attDone = s.attDone := rfl
@[simp] theorem State.setBarrier_fwAddr (s : State) (b : Barrier) : (s.setBarrier b).fwAddr = s.fwAddr := rfl
@[simp] theorem State.setBarrier_fwLen (s : State) (b : Barrier) : (s.setBarrier b).fwLen = s.fwLen := rfl
@[simp] theorem State.setBarrier_fwDone (s : State) (b : Barrier) : (s.setBarrier b).fwDone = s.fwDone := rfl
@[simp] theorem State.setBarrier_fwRejected (s : State) (b : Barrier) : (s.setBarrier b).fwRejected = s.fwRejected := rfl
@[simp] theorem State.setBarrier_fwDigests (s : State) (b : Barrier) : (s.setBarrier b).fwDigests = s.fwDigests := rfl
@[simp] theorem State.setBarrier_warm (s : State) (b : Barrier) : (s.setBarrier b).warm = s.warm := rfl
@[simp] theorem State.setBarrier_asidMap (s : State) (b : Barrier) : (s.setBarrier b).asidMap = s.asidMap := rfl
@[simp] theorem State.setBarrier_hostWins (s : State) (b : Barrier) : (s.setBarrier b).hostWins = s.hostWins := rfl
@[simp] theorem State.setBarrier_peerWins (s : State) (b : Barrier) : (s.setBarrier b).peerWins = s.peerWins := rfl
@[simp] theorem State.setBarrier_counters (s : State) (b : Barrier) : (s.setBarrier b).counters = s.counters := rfl
@[simp] theorem State.setBarrier_counterTen (s : State) (b : Barrier) : (s.setBarrier b).counterTen = s.counterTen := rfl
@[simp] theorem State.setBarrier_pcie (s : State) (b : Barrier) : (s.setBarrier b).pcie = s.pcie := rfl
@[simp] theorem State.setBarrier_cxl (s : State) (b : Barrier) : (s.setBarrier b).cxl = s.cxl := rfl
@[simp] theorem State.setBarrier_engines (s : State) (b : Barrier) : (s.setBarrier b).engines = s.engines := rfl
@[simp] theorem State.setBarrier_wires (s : State) (b : Barrier) : (s.setBarrier b).wires = s.wires := rfl
@[simp] theorem State.setBarrier_rmsgs (s : State) (b : Barrier) : (s.setBarrier b).rmsgs = s.rmsgs := rfl
@[simp] theorem State.setBarrier_remWins (s : State) (b : Barrier) : (s.setBarrier b).remWins = s.remWins := rfl
@[simp] theorem State.setBarrier_pods (s : State) (b : Barrier) : (s.setBarrier b).pods = s.pods := rfl
@[simp] theorem State.setBarrier_held (s : State) (b : Barrier) : (s.setBarrier b).held = s.held := rfl
@[simp] theorem State.setBarrier_evcons (s : State) (b : Barrier) : (s.setBarrier b).evcons = s.evcons := rfl
@[simp] theorem State.setBarrier_evstat (s : State) (b : Barrier) : (s.setBarrier b).evstat = s.evstat := rfl
@[simp] theorem State.setBarrier_evseq (s : State) (b : Barrier) : (s.setBarrier b).evseq = s.evseq := rfl
@[simp] theorem State.setBarrier_pairings (s : State) (b : Barrier) : (s.setBarrier b).pairings = s.pairings := rfl
@[simp] theorem State.setBarrier_outputs (s : State) (b : Barrier) : (s.setBarrier b).outputs = s.outputs := rfl

/-! ## Group.setU -/

@[simp] theorem Group.setU_asid (g : Group) (n : Nat) (v : Word) : (g.setU n v).asid = g.asid := rfl
@[simp] theorem Group.setU_core (g : Group) (n : Nat) (v : Word) : (g.setU n v).core = g.core := rfl
@[simp] theorem Group.setU_slot (g : Group) (n : Nat) (v : Word) : (g.setU n v).slot = g.slot := rfl
@[simp] theorem Group.setU_cohort (g : Group) (n : Nat) (v : Word) : (g.setU n v).cohort = g.cohort := rfl
@[simp] theorem Group.setU_grpidx (g : Group) (n : Nat) (v : Word) : (g.setU n v).grpidx = g.grpidx := rfl
@[simp] theorem Group.setU_lanes (g : Group) (n : Nat) (v : Word) : (g.setU n v).lanes = g.lanes := rfl
@[simp] theorem Group.setU_frame (g : Group) (n : Nat) (v : Word) : (g.setU n v).frame = g.frame := rfl
@[simp] theorem Group.setU_status (g : Group) (n : Nat) (v : Word) : (g.setU n v).status = g.status := rfl
@[simp] theorem Group.setU_exited (g : Group) (n : Nat) (v : Word) : (g.setU n v).exited = g.exited := rfl
@[simp] theorem Group.setU_regbytes (g : Group) (n : Nat) (v : Word) : (g.setU n v).regbytes = g.regbytes := rfl
@[simp] theorem Group.setU_regs (g : Group) (n : Nat) (v : Word) : (g.setU n v).regs = g.regs := rfl
@[simp] theorem Group.setU_regPoison (g : Group) (n : Nat) (v : Word) : (g.setU n v).regPoison = g.regPoison := rfl
@[simp] theorem Group.setU_uni (g : Group) (n : Nat) (v : Word) : (g.setU n v).uni = mset 0 g.uni n v := rfl
@[simp] theorem Group.setU_preds (g : Group) (n : Nat) (v : Word) : (g.setU n v).preds = g.preds := rfl
@[simp] theorem Group.setU_mode (g : Group) (n : Nat) (v : Word) : (g.setU n v).mode = g.mode := rfl
@[simp] theorem Group.setU_views (g : Group) (n : Nat) (v : Word) : (g.setU n v).views = g.views := rfl
@[simp] theorem Group.setU_flags (g : Group) (n : Nat) (v : Word) : (g.setU n v).flags = g.flags := rfl
@[simp] theorem Group.setU_spill (g : Group) (n : Nat) (v : Word) : (g.setU n v).spill = g.spill := rfl
@[simp] theorem Group.setU_spillBytes (g : Group) (n : Nat) (v : Word) : (g.setU n v).spillBytes = g.spillBytes := rfl
@[simp] theorem Group.setU_sa (g : Group) (n : Nat) (v : Word) : (g.setU n v).sa = g.sa := rfl
@[simp] theorem Group.setU_sb (g : Group) (n : Nat) (v : Word) : (g.setU n v).sb = g.sb := rfl
@[simp] theorem Group.setU_spc (g : Group) (n : Nat) (v : Word) : (g.setU n v).spc = g.spc := rfl
@[simp] theorem Group.setU_sig (g : Group) (n : Nat) (v : Word) : (g.setU n v).sig = g.sig := rfl
@[simp] theorem Group.setU_ret (g : Group) (n : Nat) (v : Word) : (g.setU n v).ret = g.ret := rfl
@[simp] theorem Group.setU_stack (g : Group) (n : Nat) (v : Word) : (g.setU n v).stack = g.stack := rfl
@[simp] theorem Group.setU_spilled (g : Group) (n : Nat) (v : Word) : (g.setU n v).spilled = g.spilled := rfl
@[simp] theorem Group.setU_spillOpen (g : Group) (n : Nat) (v : Word) : (g.setU n v).spillOpen = g.spillOpen := rfl
@[simp] theorem Group.setU_paths (g : Group) (n : Nat) (v : Word) : (g.setU n v).paths = g.paths := rfl
@[simp] theorem Group.setU_banks (g : Group) (n : Nat) (v : Word) : (g.setU n v).banks = g.banks := rfl
@[simp] theorem Group.setU_ops (g : Group) (n : Nat) (v : Word) : (g.setU n v).ops = g.ops := rfl
@[simp] theorem Group.setU_batch (g : Group) (n : Nat) (v : Word) : (g.setU n v).batch = g.batch := rfl
@[simp] theorem Group.setU_handler (g : Group) (n : Nat) (v : Word) : (g.setU n v).handler = g.handler := rfl
@[simp] theorem Group.setU_pending (g : Group) (n : Nat) (v : Word) : (g.setU n v).pending = g.pending := rfl
@[simp] theorem Group.setU_stopping (g : Group) (n : Nat) (v : Word) : (g.setU n v).stopping = g.stopping := rfl
@[simp] theorem Group.setU_made (g : Group) (n : Nat) (v : Word) : (g.setU n v).made = g.made := rfl
@[simp] theorem Group.setU_stall (g : Group) (n : Nat) (v : Word) : (g.setU n v).stall = g.stall := rfl
@[simp] theorem Group.setU_fenceLeft (g : Group) (n : Nat) (v : Word) : (g.setU n v).fenceLeft = g.fenceLeft := rfl
@[simp] theorem Group.setU_left (g : Group) (n : Nat) (v : Word) : (g.setU n v).left = g.left := rfl
@[simp] theorem Group.setU_lastPath (g : Group) (n : Nat) (v : Word) : (g.setU n v).lastPath = g.lastPath := rfl
@[simp] theorem Group.setU_clockLast (g : Group) (n : Nat) (v : Word) : (g.setU n v).clockLast = g.clockLast := rfl
@[simp] theorem Group.setU_endFault (g : Group) (n : Nat) (v : Word) : (g.setU n v).endFault = g.endFault := rfl
@[simp] theorem Group.setU_locks (g : Group) (n : Nat) (v : Word) : (g.setU n v).locks = g.locks := rfl

/-! ## Group.setUs -/

@[simp] theorem Group.setUs_asid (g : Group) (d : UReg) (v : Word) : (g.setUs d v).asid = g.asid := by cases d <;> rfl
@[simp] theorem Group.setUs_core (g : Group) (d : UReg) (v : Word) : (g.setUs d v).core = g.core := by cases d <;> rfl
@[simp] theorem Group.setUs_slot (g : Group) (d : UReg) (v : Word) : (g.setUs d v).slot = g.slot := by cases d <;> rfl
@[simp] theorem Group.setUs_cohort (g : Group) (d : UReg) (v : Word) : (g.setUs d v).cohort = g.cohort := by cases d <;> rfl
@[simp] theorem Group.setUs_grpidx (g : Group) (d : UReg) (v : Word) : (g.setUs d v).grpidx = g.grpidx := by cases d <;> rfl
@[simp] theorem Group.setUs_lanes (g : Group) (d : UReg) (v : Word) : (g.setUs d v).lanes = g.lanes := by cases d <;> rfl
@[simp] theorem Group.setUs_frame (g : Group) (d : UReg) (v : Word) : (g.setUs d v).frame = g.frame := by cases d <;> rfl
@[simp] theorem Group.setUs_status (g : Group) (d : UReg) (v : Word) : (g.setUs d v).status = g.status := by cases d <;> rfl
@[simp] theorem Group.setUs_exited (g : Group) (d : UReg) (v : Word) : (g.setUs d v).exited = g.exited := by cases d <;> rfl
@[simp] theorem Group.setUs_regbytes (g : Group) (d : UReg) (v : Word) : (g.setUs d v).regbytes = g.regbytes := by cases d <;> rfl
@[simp] theorem Group.setUs_regs (g : Group) (d : UReg) (v : Word) : (g.setUs d v).regs = g.regs := by cases d <;> rfl
@[simp] theorem Group.setUs_regPoison (g : Group) (d : UReg) (v : Word) : (g.setUs d v).regPoison = g.regPoison := by cases d <;> rfl
@[simp] theorem Group.setUs_preds (g : Group) (d : UReg) (v : Word) : (g.setUs d v).preds = g.preds := by cases d <;> rfl
@[simp] theorem Group.setUs_mode (g : Group) (d : UReg) (v : Word) : (g.setUs d v).mode = g.mode := by cases d <;> rfl
@[simp] theorem Group.setUs_views (g : Group) (d : UReg) (v : Word) : (g.setUs d v).views = g.views := by cases d <;> rfl
@[simp] theorem Group.setUs_flags (g : Group) (d : UReg) (v : Word) : (g.setUs d v).flags = g.flags := by cases d <;> rfl
@[simp] theorem Group.setUs_spill (g : Group) (d : UReg) (v : Word) : (g.setUs d v).spill = g.spill := by cases d <;> rfl
@[simp] theorem Group.setUs_spillBytes (g : Group) (d : UReg) (v : Word) : (g.setUs d v).spillBytes = g.spillBytes := by cases d <;> rfl
@[simp] theorem Group.setUs_sa (g : Group) (d : UReg) (v : Word) : (g.setUs d v).sa = g.sa := by cases d <;> rfl
@[simp] theorem Group.setUs_sb (g : Group) (d : UReg) (v : Word) : (g.setUs d v).sb = g.sb := by cases d <;> rfl
@[simp] theorem Group.setUs_spc (g : Group) (d : UReg) (v : Word) : (g.setUs d v).spc = g.spc := by cases d <;> rfl
@[simp] theorem Group.setUs_sig (g : Group) (d : UReg) (v : Word) : (g.setUs d v).sig = g.sig := by cases d <;> rfl
@[simp] theorem Group.setUs_ret (g : Group) (d : UReg) (v : Word) : (g.setUs d v).ret = g.ret := by cases d <;> rfl
@[simp] theorem Group.setUs_stack (g : Group) (d : UReg) (v : Word) : (g.setUs d v).stack = g.stack := by cases d <;> rfl
@[simp] theorem Group.setUs_spilled (g : Group) (d : UReg) (v : Word) : (g.setUs d v).spilled = g.spilled := by cases d <;> rfl
@[simp] theorem Group.setUs_spillOpen (g : Group) (d : UReg) (v : Word) : (g.setUs d v).spillOpen = g.spillOpen := by cases d <;> rfl
@[simp] theorem Group.setUs_paths (g : Group) (d : UReg) (v : Word) : (g.setUs d v).paths = g.paths := by cases d <;> rfl
@[simp] theorem Group.setUs_banks (g : Group) (d : UReg) (v : Word) : (g.setUs d v).banks = g.banks := by cases d <;> rfl
@[simp] theorem Group.setUs_ops (g : Group) (d : UReg) (v : Word) : (g.setUs d v).ops = g.ops := by cases d <;> rfl
@[simp] theorem Group.setUs_batch (g : Group) (d : UReg) (v : Word) : (g.setUs d v).batch = g.batch := by cases d <;> rfl
@[simp] theorem Group.setUs_handler (g : Group) (d : UReg) (v : Word) : (g.setUs d v).handler = g.handler := by cases d <;> rfl
@[simp] theorem Group.setUs_pending (g : Group) (d : UReg) (v : Word) : (g.setUs d v).pending = g.pending := by cases d <;> rfl
@[simp] theorem Group.setUs_stopping (g : Group) (d : UReg) (v : Word) : (g.setUs d v).stopping = g.stopping := by cases d <;> rfl
@[simp] theorem Group.setUs_made (g : Group) (d : UReg) (v : Word) : (g.setUs d v).made = g.made := by cases d <;> rfl
@[simp] theorem Group.setUs_stall (g : Group) (d : UReg) (v : Word) : (g.setUs d v).stall = g.stall := by cases d <;> rfl
@[simp] theorem Group.setUs_fenceLeft (g : Group) (d : UReg) (v : Word) : (g.setUs d v).fenceLeft = g.fenceLeft := by cases d <;> rfl
@[simp] theorem Group.setUs_left (g : Group) (d : UReg) (v : Word) : (g.setUs d v).left = g.left := by cases d <;> rfl
@[simp] theorem Group.setUs_lastPath (g : Group) (d : UReg) (v : Word) : (g.setUs d v).lastPath = g.lastPath := by cases d <;> rfl
@[simp] theorem Group.setUs_clockLast (g : Group) (d : UReg) (v : Word) : (g.setUs d v).clockLast = g.clockLast := by cases d <;> rfl
@[simp] theorem Group.setUs_endFault (g : Group) (d : UReg) (v : Word) : (g.setUs d v).endFault = g.endFault := by cases d <;> rfl
@[simp] theorem Group.setUs_locks (g : Group) (d : UReg) (v : Word) : (g.setUs d v).locks = g.locks := by cases d <;> rfl

/-! ## Group.setPath -/

@[simp] theorem Group.setPath_asid (g : Group) (n : Nat) (p : Path) : (g.setPath n p).asid = g.asid := rfl
@[simp] theorem Group.setPath_core (g : Group) (n : Nat) (p : Path) : (g.setPath n p).core = g.core := rfl
@[simp] theorem Group.setPath_slot (g : Group) (n : Nat) (p : Path) : (g.setPath n p).slot = g.slot := rfl
@[simp] theorem Group.setPath_cohort (g : Group) (n : Nat) (p : Path) : (g.setPath n p).cohort = g.cohort := rfl
@[simp] theorem Group.setPath_grpidx (g : Group) (n : Nat) (p : Path) : (g.setPath n p).grpidx = g.grpidx := rfl
@[simp] theorem Group.setPath_lanes (g : Group) (n : Nat) (p : Path) : (g.setPath n p).lanes = g.lanes := rfl
@[simp] theorem Group.setPath_frame (g : Group) (n : Nat) (p : Path) : (g.setPath n p).frame = g.frame := rfl
@[simp] theorem Group.setPath_status (g : Group) (n : Nat) (p : Path) : (g.setPath n p).status = g.status := rfl
@[simp] theorem Group.setPath_exited (g : Group) (n : Nat) (p : Path) : (g.setPath n p).exited = g.exited := rfl
@[simp] theorem Group.setPath_regbytes (g : Group) (n : Nat) (p : Path) : (g.setPath n p).regbytes = g.regbytes := rfl
@[simp] theorem Group.setPath_regs (g : Group) (n : Nat) (p : Path) : (g.setPath n p).regs = g.regs := rfl
@[simp] theorem Group.setPath_regPoison (g : Group) (n : Nat) (p : Path) : (g.setPath n p).regPoison = g.regPoison := rfl
@[simp] theorem Group.setPath_uni (g : Group) (n : Nat) (p : Path) : (g.setPath n p).uni = g.uni := rfl
@[simp] theorem Group.setPath_preds (g : Group) (n : Nat) (p : Path) : (g.setPath n p).preds = g.preds := rfl
@[simp] theorem Group.setPath_mode (g : Group) (n : Nat) (p : Path) : (g.setPath n p).mode = g.mode := rfl
@[simp] theorem Group.setPath_views (g : Group) (n : Nat) (p : Path) : (g.setPath n p).views = g.views := rfl
@[simp] theorem Group.setPath_flags (g : Group) (n : Nat) (p : Path) : (g.setPath n p).flags = g.flags := rfl
@[simp] theorem Group.setPath_spill (g : Group) (n : Nat) (p : Path) : (g.setPath n p).spill = g.spill := rfl
@[simp] theorem Group.setPath_spillBytes (g : Group) (n : Nat) (p : Path) : (g.setPath n p).spillBytes = g.spillBytes := rfl
@[simp] theorem Group.setPath_sa (g : Group) (n : Nat) (p : Path) : (g.setPath n p).sa = g.sa := rfl
@[simp] theorem Group.setPath_sb (g : Group) (n : Nat) (p : Path) : (g.setPath n p).sb = g.sb := rfl
@[simp] theorem Group.setPath_spc (g : Group) (n : Nat) (p : Path) : (g.setPath n p).spc = g.spc := rfl
@[simp] theorem Group.setPath_sig (g : Group) (n : Nat) (p : Path) : (g.setPath n p).sig = g.sig := rfl
@[simp] theorem Group.setPath_ret (g : Group) (n : Nat) (p : Path) : (g.setPath n p).ret = g.ret := rfl
@[simp] theorem Group.setPath_stack (g : Group) (n : Nat) (p : Path) : (g.setPath n p).stack = g.stack := rfl
@[simp] theorem Group.setPath_spilled (g : Group) (n : Nat) (p : Path) : (g.setPath n p).spilled = g.spilled := rfl
@[simp] theorem Group.setPath_spillOpen (g : Group) (n : Nat) (p : Path) : (g.setPath n p).spillOpen = g.spillOpen := rfl
@[simp] theorem Group.setPath_paths (g : Group) (n : Nat) (p : Path) : (g.setPath n p).paths = kset g.paths n p := rfl
@[simp] theorem Group.setPath_banks (g : Group) (n : Nat) (p : Path) : (g.setPath n p).banks = g.banks := rfl
@[simp] theorem Group.setPath_ops (g : Group) (n : Nat) (p : Path) : (g.setPath n p).ops = g.ops := rfl
@[simp] theorem Group.setPath_batch (g : Group) (n : Nat) (p : Path) : (g.setPath n p).batch = g.batch := rfl
@[simp] theorem Group.setPath_handler (g : Group) (n : Nat) (p : Path) : (g.setPath n p).handler = g.handler := rfl
@[simp] theorem Group.setPath_pending (g : Group) (n : Nat) (p : Path) : (g.setPath n p).pending = g.pending := rfl
@[simp] theorem Group.setPath_stopping (g : Group) (n : Nat) (p : Path) : (g.setPath n p).stopping = g.stopping := rfl
@[simp] theorem Group.setPath_made (g : Group) (n : Nat) (p : Path) : (g.setPath n p).made = g.made := rfl
@[simp] theorem Group.setPath_stall (g : Group) (n : Nat) (p : Path) : (g.setPath n p).stall = g.stall := rfl
@[simp] theorem Group.setPath_fenceLeft (g : Group) (n : Nat) (p : Path) : (g.setPath n p).fenceLeft = g.fenceLeft := rfl
@[simp] theorem Group.setPath_left (g : Group) (n : Nat) (p : Path) : (g.setPath n p).left = g.left := rfl
@[simp] theorem Group.setPath_lastPath (g : Group) (n : Nat) (p : Path) : (g.setPath n p).lastPath = g.lastPath := rfl
@[simp] theorem Group.setPath_clockLast (g : Group) (n : Nat) (p : Path) : (g.setPath n p).clockLast = g.clockLast := rfl
@[simp] theorem Group.setPath_endFault (g : Group) (n : Nat) (p : Path) : (g.setPath n p).endFault = g.endFault := rfl
@[simp] theorem Group.setPath_locks (g : Group) (n : Nat) (p : Path) : (g.setPath n p).locks = g.locks := rfl

/-! ## Group.setV -/

@[simp] theorem Group.setV_asid (g : Group) (d : VReg) (m : Mask) (vs : List Word) : (g.setV d m vs).asid = g.asid := by cases d <;> rfl
@[simp] theorem Group.setV_core (g : Group) (d : VReg) (m : Mask) (vs : List Word) : (g.setV d m vs).core = g.core := by cases d <;> rfl
@[simp] theorem Group.setV_slot (g : Group) (d : VReg) (m : Mask) (vs : List Word) : (g.setV d m vs).slot = g.slot := by cases d <;> rfl
@[simp] theorem Group.setV_cohort (g : Group) (d : VReg) (m : Mask) (vs : List Word) : (g.setV d m vs).cohort = g.cohort := by cases d <;> rfl
@[simp] theorem Group.setV_grpidx (g : Group) (d : VReg) (m : Mask) (vs : List Word) : (g.setV d m vs).grpidx = g.grpidx := by cases d <;> rfl
@[simp] theorem Group.setV_lanes (g : Group) (d : VReg) (m : Mask) (vs : List Word) : (g.setV d m vs).lanes = g.lanes := by cases d <;> rfl
@[simp] theorem Group.setV_frame (g : Group) (d : VReg) (m : Mask) (vs : List Word) : (g.setV d m vs).frame = g.frame := by cases d <;> rfl
@[simp] theorem Group.setV_status (g : Group) (d : VReg) (m : Mask) (vs : List Word) : (g.setV d m vs).status = g.status := by cases d <;> rfl
@[simp] theorem Group.setV_exited (g : Group) (d : VReg) (m : Mask) (vs : List Word) : (g.setV d m vs).exited = g.exited := by cases d <;> rfl
@[simp] theorem Group.setV_regbytes (g : Group) (d : VReg) (m : Mask) (vs : List Word) : (g.setV d m vs).regbytes = g.regbytes := by cases d <;> rfl
@[simp] theorem Group.setV_uni (g : Group) (d : VReg) (m : Mask) (vs : List Word) : (g.setV d m vs).uni = g.uni := by cases d <;> rfl
@[simp] theorem Group.setV_preds (g : Group) (d : VReg) (m : Mask) (vs : List Word) : (g.setV d m vs).preds = g.preds := by cases d <;> rfl
@[simp] theorem Group.setV_mode (g : Group) (d : VReg) (m : Mask) (vs : List Word) : (g.setV d m vs).mode = g.mode := by cases d <;> rfl
@[simp] theorem Group.setV_views (g : Group) (d : VReg) (m : Mask) (vs : List Word) : (g.setV d m vs).views = g.views := by cases d <;> rfl
@[simp] theorem Group.setV_flags (g : Group) (d : VReg) (m : Mask) (vs : List Word) : (g.setV d m vs).flags = g.flags := by cases d <;> rfl
@[simp] theorem Group.setV_spill (g : Group) (d : VReg) (m : Mask) (vs : List Word) : (g.setV d m vs).spill = g.spill := by cases d <;> rfl
@[simp] theorem Group.setV_spillBytes (g : Group) (d : VReg) (m : Mask) (vs : List Word) : (g.setV d m vs).spillBytes = g.spillBytes := by cases d <;> rfl
@[simp] theorem Group.setV_sa (g : Group) (d : VReg) (m : Mask) (vs : List Word) : (g.setV d m vs).sa = g.sa := by cases d <;> rfl
@[simp] theorem Group.setV_sb (g : Group) (d : VReg) (m : Mask) (vs : List Word) : (g.setV d m vs).sb = g.sb := by cases d <;> rfl
@[simp] theorem Group.setV_spc (g : Group) (d : VReg) (m : Mask) (vs : List Word) : (g.setV d m vs).spc = g.spc := by cases d <;> rfl
@[simp] theorem Group.setV_sig (g : Group) (d : VReg) (m : Mask) (vs : List Word) : (g.setV d m vs).sig = g.sig := by cases d <;> rfl
@[simp] theorem Group.setV_ret (g : Group) (d : VReg) (m : Mask) (vs : List Word) : (g.setV d m vs).ret = g.ret := by cases d <;> rfl
@[simp] theorem Group.setV_stack (g : Group) (d : VReg) (m : Mask) (vs : List Word) : (g.setV d m vs).stack = g.stack := by cases d <;> rfl
@[simp] theorem Group.setV_spilled (g : Group) (d : VReg) (m : Mask) (vs : List Word) : (g.setV d m vs).spilled = g.spilled := by cases d <;> rfl
@[simp] theorem Group.setV_spillOpen (g : Group) (d : VReg) (m : Mask) (vs : List Word) : (g.setV d m vs).spillOpen = g.spillOpen := by cases d <;> rfl
@[simp] theorem Group.setV_paths (g : Group) (d : VReg) (m : Mask) (vs : List Word) : (g.setV d m vs).paths = g.paths := by cases d <;> rfl
@[simp] theorem Group.setV_banks (g : Group) (d : VReg) (m : Mask) (vs : List Word) : (g.setV d m vs).banks = g.banks := by cases d <;> rfl
@[simp] theorem Group.setV_ops (g : Group) (d : VReg) (m : Mask) (vs : List Word) : (g.setV d m vs).ops = g.ops := by cases d <;> rfl
@[simp] theorem Group.setV_batch (g : Group) (d : VReg) (m : Mask) (vs : List Word) : (g.setV d m vs).batch = g.batch := by cases d <;> rfl
@[simp] theorem Group.setV_handler (g : Group) (d : VReg) (m : Mask) (vs : List Word) : (g.setV d m vs).handler = g.handler := by cases d <;> rfl
@[simp] theorem Group.setV_pending (g : Group) (d : VReg) (m : Mask) (vs : List Word) : (g.setV d m vs).pending = g.pending := by cases d <;> rfl
@[simp] theorem Group.setV_stopping (g : Group) (d : VReg) (m : Mask) (vs : List Word) : (g.setV d m vs).stopping = g.stopping := by cases d <;> rfl
@[simp] theorem Group.setV_made (g : Group) (d : VReg) (m : Mask) (vs : List Word) : (g.setV d m vs).made = g.made := by cases d <;> rfl
@[simp] theorem Group.setV_stall (g : Group) (d : VReg) (m : Mask) (vs : List Word) : (g.setV d m vs).stall = g.stall := by cases d <;> rfl
@[simp] theorem Group.setV_fenceLeft (g : Group) (d : VReg) (m : Mask) (vs : List Word) : (g.setV d m vs).fenceLeft = g.fenceLeft := by cases d <;> rfl
@[simp] theorem Group.setV_left (g : Group) (d : VReg) (m : Mask) (vs : List Word) : (g.setV d m vs).left = g.left := by cases d <;> rfl
@[simp] theorem Group.setV_lastPath (g : Group) (d : VReg) (m : Mask) (vs : List Word) : (g.setV d m vs).lastPath = g.lastPath := by cases d <;> rfl
@[simp] theorem Group.setV_clockLast (g : Group) (d : VReg) (m : Mask) (vs : List Word) : (g.setV d m vs).clockLast = g.clockLast := by cases d <;> rfl
@[simp] theorem Group.setV_endFault (g : Group) (d : VReg) (m : Mask) (vs : List Word) : (g.setV d m vs).endFault = g.endFault := by cases d <;> rfl
@[simp] theorem Group.setV_locks (g : Group) (d : VReg) (m : Mask) (vs : List Word) : (g.setV d m vs).locks = g.locks := by cases d <;> rfl

/-! ## Group.setPred -/

@[simp] theorem Group.setPred_asid (g : Group) (n : Nat) (m v : Mask) : (g.setPred n m v).asid = g.asid := by simp only [Group.setPred]; split <;> rfl
@[simp] theorem Group.setPred_core (g : Group) (n : Nat) (m v : Mask) : (g.setPred n m v).core = g.core := by simp only [Group.setPred]; split <;> rfl
@[simp] theorem Group.setPred_slot (g : Group) (n : Nat) (m v : Mask) : (g.setPred n m v).slot = g.slot := by simp only [Group.setPred]; split <;> rfl
@[simp] theorem Group.setPred_cohort (g : Group) (n : Nat) (m v : Mask) : (g.setPred n m v).cohort = g.cohort := by simp only [Group.setPred]; split <;> rfl
@[simp] theorem Group.setPred_grpidx (g : Group) (n : Nat) (m v : Mask) : (g.setPred n m v).grpidx = g.grpidx := by simp only [Group.setPred]; split <;> rfl
@[simp] theorem Group.setPred_lanes (g : Group) (n : Nat) (m v : Mask) : (g.setPred n m v).lanes = g.lanes := by simp only [Group.setPred]; split <;> rfl
@[simp] theorem Group.setPred_frame (g : Group) (n : Nat) (m v : Mask) : (g.setPred n m v).frame = g.frame := by simp only [Group.setPred]; split <;> rfl
@[simp] theorem Group.setPred_status (g : Group) (n : Nat) (m v : Mask) : (g.setPred n m v).status = g.status := by simp only [Group.setPred]; split <;> rfl
@[simp] theorem Group.setPred_exited (g : Group) (n : Nat) (m v : Mask) : (g.setPred n m v).exited = g.exited := by simp only [Group.setPred]; split <;> rfl
@[simp] theorem Group.setPred_regbytes (g : Group) (n : Nat) (m v : Mask) : (g.setPred n m v).regbytes = g.regbytes := by simp only [Group.setPred]; split <;> rfl
@[simp] theorem Group.setPred_regs (g : Group) (n : Nat) (m v : Mask) : (g.setPred n m v).regs = g.regs := by simp only [Group.setPred]; split <;> rfl
@[simp] theorem Group.setPred_regPoison (g : Group) (n : Nat) (m v : Mask) : (g.setPred n m v).regPoison = g.regPoison := by simp only [Group.setPred]; split <;> rfl
@[simp] theorem Group.setPred_uni (g : Group) (n : Nat) (m v : Mask) : (g.setPred n m v).uni = g.uni := by simp only [Group.setPred]; split <;> rfl
@[simp] theorem Group.setPred_mode (g : Group) (n : Nat) (m v : Mask) : (g.setPred n m v).mode = g.mode := by simp only [Group.setPred]; split <;> rfl
@[simp] theorem Group.setPred_views (g : Group) (n : Nat) (m v : Mask) : (g.setPred n m v).views = g.views := by simp only [Group.setPred]; split <;> rfl
@[simp] theorem Group.setPred_flags (g : Group) (n : Nat) (m v : Mask) : (g.setPred n m v).flags = g.flags := by simp only [Group.setPred]; split <;> rfl
@[simp] theorem Group.setPred_spill (g : Group) (n : Nat) (m v : Mask) : (g.setPred n m v).spill = g.spill := by simp only [Group.setPred]; split <;> rfl
@[simp] theorem Group.setPred_spillBytes (g : Group) (n : Nat) (m v : Mask) : (g.setPred n m v).spillBytes = g.spillBytes := by simp only [Group.setPred]; split <;> rfl
@[simp] theorem Group.setPred_sa (g : Group) (n : Nat) (m v : Mask) : (g.setPred n m v).sa = g.sa := by simp only [Group.setPred]; split <;> rfl
@[simp] theorem Group.setPred_sb (g : Group) (n : Nat) (m v : Mask) : (g.setPred n m v).sb = g.sb := by simp only [Group.setPred]; split <;> rfl
@[simp] theorem Group.setPred_spc (g : Group) (n : Nat) (m v : Mask) : (g.setPred n m v).spc = g.spc := by simp only [Group.setPred]; split <;> rfl
@[simp] theorem Group.setPred_sig (g : Group) (n : Nat) (m v : Mask) : (g.setPred n m v).sig = g.sig := by simp only [Group.setPred]; split <;> rfl
@[simp] theorem Group.setPred_ret (g : Group) (n : Nat) (m v : Mask) : (g.setPred n m v).ret = g.ret := by simp only [Group.setPred]; split <;> rfl
@[simp] theorem Group.setPred_stack (g : Group) (n : Nat) (m v : Mask) : (g.setPred n m v).stack = g.stack := by simp only [Group.setPred]; split <;> rfl
@[simp] theorem Group.setPred_spilled (g : Group) (n : Nat) (m v : Mask) : (g.setPred n m v).spilled = g.spilled := by simp only [Group.setPred]; split <;> rfl
@[simp] theorem Group.setPred_spillOpen (g : Group) (n : Nat) (m v : Mask) : (g.setPred n m v).spillOpen = g.spillOpen := by simp only [Group.setPred]; split <;> rfl
@[simp] theorem Group.setPred_paths (g : Group) (n : Nat) (m v : Mask) : (g.setPred n m v).paths = g.paths := by simp only [Group.setPred]; split <;> rfl
@[simp] theorem Group.setPred_banks (g : Group) (n : Nat) (m v : Mask) : (g.setPred n m v).banks = g.banks := by simp only [Group.setPred]; split <;> rfl
@[simp] theorem Group.setPred_ops (g : Group) (n : Nat) (m v : Mask) : (g.setPred n m v).ops = g.ops := by simp only [Group.setPred]; split <;> rfl
@[simp] theorem Group.setPred_batch (g : Group) (n : Nat) (m v : Mask) : (g.setPred n m v).batch = g.batch := by simp only [Group.setPred]; split <;> rfl
@[simp] theorem Group.setPred_handler (g : Group) (n : Nat) (m v : Mask) : (g.setPred n m v).handler = g.handler := by simp only [Group.setPred]; split <;> rfl
@[simp] theorem Group.setPred_pending (g : Group) (n : Nat) (m v : Mask) : (g.setPred n m v).pending = g.pending := by simp only [Group.setPred]; split <;> rfl
@[simp] theorem Group.setPred_stopping (g : Group) (n : Nat) (m v : Mask) : (g.setPred n m v).stopping = g.stopping := by simp only [Group.setPred]; split <;> rfl
@[simp] theorem Group.setPred_made (g : Group) (n : Nat) (m v : Mask) : (g.setPred n m v).made = g.made := by simp only [Group.setPred]; split <;> rfl
@[simp] theorem Group.setPred_stall (g : Group) (n : Nat) (m v : Mask) : (g.setPred n m v).stall = g.stall := by simp only [Group.setPred]; split <;> rfl
@[simp] theorem Group.setPred_fenceLeft (g : Group) (n : Nat) (m v : Mask) : (g.setPred n m v).fenceLeft = g.fenceLeft := by simp only [Group.setPred]; split <;> rfl
@[simp] theorem Group.setPred_left (g : Group) (n : Nat) (m v : Mask) : (g.setPred n m v).left = g.left := by simp only [Group.setPred]; split <;> rfl
@[simp] theorem Group.setPred_lastPath (g : Group) (n : Nat) (m v : Mask) : (g.setPred n m v).lastPath = g.lastPath := by simp only [Group.setPred]; split <;> rfl
@[simp] theorem Group.setPred_clockLast (g : Group) (n : Nat) (m v : Mask) : (g.setPred n m v).clockLast = g.clockLast := by simp only [Group.setPred]; split <;> rfl
@[simp] theorem Group.setPred_endFault (g : Group) (n : Nat) (m v : Mask) : (g.setPred n m v).endFault = g.endFault := by simp only [Group.setPred]; split <;> rfl
@[simp] theorem Group.setPred_locks (g : Group) (n : Nat) (m v : Mask) : (g.setPred n m v).locks = g.locks := by simp only [Group.setPred]; split <;> rfl

/-! ## Group.setFlag -/

@[simp] theorem Group.setFlag_asid (g : Group) (k : Nat) (b : Bool) : (g.setFlag k b).asid = g.asid := by simp only [Group.setFlag]; split <;> rfl
@[simp] theorem Group.setFlag_core (g : Group) (k : Nat) (b : Bool) : (g.setFlag k b).core = g.core := by simp only [Group.setFlag]; split <;> rfl
@[simp] theorem Group.setFlag_slot (g : Group) (k : Nat) (b : Bool) : (g.setFlag k b).slot = g.slot := by simp only [Group.setFlag]; split <;> rfl
@[simp] theorem Group.setFlag_cohort (g : Group) (k : Nat) (b : Bool) : (g.setFlag k b).cohort = g.cohort := by simp only [Group.setFlag]; split <;> rfl
@[simp] theorem Group.setFlag_grpidx (g : Group) (k : Nat) (b : Bool) : (g.setFlag k b).grpidx = g.grpidx := by simp only [Group.setFlag]; split <;> rfl
@[simp] theorem Group.setFlag_lanes (g : Group) (k : Nat) (b : Bool) : (g.setFlag k b).lanes = g.lanes := by simp only [Group.setFlag]; split <;> rfl
@[simp] theorem Group.setFlag_frame (g : Group) (k : Nat) (b : Bool) : (g.setFlag k b).frame = g.frame := by simp only [Group.setFlag]; split <;> rfl
@[simp] theorem Group.setFlag_status (g : Group) (k : Nat) (b : Bool) : (g.setFlag k b).status = g.status := by simp only [Group.setFlag]; split <;> rfl
@[simp] theorem Group.setFlag_exited (g : Group) (k : Nat) (b : Bool) : (g.setFlag k b).exited = g.exited := by simp only [Group.setFlag]; split <;> rfl
@[simp] theorem Group.setFlag_regbytes (g : Group) (k : Nat) (b : Bool) : (g.setFlag k b).regbytes = g.regbytes := by simp only [Group.setFlag]; split <;> rfl
@[simp] theorem Group.setFlag_regs (g : Group) (k : Nat) (b : Bool) : (g.setFlag k b).regs = g.regs := by simp only [Group.setFlag]; split <;> rfl
@[simp] theorem Group.setFlag_regPoison (g : Group) (k : Nat) (b : Bool) : (g.setFlag k b).regPoison = g.regPoison := by simp only [Group.setFlag]; split <;> rfl
@[simp] theorem Group.setFlag_uni (g : Group) (k : Nat) (b : Bool) : (g.setFlag k b).uni = g.uni := by simp only [Group.setFlag]; split <;> rfl
@[simp] theorem Group.setFlag_preds (g : Group) (k : Nat) (b : Bool) : (g.setFlag k b).preds = g.preds := by simp only [Group.setFlag]; split <;> rfl
@[simp] theorem Group.setFlag_mode (g : Group) (k : Nat) (b : Bool) : (g.setFlag k b).mode = g.mode := by simp only [Group.setFlag]; split <;> rfl
@[simp] theorem Group.setFlag_views (g : Group) (k : Nat) (b : Bool) : (g.setFlag k b).views = g.views := by simp only [Group.setFlag]; split <;> rfl
@[simp] theorem Group.setFlag_spill (g : Group) (k : Nat) (b : Bool) : (g.setFlag k b).spill = g.spill := by simp only [Group.setFlag]; split <;> rfl
@[simp] theorem Group.setFlag_spillBytes (g : Group) (k : Nat) (b : Bool) : (g.setFlag k b).spillBytes = g.spillBytes := by simp only [Group.setFlag]; split <;> rfl
@[simp] theorem Group.setFlag_sa (g : Group) (k : Nat) (b : Bool) : (g.setFlag k b).sa = g.sa := by simp only [Group.setFlag]; split <;> rfl
@[simp] theorem Group.setFlag_sb (g : Group) (k : Nat) (b : Bool) : (g.setFlag k b).sb = g.sb := by simp only [Group.setFlag]; split <;> rfl
@[simp] theorem Group.setFlag_spc (g : Group) (k : Nat) (b : Bool) : (g.setFlag k b).spc = g.spc := by simp only [Group.setFlag]; split <;> rfl
@[simp] theorem Group.setFlag_sig (g : Group) (k : Nat) (b : Bool) : (g.setFlag k b).sig = g.sig := by simp only [Group.setFlag]; split <;> rfl
@[simp] theorem Group.setFlag_ret (g : Group) (k : Nat) (b : Bool) : (g.setFlag k b).ret = g.ret := by simp only [Group.setFlag]; split <;> rfl
@[simp] theorem Group.setFlag_stack (g : Group) (k : Nat) (b : Bool) : (g.setFlag k b).stack = g.stack := by simp only [Group.setFlag]; split <;> rfl
@[simp] theorem Group.setFlag_spilled (g : Group) (k : Nat) (b : Bool) : (g.setFlag k b).spilled = g.spilled := by simp only [Group.setFlag]; split <;> rfl
@[simp] theorem Group.setFlag_spillOpen (g : Group) (k : Nat) (b : Bool) : (g.setFlag k b).spillOpen = g.spillOpen := by simp only [Group.setFlag]; split <;> rfl
@[simp] theorem Group.setFlag_paths (g : Group) (k : Nat) (b : Bool) : (g.setFlag k b).paths = g.paths := by simp only [Group.setFlag]; split <;> rfl
@[simp] theorem Group.setFlag_banks (g : Group) (k : Nat) (b : Bool) : (g.setFlag k b).banks = g.banks := by simp only [Group.setFlag]; split <;> rfl
@[simp] theorem Group.setFlag_ops (g : Group) (k : Nat) (b : Bool) : (g.setFlag k b).ops = g.ops := by simp only [Group.setFlag]; split <;> rfl
@[simp] theorem Group.setFlag_batch (g : Group) (k : Nat) (b : Bool) : (g.setFlag k b).batch = g.batch := by simp only [Group.setFlag]; split <;> rfl
@[simp] theorem Group.setFlag_handler (g : Group) (k : Nat) (b : Bool) : (g.setFlag k b).handler = g.handler := by simp only [Group.setFlag]; split <;> rfl
@[simp] theorem Group.setFlag_pending (g : Group) (k : Nat) (b : Bool) : (g.setFlag k b).pending = g.pending := by simp only [Group.setFlag]; split <;> rfl
@[simp] theorem Group.setFlag_stopping (g : Group) (k : Nat) (b : Bool) : (g.setFlag k b).stopping = g.stopping := by simp only [Group.setFlag]; split <;> rfl
@[simp] theorem Group.setFlag_made (g : Group) (k : Nat) (b : Bool) : (g.setFlag k b).made = g.made := by simp only [Group.setFlag]; split <;> rfl
@[simp] theorem Group.setFlag_stall (g : Group) (k : Nat) (b : Bool) : (g.setFlag k b).stall = g.stall := by simp only [Group.setFlag]; split <;> rfl
@[simp] theorem Group.setFlag_fenceLeft (g : Group) (k : Nat) (b : Bool) : (g.setFlag k b).fenceLeft = g.fenceLeft := by simp only [Group.setFlag]; split <;> rfl
@[simp] theorem Group.setFlag_left (g : Group) (k : Nat) (b : Bool) : (g.setFlag k b).left = g.left := by simp only [Group.setFlag]; split <;> rfl
@[simp] theorem Group.setFlag_lastPath (g : Group) (k : Nat) (b : Bool) : (g.setFlag k b).lastPath = g.lastPath := by simp only [Group.setFlag]; split <;> rfl
@[simp] theorem Group.setFlag_clockLast (g : Group) (k : Nat) (b : Bool) : (g.setFlag k b).clockLast = g.clockLast := by simp only [Group.setFlag]; split <;> rfl
@[simp] theorem Group.setFlag_endFault (g : Group) (k : Nat) (b : Bool) : (g.setFlag k b).endFault = g.endFault := by simp only [Group.setFlag]; split <;> rfl
@[simp] theorem Group.setFlag_locks (g : Group) (k : Nat) (b : Bool) : (g.setFlag k b).locks = g.locks := by simp only [Group.setFlag]; split <;> rfl

/-! ## Reading a table after an update -/

@[simp] theorem State.group_setGroup (s : State) (g k : Nat) (v : Group) :
    (s.setGroup g v).group k = if g = k then some v else s.group k := kget_kset

@[simp] theorem State.core_setCore (s : State) (c k : Nat) (v : Core) :
    (s.setCore c v).core k = if c = k then v else s.core k := by
  simp only [State.core, State.setCore, kget_kset]; split <;> rfl

@[simp] theorem State.core_setGroup (s : State) (g k : Nat) (v : Group) : (s.setGroup g v).core k = s.core k := rfl

@[simp] theorem State.group_setCore (s : State) (c k : Nat) (v : Core) : (s.setCore c v).group k = s.group k := rfl


@[simp] theorem Group.path_setPath (g : Group) (n k : Nat) (p : Path) :
    (g.setPath n p).path k = if n = k then some p else g.path k := kget_kset

/-- A uniform register after a write (01 R10). -/
theorem Group.u_setU (g : Group) (n k : Nat) (v : Word) :
    (g.setU n v).u k = if n = k then v else g.u k := mget_mset

end Sys2Proof.Machine
end

