-- ==== Sys2Proof/Laws/Issue.lean ====
section
/-! SUPPORT. Laws of issuing: what `issue`, `retire` and `finish` do for a path that is free to issue, and what a lanewise write
leaves in register space. -/
namespace Sys2Proof.Claims
open Sys2Proof.Machine

/-- A free path's word runs its body at once. -/
theorem issue_eq {i : Instr} {s : State} {gid pid : Nat} {g : Group} {p : Path} (h : Issues s gid pid g p) (plan) (body) :
    issue i s plan body = .next (issueBody i s gid pid plan body) := by
  unfold issue
  simp [h.cur, h.group, h.path, h.resident, h.ready, h.noEntry, beforeWord, h.noFault, h.calm]

/-- The body of a legal word without a trap of its plan decides what happens. -/
theorem issueBody_eq {i : Instr} {s : State} {gid pid : Nat} {g : Group} {p : Path} (h : Issues s gid pid g p) (hw : wellFormed i = true)
    (plan : Group → Path → Plan) (body : State → Ctx → Res) (hp : planTrap g (plan g p) = none) :
    issueBody i s gid pid plan body = finish ⟨gid, pid, g, p, wordOf i⟩ (plan g p) s (body s ⟨gid, pid, g, p, wordOf i⟩) := by
  unfold issueBody
  simp [h.group, h.path, hw, hp, h.awake, pendingHit, h.idle, poisonRead, h.clean, wordOf]

theorem slices_nodup (m : Mask) : (slicesOf m).Nodup := by
  unfold slicesOf; exact (List.nodup_range).filter _

theorem foldl_mset (f : Word → Word) : ∀ (cs : List Nat) (acc : List (Nat × Word)) (c : Nat), cs.Nodup →
    mget 0 (cs.foldl (fun acc c => mset 0 acc c (f (mget 0 acc c))) acc) c = if c ∈ cs then f (mget 0 acc c) else mget 0 acc c := by
  intro cs
  induction cs with
  | nil => intros; simp
  | cons k cs ih =>
    intro acc c hn
    simp only [List.foldl_cons]
    rw [ih _ _ (List.nodup_cons.mp hn).2]
    simp only [mget_mset]
    have := (List.nodup_cons.mp hn).1
    by_cases hk : k = c
    · subst hk; simp [this]
    · have hk' : c ≠ k := fun h => hk h.symm
      simp [hk, hk']

theorem sigOf_setSigs (g : Group) (m : Mask) (f : Word → Word) (c : Nat) :
    (setSigs g m f).sigOf c = if c ∈ slicesOf m then f (g.sigOf c) else g.sigOf c := by
  unfold setSigs Group.sigOf
  exact foldl_mset f _ _ _ (slices_nodup m)

/-- A word whose body only changes its group completes: the path goes on, the signatures run, nothing else changes. -/
theorem complete_group {i : Instr} {s : State} {gid pid : Nat} {g : Group} {p : Path} (h : Issues s gid pid g p) (hw : wellFormed i = true)
    (plan : Group → Path → Plan) (body : State → Ctx → Res) (F : Group → Group) (hp : planTrap g (plan g p) = none)
    (hb : body s ⟨gid, pid, g, p, wordOf i⟩ = .done (Ctx.onGroup ⟨gid, pid, g, p, wordOf i⟩ s F))
    (hF : (F g).paths = g.paths) (hs : (F g).sig = g.sig)
    (e : exec i s = issue i s plan body) :
    Completes i s gid pid g p fun h => h = { F g with sig := h.sig, paths := h.paths, stall := 0 } := by
  unfold Completes
  let x : Ctx := ⟨gid, pid, g, p, wordOf i⟩
  refine ⟨retire x (plan g p) (Ctx.onGroup x s F) (p.pc + 4) false, { setSigs (F g) p.mask (fun S => sigStep (wordOf i) S) with
      stall := 0
      paths := kupd (setSigs (F g) p.mask (fun S => sigStep (wordOf i) S)).paths pid fun q =>
        { q with pc := p.pc + 4, status := .run, waiting := false, icount := q.icount + 1
                 latch := latchPush g q (plan g p).hist
                 readFirst := if q.idem then rfAfter q (plan g p) else q.readFirst
                 written := orBlocks q.written (plan g p).writes } }, ?_, ?_, ?_, ?_, ?_⟩
  · rw [e, issue_eq h, issueBody_eq h hw plan body hp, hb]
    have hi : idemTrap p (plan g p) = false := by simp [idemTrap, h.noCheck]
    simp [finish, hi, Ctx.next, x]
  · refine ⟨?_, ?_, ?_⟩
    · simp [x, retire, Ctx.onGroup, h.group, State.setGroup]
      simp [State.group, kget_kset]
    · intro k hk
      simp [x, retire, Ctx.onGroup, h.group, State.group_setGroup, Ne.symm hk]
    · simp [x, retire, Ctx.onGroup, h.group, State.group_setGroup]
  · constructor
    · have hk : kget (F g).paths pid = some p := by rw [hF]; exact h.path
      simp [Group.path, kget_kupd, setSigs, hk]
    · intro k hk
      simp [Group.path, kget_kupd, setSigs, hF, Ne.symm hk]
  · intro c
    have := sigOf_setSigs (F g) p.mask (fun S => sigStep (wordOf i) S) c
    simp [Group.sigOf] at this ⊢
    rw [this, hs]
    rfl
  · simp [setSigs]

/-! ## Plans without a trap -/

theorem planTrap_none {g : Group} {pl : Plan} (hi : pl.illegal = false) (hp : pl.parted = true → g.parted = false)
    (hc : pl.converge = true → g.converged = true) (hr : ∀ r ∈ pl.regs, r.1 + r.2 ≤ g.views.vvcount.toNat)
    (ht : ∀ k ∈ pl.tiles, k < g.views.tvcount.toNat) : planTrap g pl = none := by
  unfold planTrap
  rw [if_neg (by simp [hi])]
  rw [if_neg (by cases h : pl.parted <;> simp; exact hp h)]
  rw [if_neg (by cases h : pl.converge <;> simp; exact hc h)]
  rw [if_neg]
  simp only [Bool.or_eq_true, List.any_eq_true, decide_eq_true_eq, not_or, not_exists, not_and, Nat.not_lt, Nat.not_le]
  exact ⟨hr, ht⟩

/-! ## Writing lanes of a row -/

theorem mget_writeLanes (m : Mask) : ∀ (vs : List Word) (l w : Nat) (r : List (Nat × Word)) (k : Nat),
    mget 0 (writeLanes m l w vs r) k =
      if w ≤ k ∧ k < w + vs.length ∧ bit m (l + (k - w)) = true then vs.getD (k - w) 0 else mget 0 r k := by
  intro vs
  induction vs with
  | nil =>
    intro l w r k
    have : ¬ (w ≤ k ∧ k < w + ([] : List Word).length ∧ bit m (l + (k - w)) = true) := by
      simp only [List.length_nil]; omega
    rw [if_neg this]; rfl
  | cons v vs ih =>
    intro l w r k
    simp only [writeLanes]
    rw [ih]
    by_cases hk : w = k
    · subst hk
      have h1 : ¬ (w + 1 ≤ w ∧ w < w + 1 + vs.length ∧ bit m (l + 1 + (w - (w + 1))) = true) := by omega
      rw [if_neg h1]
      have h2 : w ≤ w ∧ w < w + (v :: vs).length := by simp only [List.length_cons]; omega
      by_cases hb : bit m l = true
      · rw [if_pos hb, mget_mset, if_pos rfl, if_pos ⟨h2.1, h2.2, by simpa using hb⟩]
        simp
      · rw [if_neg hb, if_neg (by simpa using hb)]
    · have e : mget 0 (if bit m l = true then mset 0 r w v else r) k = mget 0 r k := by
        split
        · rw [mget_mset, if_neg hk]
        · rfl
      rw [e]
      by_cases hin : w + 1 ≤ k ∧ k < w + 1 + vs.length
      · have h3 : l + 1 + (k - (w + 1)) = l + (k - w) := by omega
        have h4 : k - w = (k - (w + 1)) + 1 := by omega
        have h5 : w ≤ k ∧ k < w + (v :: vs).length := by simp only [List.length_cons]; omega
        rw [h3]
        by_cases hb : bit m (l + (k - w)) = true
        · rw [if_pos ⟨hin.1, hin.2, hb⟩, if_pos ⟨h5.1, h5.2, hb⟩, h4, List.getD_cons_succ]
        · rw [if_neg (fun h => hb h.2.2), if_neg (fun h => hb h.2.2)]
      · have h5 : ¬ (w ≤ k ∧ k < w + (v :: vs).length) := by simp only [List.length_cons]; omega
        rw [if_neg (fun h => hin ⟨h.1, h.2.1⟩), if_neg (fun h => h5 ⟨h.1, h.2.1⟩)]

/-- A vector write in the lanes of `m` (R7, R10). -/
theorem rows_setV {g : Group} {d : VReg} {m : Mask} {vs : List Word} {f : Nat → Word} (hl : vs.length = 64)
    (hf : ∀ l, l < 64 → bit m l = true → vs.getD l 0 = f l) : Rows g (g.setV d m vs) d m f := by
  intro k
  cases d with
  | zero => rfl
  | reg n =>
    simp only [Group.setV, Group.setRow, mget_writeLanes, hl, Nat.zero_add]
    by_cases h : g.vaddr n.val / 4 ≤ k ∧ k < g.vaddr n.val / 4 + 64 ∧ bit m (k - g.vaddr n.val / 4) = true
    · rw [if_pos h, if_pos h]; exact hf _ (by omega) h.2.2
    · rw [if_neg h, if_neg h]

/-- Every instruction with a word issues: it has a plan of its operands and a body. -/
theorem exec_issue (i : Instr) (s : State) (h : isStep i = false) : ∃ plan body, exec i s = issue i s plan body := by
  cases i <;> first | exact ⟨_, _, rfl⟩ | exact absurd h (by intro hh; cases hh)

end Sys2Proof.Claims
end

