-- ==== Sys2Proof/Laws/Memory.lean ====
section
/-! SUPPORT. Laws of memory: the canonical form, a read after a write, and what writes at a place and by virtual address can
do (spec/15_package_memory.md). -/
namespace Sys2Proof.Machine

/-! ## The canonical form -/

theorem Memory.wf_nil : Memory.wf [] = true := rfl

theorem Memory.wf_store {m : List Host.Cell} {a : Nat} {bs : List Byte} (h : Memory.wf m = true) :
    Memory.wf (Memory.store m a bs) = true := mwf_msetList h

/-- A byte read after a store: inside the stored bytes the stored byte, elsewhere what was read before. -/
theorem Memory.byte_store {m : List Host.Cell} {a x : Nat} {bs : List Byte} :
    Memory.byte (Memory.store m a bs) x = if a ≤ x ∧ x < a + bs.length then bs.getD (x - a) 0 else Memory.byte m x :=
  mget_msetList

theorem Memory.bytes_store {m : List Host.Cell} {a : Nat} {bs : List Byte} :
    Memory.bytes (Memory.store m a bs) a bs.length = bs := mgetList_msetList

/-- Device, host and remote memory have their canonical form. -/
structure State.MemWf (s : State) : Prop where
  mem : Memory.wf s.mem = true
  host : Memory.wf s.hostMem = true
  remote : Memory.wf s.remMem = true

theorem State.reset_memWf : State.reset.MemWf := ⟨rfl, rfl, rfl⟩

/-- What a write of memory may do: it changes memory, its poison and the posted writes alone, and keeps the canonical form. -/
structure Stored (s t : State) : Prop where
  frame : t = { s with mem := t.mem, hostMem := t.hostMem, remMem := t.remMem, poison := t.poison, posts := t.posts }
  wf : s.MemWf → t.MemWf

theorem Stored.refl {s : State} : Stored s s := ⟨rfl, id⟩

theorem Stored.trans {s t u : State} (h : Stored s t) (k : Stored t u) : Stored s u :=
  ⟨by rw [k.frame, h.frame], fun w => k.wf (h.wf w)⟩

theorem stored_cells {s : State} {a : Nat} {bs : List Byte} : Stored s (s.cellStore a bs) :=
  ⟨rfl, fun h => ⟨Memory.wf_store h.mem, h.host, h.remote⟩⟩

theorem stored_cap {fuel : Nat} {s : State} {pa : Nat} {bs : List Byte} : Stored s (capStore s fuel pa bs) := by
  induction fuel generalizing s pa bs with
  | zero => exact .refl
  | succ n ih =>
    simp only [capStore]
    split
    · exact .refl
    · split
      · exact stored_cells.trans ih
      · exact ih

/-- A store at a physical address. -/
theorem stored_phys {s : State} {a : Nat} {bs : List Byte} : Stored s (s.physStore a bs) := by
  unfold State.physStore
  split
  · exact stored_cap
  · exact stored_cells

theorem stored_packed {s : State} {b n : Nat} {v : Bool} : Stored s (setBlockPacked s b n v) := stored_phys

theorem stored_slot {s : State} {t : PSlot} {bs : List Byte} : Stored s (slotStore s t bs) := stored_phys.trans stored_phys

theorem stored_out {s : State} {remote : Bool} {a : Nat} {bs : List Byte} : Stored s (outStore s remote a bs) := by
  unfold outStore
  split
  · exact ⟨rfl, fun h => ⟨h.mem, h.host, Memory.wf_store h.remote⟩⟩
  · exact ⟨rfl, fun h => ⟨h.mem, Memory.wf_store h.host, h.remote⟩⟩

theorem stored_land {s : State} {f : Post → Bool} : Stored s (landPosts s f) := by
  unfold landPosts
  have key : ∀ (ps : List Post) (t : State), Stored s t →
      Stored s (ps.foldl (fun s p => if !p.landed && f p then outStore s p.remote p.addr p.bytes else s) t) := by
    intro ps
    induction ps with
    | nil => exact fun _ h => h
    | cons p ps ih =>
      intro t h
      simp only [List.foldl_cons]
      apply ih
      split
      · exact h.trans stored_out
      · exact h
  exact key _ _ ⟨rfl, fun h => ⟨h.mem, h.host, h.remote⟩⟩

theorem stored_outWrite {s : State} {a : Nat} {remote : Bool} {bs : List Byte} : Stored s (outWrite s remote a bs) :=
  stored_land.trans stored_out

theorem stored_local {s t : State} {p : Place} {bs : List Byte} (e : writeLocal s p bs = .ok t) : Stored s t := by
  cases p with
  | mem pa =>
    simp only [writeLocal] at e
    split at e
    · cases e
    · cases e; exact stored_phys
  | host bus port =>
    simp only [writeLocal] at e
    split at e
    · cases e
    · cases e; exact stored_outWrite
  | peer node w off eng =>
    simp only [writeLocal] at e
    split at e
    · split at e
      · cases e; exact stored_outWrite
      · cases e
    · cases e
  | packed slot off bmap block =>
    simp only [writeLocal] at e
    split at e
    · cases e
    · split at e <;> (cases e; exact stored_slot.trans stored_packed)

theorem mapError_ok {α β γ : Type} {f : α → β} {x : Except α γ} {y : γ} (e : x.mapError f = .ok y) : x = .ok y := by
  cases x with
  | error _ => cases e
  | ok z => cases e; rfl

/-- A write at a place changes memory alone, and keeps its canonical form. -/
theorem stored_place {s t : State} {p : Place} {bs : List Byte} (e : writePlace s p bs = .ok t) : Stored s t := by
  cases p with
  | peer node w off eng =>
    simp only [writePlace] at e
    split at e
    · split at e
      · exact stored_local (mapError_ok e)
      · cases e
    · exact stored_local e
  | mem pa => simp only [writePlace] at e; exact stored_local e
  | host bus port => simp only [writePlace] at e; exact stored_local e
  | packed slot off bmap block => simp only [writePlace] at e; exact stored_local e

/-- Where nothing has been read before the rest, an access reads memory's bytes. -/
@[simp] theorem withTaken_nil (unit va : Nat) (bs : List Byte) : withTaken [] unit va bs = bs := rfl

/-- An address in HBM or in the capacity tier is memory to the range unit too. -/
theorem unitPlace_mem {s : State} {pa n : Nat} (h : pa / 2 ^ 48 < 2) : unitPlace s pa n = some (.mem pa) := by
  unfold unitPlace
  split
  · omega
  · omega
  · rfl

theorem unitWrite_mem {s : State} {pa : Nat} {bs : List Byte} (h : pa / 2 ^ 48 < 2) : s.unitWrite pa bs = s.physStore pa bs := by
  rw [State.unitWrite, unitPlace_mem h]

theorem unitRead_mem {s : State} {pa n : Nat} (h : pa / 2 ^ 48 < 2) : s.unitRead pa n = some (s.bytes pa n) := by
  rw [State.unitRead, unitPlace_mem h]

/-- What the range unit writes changes memory alone. -/
theorem stored_unitWrite {s : State} {a : Nat} {bs : List Byte} : Stored s (s.unitWrite a bs) := by
  unfold State.unitWrite
  split
  · exact .refl
  · exact stored_phys
  · rename_i p _ _
    cases e : writePlace s p bs with
    | error _ => exact .refl
    | ok t => exact stored_place e

theorem stored_unit {s t : State} {core asid va : Nat} {bs : List Byte} (e : writeUnit s core asid va bs = .ok t) : Stored s t := by
  unfold writeUnit at e
  cases h : translate s core asid va with
  | none => rw [h] at e; cases e
  | some d =>
    rw [h] at e
    simp only [writeIn] at e
    split at e
    · cases e
    · exact stored_place (mapError_ok e)

/-- A write by virtual address changes memory alone, and keeps its canonical form. -/
theorem stored_vwrite {s : State} {core asid va : Nat} {bs : List Byte} : Stored s (vwrite s core asid va bs).1 := by
  have key : ∀ fuel (s : State) va bs, Stored s (writeVa s core asid fuel va bs).1 := by
    intro fuel
    induction fuel with
    | zero => intros; exact .refl
    | succ n ih =>
      intro s va bs
      simp only [writeVa]
      split
      · exact .refl
      · split
        · exact .refl
        · rename_i hw; exact (stored_unit hw).trans (ih _ _ _)
  exact key _ s va bs

end Sys2Proof.Machine
end

