-- ==== Sys2Proof/Laws/Operands.lean ====
section
/-! SUPPORT. Laws of the operand forms: what a plan of sources and destinations asks for, and that a lanewise instruction over
readable operands completes with its results (spec/01 R10, R15, spec/05 R93). -/
namespace Sys2Proof.Claims
open Sys2Proof.Machine

theorem all_illegal (ps : List Plan) : (Plan.all ps).illegal = ps.any (·.illegal) := by
  induction ps with
  | nil => rfl
  | cons p ps ih => simp [Plan.all, Plan.and, ih]
theorem all_parted (ps : List Plan) : (Plan.all ps).parted = ps.any (·.parted) := by
  induction ps with
  | nil => rfl
  | cons p ps ih => simp [Plan.all, Plan.and, ih]
theorem all_converge (ps : List Plan) : (Plan.all ps).converge = ps.any (·.converge) := by
  induction ps with
  | nil => rfl
  | cons p ps ih => simp [Plan.all, Plan.and, ih]
theorem all_regs (ps : List Plan) : (Plan.all ps).regs = ps.flatMap (·.regs) := by
  induction ps with
  | nil => rfl
  | cons p ps ih => simp [Plan.all, Plan.and, ih]
theorem all_tiles (ps : List Plan) : (Plan.all ps).tiles = ps.flatMap (·.tiles) := by
  induction ps with
  | nil => rfl
  | cons p ps ih => simp [Plan.all, Plan.and, ih]

theorem planGuard_clean (g : Group) (p : Path) : (planGuard g p).illegal = false ∧ (planGuard g p).parted = false ∧ (planGuard g p).converge = false
    ∧ (planGuard g p).regs = [] ∧ (planGuard g p).tiles = [] := by
  unfold planGuard planPred; split <;> simp [Plan.none]

theorem planSrc_clean (g : Group) (p : Path) (m : Mask) (a : VSrc) : (planSrc g p m a).illegal = false ∧ (planSrc g p m a).parted = false
    ∧ (planSrc g p m a).converge = false ∧ (planSrc g p m a).tiles = [] := by
  cases a <;> simp [planSrc, Plan.none]
  split <;> simp
theorem planSrc_regs {g : Group} {p : Path} {m : Mask} {a : VSrc} (h : srcIn g a) : ∀ r ∈ (planSrc g p m a).regs, r.1 + r.2 ≤ g.views.vvcount.toNat := by
  cases a with
  | reg n => simp [planSrc, Plan.none]; simp [srcIn] at h; omega
  | latch k => simp only [planSrc]; split <;> simp [Plan.none]
  | lane => simp [planSrc, Plan.none]
  | zero => simp [planSrc, Plan.none]
theorem planU_clean (u : UReg) : (planU u).illegal = false ∧ (planU u).parted = false ∧ (planU u).converge = false ∧ (planU u).regs = [] ∧ (planU u).tiles = [] := by
  cases u <;> simp [planU, Plan.none]
theorem planDst_clean (g : Group) (m : Mask) (d : VReg) : (planDst g m d).illegal = false ∧ (planDst g m d).parted = false
    ∧ (planDst g m d).converge = false ∧ (planDst g m d).tiles = [] := by
  cases d <;> simp [planDst, planDstN, Plan.none]
theorem planDst_regs {g : Group} {m : Mask} {d : VReg} (h : dstIn g d) : ∀ r ∈ (planDst g m d).regs, r.1 + r.2 ≤ g.views.vvcount.toNat := by
  cases d with
  | reg n => simp [planDst, planDstN, Plan.none]; simp [dstIn] at h; omega
  | zero => simp [planDst, Plan.none]

theorem lanePlan_ok {g : Group} {p : Path} {ok : Word → Bool} {d : VReg} {srcs : List VSrc} {us : List UReg} (hok : ok g.mode = true)
    (hs : ∀ a ∈ srcs, srcIn g a) (hd : dstIn g d) : planTrap g (lanePlan ok d srcs us g p) = none := by
  apply planTrap_none
  · simp [lanePlan, all_illegal, planIllegal, hok, planGuard_clean, planDst_clean, planSrc_clean, planU_clean]
  · simp [lanePlan, all_parted, planIllegal, planGuard_clean, planDst_clean, planSrc_clean, planU_clean, Plan.none]
  · simp [lanePlan, all_converge, planIllegal, planGuard_clean, planDst_clean, planSrc_clean, planU_clean, Plan.none]
  · simp only [lanePlan, all_regs]
    simp only [List.flatMap_append, List.mem_append, List.flatMap_map, List.mem_flatMap]
    rintro r (((⟨a, ha, hr⟩ | ⟨a, ha, hr⟩) | ⟨a, ha, hr⟩) | ⟨a, ha, hr⟩)
    · simp only [List.mem_cons, List.not_mem_nil, or_false] at ha
      rcases ha with rfl | rfl
      · simp [planIllegal, Plan.none] at hr
      · simp [planGuard_clean] at hr
    · exact planSrc_regs (hs a ha) r hr
    · simp [planU_clean] at hr
    · simp only [List.mem_cons, List.not_mem_nil, or_false] at ha
      subst ha
      exact planDst_regs hd r hr
  · intro k hk
    simp only [lanePlan, all_tiles, List.flatMap_append, List.mem_append, List.flatMap_map, List.mem_flatMap] at hk
    simp [planIllegal, planGuard_clean, planDst_clean, planSrc_clean, planU_clean, Plan.none] at hk

/-- Everything a lanewise instruction does, where its operands are in view and its mode codes are legal. -/
theorem laneOp_completes {i : Instr} {ok d srcs us f} {s gid pid g p} (h : Issues s gid pid g p) (hw : wellFormed i = true) (hok : ok g.mode = true)
    (hs : ∀ a ∈ srcs, srcIn g a) (hd : dstIn g d) (e : exec i s = laneOp i s ok d srcs us f) :
    LanesComplete i s gid pid g p d (active g p) fun l => f g.mode (laneArgs g p srcs us l) := by
  let rs := laneMap (active g p) fun l => f g.mode (laneArgs g p srcs us l)
  have c := complete_group h hw (lanePlan ok d srcs us) (fun s x =>
    let rows := srcs.map (srcVals x.g x.p)
    let uv := us.map x.g.us
    let m := active x.g x.p
    .done (putLanes s x d m (laneMap m fun l => f x.g.mode (laneWords rows l ++ uv))))
    (fun g' => (g'.setV d (active g p) (rs.map (·.1))).noteSat (rs.any (·.2))) (lanePlan_ok hok hs hd) ?_ ?_ ?_ ?_
  · obtain ⟨t, h', h1, h2, h3, h4, h5⟩ := c
    refine ⟨t, h', h1, h2, h3, h4, ?_, ?_⟩
    · rw [h5]
      simp only [VectorFrame]
      have ha : rs.any (·.2) = anyLane (active g p) fun l => (f g.mode (laneArgs g p srcs us l)).2 := by
        simp only [rs, laneMap, anyLane, List.any_map]
        congr 1; funext l
        by_cases hb : bit (active g p) l = true <;> simp [hb]
      rw [ha]
      cases d <;> cases (anyLane (active g p) fun l => (f g.mode (laneArgs g p srcs us l)).2) <;>
        simp [Group.noteSat, Group.setFlag, Group.setV, Group.setRow, h.clean, cleanWords, flagSat]
    · have hr : Rows g (g.setV d (active g p) (rs.map (·.1))) d (active g p) fun l => (f g.mode (laneArgs g p srcs us l)).1 := by
        apply rows_setV
        · simp [rs, laneMap]
        · intro l hl hb
          simp [rs, laneMap, hl, hb]
      intro k
      rw [← hr k, h5]
      simp [Group.noteSat]
  · simp only [putLanes, laneWords, List.map_map, rs, laneArgs]
    rfl
  · simp [Group.noteSat]
  · simp [Group.noteSat]
  · rw [e]; rfl
/-- With no narrow FENCE open an access goes ahead of nothing. -/
@[simp] theorem passFences_nil (s : State) (gid : Nat) (g : Group) (m : Mask) (here : List Spot) (w : Bool) :
    passFences s gid g m here w [] = s := rfl

end Sys2Proof.Claims
end

