-- ==== Sys2Proof/Tests/Slice0.lean ====
section
/-! SUPPORT. Tests: what WellFormed refuses, words of spec/ decoded, single steps, and for every obligation a state and operands that
meet its hypotheses. -/
namespace Sys2Proof.Tests
set_option Elab.async false
open Sys2Proof Sys2Proof.Machine Sys2Proof.Claims

/-! ## WellFormed -/

/-- MODE writes half 0 or 1, and no reserved bit of the high half (R16). -/
theorem test_wf_mode : wellFormed (.mode 2 0) = false ∧ wellFormed (.mode 1 16) = false ∧ wellFormed (.mode 1 15) = true := by decide
/-- Conversion codes (R132 to R134). -/
theorem test_wf_codes : wellFormed (.cvt .zero .zero 6) = false ∧ wellFormed (.qnt .zero .zero 11) = false ∧
    wellFormed (.dqnt .zero .zero 17) = false ∧ wellFormed (.dqnt .zero .zero 16) = true := by decide
/-- BALLOT writes an even pair (R142). -/
theorem test_wf_ballot : wellFormed (.ballot 1 0) = false ∧ wellFormed (.ballot 190 0) = true := by decide
/-- Vector spans (R11). -/
theorem test_wf_vector_spans : wellFormed (.ldD 247 .plain 0 .zero) = false ∧ wellFormed (.ldQ 245 .plain 0 .zero) = false ∧
    wellFormed (.stD 247 .plain 0 .zero) = false ∧ wellFormed (.stQ 245 .plain 0 .zero) = false ∧ wellFormed (.stQ 244 .plain 0 .zero) = true ∧
    wellFormed (.atomCas 247 .rlx 0 .zero) = false ∧ wellFormed (.mma 0 247 .zero) = false ∧ wellFormed (.seek .zero 245 .zero) = false := by
  decide
/-- Uniform spans (R11). -/
theorem test_wf_uniform_spans : wellFormed (.ldu .zero 191 0) = false ∧ wellFormed (.copy 0 191 .zero) = false ∧
    wellFormed (.copyo 191 0 .zero) = false ∧ wellFormed (.publish 191) = false ∧ wellFormed (.launch 191) = false ∧
    wellFormed (.clock 191) = false ∧ wellFormed (.acst 191 0 .zero) = false ∧ wellFormed (.clock 190) = true ∧
    wellFormed (.npost .zero 190) = false ∧ wellFormed (.monset 0 187) = false ∧ wellFormed (.monrd 186 0 .ref) = false ∧
    wellFormed (.monrd 185 0 .ref) = true := by decide
/-- A wide WAITM names a pair (R207). -/
theorem test_wf_waitm : wellFormed (.waitm .eq true 0 .zero) = false ∧ wellFormed (.waitm .eq true 0 (.reg 191)) = false ∧
    wellFormed (.waitm .eq false 0 .zero) = true := by decide
/-- Bank counts (R224, R225) and barrier indices by scope (R209). -/
theorem test_wf_counts : wellFormed (.acalloc .zero 0) = false ∧ wellFormed (.acalloc .zero 17) = false ∧ wellFormed (.acfree 15 2) = false ∧
    wellFormed (.acfree 15 1) = true ∧ wellFormed (.bar 4 .group) = false ∧ wellFormed (.bara 16 .core) = false ∧
    wellFormed (.barw 8 .quad) = false ∧ wellFormed (.bar 4 .pod) = false ∧ wellFormed (.bar 15 .pkg) = true := by decide

/-! ## Decoding, by words put together from the fields of spec/'s tables -/

def decodesAll (l : List (Nat × Instr)) : Bool := l.all fun e => decide (decodeTableWord 32 e.1 = some e.2)

/-- Words of primaries 0x00 to 0x0F. -/
theorem test_decode_0 :
    decodesAll [
      (0x00000000, .nop),
      (0x00000201, .bra 2),
      (0xFFFFFD01, .bra 16777213),
      (0x0002BF02, .brz (.reg 191) 2),
      (0xFFFDFF02, .brz .zero 65533),
      (0x0002BF03, .brnz (.reg 191) 2),
      (0xFFFDFF03, .brnz .zero 65533),
      (0x00000204, .brd 2),
      (0xFFFFFD04, .brd 16777213),
      (0x00000205, .call 2),
      (0xFFFFFD05, .call 16777213),
      (0x00000006, .ret),
      (0x00000007, .regang),
      (0x00000008, .exit)] = true := by decide

/-- Words of primaries 0x10 to 0x1F. -/
theorem test_decode_1 :
    decodesAll [
      (0x06F9FF10, .iadd .zero (.latch 1) (.reg 6)),
      (0xFBF60510, .iadd (.reg 5) (.reg 246) .lane),
      (0x09F9FF11, .iaddS .zero (.latch 1) (.reg 9)),
      (0xBFF60511, .iaddS (.reg 5) (.reg 246) (.reg 191)),
      (0x06F9FF12, .isub .zero (.latch 1) (.reg 6)),
      (0xFBF60512, .isub (.reg 5) (.reg 246) .lane),
      (0x09F9FF13, .isubS .zero (.latch 1) (.reg 9)),
      (0xBFF60513, .isubS (.reg 5) (.reg 246) (.reg 191)),
      (0x06F9FF14, .imul .zero (.latch 1) (.reg 6)),
      (0xFBF60514, .imul (.reg 5) (.reg 246) .lane),
      (0x09F9FF15, .imulS .zero (.latch 1) (.reg 9)),
      (0xBFF60515, .imulS (.reg 5) (.reg 246) (.reg 191)),
      (0x06F9FF16, .imulh .zero (.latch 1) (.reg 6)),
      (0xFBF60516, .imulh (.reg 5) (.reg 246) .lane),
      (0x06F9FF17, .imad .zero (.latch 1) (.reg 6)),
      (0xFBF60517, .imad (.reg 5) (.reg 246) .lane),
      (0x06F9FF18, .imin .zero (.latch 1) (.reg 6)),
      (0xFBF60518, .imin (.reg 5) (.reg 246) .lane),
      (0x06F9FF19, .imax .zero (.latch 1) (.reg 6)),
      (0xFBF60519, .imax (.reg 5) (.reg 246) .lane),
      (0x06F9FF1A, .shl .zero (.latch 1) (.reg 6)),
      (0xFBF6051A, .shl (.reg 5) (.reg 246) .lane),
      (0x06F9FF1B, .shr .zero (.latch 1) (.reg 6)),
      (0xFBF6051B, .shr (.reg 5) (.reg 246) .lane),
      (0x06F9FF1C, .sra .zero (.latch 1) (.reg 6)),
      (0xFBF6051C, .sra (.reg 5) (.reg 246) .lane),
      (0x06F9FF1D, .rot .zero (.latch 1) (.reg 6)),
      (0xFBF6051D, .rot (.reg 5) (.reg 246) .lane),
      (0x06F9FF1E, .and .zero (.latch 1) (.reg 6)),
      (0xFBF6051E, .and (.reg 5) (.reg 246) .lane),
      (0x06F9FF1F, .or .zero (.latch 1) (.reg 6)),
      (0xFBF6051F, .or (.reg 5) (.reg 246) .lane)] = true := by decide

/-- Words of primaries 0x20 to 0x2F. -/
theorem test_decode_2 :
    decodesAll [
      (0x06F9FF20, .xor .zero (.latch 1) (.reg 6)),
      (0xFBF60520, .xor (.reg 5) (.reg 246) .lane),
      (0x06F9FF21, .andn .zero (.latch 1) (.reg 6)),
      (0xFBF60521, .andn (.reg 5) (.reg 246) .lane),
      (0x06F9FF22, .sel .zero (.latch 1) (.reg 6)),
      (0xFBF60522, .sel (.reg 5) (.reg 246) .lane),
      (0x06F91F23, .icmp 7 .le (.latch 1) (.reg 6)),
      (0xFBF62323, .icmp 3 .gt (.reg 246) .lane),
      (0x09F91F24, .icmpS 7 .le (.latch 1) (.reg 9)),
      (0xBFF62324, .icmpS 3 .gt (.reg 246) (.reg 191)),
      (0x02F9FF25, .lea .zero (.latch 1) 2),
      (0x1DF60525, .lea (.reg 5) (.reg 246) 29),
      (0x06F9FF26, .bfx .zero (.latch 1) (.reg 6)),
      (0xFBF60526, .bfx (.reg 5) (.reg 246) .lane),
      (0x06F9FF27, .bfi .zero (.latch 1) (.reg 6)),
      (0xFBF60527, .bfi (.reg 5) (.reg 246) .lane),
      (0x0006F728, .iabs (.reg 247) (.reg 6)),
      (0x00FBFF28, .iabs .zero .lane),
      (0x0106F728, .ineg (.reg 247) (.reg 6)),
      (0x01FBFF28, .ineg .zero .lane),
      (0x0206F728, .clz (.reg 247) (.reg 6)),
      (0x02FBFF28, .clz .zero .lane),
      (0x0306F728, .popc (.reg 247) (.reg 6)),
      (0x03FBFF28, .popc .zero .lane),
      (0x0406F728, .brev (.reg 247) (.reg 6)),
      (0x04FBFF28, .brev .zero .lane),
      (0x0002F729, .iaddi (.reg 247) 2),
      (0xFFFDFF29, .iaddi .zero 65533),
      (0x0002F72A, .lli (.reg 247) 2),
      (0xFFFDFF2A, .lli .zero 65533),
      (0x0002F72B, .lui (.reg 247) 2),
      (0xFFFDFF2B, .lui .zero 65533),
      (0x0006F72C, .movv (.reg 247) (.reg 6)),
      (0x00FBFF2C, .movv .zero .lane),
      (0x06F9FF2D, .movi .zero (.latch 1) (.reg 6)),
      (0xFBF6052D, .movi (.reg 5) (.reg 246) .lane),
      (0x06F9FB2E, .moviw .lane (.latch 1) (.reg 6)),
      (0xFBF6FF2E, .moviw .zero (.reg 246) .lane)] = true := by decide

/-- Words of primaries 0x30 to 0x3F. -/
theorem test_decode_3 :
    decodesAll [
      (0x09BFFF30, .sadd .zero (.reg 191) (.reg 9)),
      (0xBFFF0930, .sadd (.reg 9) .zero (.reg 191)),
      (0x09BFFF31, .ssub .zero (.reg 191) (.reg 9)),
      (0xBFFF0931, .ssub (.reg 9) .zero (.reg 191)),
      (0x09BFFF32, .smul .zero (.reg 191) (.reg 9)),
      (0xBFFF0932, .smul (.reg 9) .zero (.reg 191)),
      (0x09BFFF33, .sand .zero (.reg 191) (.reg 9)),
      (0xBFFF0933, .sand (.reg 9) .zero (.reg 191)),
      (0x09BFFF34, .sor .zero (.reg 191) (.reg 9)),
      (0xBFFF0934, .sor (.reg 9) .zero (.reg 191)),
      (0x09BFFF35, .sxor .zero (.reg 191) (.reg 9)),
      (0xBFFF0935, .sxor (.reg 9) .zero (.reg 191)),
      (0x09BFFF36, .sshl .zero (.reg 191) (.reg 9)),
      (0xBFFF0936, .sshl (.reg 9) .zero (.reg 191)),
      (0x09BFFF37, .sshr .zero (.reg 191) (.reg 9)),
      (0xBFFF0937, .sshr (.reg 9) .zero (.reg 191)),
      (0x09BF7D38, .scmp 29 .le (.reg 191) (.reg 9)),
      (0xBFFF8238, .scmp 2 .ltu .zero (.reg 191)),
      (0x0009BF39, .smov (.reg 191) (.reg 9)),
      (0x00BFFF39, .smov .zero (.reg 191)),
      (0x0002BF3A, .sli (.reg 191) 2),
      (0xFFFDFF3A, .sli .zero 65533),
      (0x0002BF3B, .slui (.reg 191) 2),
      (0xFFFDFF3B, .slui .zero 65533),
      (0x0002BF3C, .srd (.reg 191) 2),
      (0xFFFDFF3C, .srd .zero 65533),
      (0x0002BF3D, .swr (.reg 191) 2),
      (0xFFFDFF3D, .swr .zero 65533),
      (0x02F7FF3E, .v2s .zero (.reg 247) 2),
      (0x3DFF093E, .v2s (.reg 9) .zero 61),
      (0x0009F73F, .s2v (.reg 247) (.reg 9)),
      (0x00BFFF3F, .s2v .zero (.reg 191))] = true := by decide

/-- Words of primaries 0x40 to 0x4F. -/
theorem test_decode_4 :
    decodesAll [
      (0x03070340, .pand 3 7 3),
      (0x07030740, .pand 7 3 7),
      (0x03070341, .por 3 7 3),
      (0x07030741, .por 7 3 7),
      (0x03070342, .pxor 3 7 3),
      (0x07030742, .pxor 7 3 7),
      (0x00030743, .pnot 7 3),
      (0x00070343, .pnot 3 7),
      (0x0107FF44, .p2s .zero 7 true),
      (0x00030944, .p2s (.reg 9) 3 false),
      (0x01BF0345, .s2p 3 (.reg 191) true),
      (0x00FF0745, .s2p 7 .zero false),
      (0x0002FD46, .mode 253 2),
      (0xFFFD0246, .mode 2 65533),
      (0x01BFFF47, .view .zero (.reg 191) .tv),
      (0x02FF0947, .view (.reg 9) .zero .av),
      (0x00020048, .region 2),
      (0xFFFD0048, .region 65533),
      (0x00020049, .sigchk 2),
      (0xFFFD0049, .sigchk 65533),
      (0x0BD0BD4A, .wait 61 2 61 2),
      (0xF42F424A, .wait 2 61 2 61)] = true := by decide

/-- Words of primaries 0x50 to 0x5F. -/
theorem test_decode_5 :
    decodesAll [
      (0x06F9FF50, .fadd .zero (.latch 1) (.reg 6)),
      (0xFBF60550, .fadd (.reg 5) (.reg 246) .lane),
      (0x09F9FF51, .faddS .zero (.latch 1) (.reg 9)),
      (0xBFF60551, .faddS (.reg 5) (.reg 246) (.reg 191)),
      (0x06F9FF52, .fsub .zero (.latch 1) (.reg 6)),
      (0xFBF60552, .fsub (.reg 5) (.reg 246) .lane),
      (0x06F9FF53, .fmul .zero (.latch 1) (.reg 6)),
      (0xFBF60553, .fmul (.reg 5) (.reg 246) .lane),
      (0x09F9FF54, .fmulS .zero (.latch 1) (.reg 9)),
      (0xBFF60554, .fmulS (.reg 5) (.reg 246) (.reg 191)),
      (0x06F9FF55, .ffma .zero (.latch 1) (.reg 6)),
      (0xFBF60555, .ffma (.reg 5) (.reg 246) .lane),
      (0x06F9FF56, .fmin .zero (.latch 1) (.reg 6)),
      (0xFBF60556, .fmin (.reg 5) (.reg 246) .lane),
      (0x06F9FF57, .fmax .zero (.latch 1) (.reg 6)),
      (0xFBF60557, .fmax (.reg 5) (.reg 246) .lane),
      (0x06F91F58, .fcmp 7 .le (.latch 1) (.reg 6)),
      (0xFBF62358, .fcmp 3 .gt (.reg 246) .lane),
      (0x0006F759, .fneg (.reg 247) (.reg 6)),
      (0x00FBFF59, .fneg .zero .lane),
      (0x0106F759, .fabs (.reg 247) (.reg 6)),
      (0x01FBFF59, .fabs .zero .lane),
      (0x0206F759, .fclass (.reg 247) (.reg 6)),
      (0x02FBFF59, .fclass .zero .lane),
      (0x0306F759, .frcp (.reg 247) (.reg 6)),
      (0x03FBFF59, .frcp .zero .lane),
      (0x0406F759, .frsq (.reg 247) (.reg 6)),
      (0x04FBFF59, .frsq .zero .lane),
      (0x0506F759, .fsqrt (.reg 247) (.reg 6)),
      (0x05FBFF59, .fsqrt .zero .lane),
      (0x0606F759, .fex2 (.reg 247) (.reg 6)),
      (0x06FBFF59, .fex2 .zero .lane),
      (0x0706F759, .flg2 (.reg 247) (.reg 6)),
      (0x07FBFF59, .flg2 .zero .lane),
      (0x02F9FF5A, .cvt .zero (.latch 1) 2),
      (0x1DF6055A, .cvt (.reg 5) (.reg 246) 29),
      (0x02F9FF5B, .qnt .zero (.latch 1) 2),
      (0x1DF6055B, .qnt (.reg 5) (.reg 246) 29),
      (0x02F9FF5C, .dqnt .zero (.latch 1) 2),
      (0x1DF6055C, .dqnt (.reg 5) (.reg 246) 29),
      (0x06F9FF5D, .pack .zero (.latch 1) (.reg 6)),
      (0xFBF6055D, .pack (.reg 5) (.reg 246) .lane),
      (0x02F9FF5E, .unpack .zero (.latch 1) 2),
      (0x05F6055E, .unpack (.reg 5) (.reg 246) 5),
      (0x06F9FF5F, .p16add .zero (.latch 1) (.reg 6)),
      (0xFBF6055F, .p16add (.reg 5) (.reg 246) .lane)] = true := by decide

/-- Words of primaries 0x60 to 0x6F. -/
theorem test_decode_6 :
    decodesAll [
      (0x06F9FF60, .p16sub .zero (.latch 1) (.reg 6)),
      (0xFBF60560, .p16sub (.reg 5) (.reg 246) .lane),
      (0x06F9FF61, .p16mac .zero (.latch 1) (.reg 6)),
      (0xFBF60561, .p16mac (.reg 5) (.reg 246) .lane),
      (0x1DFB0562, .p16shr (.reg 5) .lane 13 true),
      (0x02FFF762, .p16shr (.reg 247) .zero 2 false),
      (0x06F9FF63, .p32sat .zero (.latch 1) (.reg 6)),
      (0xFBF60563, .p32sat (.reg 5) (.reg 246) .lane)] = true := by decide

/-- Words of primaries 0x70 to 0x7F. -/
theorem test_decode_7 :
    decodesAll [
      (0x06F9FF70, .shfl .zero (.latch 1) (.reg 6)),
      (0xFBF60570, .shfl (.reg 5) (.reg 246) .lane),
      (0x02F9FF71, .slideup .zero (.latch 1) 2),
      (0x3DF60571, .slideup (.reg 5) (.reg 246) 61),
      (0x02F9FF72, .slidedn .zero (.latch 1) 2),
      (0x3DF60572, .slidedn (.reg 5) (.reg 246) 61),
      (0x02F9FF73, .bcast .zero (.latch 1) 2),
      (0x3DF60573, .bcast (.reg 5) (.reg 246) 61),
      (0x01070374, .vote 3 7 .all),
      (0x02030774, .vote 7 3 .eq),
      (0x0003BA75, .ballot 186 3),
      (0x00070375, .ballot 3 7),
      (0x01F9FF76, .reduce .zero (.latch 1) .min),
      (0x02F60576, .reduce (.reg 5) (.reg 246) .max),
      (0x0AFB0577, .scan (.reg 5) .lane .max true),
      (0x03FFF777, .scan (.reg 247) .zero .and false)] = true := by decide

/-- Words of primaries 0x80 to 0x8F. -/
theorem test_decode_8 :
    decodesAll [
      (0x06820580, .ldB (.reg 5) .acq 2 (.reg 6)),
      (0xFB3DF780, .ldB (.reg 247) .plain 61 .lane),
      (0x06820581, .ldH (.reg 5) .acq 2 (.reg 6)),
      (0xFB3DF781, .ldH (.reg 247) .plain 61 .lane),
      (0x06820582, .ld (.reg 5) .acq 2 (.reg 6)),
      (0xFB3DF782, .ld (.reg 247) .plain 61 .lane),
      (0x0682F283, .ldD 242 .acq 2 (.reg 6)),
      (0xFB3D0383, .ldD 3 .plain 61 .lane),
      (0x0682F284, .ldQ 242 .acq 2 (.reg 6)),
      (0xFB3D0384, .ldQ 3 .plain 61 .lane),
      (0x0682F685, .stB (.reg 246) .rel 2 (.reg 6)),
      (0xFB3D0685, .stB (.reg 6) .plain 61 .lane),
      (0x0682F686, .stH (.reg 246) .rel 2 (.reg 6)),
      (0xFB3D0686, .stH (.reg 6) .plain 61 .lane),
      (0x0682F687, .st (.reg 246) .rel 2 (.reg 6)),
      (0xFB3D0687, .st (.reg 6) .plain 61 .lane),
      (0x0682F288, .stD 242 .rel 2 (.reg 6)),
      (0xFB3D0388, .stD 3 .plain 61 .lane),
      (0x0682F289, .stQ 242 .rel 2 (.reg 6)),
      (0xFB3D0389, .stQ 3 .plain 61 .lane),
      (0x0602058A, .ldg (.reg 5) .plain 2 (.reg 6)),
      (0xFB7DF78A, .ldg (.reg 247) .rlx 61 .lane),
      (0x0602F28B, .ldgD 242 .plain 2 (.reg 6)),
      (0xFB7D038B, .ldgD 3 .rlx 61 .lane),
      (0x0602F68C, .sts (.reg 246) .plain 2 (.reg 6)),
      (0xFB7D068C, .sts (.reg 6) .rlx 61 .lane),
      (0x0602F28D, .stsD 242 .plain 2 (.reg 6)),
      (0xFB7D038D, .stsD 3 .rlx 61 .lane),
      (0x02BAFF8E, .ldu .zero 186 2),
      (0xFD03098E, .ldu (.reg 9) 3 253),
      (0x02BAFF8F, .stu .zero 186 2),
      (0xFD03098F, .stu (.reg 9) 3 253)] = true := by decide

/-- Words of primaries 0x90 to 0x9F. -/
theorem test_decode_9 :
    decodesAll [
      (0x06820590, .atomAdd (.reg 5) .rel 2 (.reg 6)),
      (0xFBFDF790, .atomAdd (.reg 247) .ar 61 .lane),
      (0x06820591, .atomMin (.reg 5) .rel 2 (.reg 6)),
      (0xFBFDF791, .atomMin (.reg 247) .ar 61 .lane),
      (0x06820592, .atomMax (.reg 5) .rel 2 (.reg 6)),
      (0xFBFDF792, .atomMax (.reg 247) .ar 61 .lane),
      (0x06820593, .atomAnd (.reg 5) .rel 2 (.reg 6)),
      (0xFBFDF793, .atomAnd (.reg 247) .ar 61 .lane),
      (0x06820594, .atomOr (.reg 5) .rel 2 (.reg 6)),
      (0xFBFDF794, .atomOr (.reg 247) .ar 61 .lane),
      (0x06820595, .atomXor (.reg 5) .rel 2 (.reg 6)),
      (0xFBFDF795, .atomXor (.reg 247) .ar 61 .lane),
      (0x06820596, .atomExch (.reg 5) .rel 2 (.reg 6)),
      (0xFBFDF796, .atomExch (.reg 247) .ar 61 .lane),
      (0x0682F297, .atomCas 242 .rel 2 (.reg 6)),
      (0xFBFD0397, .atomCas 3 .ar 61 .lane),
      (0x06820598, .atomFadd (.reg 5) .rel 2 (.reg 6)),
      (0xFBFDF798, .atomFadd (.reg 247) .ar 61 .lane),
      (0x09000099, .fence .acq (.at .quad)),
      (0x23000099, .fence .ar .sys),
      (0x01BA009A, .rpref 186 true),
      (0x0003009A, .rpref 3 false),
      (0x09BA0C9B, .waitm .ltu true 186 (.reg 9)),
      (0xBF03059B, .waitm .leu false 3 (.reg 191))] = true := by decide

/-- Words of primaries 0xA0 to 0xAF. -/
theorem test_decode_A :
    decodesAll [
      (0x06BAFFA0, .spld .zero 186 (.reg 6)),
      (0xFB0305A0, .spld (.reg 5) 3 .lane),
      (0x06BAFBA1, .spst .lane 186 (.reg 6)),
      (0xFB03FFA1, .spst .zero 3 .lane),
      (0x000003A2, .tclaim 3),
      (0x0000BAA2, .tclaim 186),
      (0x000003A3, .trel 3),
      (0x0000BAA3, .trel 186),
      (0x0003BFA4, .tstat (.reg 191) 3),
      (0x00BAFFA4, .tstat .zero 186),
      (0x09BA03A5, .copy 3 186 (.reg 9)),
      (0xBF03BAA5, .copy 186 3 (.reg 191)),
      (0x09BA03A6, .copyg 3 186 (.reg 9)),
      (0xBF03BAA6, .copyg 186 3 (.reg 191)),
      (0x09BA03A7, .copyo 3 186 (.reg 9)),
      (0xBF03BAA7, .copyo 186 3 (.reg 191)),
      (0x09BAFFA8, .copyw .zero 186 (.reg 9)),
      (0xBF0309A8, .copyw (.reg 9) 3 (.reg 191)),
      (0x000300A9, .publish 3),
      (0x00BA00A9, .publish 186),
      (0x000000AA, .spfence)] = true := by decide

/-- Words of primaries 0xB0 to 0xBF. -/
theorem test_decode_B :
    decodesAll [
      (0x0200BFB0, .acalloc (.reg 191) 2),
      (0xFD00FFB0, .acalloc .zero 253),
      (0x02000AB1, .acfree 10 2),
      (0xFD0003B1, .acfree 3 253),
      (0x000003B2, .aczero 3),
      (0x00000AB2, .aczero 10),
      (0x06F203B3, .mma 3 242 (.reg 6)),
      (0xFB030AB3, .mma 10 3 .lane),
      (0x06F203B4, .mmap 3 242 (.reg 6)),
      (0xFB030AB4, .mmap 10 3 .lane),
      (0x06F203B5, .mmaq 3 242 (.reg 6)),
      (0xFB030AB5, .mmaq 10 3 .lane),
      (0x06F203B6, .mmaw 3 242 (.reg 6)),
      (0xFB030AB6, .mmaw 10 3 .lane),
      (0x000009B7, .mfence (.reg 9)),
      (0x0000BFB7, .mfence (.reg 191)),
      (0x000900B8, .waitb (.reg 9)),
      (0x00BF00B8, .waitb (.reg 191)),
      (0x060A03B9, .acld 3 10 (.reg 6)),
      (0xFB03F2B9, .acld 242 3 .lane),
      (0x060A03BA, .acst 3 10 (.reg 6)),
      (0xFB03BABA, .acst 186 3 .lane),
      (0x09F2FFBB, .seek .zero 242 (.reg 9)),
      (0xBF0305BB, .seek (.reg 5) 3 (.reg 191)),
      (0x09F203BC, .seedx 3 242 (.reg 9)),
      (0xBF03F2BC, .seedx 242 3 (.reg 191)),
      (0x01F203BD, .ttrans 3 242 .b2),
      (0x0203F2BD, .ttrans 242 3 .b4)] = true := by decide

/-- Words of primaries 0xC0 to 0xCF. -/
theorem test_decode_C :
    decodesAll [
      (0x06BFFFC0, .sprd .zero (.reg 191) (.reg 6)),
      (0xFBFF05C0, .sprd (.reg 5) .zero .lane),
      (0x0009BAC1, .qpub 186 (.reg 9)),
      (0x00BF03C1, .qpub 3 (.reg 191)),
      (0x0100BFC2, .qmap (.reg 191) true),
      (0x0000FFC2, .qmap .zero false),
      (0x000003C3, .chainw 3),
      (0x0000BAC3, .chainw 186),
      (0x000300C8, .launch 3),
      (0x00BA00C8, .launch 186),
      (0x000307C9, .launcht 7 3),
      (0x00BA03C9, .launcht 3 186),
      (0x000000CA, .yield),
      (0x0100FDCB, .bar 253 .core),
      (0x020002CB, .bar 2 .quad),
      (0x0100FDCC, .bara 253 .core),
      (0x020002CC, .bara 2 .quad),
      (0x0100FDCD, .barw 253 .core),
      (0x020002CD, .barw 2 .quad)] = true := by decide

/-- Words of primaries 0xD0 to 0xDF. -/
theorem test_decode_D :
    decodesAll [
      (0x000200D0, .trap 2),
      (0xFFFD00D0, .trap 65533),
      (0x000000D1, .resume),
      (0x000000D2, .abort),
      (0x000003D3, .clock 3),
      (0x0000BAD3, .clock 186),
      (0x000301D4, .monset 1 3),
      (0x00BA02D4, .monset 2 186),
      (0x000301D5, .monref 1 3),
      (0x00BA02D5, .monref 2 186),
      (0x010002D5, .monrefLast 2),
      (0x010001D5, .monrefLast 1),
      (0x010103D6, .monrd 3 1 .total),
      (0x0202BAD6, .monrd 186 2 .ref),
      (0x000002D7, .monclr 2),
      (0x000001D7, .monclr 1)] = true := by decide

/-- Words of primaries 0xE0 to 0xEF. -/
theorem test_decode_E :
    decodesAll [
      (0x0003BFE0, .npost (.reg 191) 3),
      (0x00BAFFE0, .npost .zero 186),
      (0x0009BFE1, .nwait (.reg 191) (.reg 9)),
      (0x00BFFFE1, .nwait .zero (.reg 191)),
      (0x0009BFE2, .ncnt (.reg 191) (.reg 9)),
      (0x00BFFFE2, .ncnt .zero (.reg 191)),
      (0x0009BFE3, .nqstat (.reg 191) (.reg 9)),
      (0x00BFFFE3, .nqstat .zero (.reg 191))] = true := by decide

/-- Reserved words are refused: a nonzero field of NOP, a primary without a row, the vector register 248 as a destination. -/
theorem test_decode_refuses : decodeTableWord 32 0x00000100 = none ∧ decodeTableWord 32 0x000000FF = none ∧
    decodeTableWord 32 0x0000F810 = none := by decide

/-! ## States for single steps -/

def reg0 : Region :=
  { pc := 0, regidx := 0xFFFF, mask := allLanes, sigs := [], depths := [], mode := 0, views := ⟨0, 248, 0, 4096, 15, 0x100000⟩, spill := 0
    sa := 0, sb := 0 }
def p0 : Path := freshPath 0 allLanes 0 .none reg0 0
def g0 : Group := placedGroup
/-- The group `g` is number 0, and its path 0 issues. -/
def withGroup (s : State) (g : Group) : State := { s with cur := some (0, 0), groups := [(0, g)] }
def st (g : Group) : State := withGroup State.reset g
/-- `g` in mode `m`. -/
def inMode (g : Group) (m : Word) : Group := { g with mode := m }
/-- One range of 64 KiB, at virtual address 0 and physical address 0x100000, with attributes `attr`, state `state`, and the physical
bases and control byte given. -/
def descAt (attr state ctl pbase pbase2 : Nat) : Desc := ⟨0, 0x10000, pbase, attr, state, ctl, 0, pbase2, 0, 0⟩
/-- Tables of address space 0, tenant 0, with that one range. -/
def tables (d : Desc) : State :=
  let m := Memory.store [] 0x10000 (leBytes 8 0x20000 ++ leBytes 4 1 ++ leBytes 4 1 ++ leBytes 8 0x30000)
  let m := Memory.store m 0x30000 (leBytes 4 4096)
  { State.reset with mem := Memory.store m 0x20000 (bytesOfDesc d), asidtb := mset 0 [] 0 0x10000, asidMap := mset 255 [] 0 0 }
/-- Plain memory, read and written. -/
def ram : State := tables (descAt 3 0 0 0x100000 0)
/-- `s` with bytes stored. -/
def poke (s : State) (a : Nat) (b : List Byte) : State := { s with mem := Memory.store s.mem a b }

theorem ok_of {ε α : Type} {e : Except ε α} {x : α} (h : e.toOption = some x) : e = .ok x := by
  cases e with
  | ok y => simpa [Except.toOption] using h
  | error y => simp [Except.toOption] at h

def errOf {ε α : Type} : Except ε α → Option ε
  | .error e => some e
  | .ok _ => none

theorem err_of {ε α : Type} {e : Except ε α} {x : ε} (h : errOf e = some x) : e = .error x := by
  cases e with
  | ok y => simp [errOf] at h
  | error y => simpa [errOf] using h

def allOk (m : Mask) (f : Nat → Except MErr Unit) : Bool := (lanesOf m).all fun l => (f l).toOption.isSome

theorem lanes_ok {m : Mask} {f : Nat → Except MErr Unit} (h : allOk m f = true) : ∀ l ∈ lanesOf m, f l = .ok () := by
  intro l hl
  have := List.all_eq_true.mp h l hl
  cases hf : f l with
  | ok u => rfl
  | error e => simp [hf, Except.toOption] at this

theorem reset_inv : State.reset.memOk := by unfold State.memOk; decide
theorem placed_inv : (State.reset.withFetchWord 32 0).memOk := by unfold State.memOk; decide +kernel

/-! ## What the obligations assume, met: words, steps, lanes -/

/-- `0x4B` is a primary without a row. -/
theorem witness_RunsDecoded :
    let s := State.reset.withFetchWord 32 0x000605E1
    ∃ u, Taken s (.issue 0 0) u ∧ Moves u 0 0 g0 p0 ∧ fetchWord u 0 0 0 = .ok 0x000605E1 ∧
      decode 0x000605E1 = .ok (.nwait (.reg 5) (.reg 6)) :=
  ⟨_, ⟨[], rfl, rfl⟩, by refine ⟨?_, ?_, ?_, ?_⟩ <;> decide, ok_of (by decide +kernel), rfl⟩
theorem witness_IllegalTraps_word :
    let s := State.reset.withFetchWord 32 0x000000FF
    ∃ u e, Taken s (.issue 0 0) u ∧ Moves u 0 0 g0 p0 ∧ fetchWord u 0 0 0 = .ok 0x000000FF ∧ decode 0x000000FF = .error e ∧
      g0.stopping = none ∧
      g0.pending = [] ∧ p0.entryDue = none :=
  ⟨_, _, ⟨[], rfl, rfl⟩, by refine ⟨?_, ?_, ?_, ?_⟩ <;> decide, ok_of (by decide +kernel), rfl, rfl, rfl, rfl⟩
theorem issues_g0 : Issues (st g0) 0 0 g0 p0 := by constructor <;> decide
theorem witness_IllegalTraps_form : encode (.ballot 1 0) = some 0x00000175 ∧ wellFormed (.ballot 1 0) = false ∧ Issues (st g0) 0 0 g0 p0 := by
  refine ⟨?_, ?_, issues_g0⟩ <;> decide
theorem witness_IllegalTraps_fetch :
    let g := { g0 with paths := [(0, { p0 with pc := 256 })] }
    let s := { (State.reset.withFetchWord 32 0) with groups := [(0, g)] }
    ∃ u, Taken s (.issue 0 0) u ∧ Moves u 0 0 g { p0 with pc := 256 } ∧ fetchWord u 0 0 256 = .error (.trap 0x07) ∧ (0x07 : Nat) ≠ 0x0C :=
  ⟨_, ⟨[], rfl, rfl⟩, by refine ⟨?_, ?_, ?_, ?_⟩ <;> decide, err_of (by decide +kernel), by decide⟩
theorem witness_RunsEvents : (∃ s u, Taken s (.event .warmReset) u ∧ isStep .warmReset = true) ∧ State.reset.agenda = [] :=
  ⟨⟨{ State.reset with agenda := [.event .warmReset] }, State.reset, ⟨[], rfl, rfl⟩, rfl⟩, rfl⟩
theorem witness_StepKeepsMemoryForm : State.reset.memOk ∧ step State.reset = .next State.reset := ⟨reset_inv, rfl⟩
theorem witness_LaneUniformMoves : Issues (st g0) 0 0 g0 p0 ∧ g0.parted = false ∧ dstIn g0 (.reg 247) ∧
    (fOp 0x4000003E = 0x3E ∧ 64 ≤ (fB 0x4000003E).toNat) ∧ (fOp 0x00F8003E = 0x3E ∧ (fA 0x00F8003E).toNat = 248) ∧
    (fOp 0x00FE003E = 0x3E ∧ (fA 0x00FE003E).toNat = 254) ∧ fOp 0x0100003F = 0x3F ∧ fB 0x0100003F ≠ 0 :=
  ⟨issues_g0, rfl, by change 247 < 248; decide, by decide⟩
/-- Modes I32 with saturation, float32, and float32 to a reserved rounding code. -/
theorem witness_LaneIntegerCompletes :
    IntegerLane (.iadd (.reg 247) (.reg 0) .lane) okInt (.reg 247) [.reg 0, .lane] [] (fun m => satOp m (· + ·)) ∧
    Issues (st (inMode g0 0x1000)) 0 0 (inMode g0 0x1000) p0 ∧ wellFormed (.iadd (.reg 247) (.reg 0) .lane) = true ∧ okInt 0x1000 = true ∧
    okAny 0xFFFF = true ∧ (∀ a ∈ [VSrc.reg 247, .lane, .zero, .latch 3], srcIn (inMode g0 0x1000) a) ∧ dstIn (inMode g0 0x1000) (.reg 247) ∧
    dstIn (inMode g0 0x1000) .zero :=
  ⟨.iadd _ _ _, by constructor <;> decide, by decide, by decide, by decide, by
    intro a ha
    simp only [List.mem_cons, List.not_mem_nil, or_false] at ha
    rcases ha with h | h | h | h <;> subst h <;> first | trivial | (change 247 < 248; decide), by change 247 < 248; decide, trivial⟩
theorem witness_LaneFloatCompletes :
    Issues (st (inMode g0 0x80)) 0 0 (inMode g0 0x80) p0 ∧ okFloatR 0x80 = true ∧ okFloat 0xA80 = true ∧ okFloatR 0xA80 = false ∧
    okCvt 0x80 = true ∧ okP16 0 = true ∧ wellFormed (.cvt .zero .zero 15) = true :=
  ⟨by constructor <;> decide, by decide⟩
theorem witness_PathLanesComplete : PathLane (.sel (.reg 0) .lane (.reg 247)) (.reg 0) [.lane, .reg 247] (fun g p l =>
      if bit (guardMask g) l then (srcVals g p .lane).getD l 0 else (srcVals g p (.reg 247)).getD l 0) ∧
    Issues (st g0) 0 0 g0 p0 ∧ srcIn g0 (.reg 247) ∧ dstIn g0 (.reg 247) :=
  ⟨.sel _ _ _, issues_g0, by change 247 < 248; decide, by change 247 < 248; decide⟩
/-- The guard of the group `g`: register space, then the block conversions' modes. -/
theorem witness_BlockConversionsComplete :
    (okQnt 0x80 = true ∧ wellFormed (.qnt (.reg 0) (.reg 0) 16) = true) ∧ (okRound 0x80 = true ∧ wellFormed (.dqnt (.reg 0) .lane 16) = true) ∧
    okPack 0x20 = true ∧ (okPack 0xF0 && decide (7 < tyCount (modeTy 0xF0))) = true ∧
    (Issues (st (inMode g0 0x100)) 0 0 (inMode g0 0x100) p0 ∧ modeType 0x100 = 16 ∧ okRound 0x100 = true ∧ (246 : Nat) + 1 < 248 ∧
      spanIn (inMode g0 0x100) 246 2) :=
  ⟨by decide, by decide, by decide, by decide, by constructor <;> decide, by decide, by decide, by decide, by
    change 246 + 2 ≤ 248; decide⟩
theorem witness_ComparesAndVotesComplete : Issues (st g0) 0 0 g0 p0 ∧ okCmp g0.mode = true ∧ okF32 0x80 = true ∧ okCmp 0x10 = true :=
  ⟨issues_g0, by decide⟩
theorem witness_LaneMovesComplete : MoveForm (.slideup (.reg 0) .lane 63) (.reg 0) .lane []
      (fun _ _ l => if (63 : BitVec 6).toNat ≤ l then some (l - (63 : BitVec 6).toNat) else none) ∧
    Issues (st (inMode g0 0x4000)) 0 0 (inMode g0 0x4000) p0 ∧ modeFill 0x4000 ≤ 2 ∧ modeFill 0x2000 ≤ 2 ∧ modeFill 0 ≤ 2 :=
  ⟨.slideup _ _ _, by constructor <;> decide, by decide⟩
theorem witness_ReductionsComplete : TreeForm (.reduce (.reg 0) .lane .xor) .xor (.reg 0) .lane (fun md vs _ =>
      (((treeLevels (nodeOp md .xor) 6 vs).getD 6 []).headD none).getD (identityOf md .xor)) ∧
    okReduce .xor 0 = true ∧ okReduce .add 0x80 = true ∧ okReduce .max 0xA80 = true := ⟨.reduce _ _ _, by decide⟩
/-- A group of one lane that owns bank 3; the lane's address. -/
def gInd (a : Word) : Group := { g0 with banks := [3], regs := [(0, a)], lanes := 1, paths := [(0, freshPath 0 1 0 .none { reg0 with mask := 1 } 0)] }
def pInd : Path := freshPath 0 1 0 .none { reg0 with mask := 1 } 0
/-- The last word of register space, 0xFFFC, and the elements of an owned bank; then the gap of an owned bank, the gap of another's window,
an odd address, and an element with uncorrectable data. -/
theorem witness_IndirectMovesComplete :
    (Issues (st (gInd 0xFFFC)) 0 0 (gInd 0xFFFC) pInd ∧ ∀ l, l < 64 → bit (active (gInd 0xFFFC) pInd) l = true →
      indAddr (gInd 0xFFFC) pInd (.reg 0) .zero l % 4 = 0 ∧ indAddr (gInd 0xFFFC) pInd (.reg 0) .zero l + 4 ≤ (gInd 0xFFFC).regbytes) ∧
    (dstIn (gInd 0) (.reg 247) ∧ srcIn (gInd 0) (.reg 247) ∧ srcIn (gInd 0) .lane) ∧
    (indPlace (gInd 0) 0x11DFFC).toOption = some (.elem 3 1023 5) ∧ (indPlace (gInd 0) 0x11E3FC).toOption = some (.flags 3 1020) ∧
    (indPlace (gInd 0) 0x11E400).toOption = none ∧
    (bit (active (gInd 0x11E400) pInd) 0 = true ∧ indAddr (gInd 0x11E400) pInd (.reg 0) .zero 0 = 0x11E400) ∧
    ((gInd 0).banks.contains ((0x126400 - 0x100000) / 0x8000) = false ∧ indAddr (gInd 0x126400) pInd (.reg 0) .zero 0 = 0x126400) ∧
    indAddr (gInd 0xFFFD) pInd (.reg 0) .zero 0 % 4 ≠ 0 ∧
    (let s := (st (gInd 0x11DFFC)).setCore 0 { Core.zero with banks := [(3, ⟨0, [], [1023]⟩)] }
     (bankOf s 0 3).poison.contains 1023 = true ∧ kget ((kget (bankOf s 0 3).elems 1023).getD elemZero).work pInd.uid = none) := by
  refine ⟨⟨by constructor <;> decide, by decide⟩, ⟨by change 247 < 248; decide, by change 247 < 248; decide, trivial⟩, by decide, by decide, by decide,
    by decide, by decide, by decide, by decide⟩

/-! ## Special registers, control transfer -/

/-- An entry at which the whole group has parted. -/
def parting : Entry :=
  { pre := allLanes, tk := lanesBelow 32, target := 64, join := none, arrT := 0, arrN := 0, owed := 0, parting := true, complete := false, side := .none }
def gParted : Group := { g0 with stack := [parting] }
def withU (g : Group) (l : List (Nat × Word)) : Group := { g with uni := l }

theorem witness_SpecialRegistersComplete : SpecialReads 0x00 (fun _ g _ => g.mode) ∧ SpecialReads 0x24 (fun _ g _ => BitVec.ofNat 32 ((g.banks.map (2 ^ ·)).sum)) ∧
    SpecialWrites 0x08 (fun g v => { g with flags := g.flags &&& ~~~ v }) ∧ Issues (st g0) 0 0 g0 p0 ∧ g0.parted = false :=
  ⟨.mode, .banks, .flags, issues_g0, rfl⟩
/-- Views that end at the last byte of register space, and the least accumulator view; MODE's highest half; a parted group. -/
theorem witness_ModeAndViewsComplete :
    (g0.parted = false ∧ g0.paths.length = 1 ∧ (15 : BitVec 16).toNat < 16) ∧
    (let v : Views := { g0.views with vvbase := 2048, vvcount := BitVec.ofNat 32 ((248 : Word).toNat % 65536) }
     viewsOk g0.regbytes v = true) ∧
    (let v : Views := { g0.views with tvbase := 4096, tvcount := BitVec.ofNat 32 ((0x10000F : Word).toNat % 65536)
                                      tvstride := BitVec.ofNat 32 (256 * ((0x10000F : Word).toNat / 65536)) }
     viewsOk g0.regbytes v = true) ∧
    (let v : Views := { g0.views with avbase := 0x100000 }
     viewsOk g0.regbytes v = true) ∧
    (NamesUniform (.ballot 0 1) ∧ Issues (st gParted) 0 0 gParted p0 ∧ wellFormed (.ballot 0 1) = true ∧ gParted.parted = true) := by
  refine ⟨by decide +kernel, by decide +kernel, by decide +kernel, by decide +kernel, .ballot _ _, by constructor <;> decide +kernel, by decide +kernel, by decide +kernel⟩

/-- Return stacks: empty, with 15 and 16 addresses, with equal and unequal tops. -/
def gCalls (n : Nat) : Group := { g0 with ret := (List.range 16).map fun c => (c, ⟨n, List.replicate n 16⟩) }
theorem witness_TransfersComplete :
    (Issues (st g0) 0 0 g0 p0 ∧ g0.us .zero = 0) ∧ (Issues (st (withU g0 [(191, 1)])) 0 0 (withU g0 [(191, 1)]) p0 ∧
      (withU g0 [(191, 1)]).us (.reg 191) ≠ 0) ∧
    (Issues (st (gCalls 15)) 0 0 (gCalls 15) p0 ∧ (∀ c ∈ slicesOf p0.mask, ((gCalls 15).retStack c).depth < 16) ∧ slicesOf p0.mask ≠ [] ∧
      ∀ c ∈ slicesOf p0.mask, ((gCalls 15).retOf c).head? = some 16) ∧
    (Issues (st (gCalls 16)) 0 0 (gCalls 16) p0 ∧ 15 ∈ slicesOf p0.mask ∧ 16 ≤ ((gCalls 16).retStack 15).depth) ∧
    (let g := { g0 with ret := [(0, ⟨1, [16]⟩)] }
     Issues (st g) 0 0 g p0 ∧ 15 ∈ slicesOf p0.mask ∧ g.retOf 15 = [] ∧
       ((slicesOf p0.mask).all fun k => (slicesOf p0.mask).all fun j => (g.retOf k).head?.all fun a => (g.retOf j).head?.all (a = ·)) = true) ∧
    (let g := { g0 with ret := [(0, ⟨1, [16]⟩), (15, ⟨1, [20]⟩)] }
     Issues (st g) 0 0 g p0 ∧ 0 ∈ slicesOf p0.mask ∧ 15 ∈ slicesOf p0.mask ∧ g.retOf 3 = [] ∧ (g.retOf 0).head? = some 16 ∧
       (g.retOf 15).head? = some 20) := by
  refine ⟨⟨issues_g0, by decide +kernel⟩, ⟨by constructor <;> decide +kernel, by decide +kernel⟩, ⟨by constructor <;> decide +kernel, by decide +kernel, by decide +kernel, by decide +kernel⟩,
    ⟨by constructor <;> decide +kernel, by decide +kernel, by decide +kernel⟩, ⟨by constructor <;> decide +kernel, by decide +kernel, by decide +kernel, by decide +kernel⟩, by constructor <;> decide +kernel, by decide +kernel, by decide +kernel, by decide +kernel, by decide +kernel, by decide +kernel⟩

/-! ## Memory -/

/-- In the ram: the group's uniform pair 0 holds the address `a`. -/
def atAddr (a : Word) : Group := withU g0 [(0, a)]
/-- Likewise, with one launched lane. -/
def p1 : Path := freshPath 0 1 0 .none { reg0 with mask := 1 } 0
def oneAt (a : Word) : Group := { atAddr a with lanes := 1, paths := [(0, p1)] }
/-- No lane is active: the guard p1 is false everywhere. -/
def gIdle : Group := inMode g0 1

theorem witness_MemoryFormsIssue :
    (LoadForm (.ldQ 244 .acq 0 .zero) (LdOrd.acq = LdOrd.acq) (LdOrd.acq ≠ LdOrd.plain) false 16 (.reg 244) 0 .zero ∧
      StoreForm (.stQ 244 .rel 0 .zero) (StOrd.rel = StOrd.rel) (StOrd.rel ≠ StOrd.plain) false 16 (spanIn · 244 4) (fun g _ => spanData g 244 4) 0 .zero) ∧
    (let g := oneAt 65520
     let s := withGroup ram g
     Issues s 0 0 g p1 ∧ wellFormed (.ldQ 244 .acq 0 .zero) = true ∧ spanDst g (.reg 244) ((16 + 3) / 4) ∧ spanIn g 244 4 ∧
       (s.core g.core).mons = [] ∧ active g p1 ≠ 0 ∧ p1.marks.acqWide = false ∧
       lanesOk s g .read 16 (active g p1) (addrsOf g p1 0 .zero) ∧ lanesOk s g .write 16 (active g p1) (addrsOf g p1 0 .zero) ∧
       spanDst g (.reg 246) 2 ∧ lanesOk s g (.atom True) 4 (active g p1) (addrsOf g p1 0 .zero) ∧ okCmp g.mode = true) ∧
    (Issues (withGroup ram gIdle) 0 0 gIdle p0 ∧ active gIdle p0 = 0) := by
  refine ⟨⟨.ldQ _ _ _ _, .stQ _ _ _ _⟩, ⟨by constructor <;> decide +kernel, by decide +kernel, ?_, ?_, by decide +kernel, by decide +kernel, by decide +kernel,
    lanes_ok (by decide +kernel), lanes_ok (by decide +kernel), ?_, lanes_ok (by decide +kernel), by decide +kernel⟩, by constructor <;> decide +kernel, by decide +kernel⟩
  · change 244 + 4 ≤ 248; decide +kernel
  · change 244 + 4 ≤ 248; decide +kernel
  · change 246 + 2 ≤ 248; decide +kernel

/-- An operation of path 0 in flight. -/
def flying (k : OpKind) (todo : Mask) : Op :=
  { path := 0, uid := 0, mask := allLanes, pc := 0, word := 0, batch := 0, at_ := 0, todo := todo, kind := k, dropped := false, await := 0, release := false, narrow := [], pieces := [], taken := [] }
def gFly (k : OpKind) (todo : Mask) : Group := { g0 with ops := [(7, flying k todo)] }

/-- PEER memory of this node itself, in a window over HOST memory. -/
def ownHost : State :=
  let s := poke (tables (descAt 0x0B 0 0 0x3000000000000 0)) 0x10020 (leBytes 8 0x21000 ++ leBytes 4 1 ++ leBytes 4 1 ++ leBytes 8 0x30000)
  let s := poke (poke s 0x21000 (bytesOfDesc (descAt 0x13 0 0 0x2000000000000 0))) 0x700000 (leBytes 8 0 ++ leBytes 8 65536 ++ leBytes 2 1 ++ [0, 7])
  { s with
      asidMap := mset 255 s.asidMap 1 0
      hostWins := [(0, ⟨0, 65536, true, 1, 0⟩)]
      nwinbase := 0x700000
      peerWins := mset 0 [] 0 (2 ^ 63 + BitVec.ofNat 64 s.nodeNum) }

theorem witness_FailingLaneTraps :
    (let g := atAddr 65520
     let s := withGroup ram g
     Issues s 0 0 g p0 ∧ firstFailure ((lanesOf (active g p0)).map fun l =>
       ((addrsOf g p0 0 .lane).getD l 0, check145 s g.core g.asid .read 4 ((addrsOf g p0 0 .lane).getD l 0) 4)) = some (65521, .trap 0x0A)) ∧
    (let g := oneAt 65536
     let s := withGroup ram g
     Issues s 0 0 g p1 ∧ decides s g .read 4 (active g p1) (addrsOf g p1 0 .zero) 0 0x07 ∧
       check145 s g.core g.asid .read 4 65536 4 = .error (.trap 0x07) ∧ check145 s g.core g.asid .write 4 65536 4 = .error (.trap 0x07)) ∧
    (let k : OpKind := .load false true false 4 [65536] none
     let g := gFly k 1
     let s := withGroup ram g
     s.opAt 0 7 = some (g, flying k 1) ∧ (true || false) = true ∧ bit (flying k 1).todo 0 = true ∧
       loadReady g 7 (flying k 1) (BitVec.ofNat 64 (2 ^ 0)) = true ∧ opLive g (flying k 1) = true ∧ g.stopping = none ∧
       laneRead s g 7 65536 4 = .error (.trap 0x07) ∧ (0x07 : Nat) ≠ 0x0C) ∧
    (let k : OpKind := .store false true false 4 [65536] [0]
     let g := gFly k 1
     let s := withGroup ram g
     s.opAt 0 7 = some (g, flying k 1) ∧ storeReady s g 7 (flying k 1) (BitVec.ofNat 64 (2 ^ 0)) = true ∧ postOf s 0 7 0 = none ∧
       laneWrite s g 7 65536 (leBytes 4 0) = .error (.trap 0x07)) ∧
    (let k : OpKind := .atom .add .rlx [65536] [0] [] none 0 []
     let g := gFly k 1
     let s := withGroup ram g
     s.opAt 0 7 = some (g, flying k 1) ∧ bit ((flying k 1).todo &&& ~~~ 0) 0 = true ∧ storeReady s g 7 (flying k 1) (BitVec.ofNat 64 (2 ^ 0)) = true ∧
       ownHostRefuses s g.asid .add 65536 (translateFor s g.core g.asid 7 65536) = false ∧
       readIn s g.core g.asid 65536 4 true (translateFor s g.core g.asid 7 65536) = .error (.trap 0x07)) ∧
    (let k : OpKind := .atom .or .rlx [0] [0] [] none 0 []
     let g := gFly k 1
     let s := withGroup ownHost g
     s.opAt 0 7 = some (g, flying k 1) ∧ storeReady s g 7 (flying k 1) (BitVec.ofNat 64 (2 ^ 0)) = true ∧
       ownHostRefuses s g.asid .or 0 (translateFor s g.core g.asid 7 0) = true) ∧
    (let g := oneAt 0
     let s := withGroup { tables (descAt 0x13 0 0 0x2000000000000 0) with hostWins := [(0, ⟨0, 65536, true, 1, 0⟩)], hostBad := [0] } g
     Issues s 0 0 g p1 ∧ wellFormed (.ldu (.reg 0) 0 0) = true ∧ p1.marks.acqWide = false ∧ check145 s g.core g.asid .read 4 0 4 = .ok () ∧
       kget (s.core g.core).lines (lineKey g.asid 0) = none ∧ laneRead s g s.nextOp 0 4 = .error (.trap 0x0B)) := by
  refine ⟨⟨by constructor <;> decide +kernel, by decide +kernel⟩, ⟨by constructor <;> decide +kernel, ⟨by decide +kernel, err_of (by decide +kernel), ?_⟩,
    err_of (by decide +kernel), err_of (by decide +kernel)⟩,
    ⟨by decide +kernel, rfl, by decide +kernel, by decide +kernel, by decide +kernel, by decide +kernel, err_of (by decide +kernel), by decide +kernel⟩,
    ⟨by decide +kernel, by decide +kernel, by decide +kernel, err_of (by decide +kernel)⟩,
    ⟨by decide +kernel, by decide +kernel, by decide +kernel, by decide +kernel, err_of (by decide +kernel)⟩,
    ⟨by decide +kernel, by decide +kernel, by decide +kernel⟩,
    by constructor <;> decide +kernel, by decide +kernel, by decide +kernel, ok_of (by decide +kernel), by decide +kernel, err_of (by decide +kernel)⟩
  intro j hj e he
  have h : j = 0 := by simpa using (show j ∈ [0] from by rw [show lanesOf _ = [0] from by decide +kernel] at hj; exact hj)
  subst h
  exact .inr ⟨by cases (err_of (x := MErr.trap 0x07) (by decide +kernel) : check145 (withGroup ram (oneAt 65536)) 0 0 .read 4 65536 4 = _).symm.trans he; rfl, Nat.le_refl _⟩

/-- 62 stores in flight, and a 63rd; a load on its way to v0; a released store with a monitor on its word. -/
theorem witness_MemoryFormsHold :
    (let g := { oneAt 0 with ops := (List.range 62).map fun k => (k, flying (.store false false false 4 [0] [0]) 1) }
     AtWord (withGroup ram g) 0 0 g p1 ∧ countOps g isStore = 62 ∧ active g p1 ≠ 0) ∧
    (let g := { oneAt 0 with ops := (List.range 62).map fun k => (k, flying (.load false false false 4 [0] none) 1) }
     AtWord (withGroup ram g) 0 0 g p1 ∧ countOps g isLoad = 62) ∧
    (let g := gFly (.load false false false 4 [0] (some 0)) 1
     AtWord (withGroup ram g) 0 0 g p0 ∧ marksBlock (flying (.load false false false 4 [0] (some 0)) 1) (g.vblock 0) ∧ okInt g.mode = true) := by
  refine ⟨⟨by unfold AtWord; decide +kernel, by decide +kernel, by decide +kernel⟩, ⟨by unfold AtWord; decide +kernel, by decide +kernel⟩,
    by unfold AtWord; decide +kernel, .inl ⟨false, false, false, 4, [0], 0, rfl, by decide +kernel, by decide +kernel⟩, by decide +kernel⟩

theorem witness_UniformMemoryFenceHintComplete :
    let g := atAddr 64512
    let s := withGroup ram g
    Issues s 0 0 g p0 ∧ p0.marks.acqWide = false ∧ (g.upair 0 + 4 * (255 : BitVec 8).toNat) % 2 ^ 64 = 65532 ∧
      wellFormed (.ldu (.reg 0) 0 255) = true ∧ g.parted = false ∧ check145 s g.core g.asid .read 4 65532 4 = .ok () ∧
      kget (s.core g.core).lines (lineKey g.asid 65532) = none ∧ laneRead s g s.nextOp 65532 4 = .ok [0, 0, 0, 0] ∧
      wellFormed (.stu (.reg 0) 0 255) = true ∧ (s.core g.core).mons = [] ∧ check145 s g.core g.asid .write 4 65532 4 = .ok () ∧
      wellFormed (.rpref 190 true) = true ∧ (s.root (iodOf g.core) g.asid).count = 1 ∧
      (s.desc ((s.root (iodOf g.core) g.asid).desc + 64 * 0)).state = 0 ∧
      (let s := { tables (descAt 0x201 2 0 0x1000000000000 0x100000) with capdec := 0x8FF }
       let d := s.desc 0x20000
       (s.root (iodOf 0) 0).valid = true ∧ (s.root (iodOf 0) 0).count = 1 ∧ d.state = 2 ∧ d.auto = true ∧ d.chunks = 1 ∧ d.vbase = 0 ∧
         d.length = 65536 ∧ s.aux 0x20000 = RAux.zero ∧ capDown s d.pbase d.length = false ∧ startBarred s 0 = false) :=
  ⟨by constructor <;> decide +kernel, by decide +kernel, by decide +kernel, by decide +kernel, by decide +kernel, ok_of (by decide +kernel), by decide +kernel, ok_of (by decide +kernel),
    by decide +kernel, by decide +kernel, ok_of (by decide +kernel), by decide +kernel, by decide +kernel, by decide +kernel, by decide +kernel⟩

/-- A plain load of four bytes a lane; then an acquire load of lane 63. -/
theorem witness_LoadCompletionDelivers :
    (let k : OpKind := .load false true false 4 (List.replicate 64 8) (some 0)
     let g := gFly k allLanes
     let s := withGroup ram g
     s.opAt 0 7 = some (g, flying k allLanes) ∧ (1 : Mask) ≠ 0 ∧ 1 &&& allLanes = (1 : Mask) ∧ loadReady g 7 (flying k allLanes) 1 = true ∧
       (∀ l ∈ lanesOf 1, laneRead s g 7 ((List.replicate 64 8).getD l 0) 4 = .ok [0, 0, 0, 0]) ∧
       withTaken (flying k allLanes).taken 0 8 [0, 0, 0, 0] = [0, 0, 0, 0]) ∧
    (let k : OpKind := .load true true false 4 (List.replicate 64 8) none
     let g := gFly k (BitVec.ofNat 64 (2 ^ 63))
     let s := withGroup ram g
     s.opAt 0 7 = some (g, flying k (BitVec.ofNat 64 (2 ^ 63))) ∧ loadReady g 7 (flying k (BitVec.ofNat 64 (2 ^ 63))) (BitVec.ofNat 64 (2 ^ 63)) = true ∧
       laneRead s g 7 ((List.replicate 64 8).getD 63 0) 4 = .ok [0, 0, 0, 0]) := by
  refine ⟨⟨by decide +kernel, by decide +kernel, by decide +kernel, by decide +kernel, ?_, rfl⟩, by decide +kernel, by decide +kernel, ok_of (by decide +kernel)⟩
  intro l hl
  have h : l = 0 := by simpa using (show l ∈ [0] from by rw [show lanesOf 1 = [0] from by decide +kernel] at hl; exact hl)
  subst h
  exact ok_of (by decide +kernel)

theorem isOk_of {ε α : Type} {e : Except ε α} (h : e.toOption.isSome = true) : ∃ u, e = .ok u := by
  cases e with
  | ok y => exact ⟨y, rfl⟩
  | error y => simp [Except.toOption] at h

theorem witness_StoresAndAtomicsPerform :
    (let k : OpKind := .store false false false 4 (List.replicate 64 65532) (List.replicate 64 0x01020304)
     let g := gFly k (BitVec.ofNat 64 (2 ^ 63))
     let s := withGroup ram g
     s.opAt 0 7 = some (g, flying k (BitVec.ofNat 64 (2 ^ 63))) ∧ bit (flying k (BitVec.ofNat 64 (2 ^ 63))).todo 63 = true ∧
       storeReady s g 7 (flying k (BitVec.ofNat 64 (2 ^ 63))) (BitVec.ofNat 64 (2 ^ 63)) = true ∧
       postOf s 0 7 63 = none ∧ (∀ e ∈ (flying k (BitVec.ofNat 64 (2 ^ 63))).pieces, e.1 ≠ 63) ∧ (∃ u, laneWrite s g 7 65532 (leBytes 4 0x01020304) = .ok u) ∧
       (translateFor s g.core g.asid 7 65532 = some (0x20000, descAt 3 0 0 0x100000 0) ∧
         place s g.asid 0x20000 (descAt 3 0 0 0x100000 0) true 65532 4 = .ok (.mem (0x100000 + 65532)) ∧
         cellOf s (0x100000 + 65532) = some (0x100000 + 65532) ∧ (0x100000 + 65532) % 2048 + 4 ≤ 2048)) ∧
    (let k : OpKind := .atom .cas .rlx (List.replicate 64 0) (List.replicate 64 0) (List.replicate 64 5) none 0 []
     let g := gFly k 1
     let s := withGroup ram g
     s.opAt 0 7 = some (g, flying k 1) ∧ (s.core g.core).mons = [] ∧ bit ((flying k 1).todo &&& ~~~ 0) 0 = true ∧
       storeReady s g 7 (flying k 1) (BitVec.ofNat 64 (2 ^ 0)) = true ∧
       ownHostRefuses s g.asid .cas 0 (translateFor s g.core g.asid 7 0) = false ∧
       readIn s g.core g.asid 0 4 true (translateFor s g.core g.asid 7 0) = .ok [0, 0, 0, 0] ∧ atomNew .cas (leNat [0, 0, 0, 0]) 0 5 = some 5 ∧ atomNew .cas (leNat [0, 0, 0, 0]) 1 5 = none ∧
       ∃ u, laneWrite s g 7 0 (leBytes 4 5) = .ok u) :=
  ⟨⟨by decide +kernel, by decide +kernel, by decide +kernel, by decide +kernel, by decide +kernel, isOk_of (by decide +kernel), by decide +kernel, ok_of (by decide +kernel),
      by decide +kernel, by decide +kernel⟩,
    by decide +kernel, by decide +kernel, by decide +kernel, by decide +kernel, by decide +kernel, ok_of (by decide +kernel), by decide +kernel, by decide +kernel,
    isOk_of (by decide +kernel)⟩

/-- An atomic of one lane, updated, whose result is on its way; a store and an atomic on a word that a monitor watches. -/
theorem witness_AtomicsAndMonitors :
    (let k : OpKind := .atom .add .ar [0] [3] [] (some 0) 1 [(0, 7)]
     let g := gFly k 1
     let s := withGroup ram g
     s.opAt 0 7 = some (g, flying k 1) ∧ (1 : Mask) ≠ 0 ∧ 1 &&& (flying k 1).todo = (1 : Mask) ∧ (1 : Mask) &&& 1 = 1) ∧
    (let m : Monitor := monBound ⟨0, 4, 4, 0, 0, .core, 0, 0, 0⟩ 3
     let g := oneAt 0
     let s := (withGroup { ram with cohorts := [(0, ⟨3, 0, 0, [5], [0], none, 0⟩)] } g).setCore 0 { Core.zero with mons := [(3, m)] }
     Issues s 0 0 g p1 ∧ (s.core g.core).mons = [(3, m)] ∧ m.launch = s.launchOf g ∧ active g p1 ≠ 0 ∧
       lanesOk s g .write 4 (active g p1) (addrsOf g p1 0 .zero) ∧ monHit m.cfg 0 = true) ∧
    (let m : Monitor := monBound ⟨0, 4, 4, 0, 0, .core, 0, 0, 0⟩ 3
     let k : OpKind := .atom .add .rlx [0] [3] [] none 0 []
     let p := { p1 with entryDue := some 0xFFFF }
     let g := { oneAt 0 with paths := [(0, p)], ops := [(7, flying k 1)] }
     let s := (withGroup { ram with cohorts := [(0, ⟨3, 0, 0, [5], [0], none, 0⟩)] } g).setCore 0 { Core.zero with mons := [(3, m)] }
     s.opAt 0 7 = some (g, flying k 1) ∧ storeReady s g 7 (flying k 1) (BitVec.ofNat 64 (2 ^ 0)) = true ∧
       ownHostRefuses s g.asid .add 0 (translateFor s g.core g.asid 7 0) = false ∧
       readIn s g.core g.asid 0 4 true (translateFor s g.core g.asid 7 0) = .ok [0, 0, 0, 0] ∧ atomNew .add 0 3 0 = some 3 ∧
       (∃ u, laneWrite s g 7 0 (leBytes 4 3) = .ok u) ∧ g.path (flying k 1).path = some p ∧ p.uid = (flying k 1).uid ∧ p.entryDue ≠ none) := by
  refine ⟨by decide +kernel, ⟨by constructor <;> decide +kernel, by decide +kernel, by decide +kernel, by decide +kernel, lanes_ok (by decide +kernel),
    by decide +kernel⟩, by decide +kernel, by decide +kernel, by decide +kernel, ok_of (by decide +kernel), by decide +kernel, isOk_of (by decide +kernel),
    by decide +kernel, by decide +kernel, by decide +kernel⟩
/-! ## Scratchpad and copies -/

/-- A cohort whose one tile is physical tile 5, in state `t`; its launch is number 3. -/
def withTile (s : State) (t : Tile) : State :=
  { s with
      cohorts := [(0, ⟨3, 0, 0, [5], [0], none, 0⟩)]
      cores := [(0, { Core.zero with tiles := [(5, t)] })] }
def tReady : Tile := ⟨.ready, false, 0, 0, []⟩

theorem witness_TileTable : rowSays g0 ⟨.filling, true, 0, 0, []⟩ .trel = some true ∧ rowSays g0 ⟨.filling, false, 0, 0, []⟩ .trel = some false ∧
    rowSays g0 ⟨.draining, false, 7, 0, []⟩ .copyo = some false ∧ rowSays g0 ⟨.draining, false, 6, 0, []⟩ .copyo = some true ∧
    rowSays g0 tReady .claim = none ∧ rowSays g0 tileEmpty .claim = some true := by decide +kernel
theorem witness_ScratchIssue :
    let s := withTile (st g0) tReady
    Issues s 0 0 g0 p0 ∧ TileReady s 0 g0 0 .read 5 ∧ TileReady s 0 g0 0 .spst 5 ∧ active g0 p0 ≠ 0 ∧ p0.marks.acqWide = false ∧
      offsOk (active g0 p0) ((srcVals g0 p0 .zero).map (·.toNat)) ∧
      offsOk 1 [4092] ∧ TileReady s 0 g0 0 .trel 5 ∧ TileReady (withTile (st g0) tileEmpty) 0 g0 0 .claim 5 ∧
      (s.tilesOf g0)[0]? = some 5 ∧ g0.parted = false := by
  refine ⟨by constructor <;> decide +kernel, by constructor <;> decide +kernel, by constructor <;> decide +kernel, by decide +kernel, by decide +kernel, ?_, ?_,
    by constructor <;> decide +kernel, by constructor <;> decide +kernel, by decide +kernel, by decide +kernel⟩ <;> (unfold offsOk; decide +kernel)
theorem witness_TileTraps :
    tileCheck (withTile (st g0) tReady) 0 g0 0 .claim = .trap 2 ∧ tileCheck (withTile (st g0) tileEmpty) 0 g0 0 .trel = .trap 0 ∧
    tileCheck (withTile (st g0) tileEmpty) 0 g0 0 .read = .trap 0 ∧ tileCheck (st g0) 0 g0 0 .read = .trap 6 ∧
    tileCheck (withTile (st g0) { tReady with relBy := [(0, 0)] }) 0 g0 0 .read = .trap 4 ∧ ((st g0).tilesOf g0)[191]? = none ∧
    (let g := { g0 with paths := [(0, { p0 with claims := [5] })] }
     let s := withTile (st g) ⟨.filling, true, 0, 0, []⟩
     s.group 0 = some g ∧ g.handler = none ∧ g.ops = [] ∧ g.stopping = none ∧ s.pairings = [] ∧ (∀ e ∈ g.paths, e.2.behind = false) ∧
       (∃ e ∈ g.paths, 5 ∈ e.2.claims) ∧ ((s.core 0).tile 5).owner = g.grpidx ∧ drainsOut s g = false ∧ ∀ e ∈ g.paths, 6 ∉ e.2.claims) := by
  decide +kernel
theorem witness_ScratchPerforms :
    (let k : OpKind := .spld ⟨0, 5⟩ (List.replicate 64 4092) (some 0)
     let g := gFly k allLanes
     let s := withTile (st g) tReady
     s.opAt 0 7 = some (g, flying k allLanes) ∧ loadReady g 7 (flying k allLanes) allLanes = true ∧
       ∀ l ∈ lanesOf allLanes, tilePoisoned (s.core 0) 5 ((List.replicate 64 4092).getD l 0) 4 = false) ∧
    (let k : OpKind := .spst ⟨0, 5⟩ (List.replicate 64 4092) (List.replicate 64 9)
     let m : Mask := BitVec.ofNat 64 (2 ^ 63)
     let g := gFly k m
     let s := withTile (st g) tReady
     s.opAt 0 7 = some (g, flying k m) ∧ bit (flying k m).todo 63 = true ∧
       storeReady s g 7 (flying k m) (BitVec.ofNat 64 (2 ^ 63)) = true) := by
  refine ⟨⟨by decide +kernel, by decide +kernel, by decide +kernel⟩, by decide +kernel, by decide +kernel, by decide +kernel⟩

/-- One row of 128 bytes; a gather of one row of 4 bytes; 64 bytes to slot 0. -/
theorem witness_CopiesIssue :
    let g := withU g0 [(0, 0), (2, 0x01000000), (3, 0x00010004), (4, 64), (5, 0)]
    let s := withTile (withGroup ram g) tReady
    let sw := (withGroup ram g).setCore 0 ((Core.zero).setSlot 0 { slotZero with valid := true })
    Issues s 0 0 g p0 ∧
    (wellFormed (.copy 0 0 (.reg 2)) = true ∧ ShapeOk s g .read (g.upair 0) (g.us (.reg 2)) ∧ TileReady s 0 g 0 .fill 5) ∧
    (g.upair 0 % 8 = 0 ∧ gatherOk (g.us (.reg 3)) = true ∧ checkBytes s 0 0 .read ((8 + 4 * 1) / 256 + 2) (g.upair 0) (8 + 4 * 1) = .ok ()) ∧
    (ShapeOk s g .write (g.upair 0) (g.us (.reg 2)) ∧ TileReady s 0 g 0 .copyo 5) ∧
    (handleOk (g.us .zero) = true ∧ lengthOk (g.us .zero) (g.us (.reg 4)) = true ∧ g.upair 0 % 64 = 0 ∧ ((sw.core 0).slot 0).valid = true ∧
      ((sw.core 0).slot 0).asid = 0 ∧ ((sw.core 0).slot 0).pend = [] ∧ slotReaders sw 0 0 = false ∧
      checkSpan sw 0 0 .read (g.upair 0) 64 = .ok ()) := by
  refine ⟨by constructor <;> decide +kernel, ⟨by decide +kernel, ⟨by decide +kernel, by decide +kernel, by decide +kernel, ?_⟩, by constructor <;> decide +kernel⟩,
    ⟨by decide +kernel, by decide +kernel, ok_of (by decide +kernel)⟩, ⟨⟨by decide +kernel, by decide +kernel, by decide +kernel, ?_⟩, by constructor <;> decide +kernel⟩,
    by decide +kernel, by decide +kernel, by decide +kernel, by decide +kernel, by decide +kernel, by decide +kernel, by decide +kernel, ok_of (by decide +kernel)⟩ <;>
    (intro va h; rw [show rowAddrs _ _ _ = [0] by decide +kernel] at h; simp only [List.mem_singleton] at h; subst h; exact ok_of (by decide +kernel))
/-- Address 65535 of a pair range. -/
theorem witness_PublishCompletes :
    let g := atAddr 65535
    let s := withGroup (tables (descAt 0x103 0 0 0x100000 0x200000)) g
    Issues s 0 0 g p0 ∧ wellFormed (.publish 0) = true ∧ check145 s 0 0 .write 1 (g.upair 0) 1 = .ok () ∧
      translate s 0 0 (g.upair 0) = some (0x20000, descAt 0x103 0 0 0x100000 0x200000) ∧ (descAt 0x103 0 0 0x100000 0x200000).pair = true ∧
      0 < (descAt 0x103 0 0 0x100000 0x200000).length :=
  ⟨by constructor <;> decide +kernel, by decide +kernel, ok_of (by decide +kernel), by decide +kernel, by decide +kernel, by decide⟩
theorem witness_CopiesComplete :
    (let k : OpKind := .copy ⟨0, 5⟩ 0 0 1
     let g := gFly k 1
     let s := withTile (withGroup ram g) ⟨.filling, false, 0, 0, []⟩
     CopyRuns s 0 7 g (flying k 1) ∧ (flying k 1).pieces = [] ∧ (flying k 1).todo = lanesBelow 1 ∧
       vread s 0 0 ((0 + 0 * 0) % 2 ^ 64) 128 = .ok (List.replicate 128 0)) ∧
    (let k : OpKind := .copyg ⟨0, 5⟩ 0 4 1 [] [0]
     let g := gFly k 1
     let s := withTile (withGroup ram g) ⟨.filling, false, 0, 0, []⟩
     CopyRuns s 0 7 g (flying k 1) ∧ List.range 1 = [0] ∧ (gatherRows s g [] 0 4 1).toOption = some [0] ∧
       vread s 0 0 0 4 = .ok [0, 0, 0, 0]) ∧
    (let k : OpKind := .copyo ⟨0, 5⟩ 0 128 32
     let m : Mask := BitVec.ofNat 64 (2 ^ 31)
     let g := gFly k m
     let s := withTile (withGroup ram g) ⟨.draining, false, 1, 0, []⟩
     CopyRuns s 0 7 g (flying k m) ∧ tilePoisoned (s.core 0) 5 (128 * 31) 128 = false ∧
       (vwrite s 0 0 ((0 + 31 * 128) % 2 ^ 64) (tileBytes (s.core 0) 5 (128 * 31) 128)).2 = none) ∧
    (let k : OpKind := .copyw 63 0 0 32768
     let m : Mask := BitVec.ofNat 64 (2 ^ 63)
     let g := gFly k m
     let s := withGroup ram g
     CopyRuns s 0 7 g (flying k m) ∧ 512 * 63 < 32768 ∧ (rawBytes s 0 0 ((min 512 (32768 - 512 * 63)) / 64) (0 + 512 * 63)).toOption.isSome = true) ∧
    (let k : OpKind := .copy ⟨0, 5⟩ 0 0 1
     let g := gFly k 1
     let s := withTile (withGroup (tables (descAt 0x1B 0 0 0 0)) g) ⟨.filling, false, 0, 0, []⟩
     CopyRuns s 0 7 g (flying k 1) ∧ g.status = .resident ∧ rangeType s 0 0 (copyAddr (flying k 1)) ≠ 0) := by
  refine ⟨⟨by unfold CopyRuns; decide +kernel, rfl, by decide +kernel, ok_of (by decide +kernel)⟩,
    ⟨by unfold CopyRuns; decide +kernel, by decide +kernel, by decide +kernel, ok_of (by decide +kernel)⟩,
    ⟨by unfold CopyRuns; decide +kernel, by decide +kernel, by decide +kernel⟩, ⟨by unfold CopyRuns; decide +kernel, by decide +kernel, by decide +kernel⟩,
    by unfold CopyRuns; decide +kernel, by decide +kernel, by decide +kernel⟩
theorem pair_of {α β : Type} {p : α × β} {b : β} (h : p.2 = b) : p = (p.1, b) := by rw [← h]
/-- A row, a gathered row and a piece for a slot that lie in no range, and a row written there. -/
theorem witness_CopyFaultPends :
    (let k : OpKind := .copy ⟨0, 5⟩ 65536 0 1
     let g := gFly k 1
     let s := withTile (withGroup ram g) ⟨.filling, false, 0, 0, []⟩
     CopyRuns s 0 7 g (flying k 1) ∧ unitsLeft (flying k 1) = [0] ∧ UnitFails s g (flying k 1) 0 s 0x07 65536) ∧
    (let k : OpKind := .copyg ⟨0, 5⟩ 0 4 1 [] [0]
     let g := gFly k 1
     let s := withTile (withGroup ram g) ⟨.filling, false, 0, 0, []⟩
     CopyRuns s 0 7 g (flying k 1) ∧ unitsLeft (flying k 1) = [0] ∧ (gatherRows s g [] 0 4 1).toOption = some [0]) ∧
    (let k : OpKind := .copyo ⟨0, 5⟩ 65536 0 1
     let g := gFly k 1
     let s := withTile (withGroup ram g) ⟨.draining, false, 1, 0, []⟩
     CopyRuns s 0 7 g (flying k 1) ∧ unitsLeft (flying k 1) = [0] ∧ ∃ v, UnitFails s g (flying k 1) 0 v 0x07 65536) ∧
    (let k : OpKind := .copyw 63 0 65536 64
     let g := gFly k 1
     let s := withGroup ram g
     CopyRuns s 0 7 g (flying k 1) ∧ unitsLeft (flying k 1) = [0] ∧ UnitFails s g (flying k 1) 0 s 0x07 65536) := by
  refine ⟨⟨by unfold CopyRuns; decide +kernel, by decide +kernel, .copy _ _ _ _ _ _ rfl (err_of (by decide +kernel))⟩,
    ⟨by unfold CopyRuns; decide +kernel, by decide +kernel, by decide +kernel⟩,
    ⟨by unfold CopyRuns; decide +kernel, by decide +kernel, _, .copyo _ _ _ _ _ _ _ rfl (by decide +kernel) (pair_of (by decide +kernel))⟩,
    by unfold CopyRuns; decide +kernel, by decide +kernel, .copyw _ _ _ _ _ _ rfl (err_of (by decide +kernel))⟩
theorem witness_PendingFaultTaken :
    let f : PendFault := ⟨trapAt 0x0B 64, 0, 0, 0, 0, false⟩
    let g := { g0 with pending := [f] }
    let s := st g
    s.cur = some (0, 0) ∧ s.group 0 = some g ∧ g.path 0 = some p0 ∧ g.status = .resident ∧ isYielded p0 = false ∧ g.stopping = none ∧
      g.pending = [f] ∧ g.path f.path = some p0 ∧ p0.uid = f.uid ∧ f.info.cls ≠ 0x0C ∧ p0.uid ≠ { f with uid := 9 }.uid ∧ isStep .nop = false := by
  decide +kernel

/-! ## Accumulators and the matrix engine -/

/-- Register v2 holds, in every lane, the formats I8 and I8; v0 and v1 hold zero, a location in tile register 0. -/
def gMul : Group := { g0 with banks := [15], regs := (List.range 64).map fun k => (128 + k, 0x00040004) }
/-- Core 0 holds its bank 15. -/
def sMul : State := (st gMul).setCore 0 { Core.zero with banks := [(15, ⟨0, [], []⟩)] }

theorem witness_AccumulatorBanks :
    (Issues (st g0) 0 0 g0 p0 ∧ wellFormed (.acalloc .zero 16) = true ∧ g0.parted = false ∧ entered p0 = true ∧
      g0.banks.length + (16 : BitVec 8).toNat ≤ 16 ∧ ((st g0).core 0).retAccs = false ∧ ((st g0).core 0).acreqs = [] ∧
      freeRun ((st g0).core 0) 16 = some 0) ∧
    (Issues sMul 0 0 gMul p0 ∧ wellFormed (.acfree 0 1) = true ∧ (0 : Fin 16).val + 1 ≤ gMul.banks.length ∧
      16 < gMul.banks.length + (16 : BitVec 8).toNat ∧ wellFormed (.acfree 1 1) = true ∧ gMul.banks.length < (1 : Fin 16).val + 1 ∧
      gMul.converged = true ∧ gMul.banks.length ≤ (1 : Fin 16).val) ∧
    (let s := sMul.setCore 1 { Core.zero with acreqs := [⟨0, 0, 16, none⟩] }
     (s.core 1).acreqs = [⟨0, 0, 16, none⟩] ∧ freeRun (s.core 1) 16 = some 0) ∧
    (wellFormed (.seek (.reg 0) 244 .zero) = true ∧ g0.converged = true ∧ spanIn g0 244 4 ∧ (g0.us .zero).toNat / 65536 ≤ 256) := by
  refine ⟨⟨issues_g0, by decide +kernel⟩, ⟨by constructor <;> decide +kernel, by decide +kernel⟩, by decide +kernel, by decide +kernel, by decide +kernel, ?_, by decide +kernel⟩
  change 244 + 4 ≤ 248; decide +kernel

theorem voted_of {vs : List Word} {w : Word} (h : vs = List.replicate 64 w) : Voted vs := by
  subst h
  intro x hx
  rw [(List.mem_replicate.mp hx).2]
  rfl

theorem witness_MultiplicationsIssue :
    MmaInstr (.mma 0 0 (.reg 2)) .solo 0 0 (.reg 2) ∧ p0.marks.acqWide = false ∧ memScaled .solo 0 0x00040004 = false ∧ Issues sMul 0 0 gMul p0 ∧ wellFormed (.mma 0 0 (.reg 2)) = true ∧ gMul.converged = true ∧
      spanIn gMul 0 2 ∧ gMul.banks[(0 : Fin 16).val]? = some 15 ∧ (sMul.core 0).mq.length < 8 ∧ Voted (gMul.v 0) ∧ Voted (gMul.v 1) ∧
      Voted (srcVals gMul p0 (.reg 2)) ∧ mmaLayoutOk .solo 0 0 0 0x00040004 = true ∧
      (gMul.v 0).getD 0 0 = 0 ∧ (gMul.v 1).getD 0 0 = 0 ∧ (srcVals gMul p0 (.reg 2)).getD 0 0 = 0x00040004 ∧
      TileThere sMul 0 gMul 0 ∧ ScaleOk sMul gMul (fmtA 0x00040004) 0 ∧
      mmaLayoutOk .quad 0 0x40000000 0 0x00440004 = true ∧ mmaLayoutOk .pair 1 0x40000000 0xFFFFFFFF 0x00040004 = true := by
  refine ⟨.mma _ _ _, rfl, by decide, by constructor <;> decide, by decide, by decide, ?_, by decide, by decide, voted_of (w := 0) (by decide +kernel),
    voted_of (w := 0) (by decide +kernel), voted_of (w := 0x00040004) (by decide +kernel), by decide, by decide +kernel, by decide +kernel,
    by decide +kernel, ?_, ?_, by decide, by decide⟩
  · change 0 + 2 ≤ 248; decide
  · change (0 : Nat) < 15; decide
  · intro h; exact absurd h (by decide)
theorem witness_MultiplicationTraps :
    gParted.converged = false ∧ (gMul.converged = true ∧ gMul.banks.length ≤ (1 : Fin 16).val) ∧
    (let g := { gMul with regs := [(63, 1)] }
     g.converged = true ∧ ¬ Voted (g.v 0)) ∧ mmaLayoutOk .solo 0 0 0 0x00040005 = false := by
  refine ⟨by decide, by decide, ⟨by decide, ?_⟩, by decide⟩
  exact fun h => absurd (h 1 (by decide +kernel)) (by decide +kernel)
/-- ACLD and ACST of I32 words, and SEEDX and TTRANS of tile registers 14 and 0. -/
theorem witness_MatrixOpsIssue :
    let g : Group := { gMul with regs := [], uni := [(2, 0x00800000)] }
    let s := withGroup (ram.setCore 0 { Core.zero with banks := [(15, ⟨0, [], []⟩)] }) g
    Issues s 0 0 g p0 ∧ g.converged = true ∧ (s.core 0).mq.length < 8 ∧ g.banks[(0 : Fin 16).val]? = some 15 ∧ okRead g.mode = true ∧
      (14 : Fin 248).val < g.views.tvcount.toNat ∧ Voted (srcVals g p0 .zero) ∧ readCode (((srcVals g p0 .zero).getD 0 0).toNat % 32) = true ∧
      okRound g.mode = true ∧ (g.us (.reg 3)).toNat < 2048 ∧
      (let f : Word := 0x00800000
       readCode (f.toNat % 32) = true ∧ f.toNat / 32 % 2048 = 0 ∧ f.toNat / 65536 % 16 = 0 ∧ 4 * readWidth f ≤ f.toNat / 65536 ∧
         checkBytes s 0 0 .write ((31 * 128 + 128) / 256 + 2) 0 (31 * 128 + 128) = .ok ()) := by
  refine ⟨by constructor <;> decide +kernel, by decide +kernel, by decide +kernel, by decide +kernel, by decide +kernel, by decide +kernel, ?_, by decide +kernel, by decide +kernel, by decide +kernel, by decide +kernel,
    by decide +kernel, by decide +kernel, by decide +kernel, ok_of (by decide +kernel)⟩
  exact voted_of (w := 0) (by decide +kernel)

/-- The operation `m` of group 0, at the head of core 0's queue or running there. -/
def gOp (m : MatOp) : Group := { gMul with ops := [(7, flying (.mat m) 0)] }
def headed (m : MatOp) : State := (st (gOp m)).setCore 0 { Core.zero with banks := [(15, ⟨0, [], []⟩)], mq := [(0, 7)] }
def running (s : State) (m : MatOp) : State := (withGroup s (gOp m)).setCore 0 { Core.zero with banks := [(15, ⟨0, [], []⟩)], running := some (0, 7) }
def partOf0 (m : MatOp) : Part := ⟨0, 0, 7, gOp m, flying (.mat m) 0⟩
def mulOp : MatOp := .mma .solo 15 0x40000000 0x40000001 0x00040004 g0.views 0 0

theorem witness_MatrixOperationsStart :
    (headParts (headed mulOp) 0 = some [partOf0 mulOp] ∧ ((headed mulOp).core 0).spaced ≤ (headed mulOp).now ∧
      retainedSlot (headed mulOp) [partOf0 mulOp] = none ∧ (∃ B, fetchB (headed mulOp) (gOp mulOp) 7 (flying (.mat mulOp) 0) = .ok B) ∧
      (∃ A, fetchA (headed mulOp) (gOp mulOp) 7 (flying (.mat mulOp) 0) = .ok A) ∧ bankBad (((headed mulOp).core 0).bank 15) 0 = none) ∧
    headParts (headed (.aczero 15)) 0 = some [partOf0 (.aczero 15)] ∧
    headParts (headed (.ttrans 0 4096 4)) 0 = some [partOf0 (.ttrans 0 4096 4)] :=
  ⟨⟨by decide +kernel, by decide +kernel, by decide +kernel, isOk_of (by decide +kernel), isOk_of (by decide +kernel), by decide +kernel⟩, by decide +kernel, by decide +kernel⟩
theorem witness_OperationsEnd :
    (∀ m ∈ [mulOp, .aczero 15, .acld 15 4096 0 0, .seedx 0 4096 0 0, .ttrans 0 4096 2],
      ((running State.reset m).core 0).running = some (0, 7) ∧ pairingOf (running State.reset m) (0, 7) = none ∧
        partAt (running State.reset m) (0, 7) = some (partOf0 m)) ∧
    bankBad ((running State.reset mulOp).core 0 |>.bank 15) 0 = none ∧
    regBad (gOp (.ttrans 0 4096 2)) (flying (.mat (.ttrans 0 4096 2)) 0) 4096 fullSpans = none ∧
    regBad (gOp (.seedx 0 4096 0 0)) (flying (.mat (.seedx 0 4096 0 0)) 0) 4096 (seedSpans 0) = none := by
  refine ⟨?_, by decide +kernel, by decide +kernel, by decide +kernel⟩
  intro m hm
  simp only [List.mem_cons, List.not_mem_nil, or_false] at hm
  rcases hm with h | h | h | h | h <;> subst h <;> decide +kernel
/-- ACST of a bank of zeros, one row every 128 bytes from address 0 on, and memory before each row. -/
def acst0 : MatOp := .acst 15 0 128 0 0
def pAcst : Part := ⟨0, 0, 7, { gMul with ops := [(7, flying (.mat acst0) (lanesBelow 32))] }, flying (.mat acst0) (lanesBelow 32)⟩
def sAcst : State := (withGroup ram pAcst.g).setCore 0 { Core.zero with banks := [(15, ⟨0, [], []⟩)], running := some (0, 7) }
def uAcst : Nat → State
  | 0 => sAcst.updGroup 0 (·.noteSat false)
  | n + 1 => (vwrite (uAcst n) 0 0 (0 + n * 128) (zeros 128)).1.updOp 0 7 (unitServed n)
theorem witness_AcstStores : (sAcst.core 0).running = some (0, 7) ∧ pairingOf sAcst (0, 7) = none ∧ partAt sAcst (0, 7) = some pAcst ∧
    pAcst.o.todo = lanesBelow 32 ∧ pAcst.o.pieces = [] ∧ bankBad ((sAcst.core 0).bank 15) 0 = none ∧
    (∀ i, i < 32 → ∀ j, j < 32 → accRead .i32 (numMode 0) (elemRead ((sAcst.core 0).bank 15) 0 (32 * i + j)) = (0, false)) ∧
    leBytes (4 * tyWidth .i32) (packElems (tyWidth .i32) (List.replicate 32 0)) = zeros 128 ∧
    ∀ i, i < 32 → (vwrite (uAcst i) 0 0 (0 + i * 128) (zeros 128)).2 = none := by
  refine ⟨?_, ?_, ?_, ?_, ?_, ?_, ?_, ?_, ?_⟩ <;> decide +kernel
/-- Two cores of quad 0 with a PAIR multiplication each at their heads; group 1 is on core 1. -/
def pairOp : MatOp := .mma .pair 15 0x40000000 0x40000001 0x00040004 g0.views 0 0
def pairState : State :=
  let c : Core := { Core.zero with banks := [(15, ⟨0, [], []⟩)], mq := [(0, 7)] }
  let s := withTile (st (gOp pairOp)) tReady
  let s := { s with groups := [(0, gOp pairOp), (1, { gOp pairOp with core := 1, ops := [(8, flying (.mat pairOp) 0)] })] }
  (s.setCore 0 c).setCore 1 { c with mq := [(1, 8)] }
theorem witness_InstancesFormAndCancel :
    (∃ ps, instanceParts pairState 0 0 = some ps ∧ ps.length = 2 ∧ ∀ p ∈ ps, ∀ q ∈ ps, opFmtWord p.o.kind = opFmtWord q.o.kind) ∧
    (let s := { pairState with pairings := [(0, [(0, 7), (1, 9)])] }
     kget s.pairings 0 = some [(0, 7), (1, 9)] ∧ ([(0, 7), (1, 9)].filterMap (partAt s)).length < 2) ∧
    (let s := ({ pairState with pairings := [(0, [(0, 7), (1, 8)])] }).setCore 0 { Core.zero with running := some (0, 7) }
     (s.core 0).running = some (0, 7) ∧ pairingOf s (0, 7) = some (0, [(0, 7), (1, 8)]) ∧
       ([(0, 7), (1, 8)].filterMap (partAt s)).length = [(0, 7), (1, 8)].length) := by
  refine ⟨⟨[partOf0 pairOp, ⟨1, 1, 8, { gOp pairOp with core := 1, ops := [(8, flying (.mat pairOp) 0)] }, flying (.mat pairOp) 0⟩], by decide +kernel,
    rfl, by decide +kernel⟩, by decide +kernel, by decide +kernel⟩
/-- Cycle 4096 with a PAIR head since cycle 0; a scale array in host memory. -/
theorem witness_MatrixFaultPends :
    (let s := { pairState with now := 4096 }
     (s.core 0).mq.head? = some (0, 7) ∧ partAt s (0, 7) = some (partOf0 pairOp) ∧ isPaired (flying (.mat pairOp) 0).kind = true ∧
       pairingOf s (0, 7) = none ∧ (s.core 0).headAt + 4096 ≤ s.now ∧ (gOp pairOp).status = .resident) ∧
    (let m : MatOp := .acst 15 0 128 0 0
     let s := running (tables (descAt 0x1B 0 0 0 0)) m
     atWork s 0 = some (partOf0 m) ∧ partAt s (0, 7) = some (partOf0 m) ∧ linkAddr s (partOf0 m) = some 0) := by
  refine ⟨by decide +kernel, by decide +kernel, by decide +kernel, by decide +kernel⟩

/-! ## Paths, regions, barriers, waits -/

def entry0 : Entry := { parting with arrN := lanesBelow 32 ^^^ allLanes }
/-- A group of two paths: the taken one of lanes 0 to 31 issues, the other has arrived at the join. -/
def pTaken : Path := { freshPath 0 (lanesBelow 32) 0 .taken { reg0 with mask := lanesBelow 32 } 0 with pc := 0 }
def gJoin : Group := { g0 with stack := [entry0], paths := [(0, pTaken)] }
/-- The other side still runs, as path 8. -/
def gHalf : Group := { gJoin with stack := [parting], paths := [(0, pTaken), (8, freshPath 1 (lanesBelow 32 ^^^ allLanes) 0 .fall reg0 0)] }

theorem clean (g : Group) (h : g.fenceLeft = SpFence.none ∧ g.left = []) (p : Path)
    (hp : p.contrib = [] ∧ p.partials = [] ∧ p.trel = [] ∧ p.spfence = []) : PathClean (st g) g p :=
  ⟨hp.1, hp.2.1, hp.2.2.1, hp.2.2.2, h.1, h.2, rfl⟩

/-- Half of the lanes taken under the guard p1; a REGANG that is and one that is not the last; an EXIT of all, and one that completes. -/
theorem witness_PartingAndJoiningComplete :
    (let g := { inMode g0 1 with preds := mset allLanes [] 1 (lanesBelow 34) }
     Issues (st g) 0 0 g p0 ∧ PathClean (st g) g p0 ∧ g.stack.length < 32 ∧
       sliceSet (pathLanes g p0 &&& guardMask g) &&& sliceSet (pathLanes g p0 &&& ~~~ (pathLanes g p0 &&& guardMask g)) = 0x0100#16) ∧
    (Issues (st gHalf) 0 0 gHalf pTaken ∧ PathClean (st gHalf) gHalf pTaken ∧ gHalf.stack = [parting] ∧ gHalf.spilled = 0 ∧
      gHalf.spillOpen = [] ∧ parting.complete = false ∧ parting.pre &&& pathLanes gHalf pTaken ≠ 0 ∧ parting.join = none ∧
      (parting.arrT ||| pathLanes gHalf pTaken) ||| parting.arrN ||| (parting.pre &&& gHalf.exited) ≠ parting.pre) ∧
    (Issues (st gJoin) 0 0 gJoin pTaken ∧ entry0.arrT ||| pathLanes gJoin pTaken ||| entry0.arrN ||| (entry0.pre &&& gJoin.exited) = entry0.pre ∧
      (entry0.arrT ||| pathLanes gJoin pTaken) &&& entry0.arrN = 0 ∧ (entry0.arrT ||| pathLanes gJoin pTaken) ||| entry0.arrN = entry0.pre &&& ~~~ gJoin.exited ∧
      entry0.pre &&& ~~~ gJoin.exited ≠ 0) ∧
    (let e := { entry0 with arrN := allLanes }
     e.arrT ||| pathLanes gJoin pTaken ||| e.arrN = e.pre ∧ (e.arrT ||| pathLanes gJoin pTaken) &&& e.arrN ≠ 0) ∧
    (g0.stack = [] ∧ g0.spilled = 0 ∧ g0.spillOpen = []) ∧
    (let e := { entry0 with join := some 64 }
     let g := { gJoin with stack := [e] }
     Issues (st g) 0 0 g pTaken ∧ e.complete = false ∧ e.pre &&& pathLanes g pTaken ≠ 0 ∧ (64 : Addr) ≠ pTaken.pc) ∧
    (let ex := gJoin.exited ||| pTaken.mask
     gJoin.stack = [entry0] ∧ sliceSet pTaken.mask &&& entry0.owed = 0 ∧ entry0.arrT ||| entry0.arrN ||| (entry0.pre &&& ex) = entry0.pre ∧
       entry0.arrT &&& entry0.arrN = 0 ∧ entry0.arrT ||| entry0.arrN = entry0.pre &&& ~~~ ex ∧ entry0.pre &&& ~~~ ex ≠ 0 ∧
       lanesBelow gJoin.lanes &&& ~~~ ex ≠ 0) := by
  refine ⟨⟨by constructor <;> decide, clean _ ⟨rfl, rfl⟩ _ (by decide), by decide, by decide⟩,
    ⟨by constructor <;> decide, clean _ ⟨rfl, rfl⟩ _ (by decide), by decide⟩, ⟨by constructor <;> decide, by decide⟩, by decide, by decide,
    ⟨by constructor <;> decide, by decide⟩, by decide⟩

theorem sig_good : ∃ S : Word, (∀ c ∈ slicesOf p0.mask, g0.sigOf c = S) ∧ S.setWidth 16 ^^^ S.extractLsb' 16 16 = (0 : BitVec 16) :=
  ⟨0, by decide, by decide⟩
/-- A region index that differs; signatures that match and that do not, checked and not; a WAIT at, after and before its condition. -/
theorem witness_RegionsSignaturesWaits :
    (Issues (st g0) 0 0 g0 p0 ∧ PathClean (st g0) g0 p0 ∧ p0.region.regidx ≠ 0) ∧
    (slicesOf p0.mask ≠ [] ∧ modeSigen g0.mode = false ∧ (∃ S : Word, (∀ c ∈ slicesOf p0.mask, g0.sigOf c = S) ∧
      S.setWidth 16 ^^^ S.extractLsb' 16 16 = (0 : BitVec 16)) ∧ p0.mask = p0.mask0) ∧
    (let g := inMode g0 0x10000
     Issues (st g) 0 0 g p0 ∧ modeSigen g.mode = true ∧ ¬ ((∃ S : Word, (∀ c ∈ slicesOf p0.mask, g.sigOf c = S) ∧
       S.setWidth 16 ^^^ S.extractLsb' 16 16 = (1 : BitVec 16)) ∧ p0.mask = p0.mask0)) ∧
    p0.waiting = false ∧
    (let p := { p0 with waiting := true }
     let g := { g0 with paths := [(0, p)] }
     Issues (st g) 0 0 g p ∧ p.waiting = true ∧ entered p = true) ∧
    (let g := gFly (.store false false false 4 [0] [0]) 1
     let s := withGroup ram g
     s.cur = some (0, 0) ∧ s.group 0 = some g ∧ g.path 0 = some p0 ∧ g.status = .resident ∧ isYielded p0 = false ∧ g.pending = [] ∧ g.stopping = none ∧
       p0.entryDue = none ∧ g.regPoison = [] ∧ (s.core g.core).retRegs = false ∧ drainedButLoads g p0 = false ∧ waitHolds g 63 0 63 63 = false) := by
  refine ⟨⟨issues_g0, clean _ ⟨rfl, rfl⟩ _ (by decide), by decide⟩, ⟨by decide, by decide, sig_good, by decide⟩, ⟨by constructor <;> decide, by decide, ?_⟩,
    by decide, ⟨by constructor <;> decide, by decide⟩, by decide⟩
  rintro ⟨⟨S, h, e⟩, -⟩
  have h0 : (0 : Word) = S := h 0 (by decide)
  subst h0
  exact absurd e (by decide)

/-- A region that checks idempotence and has read v0; one that has read nothing. -/
def pIdem (r : List (Nat × Mask)) : Path := { p0 with idem := true, readFirst := r }
def gIdem (r : List (Nat × Mask)) : Group := { g0 with paths := [(0, pIdem r)] }
theorem witness_IdempotenceChecked :
    (AtWord (st (gIdem [(0, 1)])) 0 0 (gIdem [(0, 1)]) (pIdem [(0, 1)]) ∧ (gIdem [(0, 1)]).ops = [] ∧ (pIdem [(0, 1)]).idem = true ∧
      wellFormed (.iadd (.reg 0) .lane .lane) = true ∧ okInt (gIdem []).mode = true ∧
      bit (active (gIdem [(0, 1)]) (pIdem [(0, 1)])) 0 = true ∧ bit (mget 0 (pIdem [(0, 1)]).readFirst ((gIdem []).vblock 0)) 0 = true) ∧
    (AtWord (st (gIdem [])) 0 0 (gIdem []) (pIdem []) ∧ mget 0 (pIdem []).readFirst ((gIdem []).vblock 0) = 0 ∧
      VSrc.reg 0 ∉ [VSrc.reg 1, .lane]) := by
  refine ⟨⟨by unfold AtWord; decide, by decide⟩, by unfold AtWord; decide, by decide, by decide⟩

/-- A launch of 2 groups a quad, die and package, counts `n` at POD scope. -/
def rcd (n : Nat) : LaunchRec := ⟨0, 0, 1, 64, 0, 0, 0, 0, 2, 2, 2, n⟩
def kd0 : KDesc := ⟨0x80, 65536, 1, 0, 4096, 0, 0, g0.views⟩
def launch0 (r : LaunchRec) : Launch := ⟨r, kd0, 0, 0, .device 0 0, [0], 0, 1, 1, true, false, false, none⟩
/-- Group 0's cohort belongs to launch 3, of record `r`. -/
def launched (s : State) (r : LaunchRec) : State :=
  { s with cohorts := [(0, ⟨3, 0, 0, [5], [0], none, 0⟩)], launches := [(3, launch0 r)] }
def bar0 (sc : Scope) (idx o d n : Nat) : Barrier := { Barrier.fresh sc idx o d with arrivals := n }

/-- First and last arrivals at QUAD scope, the arrival at GROUP scope, and one at POD scope. -/
theorem witness_BarriersComplete :
    (let s := launched (st g0) (rcd 4)
     Issues s 0 0 g0 p0 ∧ wellFormed (.bara 7 .quad) = true ∧ Arriving s 0 g0 p0 .quad 7 (Barrier.fresh .quad 7 3 0) ∧
       Arriving s 0 g0 p0 .group 3 (Barrier.fresh .group 3 3 0) ∧ Arriving s 0 g0 p0 .pod 3 (Barrier.fresh .pod 3 255 0) ∧ entered p0 = true ∧
       kget g0.made 0 = none ∧ (0 : Nat) + 1 ≠ expectedOf s (Barrier.fresh .quad 7 3 0)) ∧
    (let b := bar0 .quad 7 3 0 1
     let s := { launched (st g0) (rcd 4) with barriers := [b] }
     Issues s 0 0 g0 p0 ∧ Arriving s 0 g0 p0 .quad 7 b ∧ b.arrivals + 1 = expectedOf s b) ∧
    (let s := launched (st g0) (rcd 4)
     waitOpen s 0 g0 .quad 7 = false ∧ driftDue s 0 g0 .quad 7 = none) ∧
    (let b := { bar0 .quad 7 3 0 1 with last := [(0, 0)] }
     let s := { launched (st g0) (rcd 4) with barriers := [b] }
     Issues s 0 0 g0 p0 ∧ waitOpen s 0 g0 .quad 7 = true) ∧
    (let s := launched (st g0) (rcd 0)
     Issues s 0 0 g0 p0 ∧ kget s.launches (s.launchOf g0) = some (launch0 (rcd 0)) ∧ recordCount (rcd 0) .pod = 0 ∧
       wellFormed (.bara 3 .pod) = true) := by
  have cnt : ∀ (s : State) sc, s.launches = [(3, launch0 (rcd 4))] → s.launchOf g0 = 3 → recordCount (rcd 4) sc ≠ 0 →
      (sc = Scope.group ∨ sc = Scope.core ∨ ∃ l, kget s.launches (s.launchOf g0) = some l ∧ recordCount l.rcd sc ≠ 0) := by
    intro s sc h1 h2 h3
    exact .inr (.inr ⟨launch0 (rcd 4), by rw [h1, h2]; decide, h3⟩)
  refine ⟨⟨by constructor <;> decide, by decide, ?_, ?_, ?_, by decide⟩, ⟨by constructor <;> decide, ?_, by decide⟩, by decide,
    ⟨by constructor <;> decide, by decide⟩, by constructor <;> decide, by decide⟩
  all_goals
    constructor
    · decide
    · exact cnt _ _ rfl (by decide) (by decide)
    all_goals decide

theorem witness_MemoryWaitsComplete :
    (let s := withGroup ram (oneAt 65528)
     let g := oneAt 65528
     Issues s 0 0 g p1 ∧ wellFormed (.waitm .eq true 0 (.reg 2)) = true ∧ entered p1 = true ∧
       check145 s 0 0 .read 8 (g.upair 0) 8 = .ok () ∧ p1.status = .run ∧ readUnit s 0 0 (g.upair 0) 8 = .ok (List.replicate 8 0) ∧
       wcondHolds .eq (leNat (List.replicate 8 0)) (waitmOperand g true (.reg 2)) = true ∧
       wcondHolds .ne (leNat (List.replicate 8 0)) (waitmOperand g true (.reg 2)) = false) ∧
    (let p := { p1 with status := .woken }
     let g := { oneAt 0 with paths := [(0, p)] }
     Issues (withGroup ram g) 0 0 g p ∧ p.status = .woken) ∧
    (let p := { p1 with status := .blocked (.waitm 0 .geu false 0 []) }
     let g := { oneAt 0 with paths := [(0, p)] }
     let s := withGroup ram g
     s.group 0 = some g ∧ g.path 0 = some p ∧ g.locks = [] ∧ readUnit s 0 0 0 4 = .ok [0, 0, 0, 0] ∧ wcondHolds .geu (leNat [0, 0, 0, 0]) 0 = true ∧
       wcondHolds .gtu (leNat (withTaken [⟨0, 4, [1, 0, 0, 0]⟩] 0 0 [0, 0, 0, 0])) 0 = false ∧
       wcondHolds .gtu (leNat (withTaken [⟨0, 4, [1, 0, 0, 0]⟩] 0 0 (zeros 8))) 0 = true) ∧
    (let p := { p1 with status := .yielded [(1, 4)] }
     let g := { oneAt 0 with paths := [(0, p), (8, { p1 with uid := 1, icount := 4 })] }
     let s := { st g with now := 64 }
     p.since + 64 ≤ s.now ∧ (st g).now < p.since + 64 ∧ ∃ r ∈ [(1, 4)], hasIssued (st g) r = false) ∧
    (let p := { p1 with waiting := true }
     let k : OpKind := .load false false false 4 [0] none
     let g := { oneAt 0 with paths := [(0, p)], ops := [(7, flying k 1)] }
     let s := { withGroup (tables (descAt 0x1B 0 0 0 0)) g with now := 2401 }
     s.group 0 = some g ∧ g.path 0 = some p ∧ p.status = .run ∧ ∃ e ∈ g.ops, slowLoad s g p e.1 e.2 = true) := by
  refine ⟨⟨by constructor <;> decide, by decide, by decide, ok_of (by decide +kernel), by decide, ok_of (by decide +kernel), by decide,
    by decide⟩, ⟨by constructor <;> decide, by decide⟩, ⟨by decide, by decide, rfl, ok_of (by decide +kernel), by decide, by decide, by decide⟩,
    by decide, by decide, by decide, by decide, by decide +kernel⟩

/-! ## Traps and the system instructions -/

/-- A range read, executed and pinned at 0, and one read, written and pinned at 0x10000. -/
def tables2 : State :=
  let m := Memory.store [] 0x0 (bytesOfDesc ⟨0, 0x10000, 0x100000, 0x25, 0, 0, 0, 0, 0, 0⟩)
  let m := Memory.store m 0x40 (bytesOfDesc ⟨0x10000, 0x8000, 0x1000, 0x23, 0, 0, 0, 0, 0, 0⟩)
  let m := Memory.store m 0x10000 (leBytes 8 0 ++ leBytes 4 2 ++ leBytes 4 1 ++ leBytes 8 0x30000)
  { State.reset with
      mem := Memory.store m 0x30000 (leBytes 4 4096)
      asidtb := mset 0 [] 0 0x10000
      asidMap := mset 255 [] 0 0
      tenbase := 0x400000
      cores := [(0, { Core.zero with rlb := [⟨0, 0x10000, 0x8000, 0, 0x40⟩, ⟨0, 0, 0x10000, 0, 0⟩] })] }
/-- A kernel descriptor at virtual address 0 with entry 0x80, flags `f`; a launch record of it at 0x200; tenant 0 is valid, with that
descriptor as its handler and frames from 0x10000 on. -/
def kernels (f : Nat) : State :=
  let d := leBytes 8 0x80 ++ leBytes 4 65536 ++ leBytes 2 1 ++ leBytes 2 f ++ zeros 8 ++ zeros 8 ++ leBytes 4 0 ++ leBytes 4 248 ++ leBytes 4 0 ++
    leBytes 2 256 ++ leBytes 2 0 ++ leBytes 4 0x100000 ++ zeros 76
  let r := zeros 8 ++ zeros 8 ++ leBytes 4 1 ++ leBytes 1 64 ++ zeros 43
  let t := leBytes 1 1 ++ leBytes 1 1 ++ leBytes 2 16 ++ zeros 20 ++ leBytes 8 0x10000 ++ leBytes 4 1
  poke (poke (poke tables2 0x100000 d) 0x100200 r) 0x400000 t

def sTrap : State := withGroup (kernels 8) g0
/-- In the handler, with a frame of no path and the views of R216's limits. -/
def sHandler : State := withGroup (poke (kernels 8) 0x1028 (zeros 4 ++ leBytes 2 248 ++ zeros 6 ++ leBytes 2 1 ++ zeros 2 ++ leBytes 4 0x100000)) { g0 with handler := some ⟨0x10, g0.paths, [], 0, [], [], SpFence.none, 0⟩ }
def frameDesc : Desc := ⟨0x10000, 0x8000, 0x1000, 0x23, 0, 0, 0, 0, 0, 0⟩
/-- The ranges of `tables2`, whatever stands in the frames. -/
def FramesAt (s : State) : Prop := (s.core 0).rlb = [⟨0, 0x10000, 0x8000, 0, 0x40⟩, ⟨0, 0, 0x10000, 0, 0⟩] ∧ s.desc 0x40 = frameDesc

theorem desc_kept {m : List Host.Cell} {a : Nat} {c : List Byte} (h : 0x1000 ≤ a) :
    Memory.bytes (Memory.store m a c) 0x40 64 = Memory.bytes m 0x40 64 := by
  apply List.ext_getElem
  · simp [Memory.bytes, length_mgetList]
  · intro i h1 h2
    unfold Memory.bytes at h1 h2 ⊢
    have hi : i < 64 := by simpa [length_mgetList] using h1
    have e1 := getD_mgetList (z := (0 : Byte)) (m := Memory.store m a c) (k := 0x40) hi
    have e2 := getD_mgetList (z := (0 : Byte)) (m := m) (k := 0x40) hi
    have e3 := Sys2Proof.Machine.Memory.byte_store (m := m) (a := a) (x := 0x40 + i) (bs := c)
    rw [if_neg (by omega)] at e3
    simp only [List.getD, List.getElem?_eq_getElem h1, List.getElem?_eq_getElem h2, Option.getD_some] at e1 e2
    exact e1.trans (e3.trans e2.symm)

theorem frame_phys {s : State} {x n : Nat} (h : x + n ≤ 0x8000) : physPlace s 0 (0x1000 + x) n = .ok (.mem (0x1000 + x)) := by
  have h1 : (0x1000 + x) / 2 ^ 48 = 0 := by omega
  have h2 : (0x1000 + x) % 2 ^ 48 = 0x1000 + x := by omega
  unfold physPlace
  simp only [h1, h2]
  exact if_pos (by unfold hbmLimit; omega)

theorem frame_base {s : State} {x : Nat} : basePlace s 0x40 frameDesc true x = .ok 0x1000 := by
  have hs : frameDesc.state = 0 := by decide
  have hr : s.rstate 0x40 frameDesc = 0 := by unfold State.rstate; simp [hs]
  have h4 : frameDesc.pair = false := by decide
  have h5 : frameDesc.pbase = 0x1000 := by decide
  unfold basePlace
  simp only [hr, h4, h5, Bool.false_and, Bool.false_eq_true, if_false]

theorem frame_place {s : State} {va x n : Nat} (hx : va - frameDesc.vbase = x) (h : x + n ≤ 0x8000) :
    place s 0 0x40 frameDesc true va n = .ok (.mem (0x1000 + x)) := by
  have h6 : regionOk frameDesc 0x1000 = true := by decide
  have h7 : frameDesc.packed = false := by decide
  unfold place
  simp only [hx, frame_base, h6, h7, Bool.not_true, Bool.false_eq_true, if_false]
  exact frame_phys h

theorem frame_found {s : State} {va : Nat} (hs : FramesAt s) (lo : 0x10000 ≤ va) (hi : va < 0x18000) :
    translate s 0 0 va = some (0x40, frameDesc) := by
  have h : ([⟨0, 0x10000, 0x8000, 0, 0x40⟩, ⟨0, 0, 0x10000, 0, 0⟩] : List Rlb).find?
      (fun e => e.asid = 0 && decide (e.vbase ≤ va) && decide (va < e.vbase + e.length)) = some ⟨0, 0x10000, 0x8000, 0, 0x40⟩ := by
    rw [List.find?_cons_of_pos]
    simp only [Bool.and_eq_true, decide_eq_true_eq]
    exact ⟨⟨trivial, lo⟩, by omega⟩
  unfold Sys2Proof.Machine.translate
  rw [hs.1, h]
  exact congrArg some (congrArg (Prod.mk 0x40) hs.2)

theorem unit_written {s : State} {va pa a : Nat} {d : Desc} {c : List Byte} (hf : translate s 0 0 va = some (a, d))
    (hp : place s 0 a d true va c.length = .ok (.mem pa)) (h : pa / 2 ^ 48 ≠ 1) : writeUnit s 0 0 va c = .ok (s.physStore pa c) := by
  have hq : writePlace s (.mem pa) c = .ok (s.physStore pa c) := if_neg fun hh => h (of_decide_eq_true (Bool.and_eq_true_iff.mp hh).1)
  unfold writeUnit
  rw [hf]
  unfold writeIn
  simp only [hp, hq]
  rfl

theorem frame_off {x : Nat} : 0x10000 + x - frameDesc.vbase = x := by
  have hv : frameDesc.vbase = 0x10000 := by decide
  rw [hv]
  exact Nat.add_sub_cancel_left ..

theorem frame_unit {s : State} {x : Nat} {c : List Byte} (hs : FramesAt s) (h0 : 0 < c.length) (h : x + c.length ≤ 0x8000) :
    writeUnit s 0 0 (0x10000 + x) c = .ok (s.physStore (0x1000 + x) c) :=
  unit_written (frame_found hs (Nat.le_add_right 0x10000 x) (by omega)) (frame_place frame_off h) (by omega)

theorem frames_kept {s : State} {x : Nat} {c : List Byte} (hs : FramesAt s) (hx : x ≤ 0x8000) : FramesAt (s.physStore (0x1000 + x) c) := by
  have e : s.physStore (0x1000 + x) c = s.cellStore (0x1000 + x) c := if_neg (by omega)
  rw [e]
  refine ⟨hs.1, ?_⟩
  have h := hs.2
  unfold State.desc at h ⊢
  rw [← h]
  have b (u : State) : u.bytes 0x40 64 = Memory.bytes u.mem 0x40 64 := if_neg (by decide)
  rw [b, b]
  exact congrArg descOfBytes (desc_kept (Nat.le_add_right ..))

theorem frames_written : ∀ (fuel x : Nat) (bs : List Byte) (s : State), FramesAt s → x + bs.length ≤ 0x8000 →
    (writeVa s 0 0 fuel (0x10000 + x) bs).2 = none := by
  intro fuel
  induction fuel with
  | zero => intros; rfl
  | succ fuel ih =>
    intro x bs s hs hi
    simp only [writeVa]
    split
    · rfl
    · rename_i hne
      have h0 : 0 < (bs.take (64 - (0x10000 + x) % 64)).length := by
        cases bs with
        | nil => exact absurd rfl hne
        | cons => rw [List.length_take, List.length_cons]; omega
      have hd : (bs.take (64 - (0x10000 + x) % 64)).length + (bs.drop (64 - (0x10000 + x) % 64)).length = bs.length := by
        rw [List.length_take, List.length_drop]; omega
      generalize bs.take (64 - (0x10000 + x) % 64) = c at hd h0 ⊢
      generalize bs.drop (64 - (0x10000 + x) % 64) = r at hd ⊢
      rw [frame_unit hs h0 (by omega)]
      change (writeVa _ 0 0 fuel (0x10000 + x + c.length) r).2 = none
      rw [Nat.add_assoc]
      exact ih _ _ _ (frames_kept hs (by omega)) (by omega)

theorem witness_TrapEntry : sTrap.group 0 = some g0 ∧ g0.handler = none ∧ stopWaits sTrap g0 = false ∧ (restart sTrap 0).group 0 = some g0 ∧
    (handlerOf (restart sTrap 0) g0).isSome = true ∧
    ((restart sTrap 0).tenant ((restart sTrap 0).tenantOf g0.asid)).tfbase + 8192 * g0.frame = 0x10000 + 0 ∧
    ∀ bs : List Byte, bs.length ≤ 8192 → (vwrite (restart sTrap 0) 0 0 (0x10000 + 0) bs).2 = none :=
  ⟨by decide +kernel, by decide +kernel, by decide +kernel, by decide +kernel, by decide +kernel, by decide +kernel,
    fun bs h => frames_written _ 0 bs _ ⟨by decide +kernel, by decide +kernel⟩ (by omega)⟩
theorem witness_HandlerMachineCheck :
    (let g := { g0 with handler := some ⟨0x10, g0.paths, [], 0, [], [], SpFence.none, 0⟩ }
     (st g).group 0 = some g ∧ g.handler.isSome = true) ∧
    (let g := gFly (.copy ⟨0, 5⟩ 0 0 1) 1
     (st g).group 0 = some g ∧ g.handler = none ∧ g.stopping = none ∧ stopHeld (st g) g = true) ∧
    (stopWaits (st g0) g0 = false ∧ (restart (st g0) 0).group 0 = some g0 ∧ handlerOf (restart (st g0) 0) g0 = none) ∧
    (kget (launched (st g0) (rcd 0)).cohorts g0.cohort).isSome = true ∧ (st g0).pairings = [] := by
  refine ⟨by decide, by decide, by decide, by decide, by decide⟩
theorem witness_TrapFrameHoldsState : g0.stack.length ≤ 32 ∧ (trapOf 0x10).mon.length ≤ 48 ∧ slicePath g0 15 = some (0, p0) ∧
    slicePath { g0 with paths := [] } 15 = none ∧ gParted.stack.reverse[0]? = some parting ∧ gParted.stack.length ≤ 31 := by decide
theorem witness_RestartReturnsToEntry :
    (st g0).group 0 = some g0 ∧ (st g0).pairings = [] ∧ (∀ e ∈ g0.paths, e.2.entryDue = none) ∧ (g0.paths.map (·.1)).Nodup ∧
      g0.path 0 = some p0 ∧ g0.handler = none ∧ stopWaits (st g0) g0 = false ∧ p0.attempts = 0 ∧ { p0 with attempts := 1 }.attempts ≠ 0 ∧
      g0.paths = [(0, p0)] ∧ (p0.region.sigs.map (·.1)).Nodup ∧ (p0.region.depths.map (·.1)).Nodup ∧
      (let s := (st g0).setCore 0 { Core.zero with banks := [(15, ⟨0, [(7, ⟨accZero, [(0, accZero)]⟩)], []⟩)] }
       ∃ b, kget (s.core 0).banks 15 = some b ∧ b.owner = 0 ∧ (b.elems.map (·.1)).Nodup) ∧
      (∃ h, (restart (st g0) 0).group 0 = some h) := by
  refine ⟨by decide, by decide, by decide, by decide, by decide, by decide, by decide, by decide, by decide, by decide, by decide, by decide,
    ⟨_, rfl, by decide, by decide⟩, g0, by decide⟩
theorem okWith_of {ε α : Type} {e : Except ε α} {P : α → Bool} (h : e.toOption.map P = some true) : ∃ u, e = .ok u ∧ P u = true := by
  cases e with
  | ok y => exact ⟨y, rfl, by simpa [Except.toOption] using h⟩
  | error y => simp [Except.toOption] at h

set_option maxRecDepth 1000000 in
theorem frame_read : (vread sHandler 0 0 0x10000 8192).toOption.map (fun b => frameOk b 65536 0) = some true := by decide +kernel
/-- CLOCK; RESUME outside and inside a handler; ABORT of a cohort. -/
theorem witness_SystemInstructionsComplete :
    (Issues (st g0) 0 0 g0 p0 ∧ wellFormed (.clock 190) = true ∧ g0.parted = false ∧ g0.handler = none) ∧
    (let g := { g0 with handler := some ⟨0x10, g0.paths, [], 0, [], [], SpFence.none, 0⟩ }
     Issues sHandler 0 0 g p0 ∧ g.handler = some ⟨0x10, g0.paths, [], 0, [], [], SpFence.none, 0⟩ ∧ p0.mask = lanesBelow g.lanes ∧ g.paths.length = 1 ∧
       (sHandler.tenant (sHandler.tenantOf g.asid)).tfbase + 8192 * g.frame = 0x10000 ∧ ∃ b, vread sHandler 0 0 0x10000 8192 = .ok b ∧
         frameOk b g.regbytes 0 = true) ∧
    (let s := launched (st g0) (rcd 0)
     Issues s 0 0 g0 p0 ∧ s.pairings = [] ∧ kget s.cohorts g0.cohort = some ⟨3, 0, 0, [5], [0], none, 0⟩ ∧ [0].Nodup) := by
  refine ⟨⟨issues_g0, by decide +kernel⟩, ⟨by constructor <;> decide +kernel, by decide +kernel, by decide +kernel, by decide +kernel, by decide +kernel, okWith_of frame_read⟩,
    by constructor <;> decide +kernel, by decide +kernel⟩

/-- A kernel's launch record, with room in the store and without. -/
theorem witness_KernelLaunchesComplete :
    (let s := withGroup (kernels 0) (atAddr 0x200)
     let g := atAddr 0x200
     Issues s 0 0 g p0 ∧ wellFormed (.launch 0) = true ∧ (s.tenant (s.tenantOf g.asid)).valid = true ∧ entered p0 = true ∧
       (s.die (g.core / 256)).lwaits = [] ∧ storeFull s (g.core / 256) (s.tenantOf g.asid) = false) ∧
    (∃ r kd, RecordGood (withGroup (kernels 0) (atAddr 0x200)) (atAddr 0x200) 0x200 r kd) ∧
    (let s := withGroup (poke (kernels 0) 0x400002 [0]) (atAddr 0x200)
     Issues s 0 0 (atAddr 0x200) p0 ∧ (s.tenant (s.tenantOf 0)).valid = true ∧ storeFull s 0 (s.tenantOf 0) = true) ∧
    (let s := (withGroup (kernels 0) (atAddr 0x200)).setDie 0 { Die.zero with lwaits := [⟨0, 0, 0, true⟩] }
     Issues s 0 0 (atAddr 0x200) p0 ∧ entered p0 = true ∧ (∃ w ∈ (s.die 0).lwaits, w.gid = 0 ∧ w.uid = p0.uid) ∧
       ∀ w ∈ (s.die 0).lwaits, w.gid = 0 → w.uid = p0.uid → w.reserved = true) := by
  refine ⟨⟨by constructor <;> decide, by decide, by decide +kernel, by decide, by decide, by decide +kernel⟩,
    ⟨⟨0, 0, 1, 64, 0, 0, 0, 0, 0, 0, 0, 0⟩, ⟨0x80, 65536, 1, 0, 0, 0, 0, ⟨0, 248, 0, 256, 0, 0x100000⟩⟩,
      zeros 16 ++ leBytes 4 1 ++ leBytes 1 64 ++ zeros 43, ok_of (by decide +kernel), ok_of (by decide +kernel), by decide +kernel,
      by decide +kernel, by decide +kernel⟩, ⟨by constructor <;> decide, by decide +kernel, by decide +kernel⟩, by constructor <;> decide, by decide, by decide, by decide⟩

def mon0 : Monitor := monBound ⟨0, 4, 4, 0, 0, .core, 0, 0, 0⟩ 3
/-- A configuration block in s186 to s191; a monitor of the launch, and one of another. -/
theorem witness_MonitorInstructionsComplete :
    (let g := withU g0 [(188, 4), (189, 4), (190, 32)]
     let s := launched (st g) (rcd 0)
     Issues s 0 0 g p0 ∧ g.parted = false ∧ wellFormed (.monset 3 186) = true ∧
       monCfgOf (uniWords g 186 6) = some ⟨0, 4, 4, 0, 0, .core, 0, 0, 0⟩ ∧ kget (s.core g.core).mons 3 = none) ∧
    (let g := withU g0 [(188, 4), (189, 4), (190, 32)]
     let s := (launched (st g) (rcd 0)).setCore 0 { Core.zero with mons := [(3, mon0)] }
     Issues s 0 0 g p0 ∧ monCfgOf (uniWords g 186 6) = some mon0.cfg ∧ kget (s.core g.core).mons 3 = some mon0 ∧ mon0.launch = s.launchOf g ∧
       mon0.cfg.scope = .core ∧ { mon0 with cfg := { mon0.cfg with length := 8 } }.cfg ≠ mon0.cfg) ∧
    (let s := (launched (st g0) (rcd 0)).setCore 0 { Core.zero with mons := [(3, mon0)] }
     Issues s 0 0 g0 p0 ∧ kget (s.core 0).mons 3 = some mon0 ∧ mon0.launch = s.launchOf g0 ∧ monHeld s 0 mon0 = false ∧
       wellFormed (.monref 3 186) = true ∧ wellFormed (.monrd 185 3 .ref) = true) ∧
    (let s := (st g0).setCore 0 { Core.zero with mons := [(3, mon0)] }
     Issues s 0 0 g0 p0 ∧ kget (s.core 0).mons 3 = some mon0 ∧ mon0.launch ≠ s.launchOf g0) := by
  refine ⟨⟨by constructor <;> decide, by decide⟩, ⟨by constructor <;> decide, by decide⟩, ⟨by constructor <;> decide, by decide⟩,
    by constructor <;> decide, by decide⟩

def pub0 : Pub := ⟨⟨1, 9⟩, 0, 1, 0, 0, 0, none, true, false⟩
/-- Core 0 reads tile 9 of core 1, which the entry 7 of that core holds, over three hops, unchained. -/
def sQuad (chained : Bool) (hops : Nat) : State :=
  { (st (withU g0 [(0, 256), (1, 7)])) with
      cohorts := [(0, ⟨3, 0, 0, [5], [0], none, 0⟩), (1, ⟨3, 1, 1, [9], [], none, 0⟩)]
      launches := [(3, launch0 (rcd 0))]
      cores := [(0, { Core.zero with tiles := [(5, tReady)] })]
      quads := [(0, { Quad.zero 0 with pubs := [(15, { pub0 with chained := chained, hops := hops })] })] }
theorem witness_QuadInstructionsComplete :
    (let g := withU g0 [(0, 256), (1, 7)]
     let s := sQuad true 3
     Issues s 0 0 g p0 ∧ g.parted = false ∧ (s.quad 0).chain = false ∧ (g.us (.reg 0)).toNat < 1024 ∧ (1 : Nat) ≠ g.core % 4 ∧
       cohortOn s (s.launchOf g) 1 = some ⟨3, 1, 1, [9], [], none, 0⟩ ∧ [9][(g.us (.reg 0)).toNat % 256]? = some 9 ∧
       pubOf s 1 9 = some (15, { pub0 with hops := 3 }) ∧ bufFilling { pub0 with hops := 3 } (hopsTo 1 0) = false ∧ (s.core 1).retScr = false ∧
       active g p0 ≠ 0 ∧ p0.marks.acqWide = false ∧ offsOk (active g p0) ((srcVals g p0 .zero).map (·.toNat)) ∧
       (g.us (.reg 1)).toNat < 8 ∧ TileReady s 0 g 0 .read 5 ∧ kget (s.quad 0).pubs (8 * (g.core % 4) + 7) = none ∧
       Arriving s 0 g p0 .quad 7 (Barrier.fresh .quad 7 3 0)) ∧
    (let s := { sQuad true 3 with quads := [] }
     pubOf s 1 9 = none ∧ cohortOn s (s.launchOf g0) 1 = some ⟨3, 1, 1, [9], [], none, 0⟩) := by
  refine ⟨⟨by constructor <;> decide, by decide, by decide, by decide, by decide, by decide, by decide, by decide, by decide, by decide,
    by decide, by decide, ?_, by decide, by constructor <;> decide, by decide, ?_⟩, by decide, by decide⟩
  · unfold offsOk; decide
  · constructor
    · decide
    · exact .inr (.inr ⟨launch0 (rcd 0), by decide, by decide⟩)
    all_goals decide

theorem reqsFail_group (s : State) (x y : Ctx) (h : x.g = y.g) (t : Nat) : ∀ (bs : List (List Byte)) k, reqsFail s x t k bs = reqsFail s y t k bs := by
  intro bs
  induction bs with
  | nil => intro k; rfl
  | cons b bs ih => intro k; simp only [reqsFail, h, ih]

/-- A request of 4 bytes from address 128, to window 1 of node 2; counter 4095 and send queue 0 of engine 0 are tenant 0's. -/
def req0 : List Byte := leBytes 1 1 ++ leBytes 1 0 ++ leBytes 2 1 ++ leBytes 2 2 ++ leBytes 2 0 ++ leBytes 8 128 ++ leBytes 8 0 ++ leBytes 4 4 ++ zeros 36
def sNet (count : Word) : State :=
  let s := poke ram 0x100000 req0
  { (s.setSendQ 0 0 { SendQ.zero with en := true, base := 0x1000 }) with counters := mset 0 [] 4095 count, counterTen := mset 255 [] 4095 0 }
theorem witness_NetworkInstructionsComplete :
    (let g := withU g0 [(2, 1), (3, 4095)]
     let s := withGroup (sNet 0) g
     Issues s 0 0 g p0 ∧ wellFormed (.npost .zero 0) = true ∧ queueOk s g (g.us .zero) = true ∧ (g.u (0 + 2)).toNat = 1 ∧ g.upair 0 % 64 = 0 ∧
       checkBytes s g.core g.asid .read (1 + 1) (g.upair 0) (64 * 1) = .ok () ∧ vread s g.core g.asid (g.upair 0) (64 * 1) = .ok req0 ∧
       (∀ x : Ctx, x.g = g → reqsFail s x (s.tenantOf g.asid) 0 (chunksOf 64 1 req0) = none) ∧ (chunksOf 64 1 req0).length = 1 ∧
       1 ≤ freeSlots (s.sendQ 0 0) ∧ counterOk s g (g.us (.reg 3)) = true ∧ entered p0 = true ∧
       (s.counter (g.us (.reg 3)).toNat - g.us .zero).toNat < 2 ^ 31 ∧ g.parted = false ∧ counterOk s g (g.us (.reg 2)) = false ∧
       queueOk s g (g.us (.reg 3)) = false) ∧
    2 ^ 31 ≤ ((withGroup (sNet 0x80000000) g0).counter 4095 - g0.us .zero).toNat := by
  refine ⟨⟨by constructor <;> decide, by decide, by decide +kernel, by decide, by decide, ok_of (by decide +kernel), ok_of (by decide +kernel), ?_,
    by decide +kernel, by decide +kernel, by decide +kernel, by decide, by decide +kernel, by decide, by decide +kernel, by decide +kernel⟩, by decide +kernel⟩
  intro x h
  rw [reqsFail_group _ x ⟨0, 0, _, p0, 0⟩ h]
  decide +kernel

/-! ## Ends, placement, watchdogs, quads -/

theorem witness_GroupEndCompletes :
    let g : Group := { g0 with status := .ending false, paths := [], lastPath := some (0, { p0 with trel := [5] }) }
    let s := (launched (st g) (rcd 0)).setCore 0 { Core.zero with tiles := [(5, { tReady with relBy := [(0, 0)] })] }
    s.group 0 = some g ∧ groupReady s 0 g = true ∧ g.endFault = none ∧ s.barriers = [] ∧
      g.lastPath = some (0, { p0 with trel := [5] }) ∧ kget (s.core g.core).tiles 5 = some { tReady with relBy := [(0, 0)] } ∧
      kget s.cohorts g.cohort = some ⟨3, 0, 0, [5], [0], none, 0⟩ ∧ kget s.launches 3 = some (launch0 (rcd 0)) ∧ [0].filter (· ≠ 0) = [] := by decide
/-- In an address space that is no longer its tenant's; without a signal; and with one at address 65528. -/
theorem witness_LaunchCompletes :
    (let l := { launch0 { rcd 0 with flags := 1, signal := 65528 } with live := 0, source := .queue 0 0 5 0 9 }
     let p : Pkt := ⟨.launch 3, 0, 0, false, 9, 0⟩
     let s := { ram.setQueue 0 0 { Queue.zero with pkts := [(5, p)] } with launches := [(3, l)], asidMap := [] }
     kget s.launches 3 = some l ∧ launchOver l = true ∧ l.rcd.flags % 2 = 1 ∧ s.tenantOf l.asid ≠ l.tenant ∧
       kget (s.queue 0 0).pkts 5 = some p) ∧
    (let l := { launch0 (rcd 0) with live := 0 }
     let s := { ram with launches := [(3, l)] }
     kget s.launches 3 = some l ∧ launchOver l = true ∧ l.rcd.flags % 2 = 0) ∧
    (let l := { launch0 { rcd 0 with flags := 1, signal := 65528 } with live := 0 }
     let s := { ram with launches := [(3, l)] }
     launchOver l = true ∧ l.rcd.flags % 2 = 1 ∧ s.tenantOf l.asid = l.tenant ∧ cpLocked s true l.asid l.rcd.signal 8 = false ∧
       check145 s (sourceCore l) l.asid (.atom true) 8 l.rcd.signal 8 = .ok () ∧
       atomUnit s (sourceCore l) l.asid l.rcd.signal 8 = .ok (zeros 8) ∧
       ∃ u, writeUnit s (sourceCore l) l.asid l.rcd.signal (leBytes 8 (leNat (zeros 8) + l.rcd.sigadd)) = .ok u) :=
  ⟨by decide +kernel, by decide, by decide, by decide, by decide +kernel, by decide +kernel, ok_of (by decide +kernel), ok_of (by decide +kernel),
    isOk_of (by decide +kernel)⟩
/-- A blocked group on a draining quad; an evicted one whose wait is over; one that runs. -/
theorem witness_EvictionAndRestoration :
    (let g : Group := { g0 with paths := [(0, { p0 with status := .blocked .launch })] }
     let s := { st g with quads := [(0, { Quad.zero 0 with draining := true })] }
     s.group 0 = some g ∧ mayLeave s g = true ∧ evictReason s 0 g = true ∧ ∀ e ∈ g.paths, e.2.entryDue = none) ∧
    (let g : Group := { g0 with status := .evicted 0 (some 4), paths := [(0, { p0 with status := .blocked (.bar .group 0) })] }
     let s := st g
     s.group 0 = some g ∧ (∀ e ∈ s.groups, e.2.core = g.core → ∀ j ∈ wokeAt e.2, 4 ≤ j) ∧ 0 < slotsFree s g.core ∧ g.regbytes ≤ regsFree s g.core ∧ (s.quad 0).draining = false) ∧
    (let g (k : Nat) : Group := { g0 with status := .evicted 0 (some k), paths := [(0, { p0 with status := .blocked (.bar .group 0) })] }
     let s := { st (g 4) with groups := [(0, g 4), (1, g 3)] }
     s.group 0 = some (g 4) ∧ (1, g 3) ∈ s.groups ∧ wokeAt (g 3) = some 3 ∧ 3 < 4) ∧
    ((st g0).group 0 = some g0 ∧ mayLeave (st g0) g0 = false) := by decide
/-- Launch 3 has one cohort of one group to place, on die 0, for tenant 0; a group of two mebibytes and more fits no core. -/
def sPlace (k : KDesc) : State := { kernels 0 with launches := [(3, { launch0 ⟨0, 0, 1, 64, 0, 0, 0, 0, 0, 0, 0, 0⟩ with kd := k, nextCohort := 0, live := 0, source := .queue 0 0 0 5 9 })] }
theorem witness_PlacementCompletes :
    (let l : Launch := { launch0 ⟨0, 0, 1, 64, 0, 0, 0, 0, 0, 0, 0, 0⟩ with nextCohort := 0, live := 0, source := .queue 0 0 0 5 9 }
     let s := sPlace kd0
     ranked s 0 = (3, l) :: [] ∧ couldFit s 0 l = true ∧ l.rcd.bquad = 0 ∧ (chooseCores s 0 3 l).isSome = true ∧ kget s.launches 3 = some l) ∧
    (let k := { kd0 with scratch := 193 * 4096 }
     let l : Launch := { launch0 ⟨0, 0, 1, 64, 0, 0, 0, 0, 0, 0, 0, 0⟩ with kd := k, nextCohort := 0, live := 0, source := .queue 0 0 0 5 9 }
     ranked (sPlace k) 0 = (3, l) :: [] ∧ couldFit (sPlace k) 0 l = false) ∧
    (let s := (kernels 0).setDie 0 { Die.zero with lwaits := [⟨0, 0, 0, false⟩] }
     entriesHeld s 0 < 2048 ∧ (s.die 0).lwaits = [⟨0, 0, 0, false⟩] ∧ underCap s 0 0 = true) := by
  refine ⟨⟨by decide +kernel, by decide +kernel, by decide, by decide +kernel, by decide +kernel⟩, ⟨by decide +kernel, by decide +kernel⟩, by decide +kernel,
    by decide +kernel, by decide +kernel⟩
theorem witness_WatchdogsAndQuads :
    (let s := launched (st g0) (rcd 0)
     kget s.launches 3 = some (launch0 (rcd 0)) ∧ (launch0 (rcd 0)).killed = false ∧ s.pairings = []) ∧
    (let g := { g0 with stall := 0x40000000 }
     (st g).group 0 = some g ∧ g.status = .resident ∧ ((st g).die 0).gcyc ≠ 0 ∧ ((st g).die 0).gcyc ≤ g.stall ∧ g.paths = [(0, p0)] ∧
       pathRunnable p0 = true) ∧
    g0.stall < ((st g0).die 0).gcyc ∧
    ((State.reset.quad 255).stalls < 255 ∧ (State.reset.quad 255).stalls + (State.reset.quad 255).btos + 1 < (State.reset.quad 255).esc) ∧
    (let p : Pkt := ⟨.launch 3, 0, 0, false, 0, 0⟩
     let s := { State.reset.setQueue 0 127 { Queue.zero with pkts := [(0, p)] } with now := 1200000 * 2000 }
     (s.die 0).cpms ≠ 0 ∧ (s.queue 0 127).pkts = [(0, p)] ∧ pktWaits p = false ∧ (s.queue 0 127).progress + 1200000 * (s.die 0).cpms ≤ s.now) ∧
    (let b := bar0 .quad 7 3 0 1
     let s := { State.reset with barriers := [b], now := 1200 * 1024 }
     b.scope = .quad ∧ b.idx = 7 ∧ b.domain = 0 ∧ b.arrivals ≠ 0 ∧ b.timedOut = false ∧ (s.quad 0).bto ≠ 0 ∧
       b.firstAt + 1200 * (s.quad 0).bto ≤ s.now ∧ (s.quad 0).btos < 255) ∧
    (State.reset.recovery = false ∧ physUsed State.reset 0 65 = false ∧ quadEmpty State.reset 0 = true ∧ quadEmpty (st g0) 0 = false ∧
      (∀ c ∈ quadCores 0, (tilesUsed State.reset c).length ≤ 168) ∧ (∀ e ∈ (State.reset.quad 0).pubs, e.2.chained = false) ∧
      physUsed (st g0) 0 64 = false ∧ (0x01000000 : Word).toNat / 2 ^ 24 % 2 = 1) ∧
    (let s := sQuad true 0
     kget (s.quad (2 / 4)).pubs (8 * (1 % 4) + 7 % 8) = some { pub0 with hops := 0 } ∧ hopInto { pub0 with hops := 0 } (1 % 4) 2 = true ∧
       hopInto { pub0 with fails := 3, withdrawn := true } (1 % 4) 2 = true) ∧
    State.reset.recovery = false ∧ (255 : Nat) < 1024 ∧
    (let s := launched (st g0) (rcd 0)
     kget s.launches 3 = some (launch0 (rcd 0)) ∧ kget s.cohorts 0 = some ⟨3, 0, 0, [5], [0], none, 0⟩ ∧ (0 : Nat) / 4 = 0) := by decide


/-! ## Queues -/

/-- Queue 0 of die 0, enabled, its ring at address 0x1000 with `b` in it, and two slots written. -/
def queue0 : Queue := { Queue.zero with en := true, base := 0x1000, ptrblk := 0x2000, wptr := 2 }
def sQueue (b : List Byte) : State := poke (ram.setQueue 0 0 queue0) 0x101000 b
/-- A packet of type `t` with flags `f` and body `b`. -/
def pkt (t f : Nat) (b : List Byte) : List Byte := leBytes 1 t ++ leBytes 1 f ++ zeros 2 ++ leBytes 4 7 ++ b ++ zeros (56 - b.length)
def starting (t f : Nat) (b : List Byte) : Prop := Starts (sQueue (pkt t f b)) 0 0 t queue0 (pkt t f b)

theorem witness_QueueControlsComplete :
    (let s := ram.setQueue 0 127 { Queue.zero with base := 0x1000, ptrblk := 0x2000 }
     let v : Word := 0x84
     v.toNat / 128 % 2 = 1 ∧ enableOk s 0 (qctlFields (s.queue 0 127) v) = true ∧
       vread s (cpCore 0) (qctlFields (s.queue 0 127) v).asid ((s.queue 0 127).ptrblk + 64) 4 = .ok (zeros 4) ∧
       enableOk s 0 (qctlFields (s.queue 0 127) 0x91) = false ∧ s.tenantOf ((0x184 : Word).toNat / 2 ^ 14 % 1024) ≠ (0x184 : Word).toNat / 256 % 64) ∧
    (0x60 : Word).toNat / 128 % 2 = 0 ∧ queue0.en = true ∧ { queue0 with halted := some 1 }.halted.isSome = true ∧ sigBlocked { queue0 with halted := some 1 } = false ∧
    (let s := poke (ram.setQueue 0 0 queue0) 0x102000 (leBytes 4 17)
     s.tenantOf 0 = queue0.tenant ∧ locked (s.die 0).locks 0 false 0 0x2000 4 = false ∧
       vread s (cpCore 0) 0 0x2000 4 = .ok (leBytes 4 17) ∧ 2 ^ queue0.lsize < (leNat (leBytes 4 17) + 2 ^ 32 - queue0.rptr) % 2 ^ 32) ∧
    (let s := ram.setQueue 0 0 queue0
     s.tenantOf 0 = queue0.tenant ∧ locked (s.die 0).locks 0 false 0 0x2000 4 = false ∧ vread s (cpCore 0) 0 0x2000 4 = .ok (zeros 4)) ∧
    (let s := poke (sQueue (pkt 1 0 [])) 0x102000 (leBytes 4 16)
     s.tenantOf 0 = queue0.tenant ∧ locked (s.die 0).locks 0 false 0 0x2000 4 = false ∧ vread s (cpCore 0) 0 0x2000 4 = .ok (leBytes 4 16) ∧
       1 ≤ leNat (leBytes 4 16) ∧ leNat (leBytes 4 16) ≤ 2 ^ queue0.lsize) := by
  refine ⟨⟨by decide, by decide +kernel, ok_of (by decide +kernel), by decide +kernel⟩, by decide, by decide, by decide, by decide,
    ⟨by decide +kernel, by decide +kernel, ok_of (by decide +kernel), by decide⟩, ⟨by decide +kernel, by decide +kernel, ok_of (by decide +kernel)⟩,
    by decide +kernel, by decide +kernel, ok_of (by decide +kernel), by decide, by decide⟩
/-- A PREFETCH of a second range, from 0x10000 on, which is ABSENT while a checkpoint of its tenant runs on die 1. -/
def fetchPkt : List Byte := pkt 3 0 (leBytes 8 0x10000 ++ leBytes 4 1)
def sPrefetch : State :=
  let s := poke (poke (sQueue fetchPkt) 0x10008 [2]) 0x20040 (bytesOfDesc { descAt 0x201 2 0 0x1000000000000 0x200000 with vbase := 0x10000 })
  { s with capdec := 0x8FF }.setQueue 1 0 { Queue.zero with pkts := [(0, ⟨.checkpoint (zeros 128), 0, 0, false, 0, 0⟩)] }
theorem witness_PacketsStart_prefetch :
    (let b := pkt 3 0 (leBytes 8 0 ++ leBytes 4 1)
     let s := sQueue b
     Starts s 0 0 3 queue0 b ∧ windowWaits (hintWindow s (iodOf (cpCore 0)) 0 0 65536) (iodOf (cpCore 0)) 0 0 65536 = false) ∧
    (Starts sPrefetch 0 0 3 queue0 fetchPkt ∧
      windowWaits (hintWindow sPrefetch (iodOf (cpCore 0)) 0 65536 131072) (iodOf (cpCore 0)) 0 65536 131072 = true) := by
  refine ⟨⟨⟨?_, ?_, ?_⟩, ?_⟩, ⟨?_, ?_, ?_⟩, ?_⟩ <;> decide +kernel
theorem witness_PacketsStart_done : starting 1 4 [] ∧
    (starting 4 0 (leBytes 8 0 ++ leBytes 8 0) ∧ readSignal (sQueue (pkt 4 0 (leBytes 8 0 ++ leBytes 8 0))) 0 0 0 = .ok 0) ∧
    (starting 4 0 (leBytes 8 0 ++ leBytes 8 1) ∧ readSignal (sQueue (pkt 4 0 (leBytes 8 0 ++ leBytes 8 1))) 0 0 0 = .ok 0) := by
  refine ⟨⟨by decide +kernel, by decide +kernel, by decide +kernel⟩,
    ⟨⟨by decide +kernel, by decide +kernel, by decide +kernel⟩, ok_of (by decide +kernel)⟩,
    ⟨by decide +kernel, by decide +kernel, by decide +kernel⟩, ok_of (by decide +kernel)⟩
theorem witness_PacketsStart_signal :
    (let b := leBytes 8 0 ++ leBytes 8 5
     let s := sQueue (pkt 5 2 b)
     starting 5 2 b ∧ pf (pkt 5 2 b) 24 1 = 0 ∧ check145 s (cpCore 0) 0 .write 8 (pf (pkt 5 2 b) 8 8) 8 = .ok () ∧
       cpLocked s true 0 (pf (pkt 5 2 b) 8 8) 8 = false ∧
       ∃ u, writeUnit s (cpCore 0) 0 (pf (pkt 5 2 b) 8 8) (((pkt 5 2 b).drop 16).take 8) = .ok u) ∧
    (let b := leBytes 8 0 ++ leBytes 8 5 ++ leBytes 1 1
     let s := sQueue (pkt 5 0 b)
     starting 5 0 b ∧ pf (pkt 5 0 b) 24 1 = 1 ∧ ∃ u, addWord s (cpCore 0) 0 (pf (pkt 5 0 b) 8 8) (pf (pkt 5 0 b) 16 8) = .ok u) ∧
    (let b := leBytes 8 64
     let s := sQueue (pkt 8 0 b)
     starting 8 0 b ∧ check145 s (cpCore 0) 0 .write 32 (pf (pkt 8 0 b) 8 8) 32 = .ok () ∧
       cpLocked s true 0 (pf (pkt 8 0 b) 8 8) 32 = false ∧
       ∃ u, writeUnit s (cpCore 0) 0 (pf (pkt 8 0 b) 8 8) (markerBytes s 0 0 0 (pkt 8 0 b)) = .ok u) := by
  refine ⟨⟨⟨by decide +kernel, by decide +kernel, by decide +kernel⟩, by decide +kernel, ok_of (by decide +kernel), by decide +kernel,
      isOk_of (by decide +kernel)⟩,
    ⟨⟨by decide +kernel, by decide +kernel, by decide +kernel⟩, by decide +kernel, isOk_of (by decide +kernel)⟩,
    ⟨by decide +kernel, by decide +kernel, by decide +kernel⟩, ok_of (by decide +kernel), by decide +kernel, isOk_of (by decide +kernel)⟩
/-- A launch of one cohort of the kernel at address 0. -/
def launchPkt : List Byte := pkt 2 1 [] ++ (zeros 8 ++ zeros 8 ++ leBytes 4 1 ++ leBytes 1 64 ++ zeros 43)
theorem witness_PacketsStart_hand :
    (let s := poke ((kernels 0).setQueue 0 0 queue0) 0x101000 launchPkt
     Starts s 0 0 2 queue0 launchPkt ∧ (packetRec s 0 queue0 launchPkt).isSome = true) ∧
    (let b := pkt 6 0 (leBytes 8 0 ++ leBytes 8 0x4000 ++ leBytes 8 128 ++ leBytes 8 8 ++ leBytes 8 1)
     let s := sQueue b
     Starts s 0 0 6 queue0 b ∧ operandBad s (cpCore 0) 0 .read (pf b 8 8) (pf b 24 8) = none ∧
       operandBad s (cpCore 0) 0 .write (pf b 16 8) (pf b 24 8) = none ∧ operandBad s (cpCore 0) 0 (.atom true) (pf b 32 8) 8 = none) ∧
    (let b := pkt 7 1 (zeros 16 ++ leBytes 8 0x4000 ++ leBytes 8 0x8000 ++ leBytes 8 0x1000) ++ zeros 64
     let s := sQueue b
     Starts s 0 0 7 queue0 b ∧ quiesced s (pf b 8 1) 0 0 = true ∧ rangeType s (cpCore 0) 0 (pf b 32 8) = 0) := by
  refine ⟨⟨⟨by decide +kernel, by decide +kernel, by decide +kernel⟩, by decide +kernel⟩,
    ⟨⟨by decide +kernel, by decide +kernel, by decide +kernel⟩, by decide +kernel, by decide +kernel, by decide +kernel⟩,
    ⟨by decide +kernel, by decide +kernel, by decide +kernel⟩, by decide +kernel, by decide +kernel⟩
theorem witness_MalformedHalts : lookAt (sQueue (pkt 9 0 [])) 0 ((sQueue (pkt 9 0 [])).queue 0 0) = .bad 0x01 7 ∧
    lookAt (sQueue (pkt 3 0 [])) 0 ((sQueue (pkt 3 0 [])).queue 0 0) = .bad 0x06 7 := by decide +kernel
theorem witness_PacketCodes :
    (let s := sQueue (pkt 0 0 [])
     s.queue 0 0 = queue0 ∧ s.tenantOf 0 = 0 ∧ vread s (cpCore 0) 0 (0x1000 + 64 * (0 % 2 ^ 4)) 64 = .ok (pkt 0 0 []) ∧ pf (pkt 0 0 []) 0 1 = 0) ∧
    (let s := sQueue (pkt 1 1 [])
     vread s (cpCore 0) 0 (0x1000 + 64 * (0 % 2 ^ 4)) 64 = .ok (pkt 1 1 []) ∧ pf (pkt 1 1 []) 1 1 % 2 = 1) ∧
    (let s := (sQueue (pkt 2 1 [])).setQueue 0 0 { queue0 with wptr := 1 }
     vread s (cpCore 0) 0 (0x1000 + 64 * (0 % 2 ^ 4)) 64 = .ok (pkt 2 1 []) ∧ pf (pkt 2 1 []) 0 1 = 2 ∧ (1 + 2 ^ 32 - 0) % 2 ^ 32 = 1) ∧
    (let s := poke (ram.setQueue 0 0 { queue0 with rptr := 15, wptr := 17 }) 0x1013C0 (pkt 7 1 [])
     vread s (cpCore 0) 0 (0x1000 + 64 * (15 % 2 ^ 4)) 64 = .ok (pkt 7 1 []) ∧ pf (pkt 7 1 []) 0 1 = 7 ∧ 15 % 2 ^ 4 + 1 = 2 ^ queue0.lsize) :=
  ⟨⟨by decide +kernel, by decide +kernel, ok_of (by decide +kernel), by decide +kernel⟩, ⟨ok_of (by decide +kernel), by decide +kernel⟩,
    ⟨ok_of (by decide +kernel), by decide +kernel⟩, ok_of (by decide +kernel), by decide +kernel⟩
/-- The worked queue of spec/13 at t2: the SETSIG in slot 13 has completed, four slots are left. -/
theorem test_setsig_qstatus :
    let s := poke (ram.setQueue 0 0 { queue0 with rptr := 29, wptr := 33 }) 0x101340 (pkt 5 0 (leBytes 8 0 ++ leBytes 8 1 ++ [1]))
    (match exec (.packetSetsig 0 0) s with
      | .next t => (qstatus (t.queue 0 0), (t.queue 0 0).rptr)
      | _ => (0, 0)) = (0x000E0002, 30) := by decide +kernel
/-- The packet `c` is at the read pointer, read there in one piece or two, and of the length its type has. -/
def Body (s : State) (c : List Byte) : Prop :=
  let b := c.take 64
  s.tenantOf 0 = 0 ∧ s.queue 0 0 = queue0 ∧ vread s (cpCore 0) 0 0x1000 64 = .ok b ∧ (1 ≤ pf b 0 1 ∧ pf b 0 1 ≤ 8) ∧
    (pf b 0 1 = 2 ∨ pf b 0 1 = 7 ↔ pf b 1 1 % 2 = 1) ∧ (c.length = 64 ∨ vread s (cpCore 0) 0 0x1040 64 = .ok (c.drop 64))
theorem witness_BodyCodes :
    (let b := pkt 1 8 []
     Body (sQueue b) b ∧ Claims.ReservedSet b) ∧
    (let b := pkt 1 0 (zeros 55 ++ [1])
     Body (sQueue b) b ∧ Claims.ReservedSet b) ∧
    (Body (sQueue launchPkt) launchPkt ∧ ¬ Claims.ReservedSet launchPkt ∧ pf launchPkt 0 1 = 2 ∧
      Claims.RecordBroken (sQueue launchPkt) 0 queue0 launchPkt) ∧
    (let b := pkt 3 0 []
     Body (sQueue b) b ∧ ¬ Claims.ReservedSet b ∧ pf b 0 1 ≠ 2 ∧ Claims.FieldsBad b) ∧
    (let b := pkt 1 4 []
     Body (sQueue b) b ∧ ¬ Claims.ReservedSet b ∧ pf b 0 1 ≠ 2 ∧ ¬ Claims.FieldsBad b) ∧ 8 ≤ (pkt 8 0 []).length := by
  unfold Body Claims.ReservedSet Claims.ReservedByte Claims.FieldsBad
  refine ⟨⟨⟨?_, ?_, ok_of ?_, ?_, ?_, .inl ?_⟩, ?_⟩, ⟨⟨?_, ?_, ok_of ?_, ?_, ?_, .inl ?_⟩, ?_⟩, ⟨⟨?_, ?_, ok_of ?_, ?_, ?_, .inr (ok_of ?_)⟩, ?_, ?_, .inl ?_⟩,
    ⟨⟨?_, ?_, ok_of ?_, ?_, ?_, .inl ?_⟩, ?_⟩, ⟨⟨?_, ?_, ok_of ?_, ?_, ?_, .inl ?_⟩, ?_⟩, ?_⟩ <;> decide +kernel
/-- A queue with one packet in hand. -/
def holding (k : PktKind) : State := ram.setQueue 0 0 { queue0 with pkts := [(3, ⟨k, 0, 0, false, 7, 0⟩)] }
theorem witness_WaitsigEnds :
    (let s := { holding (.waitsig 0 1 1 0) with now := 1200 }
     s.tenantOf 0 = 0 ∧ { s with asidMap := [] }.tenantOf 0 ≠ 0 ∧ waitsigOf (s.queue 0 0) = some (3, 0, 0, 1, 1, 0) ∧ (kget (s.queue 0 0).pkts 3).isSome = true ∧ readSignal s 0 0 0 = .ok 0 ∧
       (0 : Nat) + 1200 * 1 ≤ s.now ∧ (holding (.waitsig 0 1 1 0)).now < 0 + 1200 * 1) ∧
    (waitsigOf ((holding (.waitsig 0 0 0 0)).queue 0 0) = some (3, 0, 0, 0, 0, 0) ∧ readSignal (holding (.waitsig 0 0 0 0)) 0 0 0 = .ok 0) :=
  ⟨⟨by decide +kernel, by decide +kernel, by decide +kernel, by decide +kernel, ok_of (by decide +kernel), by decide, by decide⟩, by decide +kernel,
    ok_of (by decide +kernel)⟩
/-- A prefetch of the one range, RESIDENT; then ABSENT, its migration waiting. -/
theorem witness_PrefetchEnds :
    (let s := holding (.prefetch 0 65536)
     (s.dies.map (·.1)).Nodup ∧ ((s.die 0).queues.map (·.1)).Nodup ∧ ((s.queue 0 0).pkts.map (·.1)).Nodup ∧
       kget (s.queue 0 0).pkts 3 = some ⟨.prefetch 0 65536, 0, 0, false, 7, 0⟩ ∧ windowWaits s (iodOf (cpCore 0)) 0 0 65536 = false) ∧
    (let s := (tables (descAt 0x201 2 0 0x1000000000000 0x100000)).setQueue 0 0 { queue0 with pkts := [(3, ⟨.prefetch 0 65536, 0, 0, false, 7, 0⟩)] }
     let s := s.setAux 0x20000 { RAux.zero with waiting := true }
     kget (s.queue 0 0).pkts 3 = some ⟨.prefetch 0 65536, 0, 0, false, 7, 0⟩ ∧ windowWaits s (iodOf (cpCore 0)) 0 0 65536 = true) := by
  refine ⟨?_, ?_⟩ <;> decide +kernel
/-- The last unit of a copy of 64 bytes, with a signal and without. -/
theorem witness_QueueCopyCompletes :
    (let s := holding (.copy 0 0x4000 64 0 0 0)
     kget (s.queue 0 0).pkts 3 = some ⟨.copy 0 0x4000 64 0 0 0, 0, 0, false, 7, 0⟩ ∧ s.contextHalted (engDie 0) 0 = false ∧
       s.tenantOf 0 = 0 ∧ { s with asidMap := [] }.tenantOf 0 ≠ 0 ∧
       (moveUnits (cpCore 0) 0 ((64 - 0) / 64) s 0 0x4000 0).2 = (64, none)) ∧
    (let s := holding (.copy 0 0x4000 64 0 0x8000 1)
     let u := (moveUnits (cpCore 0) 0 1 s 0 0x4000 0).1
     let p : Pkt := ⟨.copy 0 0x4000 64 64 0x8000 1, 0, 0, false, 7, 0⟩
     ∃ v, addWord (u.setQueue 0 0 { u.queue 0 0 with pkts := kset (u.queue 0 0).pkts 3 p }) (cpCore 0) 0 0x8000 1 = .ok v) ∧
    readUnit ram (cpCore 0) 0 0 64 = .ok (zeros 64) ∧ ∃ t, writeUnit ram (cpCore 0) 0 0x4000 (zeros 64) = .ok t :=
  ⟨by decide +kernel, isOk_of (by decide +kernel), ok_of (by decide +kernel), isOk_of (by decide +kernel)⟩
/-- A checkpoint of tenant 5, which has no ranges, and of tenant 0, which has one of 64 bytes; log at 0x8000, of capacity `cap`. -/
def ckBody (ten cap : Nat) : List Byte :=
  pkt 7 1 (leBytes 8 ten ++ zeros 8 ++ leBytes 8 0x4000 ++ leBytes 8 0x8000 ++ leBytes 8 cap) ++ zeros 64
theorem witness_CheckpointCompletes :
    let s := holding (.checkpoint (ckBody 5 0x1000))
    let header := leBytes 8 0 ++ leBytes 8 0 ++ leBytes 8 64 ++ leBytes 8 0 ++ zeros 32
    (s.queue 0 0).pkts = [(3, ⟨.checkpoint (ckBody 5 0x1000), 0, 0, false, 7, 0⟩)] ∧ s.tenantOf 0 = 0 ∧ ckBlocks s (pf (ckBody 5 0x1000) 8 1) = ([], 0) ∧
      (pf (ckBody 5 0x1000) 64 8, pf (ckBody 5 0x1000) 9 1 % 2, pf (ckBody 5 0x1000) 9 1 / 2 % 2, pf (ckBody 5 0x1000) 40 8) = (0, 0, 0, 0x1000) ∧
      ckWrite s (cpCore 0) 0 (pf (ckBody 5 0x1000) 24 8) [] = (s, none) ∧
      let r := ckWrite s (cpCore 0) 0 (pf (ckBody 5 0x1000) 32 8) header
      r.2 = none ∧ (∀ e ∈ r.1.raux, e.2.waiting = false) ∧ (r.1.queue 0 0).pkts = (s.queue 0 0).pkts := by
  refine ⟨?_, ?_, ?_, ?_, ?_, ?_, ?_, ?_⟩ <;> decide +kernel
def ckOf (d : Desc) : State := (tables d).setQueue 0 0 { queue0 with pkts := [(3, ⟨.checkpoint (ckBody 0 64), 0, 0, false, 7, 0⟩)] }
/-- Its log, of 64 bytes, has room for no record. -/
theorem witness_CheckpointCompletes_full :
    let s := ckOf { descAt 3 0 0 0x100000 0 with length := 0x8040 }
    (ckBlocks s 0).1.length = 9 ∧ (∀ c ∈ (ckBlocks s 0).1, memErr s c.pa c.len = none) ∧ pf (ckBody 0 64) 40 8 = 64 ∧
      (let r := ckWrite s (cpCore 0) 0 0x8000 (leBytes 8 0 ++ leBytes 8 0 ++ leBytes 8 64 ++ leBytes 8 0 ++ zeros 32)
       r.2 = none ∧ (∀ e ∈ r.1.raux, e.2.waiting = false) ∧
         kget (r.1.queue 0 0).pkts 3 = some ⟨.checkpoint (ckBody 0 64), 0, 0, false, 7, 0⟩) := by
  refine ⟨?_, ?_, ?_, ?_, ?_, ?_⟩ <;> decide +kernel
theorem witness_CheckpointBlocks :
    let s := ckOf { descAt 3 0 0 0x100000 0 with length := 0x1040 }
    (ckBlocks s 0).1 = [⟨0, 0, 0, 0x100000, 4096⟩, ⟨0, 0, 1, 0x101000, 64⟩] := by decide +kernel
/-- A previous table of one entry, of key 7, at address 0. -/
theorem witness_DeltaChanged :
    let b := zeros 4 ++ leBytes 4 7 ++ zeros 24
    let s := poke ram 0x100000 b
    [b].length < 2 ^ 32 ∧ vread s 0 0 0 32 = .ok b ∧ vread s 0 0 32 32 = .ok (zeros 32) ∧ [b].getLast? = some b ∧ entryKey (zeros 32) ≤ entryKey b := by
  exact ⟨by decide, ok_of (by decide +kernel), ok_of (by decide +kernel), by decide, by decide +kernel⟩

/-! ## Ranges -/

/-- Command on the one range of `tables`, its done word at 0x500000. -/
def cmd (arg : Dbl) : RangeCmd := ⟨0, 0, 0, arg, 0, 0x500000⟩
theorem witness_RangeCommandCodes :
    (ram.recovery = false ∧ checkpointing ram (ram.tenantOf 0) = false ∧ (0x500001 : Dbl).toNat % 8 ≠ 0 ∧ cmdMalformed 1 { cmd 0 with pad := 1 } = true ∧
      cmdMalformed 2 { cmd 0 with pad := 1 } = true ∧ cmdMalformed 3 { cmd 0 with chunk := 5 } = true ∧ cmdMalformed 3 { cmd 0 with chunk := 12 } = false ∧
      cmdDesc ram { cmd 0 with idx := 1 } = none) ∧
    ((0 : Byte).toNat = 0 ∧ cmdMalformed 5 { cmd 0 with chunk := 6 } = true) ∧
    (cmdMalformed 2 { cmd 0 with asid := 1024 } = false ∧ (1024 : Half).toNat = 1024 ∧ cmdMalformed 2 (cmd 0) = false) ∧
    (let s := { tables (descAt 1 1 8 0x100000 0x400000) with slides := [(0x20000, ⟨0, 0⟩)] }
     CmdOn s 1 (cmd 0) 0x20000 (s.desc 0x20000) ∧ rangeMoving s (0x20000, s.desc 0x20000) = true ∧
       (0x20000, s.desc 0x20000) ∈ descsOf s 0) ∧
    (((descsOf ram 0).all fun e => !rangeMoving ram e) = true ∧
      ((poke ram 0x600000 (leBytes 8 0x40020 ++ leBytes 4 1 ++ leBytes 4 1)).unitRead 0x600000 32).any
        (fun e => pf e 12 4 % 2 = 1 && pf e 0 8 % 64 ≠ 0) = true ∧
      ((poke ram 0x600000 (leBytes 8 0x40000 ++ leBytes 4 65537 ++ leBytes 4 1)).unitRead 0x600000 32).any
        (fun e => pf e 12 4 % 2 = 1 && decide (65536 < pf e 8 4)) = true ∧ ram.unitRead (2 * 2 ^ 48) 32 = none) ∧
    (CmdOn ram 3 (cmd 0) 0x20000 (ram.desc 0x20000) ∧ (tables (descAt 0x23 0 0 0x100000 0)).desc 0x20000 = descAt 0x23 0 0 0x100000 0 ∧
      (descAt 0x23 0 0 0x100000 0).pin = true) ∧
    (CmdOn ram 4 (cmd 0) 0x20000 (ram.desc 0x20000) ∧ demotable ram 0x20000 (ram.desc 0x20000) = false) ∧
    CmdOn ram 5 (cmd 0) 0x20000 (ram.desc 0x20000) ∧ ram.rstate 0x20000 (ram.desc 0x20000) = 0 := by
  unfold CmdOn
  decide +kernel
def ramRange : Desc := descAt 3 0 0 0x100000 0
theorem witness_ReplacesComplete :
    (let s := poke ram 0x600000 (bytesOfDesc (descAt 1 0 0 0x200000 0))
     let c := cmd 0x600000
     CmdOn s 1 c 0x20000 (s.desc 0x20000) ∧ rangeMoving s (0x20000, s.desc 0x20000) = false ∧ (s.unitRead 0x600000 64).any newDescOk = true ∧ s.held = [] ∧
       (s.aux 0x20000).done = none ∧ ((s.setAux 0x20000 { RAux.zero with done := some 0x500008 }).aux 0x20000).done = some 0x500008) ∧
    (let s := poke ram 0x600000 (bytesOfDesc (descAt 1 5 0 0x200000 0))
     (s.unitRead 0x600000 64).all (!newDescOk ·) = true) ∧
    (let s := poke ram 0x600000 (leBytes 8 0x40000 ++ leBytes 4 65536 ++ leBytes 4 1)
     cmdMalformed 2 (cmd 0x600000) = false ∧ ((descsOf s 0).all fun e => !rangeMoving s e) = true ∧
       (s.unitRead 0x600000 32).any (fun b => pf b 0 8 % 64 = 0 && decide (pf b 8 4 ≤ 65536)) = true ∧
       (∀ e ∈ descsOf s 0, (s.aux e.1).done = none ∧ kget s.demotions e.1 = none)) ∧
    (descsOf ram 0 = [(0x20000, ramRange)] ∧ rangeMoving ram (0x20000, ramRange) = false ∧ (ram.unitRead 0x600000 32).any (fun b => pf b 12 4 % 2 = 0) = true ∧
      ram.held = [] ∧ ((ram.setAux 0x20000 { RAux.zero with done := some 0x500008 }).aux 0x20000).done = some 0x500008 ∧
      kget { ram with demotions := [(0x20000, ⟨0, 0x1000000000000, 0x500008⟩)] }.demotions 0x20000 = some ⟨0, 0x1000000000000, 0x500008⟩) ∧
    (let j : Shootdown := ⟨0, 0, 65536, some 0x500000, 8, [(0x20000, ramRange)]⟩
     let o : Op := { path := 0, uid := 0, mask := allLanes, pc := 0, word := 0, batch := 0, at_ := 0, todo := 1,
                     kind := .load false true false 4 [65532] none, dropped := false, await := 0, release := false, narrow := [], pieces := [], taken := [] }
     let g := gFly (.load false true false 4 [65532] none) 1
     let s := withGroup { ram with shoots := [(2, j)] } g
     kget s.shoots 2 = some j ∧ s.group 0 = some g ∧ g.asid = j.asid ∧ kget g.ops 7 = some o ∧ 7 < j.mark ∧ o.dropped = false ∧
       (0x20000, ramRange) ∈ j.old ∧ bit o.todo 0 = true ∧ ramRange.vbase ≤ laneAddr o.kind 0 ∧ laneAddr o.kind 0 < ramRange.vbase + ramRange.length) ∧
    kget { ram with shoots := [(2, ⟨0, 0, 65536, some 0x500000, 8, []⟩)] }.shoots 2 = some ⟨0, 0, 65536, some 0x500000, 8, []⟩ ∧ ram.groups = [] := by
  unfold CmdOn
  decide +kernel
/-- A range of 64 KiB slides by 4 KiB chunks. -/
def sSlide (seam : Nat) : State :=
  { tables { descAt 1 1 12 0x100000 0x80000 with seam := seam } with slides := [(0x20000, ⟨0, 0x500000⟩)] }
theorem witness_SlidesComplete :
    (checkpointing (ckOf (descAt 3 0 0 0x100000 0)) ((ckOf (descAt 3 0 0 0x100000 0)).tenantOf 0) = true ∧ checkpointing ram (ram.tenantOf 0) = false) ∧
    (let c := { cmd 0x80000 with chunk := 12 }
     CmdOn ram 3 c 0x20000 (ram.desc 0x20000) ∧ checkpointing ram 0 = false ∧ ram.rstate 0x20000 (ram.desc 0x20000) = 0 ∧
       (ram.desc 0x20000).type = 0 ∧ (ram.desc 0x20000).pin = false ∧ (ram.desc 0x20000).pair = false ∧ c.arg.toNat / 2 ^ 48 = 0 ∧ c.arg.toNat % 4 = 0 ∧
       (ram.desc 0x20000).packed = false ∧ c.arg.toNat + (ram.desc 0x20000).extent ≤ hbmLimit) ∧
    (kget (sSlide 0).slides 0x20000 = some ⟨0, 0x500000⟩ ∧ ((sSlide 0).desc 0x20000).state = 1 ∧ nextSeam ((sSlide 0).desc 0x20000) = some 4096 ∧
       0x100000 + ((sSlide 0).desc 0x20000).extent ≤ hbmLimit ∧ 0x80000 + ((sSlide 0).desc 0x20000).extent ≤ hbmLimit ∧ 0x20000 + 64 ≤ 0x80000 + 0) ∧
    nextSeam ((sSlide 0xF000).desc 0x20000) = none := by
  unfold CmdOn
  decide +kernel
/-- Every port carries the capacity region; the range's image is at its start. -/
def cap (d : Desc) : State := { tables d with capdec := 0x8FF }
theorem witness_DemotionsComplete :
    (let s := cap { descAt 1 0 0 0x100000 0 with length := 4096 }
     CmdOn s 4 (cmd 0x1000000000000) 0x20000 (s.desc 0x20000) ∧ demotable s 0x20000 (s.desc 0x20000) = true ∧ s.demotions = [] ∧
       (0x1000000000000 : Dbl).toNat / 2 ^ 48 = 1 ∧ (0x1000000000000 : Dbl).toNat % 2048 = 0) ∧
    (let s := { cap { descAt 1 0 0 0x100000 0 with length := 4096 } with demotions := [(0x20000, ⟨0, 0x1000000000000, 0x500000⟩)] }
     s.contextHalted engFault 0 = false ∧ 0x1000000000000 + 2048 * 2 ≤ 2 ^ 49 ∧ demotable s 0x20000 (s.desc 0x20000) = true ∧ capDown s 0x1000000000000 (s.desc 0x20000).length = false ∧
       demoteBlock s (s.desc 0x20000) 1 = some (zeros 2048)) := by
  unfold CmdOn
  decide +kernel
/-- An absent range, and one of two chunks that migrates. -/
def absent : Desc := descAt 1 2 0 0x1000000000000 0x100000
def moving (ctl : Nat) : State :=
  { cap { descAt 1 3 ctl 0x100000 0x1000000000000 with length := 0x10100 } with raux := [(0x20000, { RAux.zero with pres := [(0, 1)] })] }
theorem witness_MigrationsComplete :
    (let s := cap absent
     CmdOn s 5 (cmd 0) 0x20000 (s.desc 0x20000) ∧ (s.desc 0x20000).pin = false ∧ (s.desc 0x20000).pair = false ∧ (s.aux 0x20000).done = none ∧
       s.rstate 0x20000 (s.desc 0x20000) = 2 ∧ capDown s (s.desc 0x20000).pbase (s.desc 0x20000).length = false ∧ migrating s < 256 ∧
       checkpointing s 0 = false) ∧
    (let s := moving 32
     CmdOn s 5 (cmd 0) 0x20000 (s.desc 0x20000) ∧ s.rstate 0x20000 (s.desc 0x20000) = 3 ∧ (s.desc 0x20000).stopped = true ∧
       (s.aux 0x20000).done = none ∧ capDown s (s.desc 0x20000).pbase2 (s.desc 0x20000).length = false ∧ migrating s < 256 ∧
       checkpointing s 0 = false ∧ ((s.aux 0x20000).pres.map (·.1)).Nodup) := by
  unfold CmdOn
  decide +kernel
/-- Block 32, the second chunk, holds its last 256 bytes; it is raw, or packed and malformed. -/
def movingBlock (packed : Bool) : State := poke (moving 0) 4 (if packed then [1] else [])
theorem movable (packed : Bool) : Movable (movingBlock packed) 0x20000 1 where
  state := by cases packed <;> decide +kernel
  goes := by cases packed <;> decide +kernel
  next := by
    refine ⟨by cases packed <;> decide +kernel, [0, 0], [], by cases packed <;> decide +kernel, ?_⟩
    intro k hk
    have h : k = 0 := by
      rcases List.mem_cons.mp hk with h | h
      · exact h
      · exact List.mem_singleton.mp h
    rw [h]
    cases packed <;> decide +kernel
  image := by cases packed <;> decide +kernel
  place := by cases packed <;> decide +kernel
  beside := by cases packed <;> decide +kernel
  map := by
    intro i x hi hx
    have h : ∀ i, i < 4 → cellOf (movingBlock packed) (((movingBlock packed).desc 0x20000).bmap + 4 * 1 + i) = some (4 + i) := by
      cases packed <;> decide +kernel
    rw [h i hi] at hx
    rw [← Option.some.inj hx]
    exact .inl (Nat.lt_of_lt_of_le (show 4 + i < 0x100000 by omega) (by cases packed <;> decide +kernel))
  quiet := by cases packed <;> decide +kernel
theorem witness_MalformedBlock :
    let s := movingBlock true
    (s.raux.map (·.1)).Nodup ∧ 2048 * 32 < (s.desc 0x20000).length ∧
      slotMalformed s (PSlot.whole ((s.desc 0x20000).pbase2 + 2048 * 32)) (s.desc 0x20000).bmap 32 = true := by decide +kernel
theorem witness_MigrationChunk :
    let s := moving 0
    (∀ n, 32 * 1 ≤ n → n < 32 * 1 + 32 → 2048 * n < (s.desc 0x20000).length → n = 32) ∧
    (∃ b, blockBytes s (PSlot.whole ((s.desc 0x20000).pbase2 + 2048 * 32)) (s.desc 0x20000).bmap 32 = .ok b ∧ b.length = 2048) ∧
    (s.desc 0x20000).chunks = 2 ∧ mget 0 (s.aux 0x20000).pres 0 = 1 := by
  refine ⟨?_, ⟨zeros 2048, ok_of (by decide +kernel), by decide +kernel⟩, by decide +kernel, by decide +kernel⟩
  intro n h1 h2 h3
  have h : ((moving 0).desc 0x20000).length = 0x10100 := by decide +kernel
  rw [h] at h3
  omega

/-! ## Ports, the host, devices -/

/-- Path 0 has a load of lane 0 from address 0 in flight, or a store to it. -/
def gLoad : Group := gFly (.load false true false 4 [0] none) 1
def gStore : Group := gFly (.store false true false 4 [0] [5]) 1
def opLoad : Op := flying (.load false true false 4 [0] none) 1
def opStore : Op := flying (.store false true false 4 [0] [5]) 1
theorem witness_LinksComplete : State.reset.groups = [] ∧ State.reset.raux = [] ∧ State.reset.held = [] := by decide
/-- A load through host port 1, which is port 9 here. -/
theorem witness_FailingPorts :
    (let s := withGroup { tables (descAt 0x13 0 0 0x2000000000000 0) with hostWins := [(0, ⟨0, 65536, true, 1, 0⟩)] } gLoad
     s.groups = [(0, gLoad)] ∧ opsVia s gLoad 9 = [(7, opLoad, 0)] ∧ opsVia s gLoad 8 = []) ∧
    (let s := moving 0
     s.groups = [] ∧ s.held = [] ∧ s.raux = [(0x20000, { RAux.zero with pres := [(0, 1)] })] ∧ RAux.zero.waiting = false ∧
       s.rstate 0x20000 (s.desc 0x20000) = 3 ∧ (s.desc 0x20000).stopped = false ∧ migratesVia s (s.desc 0x20000) 7 = true) := by decide +kernel
theorem witness_RemoteAccesses :
    (let s := withGroup (tables (descAt 0x13 0 0 0x2000000000000 0)) gLoad
     s.opAt 0 7 = some (gLoad, opLoad) ∧ opLoad.dropped = false ∧ lanesOfType s gLoad 7 opLoad 2 ≠ 0) ∧
    (let s := withGroup (tables (descAt 0x0B 0 0 0x3000000000000 0)) gLoad
     s.opAt 0 7 = some (gLoad, opLoad) ∧ 1 &&& lanesOfType s gLoad 7 opLoad 1 ≠ 0 ∧ (1 &&& lanesOfType s gLoad 7 opLoad 1) &&& unwritten opLoad = 0 ∧
       loadReady gLoad 7 opLoad (1 &&& lanesOfType s gLoad 7 opLoad 1) = true) ∧
    (let s := withGroup (tables (descAt 0x0B 0 0 0x3000000000000 0)) gStore
     s.opAt 0 7 = some (gStore, opStore) ∧ 1 &&& lanesOfType s gStore 7 opStore 1 ≠ 0 ∧
       (1 &&& lanesOfType s gStore 7 opStore 1) &&& unwritten opStore ≠ 0 ∧
       storeReady s gStore 7 opStore ((1 &&& lanesOfType s gStore 7 opStore 1) &&& unwritten opStore) = true) := by decide +kernel
/-- Tenant 0 is valid, its window from address 0 of address space 0 on. -/
def hosted (d : Desc) : State :=
  { poke (tables d) 0x400000 (leBytes 1 1 ++ leBytes 1 1 ++ leBytes 2 16 ++ leBytes 2 0 ++ leBytes 1 40) with tenbase := 0x400000, capdec := 0x8FF }
def ramDesc : Desc := descAt 3 0 0 0x100000 0
theorem witness_HostReads :
    (let s := hosted ramDesc
     inWindow s 0 65532 4 = true ∧ partsOf s 0 65532 4 = [(65532, 4, some (0x20000, ramDesc))] ∧ ramDesc.rd = true ∧ hostAway s 0x20000 ramDesc = false ∧
       vread s hostCore (s.tenant 0).hwasid (windowVa s 0 65532) 4 = .ok (zeros 4) ∧ s.held = []) ∧
    (let s := hosted ramDesc
     partsOf s 0 65532 8 = [(65532, 4, some (0x20000, ramDesc)), (65536, 4, none)]) ∧
    (let d := descAt 0x201 2 0 0x1000000000000 0x100000
     let s := hosted d
     inWindow s 0 0 4 = true ∧ partsOf s 0 0 4 = [(0, 4, some (0x20000, d))] ∧ d.rd = true ∧ hostAway s 0x20000 d = false ∧
       vread s hostCore (s.tenant 0).hwasid (windowVa s 0 0) 4 = .error ⟨.start 0x20000, 0⟩) := by
  refine ⟨⟨by decide +kernel, by decide +kernel, by decide, by decide +kernel, ok_of (by decide +kernel), by decide⟩,
    by decide +kernel, ⟨by decide +kernel, by decide +kernel, by decide, by decide +kernel, err_of (by decide +kernel)⟩⟩
theorem witness_HostWrites :
    (let s := hosted ramDesc
     inWindow s 0 65532 ([1, 2, 3, 4] : List Byte).length = true ∧ partsOf s 0 65532 4 = [(windowVa s 0 65532, 4, some (0x20000, ramDesc))] ∧
       ramDesc.seeded = false ∧ ramDesc.wr = true ∧ hostAway s 0x20000 ramDesc = false ∧
       (vwrite s hostCore (s.tenant 0).hwasid (windowVa s 0 65532) [1, 2, 3, 4]).2.isNone = true) ∧
    (let d := descAt 0x41 0 0 0x100000 0
     partsOf (hosted d) 0 0 4 = [(windowVa (hosted d) 0 0, 4, some (0x20000, d))] ∧ d.seeded = true) ∧
    (let d := descAt 1 0 0 0x100000 0
     partsOf (hosted d) 0 0 4 = [(windowVa (hosted d) 0 0, 4, some (0x20000, d))] ∧ d.seeded = false ∧ d.wr = false) ∧
    (let d := descAt 3 2 0 0x1000000000000 0
     let s := hosted d
     partsOf s 0 0 4 = [(windowVa s 0 0, 4, some (0x20000, d))] ∧ d.seeded = false ∧ s.rstate 0x20000 d = 2 ∧ d.auto = false) ∧
    inWindow (hosted ramDesc) 0 65536 4 = true ∧ partsOf (hosted ramDesc) 0 65536 4 = [(windowVa (hosted ramDesc) 0 65536, 4, none)] := by
  refine ⟨?_, ?_, ?_, ?_, ?_, ?_⟩ <;> decide +kernel
theorem witness_HostAtomics :
    let s := hosted ramDesc
    inWindow s 0 65532 4 = true ∧ windowVa s 0 65532 % 4 = 0 ∧ translate s hostCore (s.tenant 0).hwasid (windowVa s 0 65532) = some (0x20000, ramDesc) ∧
      ramDesc.seeded = false ∧ ramDesc.wr = true ∧ ramDesc.type ≠ 3 ∧ ramDesc.pair = false ∧ hostAway s 0x20000 ramDesc = false ∧
      s.tenantOf (s.tenant 0).hwasid = 0 ∧ atomUnit s hostCore (s.tenant 0).hwasid (windowVa s 0 65532) 4 = .ok (zeros 4) ∧
      (∃ u, writeUnit s hostCore (s.tenant 0).hwasid (windowVa s 0 65532) (leBytes 4 (atomicNew .fetchAdd 4 (leNat (zeros 4)) 5 0)) = .ok u) ∧
      inWindow s 0 65520 16 = true ∧ translate s hostCore (s.tenant 0).hwasid (windowVa s 0 65536) = none := by
  refine ⟨by decide +kernel, by decide +kernel, by decide +kernel, by decide, by decide, by decide, by decide, by decide +kernel, by decide +kernel,
    ok_of (by decide +kernel), isOk_of (by decide +kernel),
    by decide +kernel, by decide +kernel⟩
/-- A SEEDED range, and one that no atomic may touch; a write held at port 1. -/
theorem witness_HostAtomicsRefused :
    (let s := hosted (descAt 0x41 0 0 0x100000 0)
     translate s hostCore (s.tenant 0).hwasid (windowVa s 0 0) = some (0x20000, descAt 0x41 0 0 0x100000 0) ∧ (descAt 0x41 0 0 0x100000 0).seeded = true ∧
       s.tenantOf (s.tenant 0).hwasid = 0 ∧ inWindow s 0 0 8 = true ∧ windowVa s 0 0 % 8 = 0) ∧
    (let d := descAt 1 0 0 0x100000 0
     translate (hosted d) hostCore ((hosted d).tenant 0).hwasid (windowVa (hosted d) 0 0) = some (0x20000, d) ∧ d.seeded = false ∧ d.wr = false) ∧
    (let s := { hosted ramDesc with held := [(2, ⟨0, 8, .write [1], 1⟩)] }
     (∃ e ∈ s.held, e.2.port = 1 ∧ isHostRead e.2.req = false) ∧ inWindow s 0 65532 4 = true) := by
  refine ⟨by decide +kernel, by decide +kernel, by decide +kernel⟩
theorem witness_HostTimeouts : kget { State.reset with held := [(2, ⟨0, 8, .read 4 9, 0⟩)] }.held 2 = some ⟨0, 8, .read 4 9, 0⟩ := by decide
theorem witness_DeviceStepsComplete :
    (let sl := (State.reset.core 0).slot 63
     sl.valid ≠ decide ((0x8000 : Word).toNat / 32768 % 2 = 1) ∧ sl.busy = false ∧ sl.pend = [] ∧ tagReaders State.reset 0 63 0 = false ∧
       sl.valid = decide ((0 : Word).toNat / 32768 % 2 = 1) ∧ sl.asid = (0 : Word).toNat % 1024) ∧
    (let s := State.reset.setCore 0 { Core.zero with slots := [(63, { slotZero with pend := [(0x8000, 0)] })] }
     ((s.core 0).slot 63).pend = [(0x8000, 0)] ∧ ((s.core 0).slot 63).busy = false ∧ tagReaders s 0 63 0 = false) ∧
    { (State.reset.core 0).slot 63 with busy := true }.busy = true ∧
    arrayIdle State.reset 0 .regs = true ∧ arrayIdle State.reset 0 .accs = true ∧ arrayIdle State.reset 0 (.slot 0) = false ∧
    (let c := { PmChan.zero with sel := 0x11, open_ := true }
     c.open_ = true ∧ pmSelected c.sel = true ∧ (pmTimed c.sel = true → c.sampled + 1200 ≤ 1200) ∧ PmChan.zero.open_ = false ∧
       c.opened + 1200 * c.win.toNat ≤ 2 ^ 60 ∧ (0 : Nat) < c.opened + 1200 * { c with win := 1 }.win.toNat ∧
       1200 ≤ c.opened + 1200 * { c with win := 1 }.win.toNat ∧ c.opened + 1200 * { c with win := 1 }.win.toNat < 1201 ∧
       (0 : Nat) < { c with sel := 0x14 }.sampled + 1200 ∧ pmSelected 0xF = false) := by decide
/-- Every die asks for its idle draw; no stack asks for anything. -/
theorem witness_PowerComplete :
    let dies := (List.range 16).map fun i => (Config.idleDraw i).toNat
    dies.length = 16 ∧ (∀ i, i < 16 → (Config.idleDraw i).toNat ≤ dies.getD i 0) ∧
      dies.sum + List.sum [] ≤ { State.reset with pwrcap := 65520 }.pwrcap.toNat := by
  refine ⟨rfl, fun i h => ?_, ?_⟩
  · rw [List.getD_eq_getElem?_getD, List.getElem?_map, List.getElem?_range h]
    exact Nat.le_refl _
  · have h (i : Nat) : (Config.idleDraw i).toNat < 4096 := (Config.idleDraw i).isLt
    have hs (l : List Nat) : ((l.map fun i => (Config.idleDraw i).toNat).sum ≤ 4095 * l.length) := by
      induction l with
      | nil => exact Nat.le_refl _
      | cons i l ih =>
        have := h i
        simp only [List.map_cons, List.sum_cons, List.length_cons]
        omega
    exact hs (List.range 16)

/-! ## The network -/

/-- Engine 0 may start a message of send queue 0: the request `b` is posted in slot 0. -/
def sPosted (b : List Byte) : State :=
  let s := poke ram 0x101000 b
  let s := s.setEng 0 { Eng.zero with en := true }
  { (s.setSendQ 0 0 { SendQ.zero with en := true, base := 0x1000, wpos := 1 }) with counterTen := mset 255 [] 4095 0 }
theorem witness_MessagesStart :
    (let s := sPosted req0
     canStart s 0 0 = true ∧ (againOf (s.eng 0) 0).isNone = true ∧ (s.sendQ 0 0).spos < (s.sendQ 0 0).wpos ∧
       vread s (engIo 0) (s.sendQ 0 0).asid ((s.sendQ 0 0).base + 64 * ((s.sendQ 0 0).spos % 2 ^ (s.sendQ 0 0).lsize)) 64 = .ok req0 ∧
       fenceOk (s.eng 0) 0 (s.sendQ 0 0).spos (workReqOfBytes req0).flags = true ∧ workReqOk s (s.sendQ 0 0).tenant req0 = true) ∧
    (let s := sPosted (zeros 64)
     canStart s 0 0 = true ∧ vread s (engIo 0) (s.sendQ 0 0).asid ((s.sendQ 0 0).base + 64 * ((s.sendQ 0 0).spos % 2 ^ (s.sendQ 0 0).lsize)) 64 = .ok (zeros 64) ∧
       workReqOk s (s.sendQ 0 0).tenant (zeros 64) = false) ∧
    canStart State.reset 0 0 = false := by
  refine ⟨⟨by decide +kernel, by decide +kernel, by decide +kernel, ok_of (by decide +kernel), by decide +kernel, by decide +kernel⟩,
    ⟨by decide +kernel, ok_of (by decide +kernel), by decide +kernel⟩, by decide⟩
/-- A packet of message 9 of node 5 is on its way to window 1 (or 2), with `placed` packets of the message placed. -/
def sWireOn (s : State) (window : Nat) (placed : List Nat) : State :=
  let s := poke s 0x700020 (leBytes 8 0 ++ leBytes 8 65536 ++ leBytes 2 0 ++ leBytes 1 0 ++ leBytes 1 3 ++ leBytes 2 4095)
  { s with
      nwinbase := 0x700000
      counterTen := mset 255 [] 4095 0
      wires := [(2, .data 5 0 9 0 0 window 65532 2 true [1, 2, 3, 4])]
      rmsgs := [⟨5, 0, 9, placed, false⟩] }
def sWire (window : Nat) (placed : List Nat) : State := sWireOn ram window placed
/-- A request of 4 bytes; a window that is not valid, one that is too short, and one that admits it. -/
theorem witness_WindowRefusals : req0.length = 64 ∧ ((sWire 1 []).recvWin 2).valid = false ∧
    (let s := sWire 1 []
     let w := s.recvWin 1
     w.valid = true ∧ w.write = true ∧ s.tenantOf w.asid = w.tenant ∧ counterOwner s w.counter = w.tenant ∧ w.tenant ≠ 255 ∧
       w.length < 65536 + 4 ∧ 65532 + 4 ≤ w.length) ∧
    counterOwner (sWire 1 []) 0 = 255 := by
  refine ⟨?_, ?_, ?_, ?_⟩ <;> decide +kernel
/-- The window's range admits no write; its host port answers with an error. -/
theorem witness_PacketsArrive_translation :
    (let s := sWireOn (tables (descAt 1 0 0 0x100000 0)) 1 []
     let u := { s with wires := kdel s.wires 2 }
     winRefuses s (s.recvWin 1) true 65532 4 = none ∧ s.contextHalted (engNet 0) (s.recvWin 1).asid = false ∧
       checkBytes u (engIo 0) (s.recvWin 1).asid .write (4 + 1) ((s.recvWin 1).base + 65532) 4 = .error ⟨.trap 0x08, 65532⟩) ∧
    (let s := sWireOn { tables (descAt 0x13 0 0 0x2000000000000 0) with hostWins := [(0, ⟨0, 65536, true, 1, 0⟩)], hostBad := [1023] } 1 []
     let u := { s with wires := kdel s.wires 2 }
     winRefuses s (s.recvWin 1) true 65532 4 = none ∧ s.contextHalted (engNet 0) (s.recvWin 1).asid = false ∧
       checkBytes u (engIo 0) (s.recvWin 1).asid .write (4 + 1) ((s.recvWin 1).base + 65532) 4 = .ok () ∧
       (vwrite u (engIo 0) (s.recvWin 1).asid ((s.recvWin 1).base + 65532) [1, 2, 3, 4]).2 = some ⟨.trap 0x0B, 65532⟩) := by
  refine ⟨⟨by decide +kernel, by decide +kernel, err_of (by decide +kernel)⟩, by decide +kernel, by decide +kernel, ok_of (by decide +kernel),
    by decide +kernel⟩
theorem witness_PacketsArrive :
    (let s := sWire 1 [0]
     kget s.wires 2 = some (.data 5 0 9 0 s.nodeNum 1 65532 2 true [1, 2, 3, 4]) ∧ 0 ∈ (recvOf s 5 0 9).placed) ∧
    (let s := sWire 2 []
     kget s.wires 2 = some (.data 5 0 9 0 s.nodeNum 2 65532 2 true [1, 2, 3, 4]) ∧ 0 ∉ (recvOf s 5 0 9).placed ∧
       winRefuses s (s.recvWin 2) true 65532 4 = some 1) ∧
    winRefuses (sWire 1 []) ((sWire 1 []).recvWin 1) true 65536 4 = some 2 ∧
    (let s := sWire 1 [1]
     let u := { s with wires := kdel s.wires 2 }
     kget s.wires 2 = some (.data 5 0 9 0 s.nodeNum 1 65532 2 true [1, 2, 3, 4]) ∧ (recvOf s 5 0 9).finished = false ∧
       0 ∉ (recvOf s 5 0 9).placed ∧ winRefuses s (s.recvWin 1) true 65532 4 = none ∧ s.contextHalted (engNet 0) (s.recvWin 1).asid = false ∧
       checkBytes u (engIo 0) (s.recvWin 1).asid .write (4 + 1) ((s.recvWin 1).base + 65532) 4 = .ok () ∧
       (vwrite u (engIo 0) (s.recvWin 1).asid ((s.recvWin 1).base + 65532) [1, 2, 3, 4]).2.isNone = true ∧ 2 ≤ (recvOf s 5 0 9).placed.length + 1) ∧
    (recvOf (sWire 1 []) 5 0 9).placed.length + 1 < 2 := by
  refine ⟨by decide +kernel, by decide +kernel, by decide +kernel, ⟨by decide +kernel, by decide +kernel, by decide +kernel, by decide +kernel,
    by decide +kernel, ok_of (by decide +kernel), by decide +kernel, by decide +kernel⟩, by decide +kernel⟩
/-- A message of one packet, sent and not acknowledged. -/
def msg0 : Msg := ⟨0, workReqOfBytes req0, 2, [⟨true, false, 0, 0, 0, 0, 0⟩], 0, none, none, false, false, none⟩
def sSent (code : Nat) (m : Msg) : State :=
  { (State.reset.setEng 0 { Eng.zero with msgs := [(9, m)] }) with wires := [(2, .ack 0 0 9 0 code)], now := 60000 }
theorem witness_AcksArrive :
    (let s := sSent 0 msg0
     kget s.wires 2 = some (.ack s.nodeNum 0 9 0 0) ∧ Claims.msgOf s 0 9 = some msg0 ∧ msg0.pkts = [⟨true, false, 0, 0, 0, 0, 0⟩] ∧ msg0.live = true ∧
       (s.eng 0).msgs = [(9, msg0)] ∧ (s.sendQ 0 msg0.queue).halted = none ∧ (0 : Nat) + 1200 * orOne (s.eng 0).rto ≤ s.now ∧
       (0 : Nat) < orOne (s.eng 0).tries) ∧
    (let p : NPkt := ⟨true, true, 0, 0, 0, 0, 0⟩
     let m := { msg0 with pkts := [p, ⟨true, false, 8, 0, 1, 1, 0⟩] }
     kget (sSent 3 m).wires 2 = some (.ack (sSent 3 m).nodeNum 0 9 0 3) ∧ m.pkts[0]? = some p ∧ p.acked = true ∧
       m.pkts[1]? = some ⟨true, false, 8, 0, 1, 1, 0⟩ ∧ orOne ((sSent 3 m).eng 0).tries ≤ 8) ∧
    (let s := { ((sPosted req0).setEng 0 { ((sPosted req0).eng 0) with msgs := [(9, msg0)] }) with now := 60000 }
     s.tenantOf (s.sendQ 0 msg0.queue).asid = (s.sendQ 0 msg0.queue).tenant ∧
       { s with asidMap := [] }.tenantOf (s.sendQ 0 msg0.queue).asid ≠ (s.sendQ 0 msg0.queue).tenant ∧
       vread s (engIo 0) (s.sendQ 0 msg0.queue).asid (msg0.wr.src + 0 * msg0.payload) (msg0.size 0) = .ok (zeros 4)) ∧
    (let s := { tables { descAt 3 0 0 0x100000 0 with length := 64 } with now := 60000 }
     s.tenantOf (s.sendQ 0 msg0.queue).asid = (s.sendQ 0 msg0.queue).tenant ∧
       vread s (engIo 0) (s.sendQ 0 msg0.queue).asid (msg0.wr.src + 0 * msg0.payload) (msg0.size 0) = .error ⟨.trap 0x07, 128⟩) :=
  ⟨by decide +kernel, by decide +kernel, ⟨by decide +kernel, by decide +kernel, ok_of (by decide +kernel)⟩, by decide +kernel,
    err_of (by decide +kernel)⟩
theorem witness_EngineControls :
    (let q := { SendQ.zero with base := 0x1000 }
     let s := (tables (descAt 0x23 0 0 0x100000 0)).setSendQ 0 255 q
     s.recovery = false ∧ (s.sendQ 0 255).en = false ∧ 4 ≤ (s.sendQ 0 255).lsize ∧ (s.sendQ 0 255).lsize ≤ 12 ∧ (s.sendQ 0 255).base % 4096 = 0 ∧
       ringPinned s 0 (s.sendQ 0 255) = true) ∧
    ringPinned (ram.setSendQ 0 0 SendQ.zero) 0 SendQ.zero = false ∧ ((sPosted req0).sendQ 0 0).en = true ∧
    (let m := { msg0 with failed := some 4 }
     let s := (sSent 0 m).setSendQ 0 0 { SendQ.zero with halted := some 4 }
     (s.sendQ 0 0).halted ≠ none ∧ Claims.msgOf s 0 9 = some m ∧ m.queue = 0 ∧ m.failed ≠ none ∧ m.finished = false) := by decide +kernel
theorem witness_PeersServed :
    let w (flags : Nat) (r : PeerReq) : State :=
      { poke ram 0x700020 (leBytes 8 0 ++ leBytes 8 65537 ++ leBytes 2 0 ++ leBytes 1 0 ++ leBytes 1 flags) with
          nwinbase := 0x700000, wires := [(2, .peer 5 0 0 7 r)] }
    kget (w 7 (.load 1 65532 4)).wires 2 = some (.peer 5 (w 7 (.load 1 65532 4)).nodeNum 0 7 (.load 1 65532 4)) ∧
    (let x := (w 7 (.load 1 65532 4)).recvWin 1
     let s := w 7 (.load 1 65532 4)
     x.valid = true ∧ x.read = true ∧ s.tenantOf x.asid = x.tenant ∧ 65532 + 4 ≤ x.length ∧
       (checkSpan s (engIo 0) x.asid .read (x.base + 65532) 4).toOption = some () ∧
       (vread s (engIo 0) x.asid (x.base + 65532) 4).toOption = some (zeros 4) ∧
       errOf (checkSpan s (engIo 0) x.asid .read (x.base + 65533) 4) = some (.trap 0x07)) ∧
    (let s := w 7 (.store 1 65532 [1])
     let x := s.recvWin 1
     x.valid = true ∧ x.write = true ∧ s.tenantOf x.asid = x.tenant ∧ 65532 + 1 ≤ x.length ∧
       (checkSpan s (engIo 0) x.asid .write (x.base + 65532) 1).toOption = some () ∧
       (vwrite s (engIo 0) x.asid (x.base + 65532) [1]).2.isNone = true ∧
       errOf (checkSpan s (engIo 0) x.asid .write (x.base + 65536) 1) = some (.trap 0x07)) ∧
    ((w 3 (.load 1 0 4)).recvWin 1).read = false ∧ ((w 5 (.store 1 0 [1])).recvWin 1).write = false := by
  refine ⟨?_, ?_, ?_, ?_⟩ <;> decide +kernel
/-- Tenant 0's root is this node, and node 5 is its one other member. -/
def sPod (p : Pod) : State :=
  (poke (poke (poke (hosted ramDesc) 0x400042 (leBytes 2 1)) 0x400048 (leBytes 8 0x500)) 0x100500 [5, 0]).setPod 0 255 p
/-- Monitor 2 of core 0, bound to the instance and of this launch. -/
def sPodMon (s : State) : State :=
  { (s.setCore 0 { s.core 0 with mons := [(2, { mon0 with cfg := { mon0.cfg with scope := .pod, idx := 255 }, launch := 3 })] }) with
      launches := [(3, launch0 (rcd 0))] }
theorem witness_PodArrivals :
    podMembers (sPod Pod.zero) 0 = [5] ∧
    (let s := sPod ⟨[3, 4], 0, 0, [], none⟩
     isRoot s 0 = true ∧ (s.pod 0 255).expected = 0 ∧ (s.pod 0 255).own = [3, 4]) ∧
    (let s := sPod ⟨[], 2, 3, [], none⟩
     isRoot s 0 = true ∧ (s.pod 0 255).expected = 3 ∧ (s.pod 0 255).arrivals < 3 ∧ 5 ≠ s.nodeNum ∧ 5 ∈ podMembers s 0) := by
  refine ⟨?_, ?_, ?_⟩ <;> decide +kernel
theorem witness_PodArrivalsRefused :
    isRoot State.reset 0 = false ∧ 9 ∉ podMembers (sPod Pod.zero) 0 ∧ 9 ≠ (sPod Pod.zero).nodeNum ∧ ((sPod Pod.zero).pod 0 255).own = [] ∧
    ((sPod ⟨[], 3, 3, [], none⟩).pod 0 255).expected ≤ ((sPod ⟨[], 3, 3, [], none⟩).pod 0 255).arrivals ∧
    ((sPod ⟨[], 3, 3, [], none⟩).pod 0 255).expected ≠ 4 := by
  refine ⟨?_, ?_, ?_, ?_, ?_, ?_⟩ <;> decide +kernel
theorem witness_PodGathers :
    (let s := sPodMon State.reset
     (s.cores.map (·.1)).Nodup ∧ isRoot s 0 = false ∧ podGathered s 0 255 = false ∧ (s.pod 0 255).verdict = none ∧
       (gatherMons s (podBarrier s 0 255) 2).map (·.1) = [0]) ∧
    (let s := sPodMon (sPod ⟨[], 2, 2, [(5, [⟨2, 4, mon0⟩])], none⟩)
     (s.cores.map (·.1)).Nodup ∧ isRoot s 0 = true ∧ (s.pod 0 255).expected ≠ 0 ∧ (s.pod 0 255).expected ≤ (s.pod 0 255).arrivals ∧
       (s.pod 0 255).verdict = none ∧ sumsIn s 0 (s.pod 0 255) = true ∧ (podVerdicts s 0 255 (s.pod 0 255)).map (·.mon) = [2]) ∧
    (let s := sPod ⟨[], 2, 2, [], none⟩
     isRoot s 0 = true ∧ sumsIn s 0 (s.pod 0 255) = false) := by
  refine ⟨?_, ?_, ?_⟩ <;> decide +kernel
theorem witness_PodCompletes :
    (let v : List PodVerdict := [⟨2, accZero, some ⟨0, 3, 1, 2⟩⟩]
     let s := sPodMon (sPod ⟨[], 2, 2, [], some v⟩)
     (s.pod 0 255).verdict = some v ∧ (v.map (·.mon)).Nodup ∧ (s.cores.map (·.1)).Nodup ∧ (v.findSome? (·.drift)).isSome = true) ∧
    (State.reset.pod 0 255).verdict = none := by
  refine ⟨?_, ?_⟩ <;> decide +kernel

/-! ## Tenants, resets, registers -/

/-- A tenant to be set valid: its handler and its frames lie in pinned ranges. -/
def sTenant (hwsize : Nat) : State := poke (poke (kernels 8) 0x400000 [0]) 0x400006 (leBytes 1 hwsize)
theorem witness_TenantValidSets :
    (let s := sTenant 30
     s.tenantAddr 0 / 2 ^ 48 = 0 ∧ s.phys (s.tenantAddr 0) 1 = 0 ∧ tenantFieldsOk (s.tenant 0) = true ∧ tenantRangesOk s (s.tenant 0) = true) ∧
    tenantFieldsOk ((sTenant 29).tenant 0) = false := by decide +kernel
theorem witness_TenantResets :
    (let s := { (ram.setQueue 0 0 queue0) with
         launches := [(3, launch0 (rcd 0)), (4, { launch0 (rcd 0) with live := 0, nextCohort := 0 })], cohorts := [(0, ⟨3, 0, 0, [5], [0], none, 0⟩)] }
     s.recovery = false ∧ 0 ∉ s.resetting ∧ (s.queue 0 0).en = true ∧ (s.queue 0 0).tenant = 0 ∧ kget s.launches 3 = some (launch0 (rcd 0)) ∧
       (launch0 (rcd 0)).tenant = 0 ∧ kget s.cohorts 0 = some ⟨3, 0, 0, [5], [0], none, 0⟩) ∧
    (let s := { State.reset with resetting := [63] }
     63 ∈ s.resetting ∧ tenantQuiet s 63 = true) ∧
    (let s := { sSent 0 msg0 with resetting := [0] }
     0 ∈ s.resetting ∧ tenantQuiet s 0 = false) := by decide +kernel
theorem witness_ResetsComplete : State.reset.recovery = false ∧ State.reset.groups = [] ∧ State.reset.cohorts = [] ∧ State.reset.launches = [] ∧
    State.reset.dies = [] ∧ State.reset.engines = [] ∧ State.reset.cores = [] ∧ State.reset.resetting = [] ∧ State.reset.warm = false ∧
    (let s := { State.reset with resetting := [63], warm := true }
     63 ∈ s.resetting ∧ tenantQuiet s 63 = true ∧ s.warm = true ∧ (settleResets s).resetting = []) := by decide
theorem witness_FirmwareAndAttestation : ram.tenantOf (ram.tenant 0).hwasid = 0 ∧ State.reset.tenantOf (State.reset.tenant 0).hwasid ≠ 0 ∧
    (0x100 : Dbl).toNat + 30000 ≤ 2 ^ 48 ∧
    { State.reset with fwDigests := [(3, zeros 32)] }.fwDigests.length = 1 ∧ (zeros 32).length = 32 := by decide +kernel
theorem witness_RegisterWritesComplete : State.reset.recovery = false ∧
    (1 ≤ (3600 : Dbl).toNat % 2 ^ 32 ∧ (3600 : Dbl).toNat % 2 ^ 32 ≤ 3600 ∧ 3600 < (3601 : Dbl).toNat % 2 ^ 32) ∧
    (State.reset.sendQ 15 255).en = false ∧ ((sPosted req0).sendQ 0 0).en = true ∧ (State.reset.queue 15 127).en = false ∧
    ((sQueue []).queue 0 0).en = true ∧ { State.reset with recovery := true }.recovery = true ∧ tenantReg .fwAddr = false ∧
    tenantReg (.evcons 63) = true ∧ tenantReg .tenbase = false ∧
    (State.reset.hostWin 0).valid = false ∧ (2 ^ 24 : Dbl).toNat / 2 ^ 24 % 2 = 1 ∧ (3 : Dbl).toNat % 2 = 1 := by decide +kernel
theorem witness_BarWindows :
    cellAt State.reset 0 0x18000 = none ∧ cellAt State.reset 6 0x1000 = none ∧ cellAt State.reset 0 0x7C00C = some (.reg (.nstat 15)) ∧
    (State.reset.queue 15 127).tenant ≠ 5 ∧ (State.reset.queue 15 127).tenant = 0 := by decide +kernel
end Sys2Proof.Tests
end

section
/-! PROOFS. Memory instructions at issue: what retiring a word leaves, the plans of their operands, what `memOp` answers, and the
interlock of R163 (spec/05 R124, spec/06 R145 to R151, spec/08 R163). -/

namespace Sys2Proof.Machine

/-! ## What retiring a word leaves -/

/-- The issuing path once its word has completed and it goes on at the next one (R86, R90, R162). -/
def Ctx.retiredPath (x : Ctx) (pl : Plan) (q : Path) : Path :=
  { q with
      pc := x.next, status := .run, waiting := false, icount := q.icount + 1, latch := latchPush x.g q pl.hist
      readFirst := if q.idem then rfAfter q pl else q.readFirst
      written := orBlocks q.written pl.writes }

/-- The group that `retire` leaves of `h`. -/
def Ctx.retiredGroup (x : Ctx) (pl : Plan) (h : Group) : Group :=
  { setSigs h x.p.mask (sigStep x.word) with stall := 0, paths := kupd h.paths x.pid (x.retiredPath pl) }

theorem retire_next {x : Ctx} {pl : Plan} {s : State} {h : Group} (e : s.group x.gid = some h) :
    retire x pl s x.next false = s.setGroup x.gid (x.retiredGroup pl h) := by
  simp only [retire, e]
  rfl

theorem Ctx.path_retiredGroup (x : Ctx) (pl : Plan) (h : Group) (k : Nat) :
    (x.retiredGroup pl h).path k = if x.pid = k then (h.path k).map (x.retiredPath pl) else h.path k := kget_kupd

theorem Ctx.sigOf_retiredGroup (x : Ctx) (pl : Plan) (h : Group) (c : Nat) :
    (x.retiredGroup pl h).sigOf c = if c ∈ slicesOf x.p.mask then (h.sigOf c).rotateLeft 1 ^^^ x.word else h.sigOf c :=
  Claims.sigOf_setSigs h x.p.mask (sigStep x.word) c

theorem Ctx.retiredGroup_frame (x : Ctx) (pl : Plan) (h : Group) :
    x.retiredGroup pl h = { h with sig := (x.retiredGroup pl h).sig, paths := (x.retiredGroup pl h).paths, stall := 0 } := rfl

/-- Putting an operation in flight changes no core. -/
theorem Ctx.core_add (x : Ctx) (s : State) (m : Mask) (k : OpKind) (c : Nat) : (x.add s m k).core c = s.core c := rfl

end Sys2Proof.Machine

namespace Sys2Proof.Claims
open Sys2Proof.Machine

/-! ## Plans whose operands are in view -/

/-- A plan that no check of R20 and R21 fails in the group, whatever the paths. -/
structure PlanFits (g : Group) (pl : Plan) : Prop where
  illegal : pl.illegal = false
  parted : pl.parted = false
  converge : pl.converge = false
  regs : ∀ r ∈ pl.regs, r.1 + r.2 ≤ g.views.vvcount.toNat
  tiles : pl.tiles = []

theorem PlanFits.planTrap {g : Group} {pl : Plan} (h : PlanFits g pl) : planTrap g pl = none :=
  planTrap_none h.illegal (by simp [h.parted]) (by simp [h.converge]) h.regs (by simp [h.tiles])

theorem planFits_none (g : Group) : PlanFits g Plan.none := ⟨rfl, rfl, rfl, by simp [Plan.none], rfl⟩

theorem PlanFits.and {g : Group} {a b : Plan} (ha : PlanFits g a) (hb : PlanFits g b) : PlanFits g (a.and b) where
  illegal := by simp [Plan.and, ha.illegal, hb.illegal]
  parted := by simp [Plan.and, ha.parted, hb.parted]
  converge := by simp [Plan.and, ha.converge, hb.converge]
  regs r hr := (List.mem_append.mp hr).elim (ha.regs r) (hb.regs r)
  tiles := by simp [Plan.and, ha.tiles, hb.tiles]

theorem planFits_illegal {g : Group} {b : Bool} (h : b = false) : PlanFits g (planIllegal b) :=
  ⟨h, rfl, rfl, by simp [planIllegal, Plan.none], rfl⟩

theorem planFits_guard (g : Group) (p : Path) : PlanFits g (planGuard g p) := by
  obtain ⟨hi, hp, hc, hr, ht⟩ := planGuard_clean g p
  exact ⟨hi, hp, hc, by simp [hr], ht⟩

theorem planFits_src {g : Group} {a : VSrc} (h : srcIn g a) (p : Path) (m : Mask) : PlanFits g (planSrc g p m a) := by
  obtain ⟨hi, hp, hc, ht⟩ := planSrc_clean g p m a
  exact ⟨hi, hp, hc, planSrc_regs h, ht⟩

theorem planFits_uspan (g : Group) (n k : Nat) : PlanFits g (planUspan n k) := ⟨rfl, rfl, rfl, by simp [planUspan, Plan.none], rfl⟩

theorem planFits_span {g : Group} {n k : Nat} (h : n + k ≤ g.views.vvcount.toNat) (m : Mask) : PlanFits g (planSpan g m n k) :=
  ⟨rfl, rfl, rfl, by simp [planSpan, h], rfl⟩

theorem planFits_dstN {g : Group} {n k : Nat} (h : n + k ≤ g.views.vvcount.toNat) (m : Mask) : PlanFits g (planDstN g m n k) :=
  ⟨rfl, rfl, rfl, by simp [planDstN, h], rfl⟩

theorem planFits_rw {g : Group} {d : VReg} (h : spanDst g d 1) (m : Mask) : PlanFits g (planRW g m d) := by
  cases d with
  | reg n => exact (planFits_span h m).and (planFits_dstN h m)
  | zero => exact planFits_none g

theorem planFits_mem {g : Group} {b : VSrc} (h : srcIn g b) (base : BitVec 6) (p : Path) : PlanFits g (memPlan base b g p) :=
  (planFits_guard g p).and <| (planFits_uspan g _ 2).and <| (planFits_src h p _).and (planFits_none g)

/-- What a load names: its address operands and `k` registers of its destination. -/
def loadPlan (d : VReg) (k : Nat) (base : BitVec 6) (b : VSrc) (g : Group) (p : Path) : Plan :=
  Plan.all [memPlan base b g p, match d with
    | .reg n => planDstN g (active g p) n.val k
    | .zero => Plan.none]

theorem planFits_load {g : Group} {d : VReg} {k : Nat} {b : VSrc} (hb : srcIn g b) (hd : spanDst g d k) (base : BitVec 6) (p : Path) :
    PlanFits g (loadPlan d k base b g p) := by
  refine (planFits_mem hb base p).and (.and ?_ (planFits_none g))
  cases d with
  | reg n => exact planFits_dstN hd _
  | zero => exact planFits_none g

theorem planFits_store {g : Group} {b : VSrc} {pl : Plan} (hb : srcIn g b) (hpl : PlanFits g pl) (base : BitVec 6) (p : Path) :
    PlanFits g (Plan.all [memPlan base b g p, pl]) := (planFits_mem hb base p).and (hpl.and (planFits_none g))

theorem planFits_atom {g : Group} {b : VSrc} {pl : Plan} {ok : Word → Bool} (hok : ok g.mode = true) (hb : srcIn g b) (hpl : PlanFits g pl)
    (base : BitVec 6) (p : Path) : PlanFits g (Plan.all [planIllegal (!ok g.mode), memPlan base b g p, pl]) :=
  (planFits_illegal (by simp [hok])).and (planFits_store hb hpl base p)

/-! ## What each form executes -/

theorem ldAcq_eq (o : LdOrd) : ldAcq o = decide (o = .acq) := by cases o <;> rfl
theorem ldStrong_eq (o : LdOrd) : ldStrong o = decide (o ≠ .plain) := by cases o <;> rfl
theorem gaStrong_eq (o : GaOrd) : gaStrong o = decide (o = .rlx) := by cases o <;> rfl
theorem stRel_eq (o : StOrd) : stRel o = decide (o = .rel) := by cases o <;> rfl
theorem stStrong_eq (o : StOrd) : stStrong o = decide (o ≠ .plain) := by cases o <;> rfl

theorem exec_loadForm {i acq strong gather size d n b} (f : LoadForm i acq strong gather size d n b) (s : State) :
    exec i s = loadOp i s acq strong gather size d n b := by
  cases f <;> simp only [← ldAcq_eq, ← ldStrong_eq, ← gaStrong_eq] <;> rfl

theorem exec_storeForm {i rel strong gather size src data n b} (f : StoreForm i rel strong gather size src data n b) :
    ∃ pl : Group → Path → Plan, (∀ g p, src g → PlanFits g (pl g p)) ∧
      ∀ s, exec i s = storeOp i s rel strong gather size pl data n b := by
  cases f with
  | stB | stH | st => exact ⟨_, fun g p h => planFits_src h p _, fun s => by rw [← stRel_eq, ← stStrong_eq]; rfl⟩
  | stD | stQ => exact ⟨_, fun g p h => planFits_span h _, fun s => by rw [← stRel_eq, ← stStrong_eq]; rfl⟩
  | sts => exact ⟨_, fun g p h => planFits_src h p _, fun s => by rw [← gaStrong_eq]; rfl⟩
  | stsD => exact ⟨_, fun g p h => planFits_span h _, fun s => by rw [← gaStrong_eq]; rfl⟩

theorem exec_atomForm {i op ok ord d k ys n b} (f : AtomForm i op ok ord d k ys n b) :
    ∃ pl : Group → Path → Plan, (∀ g p, spanDst g d k → PlanFits g (pl g p)) ∧
      ∀ s, exec i s = atomOp i s ok op ord d pl ys n b := by
  cases f with
  | cas =>
    refine ⟨_, fun g p h => (planFits_span h _).and (planFits_dstN (k := 1) ?_ _), fun s => rfl⟩
    simp only [spanDst, spanIn] at h; omega
  | _ => exact ⟨_, fun g p h => planFits_rw h _, fun s => rfl⟩

theorem exec_lane {i ok d srcs us f} (h : IntegerLane i ok d srcs us f ∨ FloatLane i ok d srcs us f) (s : State) :
    exec i s = laneOp i s ok d srcs us f := by
  cases h with
  | inl h => cases h <;> rfl
  | inr h => cases h <;> rfl

/-! ## A word that completes -/

section Word
variable {i : Instr} {s : State} {gid pid : Nat} {g : Group} {p : Path} {plan : Group → Path → Plan} {body : State → Ctx → Res}

/-- `v` is `s` but for the region entry that may have come due to the issuing path: of its group, now `h`, only that path, now `q`,
has changed. -/
structure MarksDue (s v : State) (gid pid : Nat) (g : Group) (p : Path) (h : Group) (q : Path) : Prop where
  only : OnlyGroup s v gid h
  frame : h = { g with paths := h.paths }
  path : h.path pid = some q
  same : q = { p with entryDue := q.entryDue, behind := q.behind }
  others : ∀ k, k ≠ pid → h.path k = g.path k

/-- A word that marks nothing. -/
theorem marksDue_refl (h : Issues s gid pid g p) : MarksDue s s gid pid g p g p :=
  ⟨⟨rfl, fun _ _ => rfl, h.group⟩, rfl, h.path, rfl, fun _ _ => rfl⟩

/-- The path at whose next word a region begins (R88). -/
def duePath (p : Path) : Path := { p with entryDue := some 0xFFFF, behind := true }

/-- A commit point marks the entry of the next word. -/
theorem marksDue_entryNext (h : Issues s gid pid g p) (w : Word) :
    MarksDue s (entryNext ⟨gid, pid, g, p, w⟩ s) gid pid g p { g with paths := kupd g.paths pid duePath } (duePath p) := by
  have e : entryNext ⟨gid, pid, g, p, w⟩ s = s.setGroup gid { g with paths := kupd g.paths pid duePath } := by
    simp only [entryNext, Ctx.onPath, h.group]
    rfl
  have hp : kget g.paths pid = some p := h.path
  rw [e]
  refine ⟨⟨rfl, fun k hk => ?_, ?_⟩, rfl, ?_, rfl, fun k hk => ?_⟩
  · simp [Ne.symm hk]
  · simp
  · simp [Group.path, kget_kupd, hp]
  · simp [Group.path, kget_kupd, Ne.symm hk]

/-- The path has gone on to the next word, with the entry that was due to it. -/
theorem pathAt_retired {h v : Group} {q : Path} {w : Word} {pl : Plan} (hv : v.paths = h.paths) (hq : h.path pid = some q)
    (same : q = { p with entryDue := q.entryDue, behind := q.behind }) (others : ∀ k, k ≠ pid → h.path k = g.path k) :
    PathAt g (Ctx.retiredGroup ⟨gid, pid, g, p, w⟩ pl v) pid p (p.pc + 4) ∧
      ∃ r, (Ctx.retiredGroup ⟨gid, pid, g, p, w⟩ pl v).path pid = some r ∧ r.entryDue = q.entryDue := by
  have hk : ∀ k, v.path k = h.path k := fun k => by rw [Group.path, Group.path, hv]
  have hr : (Ctx.retiredGroup ⟨gid, pid, g, p, w⟩ pl v).path pid = some (Ctx.retiredPath ⟨gid, pid, g, p, w⟩ pl q) := by
    rw [Ctx.path_retiredGroup, if_pos rfl, hk, hq]
    rfl
  refine ⟨⟨⟨_, hr, ?_⟩, fun k h' => ?_⟩, _, hr, rfl⟩
  · rw [same]
    exact ⟨rfl, rfl, rfl, rfl, rfl, rfl, rfl⟩
  · rw [Ctx.path_retiredGroup, if_neg (Ne.symm h'), hk, others k h']

/-- A word whose body is done moves its path on in the state that the body leaves. -/
theorem issue_done {u : State} {v : Group} (h : Issues s gid pid g p) (hw : wellFormed i = true) (hp : planTrap g (plan g p) = none)
    (hb : body s ⟨gid, pid, g, p, wordOf i⟩ = .done u) (hu : u.group gid = some v) :
    issue i s plan body = .next (u.setGroup gid (Ctx.retiredGroup ⟨gid, pid, g, p, wordOf i⟩ (plan g p) v)) := by
  have hi : idemTrap p (plan g p) = false := by simp [idemTrap, h.noCheck]
  rw [issue_eq h, issueBody_eq h hw plan body hp, hb]
  simp only [finish, hi, Bool.false_eq_true, if_false]
  rw [retire_next hu]

/-- What a word does that leaves its state but for an entry due: the path goes on, the word enters the signatures. -/
theorem issue_marks {v : State} {h : Group} {q : Path} (hI : Issues s gid pid g p) (hw : wellFormed i = true)
    (hp : planTrap g (plan g p) = none) (hb : body s ⟨gid, pid, g, p, wordOf i⟩ = .done v)
    (hm : MarksDue s v gid pid g p h q) (e : exec i s = issue i s plan body) :
    ∃ t h' r, exec i s = .next t ∧ OnlyGroup s t gid h' ∧ PathAt g h' pid p (p.pc + 4) ∧ h'.path pid = some r ∧
      r.entryDue = q.entryDue ∧ Signed g h' p (wordOf i) ∧ GroupBut g h' := by
  obtain ⟨⟨hv, hother, hgroup⟩, hframe, hpath, hsame, hothers⟩ := hm
  obtain ⟨hat, r, hr, hdue⟩ := pathAt_retired (gid := gid) (w := wordOf i) (pl := plan g p) rfl hpath hsame hothers
  refine ⟨_, _, r, e.trans (issue_done hI hw hp hb hgroup), ⟨?_, fun k hk => ?_, by simp⟩, hat, hr, hdue, fun c => ?_, ?_⟩
  · rw [hv]; rfl
  · simp [Ne.symm hk, hother k hk]
  · rw [Ctx.sigOf_retiredGroup, hframe]; rfl
  · rw [GroupBut, hframe]; rfl

/-- A word that leaves its state as it was completes. -/
theorem completes_idle (hI : Issues s gid pid g p) (hw : wellFormed i = true) (hp : planTrap g (plan g p) = none)
    (hb : body s ⟨gid, pid, g, p, wordOf i⟩ = .done s) (e : exec i s = issue i s plan body) :
    Completes i s gid pid g p fun h => GroupBut g h := by
  obtain ⟨t, h, _, he, ho, hat, _, _, hs, hg⟩ := issue_marks hI hw hp hb (marksDue_refl hI) e
  exact ⟨t, h, he, ho, hat, hs, hg⟩

/-- The operation that `Ctx.add` puts in flight, charged to the path `q` that the issuing number names in the state. -/
theorem add_eq {v : State} {h : Group} {q : Path} {w : Word} (hg : v.group gid = some h) (hq : h.path pid = some q)
    (m : Mask) (k : OpKind) :
    ∃ o : Op, Ctx.add ⟨gid, pid, g, p, w⟩ v m k =
        { v.setGroup gid { h with ops := h.ops ++ [(v.nextOp, o)] } with nextOp := v.nextOp + 1 } ∧
      o.path = pid ∧ o.uid = q.uid ∧ o.mask = q.mask ∧ o.pc = q.pc ∧ o.todo = m ∧ o.kind = k ∧ o.dropped = false := by
  simp only [Ctx.add, Ctx.grp, hg, Option.getD_some, hq, addOp]
  exact ⟨_, rfl, rfl, rfl, rfl, rfl, rfl, rfl, rfl⟩

/-- A word that puts one operation in flight, in its state but for an entry due. -/
theorem putsInFlight_add {v : State} {h : Group} {q : Path} {m : Mask} {k : OpKind} (hI : Issues s gid pid g p) (hw : wellFormed i = true)
    (hp : planTrap g (plan g p) = none) (hm : MarksDue s v gid pid g p h q)
    (hb : body s ⟨gid, pid, g, p, wordOf i⟩ = .done (Ctx.add ⟨gid, pid, g, p, wordOf i⟩ v m k)) (e : exec i s = issue i s plan body) :
    PutsInFlight i s gid pid g p m k q.entryDue := by
  obtain ⟨⟨hv, hother, hgroup⟩, hframe, hpath, hsame, hothers⟩ := hm
  obtain ⟨o, hadd, hop, huid, hmask, hpc, htodo, hkind, hdrop⟩ := add_eq (g := g) (p := p) (w := wordOf i) hgroup hpath m k
  rw [hadd] at hb
  have hnext : v.nextOp = s.nextOp := by rw [hv]
  have hops : h.ops = [] := by rw [hframe]; exact hI.idle
  obtain ⟨hat, r, hr, hdue⟩ := pathAt_retired (gid := gid) (w := wordOf i) (pl := plan g p)
    (v := { h with ops := h.ops ++ [(v.nextOp, o)] }) rfl hpath hsame hothers
  refine ⟨_, _, r, o, e.trans (issue_done hI hw hp hb (kget_kset_same ..)), ?_, fun n hn => ?_, by simp, hat, hr, hdue, fun c => ?_, ?_,
    hop, ?_, ?_, ?_, htodo, hkind, hdrop⟩
  · rw [hv]; rfl
  · have : v.group n = s.group n := hother n hn
    simpa [State.group, kget_kset, Ne.symm hn] using this
  · rw [Ctx.sigOf_retiredGroup, hframe]; rfl
  · rw [Ctx.retiredGroup_frame, hops, hnext, hframe]; rfl
  · rw [huid, hsame]
  · rw [hmask, hsame]
  · rw [hpc, hsame]

end Word

/-! ## What `memOp` answers -/

theorem countOps_nil {g : Group} (h : g.ops = []) (f : Op → Bool) : countOps g f = 0 := by simp [countOps, h]

theorem memHeld_nil {g : Group} (h : g.ops = []) (p : Path) (a : MemDir) : memHeld g p a = false := by simp [memHeld, earlier, h]

theorem memOpen_eq {x : Ctx} (h : x.p.marks.acqWide = false) (s : State) : memOpen s x = s := by simp [memOpen, h]

theorem firstFailure_ok : ∀ {l : List (Nat × Except MErr Unit)}, (∀ e ∈ l, e.2 = .ok ()) → firstFailure l = none
  | [], _ => rfl
  | (va, r) :: l, h => by
    obtain ⟨hr, hl⟩ := List.forall_mem_cons.mp h
    simp only at hr
    simp [firstFailure, hr, firstFailure_ok hl]

theorem checkLanes_ok {s : State} {x : Ctx} {k : AKind} {size : Nat} {m : Mask} {addrs : List Nat} (h : lanesOk s x.g k size m addrs) :
    checkLanes s x k size m addrs = none :=
  firstFailure_ok <| by simpa [lanesOk] using h

section Access
variable {s : State} {x : Ctx} {a : MemDir} {k : AKind} {size : Nat} {m : Mask} {addrs : List Nat} {op : State → State}

theorem memOp_idle (hm : m = 0) : memOp s x a k size m addrs op = .done s := by rw [memOp, if_pos hm]

/-- With nothing in flight and every lane's check passed, the access goes ahead. -/
theorem memOp_goes (hm : m ≠ 0) (hi : x.g.ops = []) (ha : x.p.marks.acqWide = false) (hl : lanesOk s x.g k size m addrs) :
    memOp s x a k size m addrs op = .done (op s) := by
  rw [memOp, if_neg hm, if_neg (by simp [memHeld_nil hi, full, countOps_nil hi]), checkLanes_ok hl]
  simp only [memOpen_eq ha]

/-- An access that would raise a full completion counter holds (R124). -/
theorem memOp_full (hm : m ≠ 0) (hf : (a ≠ .store ∧ 62 ≤ countOps x.g isLoad) ∨ (a ≠ .load ∧ 62 ≤ countOps x.g isStore)) :
    memOp s x a k size m addrs op = .hold := by
  rw [memOp, if_neg hm, if_pos]
  rcases hf with ⟨ha, hc⟩ | ⟨ha, hc⟩ <;> simp [full, ha, hc]

end Access

theorem commitHold_nil {x : Ctx} (h : x.g.ops = []) : commitHold x = false := by simp [commitHold, h]

theorem storeContrib_nil {s : State} {x : Ctx} (h : (s.core x.g.core).mons = []) (size : Nat) (m : Mask) (addrs data : List Nat) :
    storeContrib s x size m addrs data = s := by simp [storeContrib, h]

theorem hostAtom_eq (o : AOp) : hostAtom o = decide (o = .add ∨ o = .exch ∨ o = .cas) := by cases o <;> rfl

/-! ## A word that holds -/

section Hold
variable {i : Instr} {s : State} {gid pid : Nat} {g : Group} {p : Path} {plan : Group → Path → Plan} {body : State → Ctx → Res}

/-- What the body of a legal word without a trap of its plan does, with operations in flight: the interlock of R163 goes before it. -/
theorem issueBody_atWord (h : AtWord s gid pid g p) (hw : wellFormed i = true) (hp : planTrap g (plan g p) = none) :
    issueBody i s gid pid plan body =
      if pendingHit g (plan g p) then s else finish ⟨gid, pid, g, p, wordOf i⟩ (plan g p) s (body s ⟨gid, pid, g, p, wordOf i⟩) := by
  obtain ⟨-, hgroup, hpath, -, -, -, -, -, hclean, hawake⟩ := h
  simp [issueBody, hgroup, hpath, hw, hp, hawake, poisonRead, hclean, wordOf, finish]

theorem issue_atWord (h : AtWord s gid pid g p) :
    issue i s plan body = .next (issueBody i s gid pid plan body) := by
  obtain ⟨hcur, hgroup, hpath, hres, hready, hpend, hstop, hentry, -, -⟩ := h
  simp [issue, hcur, hgroup, hpath, hres, hready, beforeWord, hstop, hpend, hentry]

/-- A path at its word holds where the interlock of R163 or the body says so. -/
theorem issue_holds (h : AtWord s gid pid g p) (hw : wellFormed i = true) (hp : planTrap g (plan g p) = none)
    (hb : pendingHit g (plan g p) = true ∨ body s ⟨gid, pid, g, p, wordOf i⟩ = .hold) : issue i s plan body = .next s := by
  rw [issue_atWord h, issueBody_atWord h hw hp]
  rcases hb with hit | hold
  · rw [if_pos hit]
  · rw [hold, finish, ite_self]

end Hold

/-- An operation in flight that has yet to write a block which the plan touches or writes is a hit of the interlock. -/
theorem pendingHit_of_mem {g : Group} {pl : Plan} {e : Nat × Op} {b : Nat} (he : e ∈ g.ops) (hb : b ∈ opPending e.2)
    (ht : b ∈ pl.touch ∨ b ∈ pl.wtouch) : pendingHit g pl = true := by
  refine List.any_eq_true.mpr ⟨e, he, ?_⟩
  have hne : (opPending e.2).isEmpty = false := by simpa using List.ne_nil_of_mem hb
  have hany : (pl.touch.any (opPending e.2).contains || pl.wtouch.any (opPending e.2).contains) = true := by
    simp only [Bool.or_eq_true, List.any_eq_true, List.contains_iff_mem]
    exact ht.imp (⟨b, ·, hb⟩) (⟨b, ·, hb⟩)
  simp [hne, hany]

/-- A block of a run of `n` blocks from `a`. -/
theorem mem_blockRun {a b n : Nat} (h : a ≤ b) (h' : b < a + n) : b ∈ (List.range n).map (a + ·) :=
  List.mem_map.mpr ⟨b - a, List.mem_range.mpr (by omega), by omega⟩

theorem mem_opPending {o : Op} {b : Nat} (h : marksBlock o b) : b ∈ opPending o := by
  rcases h with ⟨_, _, _, _, _, _, hk, hlo, hhi⟩ | ⟨_, _, _, _, _, _, _, _, hk, rfl⟩ | ⟨_, _, _, hk, rfl⟩ | ⟨_, _, _, _, hk, rfl⟩ |
    ⟨_, _, _, _, hk, hlo, hhi⟩
  case inl | inr.inr.inr.inr => simpa only [opPending, hk] using mem_blockRun hlo hhi
  all_goals simp [opPending, hk]

theorem all_touch (ps : List Plan) : (Plan.all ps).touch = ps.flatMap (·.touch) := by
  induction ps with
  | nil => rfl
  | cons p ps ih => simp [Plan.all, Plan.and, ih]

theorem all_wtouch (ps : List Plan) : (Plan.all ps).wtouch = ps.flatMap (·.wtouch) := by
  induction ps with
  | nil => rfl
  | cons p ps ih => simp [Plan.all, Plan.and, ih]

/-- A lanewise plan touches the blocks of its vector sources and writes that of its destination. -/
theorem lanePlan_names {g : Group} {p : Path} {ok : Word → Bool} {d : VReg} {srcs : List VSrc} {us : List UReg} {n : Fin 248}
    (h : .reg n ∈ srcs ∨ d = .reg n) :
    g.vblock n.val ∈ (lanePlan ok d srcs us g p).touch ∨ g.vblock n.val ∈ (lanePlan ok d srcs us g p).wtouch := by
  simp only [lanePlan, all_touch, all_wtouch, List.flatMap_append, List.mem_append, List.flatMap_map, List.mem_flatMap]
  rcases h with h | rfl
  · exact .inl (.inl (.inl (.inr ⟨_, h, by simp [planSrc]⟩)))
  · exact .inr (.inr ⟨_, List.mem_singleton_self _, by simp [planDst, planDstN]⟩)

/-! ## The clauses of the statement -/

theorem loadsIssue : LoadsIssue := by
  intro i acq strong gather size d n b form s gid pid g p hI hw hb hd
  have hp := (planFits_load hb hd n p).planTrap
  have e := exec_loadForm form s
  refine ⟨fun h0 => completes_idle hI hw hp (memOp_idle h0) e, fun h0 hacq hl => ?_⟩
  rw [← hI.noEntry]
  exact putsInFlight_add hI hw hp (marksDue_refl hI) (memOp_goes h0 hI.idle hacq hl) e

theorem storesIssue : StoresIssue := by
  intro i rel strong gather size src data n b form s gid pid g p hI hw hb hsrc hmons
  obtain ⟨pl, hpl, e⟩ := exec_storeForm form
  have hp := (planFits_store hb (hpl g p hsrc) n p).planTrap
  refine ⟨fun h0 => completes_idle hI hw hp (memOp_idle h0) (e s), fun h0 hacq hl => ?_⟩
  rw [← hI.noEntry]
  refine putsInFlight_add hI hw hp (marksDue_refl hI) ((memOp_goes h0 hI.idle hacq hl).trans ?_) (e s)
  exact congrArg Res.done (storeContrib_nil (by rw [Ctx.core_add]; exact hmons) ..)

theorem atomicsIssue : AtomicsIssue := by
  intro i op ok ord d k ys n b form s gid pid g p hI hw hok hb hd
  obtain ⟨pl, hpl, e⟩ := exec_atomForm form
  have hp := (planFits_atom hok hb (hpl g p hd) n p).planTrap
  have hm := marksDue_entryNext hI (wordOf i)
  refine ⟨fun h0 => issue_marks hI hw hp ?_ hm (e s), fun h0 hacq hl => putsInFlight_add hI hw hp hm ?_ (e s)⟩
  · rw [if_neg (by simp [commitHold_nil (x := ⟨gid, pid, g, p, wordOf i⟩) hI.idle]), if_pos h0]
  · rw [← hostAtom_eq] at hl
    rw [if_neg (by simp [commitHold_nil (x := ⟨gid, pid, g, p, wordOf i⟩) hI.idle]), if_neg h0]
    exact memOp_goes h0 hI.idle hacq hl

theorem countersHold : CountersHold := by
  refine ⟨?_, ?_, ?_⟩
  · intro i acq strong gather size d n b form s gid pid g p hA hw hb hd h0 hfull
    rw [exec_loadForm form]
    exact issue_holds hA hw (planFits_load hb hd n p).planTrap (.inr (memOp_full h0 (.inl ⟨by decide, hfull⟩)))
  · intro i rel strong gather size src data n b form s gid pid g p hA hw hb hsrc h0 hfull
    obtain ⟨pl, hpl, e⟩ := exec_storeForm form
    rw [e]
    exact issue_holds hA hw (planFits_store hb (hpl g p hsrc) n p).planTrap (.inr (memOp_full h0 (.inr ⟨by decide, hfull⟩)))
  · intro i op ok ord d k ys n b form s gid pid g p hA hw hok hb hd h0 hfull
    obtain ⟨pl, hpl, e⟩ := exec_atomForm form
    rw [e]
    refine issue_holds hA hw (planFits_atom hok hb (hpl g p hd) n p).planTrap (.inr ?_)
    by_cases hc : commitHold ⟨gid, pid, g, p, wordOf i⟩ = true
    · rw [if_pos hc]
    · rw [if_neg hc, if_neg h0]
      refine memOp_full h0 ?_
      exact hfull.imp (⟨by decide, ·⟩) (⟨by decide, ·⟩)

theorem pendingBlocksHold : PendingBlocksHold := by
  intro i ok d srcs us f form s gid pid g p hA hw hok hs hd e he n hn hmark
  rw [exec_lane form]
  exact issue_holds hA hw (lanePlan_ok hok hs hd) (.inl (pendingHit_of_mem he (mem_opPending hmark) (lanePlan_names hn)))

/-- Settles O22: every form's body is `memOp`, which puts the one operation in flight, or holds where a counter is full; a lanewise word
holds by the interlock before its body. -/
theorem memoryFormsIssue : Obligations.MemoryFormsIssue :=
  ⟨loadsIssue, storesIssue, atomicsIssue, countersHold, pendingBlocksHold⟩

end Sys2Proof.Claims
end

section
/-! PROOFS. The encoding and the decoder agree, both ways (spec/01 R8 to R11, R20, R22 to R26): a word is its fields, a field that an
operand is read from holds the operand's code, and the opcode names the form. -/
namespace Sys2Proof

/-! ## A word by its fields (R8) -/

/-- Formats T and U. -/
theorem cat_eq_iff {b a d o : BitVec 8} {w : Word} : b ++ a ++ d ++ o = w ↔ fOp w = o ∧ fD w = d ∧ fA w = a ∧ fB w = b := by
  constructor
  · rintro rfl
    exact ⟨fOp_cat .., fD_cat .., fA_cat .., fB_cat ..⟩
  · rintro ⟨rfl, rfl, rfl, rfl⟩
    simp (disch := rfl) only [fOp, fD, fA, fB, BitVec.extractLsb'_append_extractLsb'_eq_extractLsb', BitVec.extractLsb'_eq_self]

/-- Format I. -/
theorem imm_eq_iff {i : BitVec 16} {d o : BitVec 8} {w : Word} : i ++ d ++ o = w ↔ fOp w = o ∧ fD w = d ∧ fImm w = i := by
  constructor
  · rintro rfl
    exact ⟨fOp_imm .., fD_imm .., fImm_imm ..⟩
  · rintro ⟨rfl, rfl, rfl⟩
    simp (disch := rfl) only [fOp, fD, fImm, BitVec.extractLsb'_append_extractLsb'_eq_extractLsb', BitVec.extractLsb'_eq_self]

/-- Format J. -/
theorem disp_eq_iff {i : BitVec 24} {o : BitVec 8} {w : Word} : i ++ o = w ↔ fOp w = o ∧ w.extractLsb' 8 24 = i := by
  constructor
  · rintro rfl
    exact ⟨fOp_disp .., disp_cat ..⟩
  · rintro ⟨rfl, rfl⟩
    simp (disch := rfl) only [fOp, BitVec.extractLsb'_append_extractLsb'_eq_extractLsb', BitVec.extractLsb'_eq_self]

/-- The number of a WAIT word (R9). -/
theorem toNat_waitWord (d c b a : BitVec 6) (o : BitVec 8) : BitVec.toNat (w := 32) (d ++ c ++ b ++ a ++ o) =
    (((d.toNat * 64 + c.toNat) * 64 + b.toNat) * 64 + a.toNat) * 256 + o.toNat := by
  simp only [BitVec.toNat_append]
  rw [← Nat.shiftLeft_add_eq_or_of_lt o.isLt, ← Nat.shiftLeft_add_eq_or_of_lt a.isLt, ← Nat.shiftLeft_add_eq_or_of_lt b.isLt,
    ← Nat.shiftLeft_add_eq_or_of_lt c.isLt]
  simp only [Nat.shiftLeft_eq, Nat.reducePow]

/-- The four counts of WAIT (R9, R123). -/
theorem wait_eq_iff {d c b a : BitVec 6} {o : BitVec 8} {w : Word} : d ++ c ++ b ++ a ++ o = w ↔
    fOp w = o ∧ w.extractLsb' 8 6 = a ∧ w.extractLsb' 14 6 = b ∧ w.extractLsb' 20 6 = c ∧ w.extractLsb' 26 6 = d := by
  constructor
  · intro h
    have e := toNat_waitWord d c b a o
    rw [h] at e
    have := d.isLt; have := c.isLt; have := b.isLt; have := a.isLt; have := o.isLt
    refine ⟨?_, ?_, ?_, ?_, ?_⟩ <;> apply BitVec.eq_of_toNat_eq <;>
      simp only [fOp, BitVec.extractLsb'_toNat, Nat.shiftRight_eq_div_pow] <;> omega
  · rintro ⟨rfl, rfl, rfl, rfl, rfl⟩
    simp (disch := rfl) only [fOp, BitVec.extractLsb'_append_extractLsb'_eq_extractLsb', BitVec.extractLsb'_eq_self]

/-! ## A field by its operand -/

/-- A field from which an operand is read holds the operand's code: `only` runs over the 256 values of the field. -/
theorem slot_eq_ok {α : Type} {slot : BitVec 8 → Except DecodeError α} {code : α → BitVec 8} (read : ∀ x, slot (code x) = .ok x)
    (only : ∀ f, ((slot f).toOption.all (code · == f)) = true) {f : BitVec 8} {x : α} : slot f = .ok x ↔ f = code x := by
  constructor
  · intro h
    have := only f
    rw [h] at this
    exact (beq_iff_eq.mp this).symm
  · rintro rfl
    exact read x

@[simp] theorem fieldIs_zero_eq_ok {f : BitVec 8} {x : Unit} : fieldIs f 0 = .ok x ↔ f = 0#8 :=
  slot_eq_ok (slot := (fieldIs · 0)) (code := fun _ => 0#8) (fun _ => rfl) (by decide)
@[simp] theorem slotVSrc_eq_ok {f a} : slotVSrc f = .ok a ↔ f = a.code := slot_eq_ok slotVSrc_code (by decide)
@[simp] theorem slotVReg_eq_ok {f a} : slotVReg f = .ok a ↔ f = a.code := slot_eq_ok slotVReg_code (by decide)
@[simp] theorem slotUReg_eq_ok {f a} : slotUReg f = .ok a ↔ f = a.code := slot_eq_ok slotUReg_code (by decide)
@[simp] theorem slotFin248_eq_ok {f n} : slotFin248 f = .ok n ↔ f = finCode n.val := slot_eq_ok slotFin248_code (by decide)
@[simp] theorem slotFin192_eq_ok {f n} : slotFin192 f = .ok n ↔ f = finCode n.val := slot_eq_ok slotFin192_code (by decide)
@[simp] theorem slotFin16_eq_ok {f n} : slotFin16 f = .ok n ↔ f = finCode n.val := slot_eq_ok slotFin16_code (by decide)
@[simp] theorem slotFin8_eq_ok {f n} : slotFin8 f = .ok n ↔ f = finCode n.val := slot_eq_ok slotFin8_code (by decide)
@[simp] theorem slotB8_eq_ok {f x} : slotB8 f = .ok x ↔ f = x := slot_eq_ok (fun _ => rfl) (by decide)
@[simp] theorem slotB6_eq_ok {f x} : slotB6 f = .ok x ↔ f = b6Code x := slot_eq_ok slotB6_code (by decide)
@[simp] theorem slotB5_eq_ok {f x} : slotB5 f = .ok x ↔ f = b5Code x := slot_eq_ok slotB5_code (by decide)
@[simp] theorem slotB3_eq_ok {f x} : slotB3 f = .ok x ↔ f = b3Code x := slot_eq_ok slotB3_code (by decide)
@[simp] theorem slotB2_eq_ok {f x} : slotB2 f = .ok x ↔ f = b2Code x := slot_eq_ok slotB2_code (by decide)
@[simp] theorem slotBool_eq_ok {f b} : slotBool f = .ok b ↔ f = boolCode b := slot_eq_ok slotBool_code (by decide)
@[simp] theorem slotVote_eq_ok {f k} : slotVote f = .ok k ↔ f = k.code := slot_eq_ok slotVote_code (by decide)
@[simp] theorem slotView_eq_ok {f k} : slotView f = .ok k ↔ f = k.code := slot_eq_ok slotView_code (by decide)
@[simp] theorem slotROp_eq_ok {f k} : slotROp f = .ok k ↔ f = k.code := slot_eq_ok slotROp_code (by decide)
@[simp] theorem slotTSize_eq_ok {f k} : slotTSize f = .ok k ↔ f = k.code := slot_eq_ok slotTSize_code (by decide)
@[simp] theorem slotMonSel_eq_ok {f k} : slotMonSel f = .ok k ↔ f = k.code := slot_eq_ok slotMonSel_code (by decide)
@[simp] theorem slotScope_eq_ok {f k} : slotScope f = .ok k ↔ f = k.code := slot_eq_ok slotScope_code (by decide)
@[simp] theorem slotPredI_eq_ok {f x} : slotPredI f = .ok x ↔ f = predICode x.1 x.2 := slot_eq_ok (fun _ => slotPredI_code ..) (by decide)
@[simp] theorem slotPredF_eq_ok {f x} : slotPredF f = .ok x ↔ f = predFCode x.1 x.2 := slot_eq_ok (fun _ => slotPredF_code ..) (by decide)
@[simp] theorem slotSCmp_eq_ok {f x} : slotSCmp f = .ok x ↔ f = scmpCode x.1 x.2 := slot_eq_ok (fun _ => slotSCmp_code ..) (by decide)
@[simp] theorem slotLdBase_eq_ok {f x} : slotLdBase f = .ok x ↔ f = ldBaseCode x.1 x.2 := slot_eq_ok (fun _ => slotLdBase_code ..) (by decide)
@[simp] theorem slotStBase_eq_ok {f x} : slotStBase f = .ok x ↔ f = stBaseCode x.1 x.2 := slot_eq_ok (fun _ => slotStBase_code ..) (by decide)
@[simp] theorem slotGaBase_eq_ok {f x} : slotGaBase f = .ok x ↔ f = gaBaseCode x.1 x.2 := slot_eq_ok (fun _ => slotGaBase_code ..) (by decide)
@[simp] theorem slotAtBase_eq_ok {f x} : slotAtBase f = .ok x ↔ f = atBaseCode x.1 x.2 := slot_eq_ok (fun _ => slotAtBase_code ..) (by decide)
@[simp] theorem slotScan_eq_ok {f x} : slotScan f = .ok x ↔ f = scanCode x.1 x.2 := slot_eq_ok (fun _ => slotScan_code ..) (by decide)
@[simp] theorem slotShr_eq_ok {f x} : slotShr f = .ok x ↔ f = shrCode x.1 x.2 := slot_eq_ok (fun _ => slotShr_code ..) (by decide)
@[simp] theorem slotWaitm_eq_ok {f x} : slotWaitm f = .ok x ↔ f = waitmCode x.1 x.2 := slot_eq_ok (fun _ => slotWaitm_code ..) (by decide)
@[simp] theorem slotFence_eq_ok {f x} : slotFence f = .ok x ↔ f = fenceCode x.1 x.2 := slot_eq_ok (fun _ => slotFence_code ..) (by decide)

/-! ## From a word to its instruction -/

@[simp] theorem ok_bind {ε α β : Type} (x : α) (f : α → Except ε β) : (Except.ok x >>= f) = f x := rfl
@[simp] theorem map_ok {ε α β : Type} (f : α → β) (x : α) : (f <$> Except.ok x : Except ε β) = .ok (f x) := rfl
@[simp] theorem fieldIs_zero : fieldIs 0#8 0 = .ok () := rfl
@[simp] theorem slotB8_code (x : BitVec 8) : slotB8 x = .ok x := rfl

/-- The decoder reads the word of an instruction back: the opcode finds the arm of the form, and each field its operand. The steps of
the hardware have no word. -/
theorem decode_of_encode {i : Instr} {w : Word} (h : encode i = some w) : decode w = .ok i := by
  cases i with
  | bra | brd | call =>
    obtain ⟨ho, hi⟩ := disp_eq_iff.mp (Option.some.inj h)
    simp [decode, ho, hi, decodeClass0]
  | brz | brnz | iaddi | lli | lui | sli | slui | srd | swr | mode | region | sigchk | trap =>
    obtain ⟨ho, hd, hi⟩ := imm_eq_iff.mp (Option.some.inj h)
    simp [decode, ho, hd, hi, decodeClass0, decodeClass2, decodeClass3, decodeClass4, decodeClassD]
  | wait =>
    obtain ⟨ho, ha, hb, hc, hd⟩ := wait_eq_iff.mp (Option.some.inj h)
    simp [decode, ho, ha, hb, hc, hd, decodeClass4]
  | _ =>
    -- Formats T and U; a step of the hardware has no word, which `injection` finds.
    injection h <;> obtain ⟨ho, hd, ha, hb⟩ := cat_eq_iff.mp ‹_ = w› <;>
      simp [decode, ho, hd, ha, hb, decodeClass0, decodeClass1, decodeClass2, decodeClass3, decodeClass4, decodeClass5, decodeClass6,
        decodeClass7, decodeClass8, decodeClass9, decodeClassA, decodeClassB, decodeClassC, decodeClassD, decodeClassE]

theorem toOption_decode {i : Instr} {w : Word} (h : encode i = some w) : (decode w).toOption = some i := by
  rw [decode_of_encode h]
  rfl

/-- Settles O1: a word is its fields, and the decoder reads each field back. -/
theorem encodeDecodeRoundTrip : Obligations.EncodeDecodeRoundTrip := fun _ _ => decode_of_encode

/-- Settles O3: each of the words is the encoding of its instruction. -/
theorem specWordsDecode : Obligations.SpecWordsDecode :=
  ⟨toOption_decode rfl, toOption_decode rfl, toOption_decode rfl, toOption_decode rfl, toOption_decode rfl, toOption_decode rfl⟩

/-! ## From an instruction to its word -/

/-- The instruction that `x` answers, if any, is the one that `w` encodes. -/
def ReadsWord (w : Word) (x : Except DecodeError Instr) : Prop := ∀ i, x = .ok i → encode i = some w

@[simp] theorem readsWord_ok {w : Word} {i : Instr} : ReadsWord w (.ok i) ↔ encode i = some w := by simp [ReadsWord]
@[simp] theorem readsWord_pure {w : Word} {i : Instr} : ReadsWord w (pure i) ↔ encode i = some w := readsWord_ok
@[simp] theorem readsWord_error {w : Word} {e : DecodeError} : ReadsWord w (.error e) := nofun

@[simp] theorem readsWord_bind {α : Type} {w : Word} {x : Except DecodeError α} {f : α → Except DecodeError Instr} :
    ReadsWord w (x >>= f) ↔ ∀ a, x = .ok a → ReadsWord w (f a) := by
  cases x with
  | error e => exact ⟨fun _ => nofun, fun _ => nofun⟩
  | ok a => simp

@[simp] theorem readsWord_map {α : Type} {w : Word} {x : Except DecodeError α} {f : α → Instr} :
    ReadsWord w (f <$> x) ↔ ∀ a, x = .ok a → encode (f a) = some w := by
  cases x with
  | error e => exact ⟨fun _ => nofun, fun _ => nofun⟩
  | ok a => simp

theorem eq_ofNat_of_toNat {f : BitVec 8} {n : Nat} (h : f.toNat = n) : f = BitVec.ofNat 8 n := by simp [← h]

/-- The opcode by class and number in it (R22). -/
theorem fOp_of_class {w : Word} {k : Nat} (h : (fOp w).toNat / 16 = k) : fOp w = BitVec.ofNat 8 (16 * k + (fOp w).toNat % 16) :=
  eq_ofNat_of_toNat (by omega)

/-! In each class, every arm holds the code of each operand in its field, zero in each unused one, and the opcode of the arm. -/

section Classes
variable {w : Word} {n : Nat}

theorem readsWord_class0 (ho : fOp w = BitVec.ofNat 8 (16 * 0 + n)) : ReadsWord w (decodeClass0 n w) := by
  unfold decodeClass0
  split <;> simp +contextual [encode, cat_eq_iff, imm_eq_iff, disp_eq_iff, ho, -BitVec.reduceAppend]

theorem readsWord_class1 (ho : fOp w = BitVec.ofNat 8 (16 * 1 + n)) : ReadsWord w (decodeClass1 n w) := by
  unfold decodeClass1
  split <;> simp +contextual [encode, cat_eq_iff, ho]

theorem readsWord_class2 (ho : fOp w = BitVec.ofNat 8 (16 * 2 + n)) : ReadsWord w (decodeClass2 n w) := by
  unfold decodeClass2
  split
  case h_9 =>
    split
    case h_6 => exact readsWord_error
    all_goals simp +contextual [encode, cat_eq_iff, ho, eq_ofNat_of_toNat ‹(fB w).toNat = _›, -BitVec.reduceAppend]
  all_goals simp +contextual [encode, cat_eq_iff, imm_eq_iff, ho, -BitVec.reduceAppend]

theorem readsWord_class3 (ho : fOp w = BitVec.ofNat 8 (16 * 3 + n)) : ReadsWord w (decodeClass3 n w) := by
  unfold decodeClass3
  split <;> simp +contextual [encode, cat_eq_iff, imm_eq_iff, ho, -BitVec.reduceAppend]

theorem readsWord_class4 (ho : fOp w = BitVec.ofNat 8 (16 * 4 + n)) : ReadsWord w (decodeClass4 n w) := by
  unfold decodeClass4
  split <;> simp +contextual [encode, cat_eq_iff, imm_eq_iff, wait_eq_iff, ho, -BitVec.reduceAppend]

theorem readsWord_class5 (ho : fOp w = BitVec.ofNat 8 (16 * 5 + n)) : ReadsWord w (decodeClass5 n w) := by
  unfold decodeClass5
  split
  case h_10 =>
    split
    case h_9 => exact readsWord_error
    all_goals simp +contextual [encode, cat_eq_iff, ho, eq_ofNat_of_toNat ‹(fB w).toNat = _›, -BitVec.reduceAppend]
  all_goals simp +contextual [encode, cat_eq_iff, ho, -BitVec.reduceAppend]

theorem readsWord_class6 (ho : fOp w = BitVec.ofNat 8 (16 * 6 + n)) : ReadsWord w (decodeClass6 n w) := by
  unfold decodeClass6
  split <;> simp +contextual [encode, cat_eq_iff, ho]

theorem readsWord_class7 (ho : fOp w = BitVec.ofNat 8 (16 * 7 + n)) : ReadsWord w (decodeClass7 n w) := by
  unfold decodeClass7
  split <;> simp +contextual [encode, cat_eq_iff, ho]

theorem readsWord_class8 (ho : fOp w = BitVec.ofNat 8 (16 * 8 + n)) : ReadsWord w (decodeClass8 n w) := by
  unfold decodeClass8
  split <;> simp +contextual [encode, cat_eq_iff, ho]

theorem readsWord_class9 (ho : fOp w = BitVec.ofNat 8 (16 * 9 + n)) : ReadsWord w (decodeClass9 n w) := by
  unfold decodeClass9
  split <;> simp +contextual [encode, cat_eq_iff, ho, -BitVec.reduceAppend]

theorem readsWord_classA (ho : fOp w = BitVec.ofNat 8 (16 * 10 + n)) : ReadsWord w (decodeClassA n w) := by
  unfold decodeClassA
  split <;> simp +contextual [encode, cat_eq_iff, ho, -BitVec.reduceAppend]

theorem readsWord_classB (ho : fOp w = BitVec.ofNat 8 (16 * 11 + n)) : ReadsWord w (decodeClassB n w) := by
  unfold decodeClassB
  split <;> simp +contextual [encode, cat_eq_iff, ho, -BitVec.reduceAppend]

theorem readsWord_classC (ho : fOp w = BitVec.ofNat 8 (16 * 12 + n)) : ReadsWord w (decodeClassC n w) := by
  unfold decodeClassC
  split <;> simp +contextual [encode, cat_eq_iff, ho, -BitVec.reduceAppend]

theorem readsWord_classD (ho : fOp w = BitVec.ofNat 8 (16 * 13 + n)) : ReadsWord w (decodeClassD n w) := by
  unfold decodeClassD
  split
  case h_6 =>
    split
    case h_3 => exact readsWord_error
    all_goals simp +contextual [encode, cat_eq_iff, ho, eq_ofNat_of_toNat ‹(fB w).toNat = _›, -BitVec.reduceAppend]
  all_goals simp +contextual [encode, cat_eq_iff, imm_eq_iff, ho, -BitVec.reduceAppend]

theorem readsWord_classE (ho : fOp w = BitVec.ofNat 8 (16 * 14 + n)) : ReadsWord w (decodeClassE n w) := by
  unfold decodeClassE
  split <;> simp +contextual [encode, cat_eq_iff, ho, -BitVec.reduceAppend]

end Classes

theorem readsWord_decode (w : Word) : ReadsWord w (decode w) := by
  unfold decode
  split
  case h_1 h => exact readsWord_class0 (fOp_of_class h)
  case h_2 h => exact readsWord_class1 (fOp_of_class h)
  case h_3 h => exact readsWord_class2 (fOp_of_class h)
  case h_4 h => exact readsWord_class3 (fOp_of_class h)
  case h_5 h => exact readsWord_class4 (fOp_of_class h)
  case h_6 h => exact readsWord_class5 (fOp_of_class h)
  case h_7 h => exact readsWord_class6 (fOp_of_class h)
  case h_8 h => exact readsWord_class7 (fOp_of_class h)
  case h_9 h => exact readsWord_class8 (fOp_of_class h)
  case h_10 h => exact readsWord_class9 (fOp_of_class h)
  case h_11 h => exact readsWord_classA (fOp_of_class h)
  case h_12 h => exact readsWord_classB (fOp_of_class h)
  case h_13 h => exact readsWord_classC (fOp_of_class h)
  case h_14 h => exact readsWord_classD (fOp_of_class h)
  case h_15 h => exact readsWord_classE (fOp_of_class h)
  case h_16 => exact readsWord_error

/-- Settles O2: whatever a word is read as, its opcode and fields are those of the encoding. -/
theorem decodeEncodeRoundTrip : Obligations.DecodeEncodeRoundTrip := readsWord_decode

end Sys2Proof
end

section
/-! PROOFS. Predicate destinations: what a word that writes one predicate leaves, compares (spec/05 R100, spec/06 R129) and votes
(spec/06 R141). -/
namespace Sys2Proof.Machine

/-! ## Masks by their lanes -/

/-- The bits of the lanes below `n` for which `f` holds. -/
def laneSum (f : Nat → Bool) (n : Nat) : Nat := ((List.range n).map fun l => if f l then 2 ^ l else 0).sum

theorem laneSum_succ (f : Nat → Bool) (n : Nat) : laneSum f (n + 1) = (if f n then 2 ^ n else 0) + laneSum f n := by
  simp [laneSum, List.range_succ, Nat.add_comm]

theorem laneSum_lt (f : Nat → Bool) (n : Nat) : laneSum f n < 2 ^ n := by
  induction n with
  | zero => exact Nat.one_pos
  | succ n ih =>
    rw [laneSum_succ, Nat.pow_succ]
    split <;> omega

theorem testBit_laneSum (f : Nat → Bool) {n l : Nat} (h : l < n) : (laneSum f n).testBit l = f l := by
  induction n with
  | zero => omega
  | succ n ih =>
    rw [laneSum_succ]
    rcases Nat.lt_succ_iff_lt_or_eq.mp h with hl | rfl
    · split
      · rw [Nat.testBit_two_pow_add_gt hl, ih hl]
      · rw [Nat.zero_add, ih hl]
    · have top : (laneSum f l).testBit l = false := Nat.testBit_lt_two_pow (laneSum_lt f l)
      split
      next hf => rw [Nat.testBit_two_pow_add_eq, top, hf, Bool.not_false]
      next hf => rw [Nat.zero_add, top, Bool.eq_false_iff.mpr hf]

theorem bit_eq_testBit (m : Mask) (l : Nat) : bit m l = m.toNat.testBit l := Nat.testBit_eq_decide_div_mod_eq.symm

theorem bit_maskOf (f : Nat → Bool) {l : Nat} (h : l < 64) : bit (maskOf f) l = f l := by
  rw [bit_eq_testBit, maskOf, ← laneSum, BitVec.toNat_ofNat, Nat.mod_eq_of_lt (laneSum_lt f 64), testBit_laneSum f h]

/-! ## Predicates -/

theorem Group.pred_setPred (g : Group) (n : Nat) (m v : Mask) (k : Nat) :
    (g.setPred n m v).pred k = if k = n ∧ n ≠ 0 then (g.pred k &&& ~~~m) ||| (v &&& m) else g.pred k := by
  by_cases hn : n = 0
  · simp [Group.setPred, hn]
  · by_cases hk : k = n
    · subst hk
      simp [Group.setPred, Group.pred, hn, mget_mset]
    · simp [Group.setPred, Group.pred, hn, hk, mget_mset, Ne.symm hk]

end Sys2Proof.Machine

namespace Sys2Proof.Claims
open Sys2Proof.Machine

theorem planFits_all {g : Group} : ∀ {ps : List Plan}, (∀ pl ∈ ps, PlanFits g pl) → PlanFits g (Plan.all ps)
  | [], _ => planFits_none g
  | _ :: _, h => (h _ (List.mem_cons_self ..)).and (planFits_all fun pl hm => h pl (List.mem_cons_of_mem _ hm))

theorem planFits_u (g : Group) (u : UReg) : PlanFits g (planU u) := by
  obtain ⟨hi, hp, hc, hr, ht⟩ := planU_clean u
  exact ⟨hi, hp, hc, by simp [hr], ht⟩

theorem planFits_pred (g : Group) (m : Mask) (n : Nat) : PlanFits g (planPred m n) := by
  unfold planPred
  split
  · exact planFits_none g
  · exact ⟨rfl, rfl, rfl, by simp [Plan.none], rfl⟩

theorem planFits_pdst (g : Group) (m : Mask) (n : Nat) : PlanFits g (planPdst m n) := by
  unfold planPdst
  split
  · exact planFits_none g
  · exact ⟨rfl, rfl, rfl, by simp [Plan.none], rfl⟩

/-- A word that writes one predicate in the lanes of `m` completes, and changes nothing else of the group. -/
theorem completes_setPred {i : Instr} {s : State} {gid pid : Nat} {g : Group} {p : Path} {plan : Group → Path → Plan}
    {body : State → Ctx → Res} {d : Fin 8} {m v : Mask} (h : Issues s gid pid g p) (hw : wellFormed i = true)
    (hp : planTrap g (plan g p) = none)
    (hb : body s ⟨gid, pid, g, p, wordOf i⟩ = .done (Ctx.onGroup ⟨gid, pid, g, p, wordOf i⟩ s fun g => g.setPred d.val m v))
    (e : exec i s = issue i s plan body) : Completes i s gid pid g p fun h => PredicateSet g h d m v := by
  obtain ⟨t, h', he, honly, hat, hsig, hframe⟩ := complete_group h hw plan body _ hp hb (by simp) (by simp) e
  refine ⟨t, h', he, honly, hat, hsig, ?_, fun k => ?_⟩
  · rw [hframe]
    simp only [Group.setPred]
    split <;> rfl
  · rw [← Group.pred_setPred, hframe]
    rfl

/-- A lanewise comparison, where its sources are in view and its mode code is legal. -/
theorem predOp_completes {i : Instr} {ok : Word → Bool} {q : Fin 8} {srcs : List VSrc} {us : List UReg} {f : Word → List Word → Bool}
    {s : State} {gid pid : Nat} {g : Group} {p : Path} (h : Issues s gid pid g p) (hw : wellFormed i = true) (hok : ok g.mode = true)
    (hs : ∀ a ∈ srcs, srcIn g a) (e : exec i s = predOp i s ok q srcs us f) :
    Completes i s gid pid g p fun h =>
      PredicateSet g h q (active g p) (maskOf fun l => bit (active g p) l && f g.mode (laneArgs g p srcs us l)) := by
  refine completes_setPred h hw (planFits_all ?_).planTrap ?_ e
  · simp only [List.mem_append, List.mem_map, List.mem_cons, List.not_mem_nil, or_false]
    rintro pl ((((rfl | rfl) | ⟨a, ha, rfl⟩) | ⟨u, -, rfl⟩) | rfl)
    · exact planFits_illegal (by simp [hok])
    · exact planFits_guard g p
    · exact planFits_src (hs a ha) p _
    · exact planFits_u g u
    · exact planFits_pdst g _ _
  · simp only [laneWords, List.map_map, laneArgs]
    rfl

theorem exec_compareForm {i ok q srcs us f} (form : CompareForm i ok q srcs us f) (s : State) :
    exec i s = predOp i s ok q srcs us f := by
  cases form <;> rfl

theorem wellFormed_compareForm {i ok q srcs us f} (form : CompareForm i ok q srcs us f) : wellFormed i = true := by
  cases form <;> rfl

theorem comparesComplete : ComparesComplete := by
  intro i ok q srcs us f form s gid pid g p h hok hs
  refine ⟨_, fun l hl hb => ?_, predOp_completes h (wellFormed_compareForm form) hok hs (exec_compareForm form s)⟩
  rw [bit_maskOf _ hl, hb, Bool.true_and]

theorem voteCompletes : VoteCompletes := by
  intro d a k s gid pid g p h m v
  have hp : planTrap g (Plan.all [planGuard g p, planPred m a.val, planPdst m d.val]) = none :=
    (planFits_all (by simp [planFits_guard, planFits_pred, planFits_pdst])).planTrap
  have c : Completes (.vote d a k) s gid pid g p fun h => PredicateSet g h d m (if voteHolds k m (g.pred a.val) then m else 0) :=
    completes_setPred h rfl hp rfl rfl
  have hv : v = m &&& g.pred a.val := BitVec.and_comm ..
  cases k with
  | any | all | eq => simpa [voteHolds, hv] using c

/-- Settles O14: the body of each is one predicate write, of the lanes' conditions or of the vote. -/
theorem comparesAndVotesComplete : Obligations.ComparesAndVotesComplete := ⟨comparesComplete, voteCompletes⟩

end Sys2Proof.Claims
end
section
/-! PROOFS. One step of the package: what a path that is free to move does with its next word, and how a word that is no instruction
traps (spec/01 R8, R20, R22; spec/04 R78). -/
namespace Sys2Proof.Claims
open Sys2Proof.Machine

theorem step_taken {s u : State} {a : Action} (h : Taken s a u) : step s = afterStep (act u a) := by
  obtain ⟨rest, ha, rfl⟩ := h
  simp only [step, ha]

/-! ## The next word of a path -/

section Word
variable {s : State} {gid pid : Nat} {g : Group} {p : Path} (h : Moves s gid pid g p)
include h

theorem stepIssue_unfetched {e : MErr} (hf : fetchWord s g.core g.asid p.pc = .error e) :
    stepIssue s gid pid = .next (noWord s gid pid 0 e) := by
  obtain ⟨hg, hp, hr, hy⟩ := h
  simp [stepIssue, hg, hp, hr, hy, hf]

theorem stepIssue_undecoded {w : Word} {e : DecodeError} (hf : fetchWord s g.core g.asid p.pc = .ok w) (hd : decode w = .error e) :
    stepIssue s gid pid = .next (noWord s gid pid w (.trap 0x01)) := by
  obtain ⟨hg, hp, hr, hy⟩ := h
  simp [stepIssue, hg, hp, hr, hy, hf, hd]

theorem stepIssue_decoded {w : Word} {i : Instr} (hf : fetchWord s g.core g.asid p.pc = .ok w) (hd : decode w = .ok i) :
    stepIssue s gid pid = exec i { s with cur := some (gid, pid) } := by
  obtain ⟨hg, hp, hr, hy⟩ := h
  simp [stepIssue, hg, hp, hr, hy, hf, hd]

/-- With no stop, fault or region entry due, a path that cannot have its word traps there. Uncorrectable data has the restart of R181. -/
theorem noWord_trap (hstop : g.stopping = none) (hpend : g.pending = []) (hdue : p.entryDue = none) (w : Word) {c : Nat} (hc : c ≠ 0x0C) :
    noWord s gid pid w (.trap c) = trapEnter s gid (trapOf c) pid false p.pc.toNat w := by
  obtain ⟨hg, hp, -, -⟩ := h
  simp [noWord, hg, hp, beforeWord, hstop, hpend, hdue]

end Word

/-- An ill-formed word traps before its plan and its body (R20, R29). -/
theorem issue_illFormed {i : Instr} {s : State} {gid pid : Nat} {g : Group} {p : Path} (h : Issues s gid pid g p)
    (hw : wellFormed i = false) (plan : Group → Path → Plan) (body : State → Ctx → Res) :
    issue i s plan body = .next (trapEnter s gid (trapOf 0x01) pid false p.pc.toNat (wordOf i)) := by
  rw [issue_eq h]
  simp [issueBody, h.group, h.path, hw, finish, wordOf]

/-! ## The clauses of the statement -/

theorem runsDecoded : RunsDecoded := by
  intro s u gid pid g p w i taken moves hf hd
  rw [step_taken taken, act, stepIssue_decoded moves hf hd]

theorem illegalTraps : IllegalTraps := by
  refine ⟨?_, ?_, ?_⟩
  · intro s u gid pid g p w e taken moves hf hd hstop hpend hdue
    rw [step_taken taken, act, stepIssue_undecoded moves hf hd, noWord_trap moves hstop hpend hdue w (by decide)]
  · intro i w s gid pid g p he hw h
    obtain ⟨plan, body, e⟩ := exec_issue i s (by simp [isStep, he])
    rw [TrapsAt, e, issue_illFormed h hw]
  · intro s u gid pid g p taken moves hstop hpend hdue c hf hc
    rw [step_taken taken, act, stepIssue_unfetched moves hf, noWord_trap moves hstop hpend hdue 0 hc]

theorem runsEvents : RunsEvents := by
  refine ⟨fun s u i taken hi => ?_, fun s h => ?_⟩
  · rw [step_taken taken, act, if_pos hi]
  · simp only [step, h]

/-- Settles O4: the agent at the head of the agenda moves; a path fetches and decodes, and runs its word or traps at it. -/
theorem stepRunsDecodedWord : Obligations.StepRunsDecodedWord := ⟨runsDecoded, illegalTraps, runsEvents⟩

end Sys2Proof.Claims
end

section
/-! PROOFS. MODE and VIEW (spec/01 R16, spec/04 R72, spec/05 R120), and the parted-uniform trap of R80. -/
namespace Sys2Proof.Machine

/-- A change that leaves the one record of a table as it is. -/
theorem kupd_of_length_one {β : Type} {m : List (Nat × β)} {k : Nat} {v : β} {f : β → β} (h1 : m.length = 1) (hk : kget m k = some v)
    (hf : f v = v) : kupd m k f = m := by
  obtain ⟨⟨a, w⟩, rfl⟩ := List.length_eq_one_iff.mp h1
  simp only [kget, Option.ite_none_right_eq_some, Option.some.injEq] at hk
  obtain ⟨rfl, rfl⟩ := hk
  simp [kupd, hf]

end Sys2Proof.Machine

namespace Sys2Proof.Claims
open Sys2Proof.Machine

/-! ## MODE and VIEW -/

/-- A word completes whose body changes its group alone, paths and signatures apart. -/
theorem completes_only {i : Instr} {s u : State} {gid pid : Nat} {g v : Group} {p : Path} {plan : Group → Path → Plan}
    {body : State → Ctx → Res} (h : Issues s gid pid g p) (hw : wellFormed i = true) (hp : planTrap g (plan g p) = none)
    (hb : body s ⟨gid, pid, g, p, wordOf i⟩ = .done u) (hu : OnlyGroup s u gid v) (hpaths : v.paths = g.paths) (hsig : v.sig = g.sig)
    (e : exec i s = issue i s plan body) : Completes i s gid pid g p fun h => GroupBut v h := by
  obtain ⟨hframe, hother, hgroup⟩ := hu
  obtain ⟨hat, -⟩ := pathAt_retired (gid := gid) (w := wordOf i) (pl := plan g p) hpaths h.path rfl fun _ _ => rfl
  refine ⟨_, _, e.trans (issue_done h hw hp hb hgroup), ⟨?_, fun k hk => ?_, by simp⟩, hat, fun c => ?_, ?_⟩
  · rw [hframe]; rfl
  · simp [Ne.symm hk, hother k hk]
  · rw [Ctx.sigOf_retiredGroup, Group.sigOf, hsig]; rfl
  · exact Ctx.retiredGroup_frame ..

/-- With one live path that does not check idempotence, the body of MODE changes the mode register alone. -/
theorem execMode_body {s : State} {gid pid : Nat} {g : Group} {p : Path} (h : Issues s gid pid g p) (h1 : g.paths.length = 1) (w m : Word) :
    OnlyGroup s (Ctx.onPath ⟨gid, pid, g, p, w⟩ (Ctx.onGroup ⟨gid, pid, g, p, w⟩ s fun g => { g with mode := m })
      fun p => { p with idem := p.idem && modeIdemen m }) gid { g with mode := m } := by
  have hk : kupd g.paths pid (fun p => { p with idem := p.idem && modeIdemen m }) = g.paths := by
    refine kupd_of_length_one h1 h.path ?_
    rw [h.noCheck, Bool.false_and, ← h.noCheck]
  simp only [Ctx.onPath, Ctx.onGroup, h.group, State.group_setGroup, if_true, hk]
  exact ⟨rfl, fun k hk => by simp [Ne.symm hk], by simp⟩

theorem modeCompletes : ModeCompletes := by
  intro imm s gid pid g p h hpart h1
  have hp : planTrap g { Plan.none with parted := true } = none :=
    planTrap_none rfl (fun _ => hpart) nofun nofun nofun
  have hlive : ¬ 1 < g.paths.length := by omega
  refine ⟨?_, fun himm => ?_⟩
  · exact completes_only h rfl hp (if_neg hlive) (execMode_body h h1 _ _) rfl rfl rfl
  · exact completes_only h (by simp [wellFormed, himm]) hp (if_neg hlive) (execMode_body h h1 _ _) rfl rfl rfl

/-- What VIEW names: its uniforms, of which .av reads one. -/
def viewPlan (d a : UReg) (b : ViewSel) : Plan := Plan.all [{ planU d with parted := true }, if b = .av then Plan.none else planU a]

theorem viewPlan_clean (d a : UReg) (b : ViewSel) : (viewPlan d a b).illegal = false ∧ (viewPlan d a b).converge = false ∧
    (viewPlan d a b).regs = [] ∧ (viewPlan d a b).tiles = [] := by
  cases b <;> simp [viewPlan, all_illegal, all_converge, all_regs, all_tiles, planU_clean, Plan.none]

theorem planTrap_view {g : Group} (hpart : g.parted = false) (d a : UReg) (b : ViewSel) : planTrap g (viewPlan d a b) = none := by
  obtain ⟨hi, hc, hr, ht⟩ := viewPlan_clean d a b
  exact planTrap_none hi (fun _ => hpart) (by simp [hc]) (by simp [hr]) (by simp [ht])

theorem viewCompletes : ViewCompletes := by
  intro d a s gid pid g p h hpart
  have view (b : ViewSel) (hv : viewsOk g.regbytes (newView g.views b (g.us d) (g.us a)) = true) :
      Completes (.view d a b) s gid pid g p fun h => GroupBut { g with views := newView g.views b (g.us d) (g.us a) } h :=
    complete_group h rfl _ _ (fun g' => { g' with views := newView g.views b (g.us d) (g.us a) }) (planTrap_view hpart d a b) (if_pos hv)
      rfl rfl rfl
  exact ⟨view .vv, view .tv, view .av⟩

/-! ## The parted-uniform trap -/

/-- A plan that fails the check of R80 in a parted group, and no check before it. -/
structure PlanParted (pl : Plan) : Prop where
  illegal : pl.illegal = false
  parted : pl.parted = true

theorem PlanParted.planTrap {g : Group} {pl : Plan} (h : PlanParted pl) (hg : g.parted = true) : planTrap g pl = some (trapOf 0x03) := by
  simp [Machine.planTrap, h.illegal, h.parted, hg]

/-- An instruction traps where its plan does (R21). -/
theorem trapsAt_plan {i : Instr} {s : State} {gid pid : Nat} {g : Group} {p : Path} {plan : Group → Path → Plan}
    {body : State → Ctx → Res} {k : TrapInfo} (h : Issues s gid pid g p) (hw : wellFormed i = true) (hp : planTrap g (plan g p) = some k)
    (e : exec i s = issue i s plan body) : TrapsAt i s gid pid p k := by
  rw [TrapsAt, e, issue_eq h]
  simp [issueBody, h.group, h.path, hw, hp, finish, wordOf]

theorem planParted_udst (d : UReg) : PlanParted (planUdst d) := by cases d <;> exact ⟨rfl, rfl⟩
theorem planParted_udstSpan (n k : Nat) : PlanParted (planUdstSpan n k) := ⟨rfl, rfl⟩

/-- Legal operands before a destination that parts. -/
theorem PlanParted.after {a b : Plan} (hb : PlanParted b) (ha : a.illegal = false) : PlanParted (a.and b) where
  illegal := by simp [Plan.and, ha, hb.illegal]
  parted := by simp [Plan.and, hb.parted]

theorem PlanParted.all_last {ps : List Plan} {pl : Plan} (hs : ∀ a ∈ ps, a.illegal = false) (h : PlanParted pl) :
    PlanParted (Plan.all (ps ++ [pl])) where
  illegal := by simpa [all_illegal, h.illegal] using hs
  parted := by simp [all_parted, h.parted]

/-- The word issues under a plan that asks for an unparted group. -/
def NeedsUnparted (i : Instr) : Prop :=
  ∃ (plan : Group → Path → Plan) (body : State → Ctx → Res), (∀ s, exec i s = issue i s plan body) ∧ ∀ g p, PlanParted (plan g p)

theorem needsUnparted_uniformForm {i d vs f} (form : UniformForm i d vs f) : NeedsUnparted i := by
  cases form with
  | v2s => exact ⟨_, _, fun _ => rfl, fun g p => (planParted_udst _).all_last (ps := [_]) (by simp [planSrc_clean])⟩
  | p2sLo | p2sHi =>
    exact ⟨_, _, fun _ => rfl, fun g p => (planParted_udst _).all_last (ps := [_]) (by simp [(planFits_pred g _ _).illegal])⟩
  | _ => exact ⟨_, _, fun _ => rfl, fun g p => (planParted_udst _).all_last (by simp [planU_clean])⟩

theorem needsUnparted_swr {n : BitVec 16} {f : Group → Word → Group} (h : SpecialWrites n f) (d : UReg) : NeedsUnparted (.swr d n) := by
  have writable : specialWritable n.toNat = true := by cases h <;> rfl
  exact ⟨_, _, fun _ => rfl, fun g p => ⟨by simp [all_illegal, planIllegal, planU_clean, writable], by simp [all_parted]⟩⟩

theorem needsUnparted_of_names {i : Instr} (h : NamesUniform i) : NeedsUnparted i := by
  cases h with
  | uniform => exact needsUnparted_uniformForm ‹_›
  | ballot =>
    exact ⟨_, _, fun _ => rfl, fun g p => (planParted_udstSpan _ _).all_last (ps := [_, _])
      (by simp [planGuard_clean, (planFits_pred g _ _).illegal])⟩
  | tstat | acalloc | qmap | mfence => exact ⟨_, _, fun _ => rfl, fun g p => planParted_udst _⟩
  | clock | monrd => exact ⟨_, _, fun _ => rfl, fun g p => planParted_udstSpan _ _⟩
  | ldu => exact ⟨_, _, fun _ => rfl, fun g p => (planParted_udst _).all_last (ps := [_]) (by simp [(planFits_uspan g _ _).illegal])⟩
  | ncnt | nqstat => exact ⟨_, _, fun _ => rfl, fun g p => (planParted_udst _).after (planFits_u g _).illegal⟩
  | mode => exact ⟨_, _, fun _ => rfl, fun g p => ⟨rfl, rfl⟩⟩
  | view d a b =>
    obtain ⟨legal, -⟩ := viewPlan_clean d a b
    exact ⟨_, _, fun _ => rfl, fun g p => ⟨legal, by simp [all_parted]⟩⟩
  | swr d => exact needsUnparted_swr ‹_› d

theorem partedUniformTrap : PartedUniformTrap := by
  intro i names s gid pid g p h hw hpart
  obtain ⟨plan, body, e, hplan⟩ := needsUnparted_of_names names
  exact trapsAt_plan h hw ((hplan g p).planTrap hpart) (e s)

/-- Settles O20: the body of MODE, and of VIEW, is one change of the group; every plan that names a uniform destination asks for an
unparted group. -/
theorem modeAndViewsComplete : Obligations.ModeAndViewsComplete := ⟨modeCompletes, viewCompletes, partedUniformTrap⟩

end Sys2Proof.Claims
end

section
/-! PROOFS. A word whose body writes a word and a flag in each lane of a mask, and REDUCE and SCAN, which are such words
(spec/03 R66, R67, spec/06 R143, R144). -/
namespace Sys2Proof.Machine

/-! ## Results of lanes -/

theorem any_laneMap (m : Mask) (f : Nat → Word × Bool) :
    (laneMap m f).any (·.2) = Claims.anyLane m fun l => (f l).2 := by
  simp only [laneMap, Claims.anyLane, List.any_map]
  congr 1
  funext l
  cases h : bit m l <;> simp [h]

theorem laneMap_getD {m : Mask} {f : Nat → Word × Bool} {l : Nat} (hl : l < 64) (hb : bit m l = true) :
    ((laneMap m f).map (·.1)).getD l 0 = (f l).1 := by
  simp [laneMap, hl, hb]

theorem Group.noteSat_eq (g : Group) (b : Bool) : g.noteSat b = { g with flags := g.flags ||| if b then 1 else 0 } := by
  cases b with
  | false => simp [Group.noteSat, Group.setFlag]
  | true => rfl

/-- Where no word of register space is uncorrectable, a vector write changes register space alone. -/
theorem Group.setV_eq {g : Group} (clean : g.regPoison = []) (d : VReg) (m : Mask) (vs : List Word) :
    g.setV d m vs = { g with regs := (g.setV d m vs).regs } := by
  cases d with
  | zero => rfl
  | reg n => simp [Group.setV, Group.setRow, cleanWords, clean]

end Sys2Proof.Machine

namespace Sys2Proof.Claims
open Sys2Proof.Machine

/-- A word completes whose body puts a result in each lane of `m`. -/
theorem putLanes_completes {i : Instr} {s : State} {gid pid : Nat} {g : Group} {p : Path} {plan : Group → Path → Plan}
    {body : State → Ctx → Res} {d : VReg} {m : Mask} {f : Nat → Word × Bool} (h : Issues s gid pid g p) (hw : wellFormed i = true)
    (hp : planTrap g (plan g p) = none)
    (hb : body s ⟨gid, pid, g, p, wordOf i⟩ = .done (putLanes s ⟨gid, pid, g, p, wordOf i⟩ d m (laneMap m f)))
    (e : exec i s = issue i s plan body) : LanesComplete i s gid pid g p d m f := by
  obtain ⟨t, h', he, honly, hat, hsig, hframe⟩ :=
    complete_group h hw plan body _ hp hb (by simp [Group.noteSat]) (by simp [Group.noteSat]) e
  refine ⟨t, h', he, honly, hat, hsig, ?_, fun k => ?_⟩
  · rw [VectorFrame, hframe, any_laneMap, Group.noteSat_eq, Group.setV_eq h.clean]
  · rw [← rows_setV (vs := (laneMap m f).map (·.1)) (by simp [laneMap]) (fun _ => laneMap_getD) k, hframe]
    simp [Group.noteSat]

/-- The plan of each names its one source and its destination, and its body puts in each active lane what the tree over the active
lanes holds there. -/
theorem treesComplete : TreesComplete := by
  intro i op d a f form s gid pid g p h hok ha hd
  have hp : planTrap g (lanePlan (okReduce op) d [a] [] g p) = none := lanePlan_ok hok (List.forall_mem_singleton.mpr ha) hd
  cases form with
  | reduce | scan | scanExcl => exact putLanes_completes h rfl hp rfl rfl

/-- Settles O16: REDUCE and SCAN are words that put a result of the tree in each active lane. -/
theorem reductionsComplete : Obligations.ReductionsComplete := treesComplete

end Sys2Proof.Claims
end

section
/-! PROOFS. Uniform destinations: what a word that writes one uniform register leaves, the uniform instructions and BALLOT (spec/05 R107
to R110, R112, R114, spec/06 R142). -/
namespace Sys2Proof.Machine

/-! ## Halves of a mask (R114), shifts as products and quotients (R108) -/

theorem half64_low (m : Mask) : half64 m.toNat false = m.setWidth 32 := BitVec.ofNat_toNat ..

theorem half64_high (m : Mask) : half64 m.toNat true = m.extractLsb' 32 32 := by
  rw [BitVec.extractLsb', Nat.shiftRight_eq_div_pow]
  rfl

/-- A left shift is a product by a power of two modulo 2^32, which a count of 32 or more makes 0 (R108). -/
theorem shlWord_eq (x c : Word) : shlWord x c = BitVec.ofNat 32 (x.toNat * 2 ^ c.toNat) := by
  apply BitVec.eq_of_toNat_eq
  unfold shlWord
  split
  next hc =>
    have hd : 2 ^ 32 ∣ x.toNat * 2 ^ c.toNat := Nat.dvd_mul_left_of_dvd (Nat.pow_dvd_pow 2 hc) _
    rw [BitVec.toNat_ofNat, Nat.mod_eq_zero_of_dvd hd]
    rfl
  next => simp [Nat.shiftLeft_eq]

/-- A right shift is a quotient by a power of two, which a count of 32 or more makes 0 (R108). -/
theorem shrWord_eq (x c : Word) : shrWord x c = BitVec.ofNat 32 (x.toNat / 2 ^ c.toNat) := by
  apply BitVec.eq_of_toNat_eq
  have hlt : x.toNat / 2 ^ c.toNat < 2 ^ 32 := Nat.lt_of_le_of_lt (Nat.div_le_self ..) x.isLt
  rw [BitVec.toNat_ofNat, Nat.mod_eq_of_lt hlt]
  unfold shrWord
  split
  next hc => exact (Nat.div_eq_of_lt (Nat.lt_of_lt_of_le x.isLt (Nat.pow_le_pow_right (by decide) hc))).symm
  next => simp [Nat.shiftRight_eq_div_pow]

end Sys2Proof.Machine

namespace Sys2Proof.Claims
open Sys2Proof.Machine

/-! ## Words that write a uniform register -/

/-- A group in which an operand has been written, and that has moved on (R10). -/
theorem uniformSet_setUs {g h : Group} {d : UReg} {v : Word} (e : h = { g.setUs d v with sig := h.sig, paths := h.paths, stall := 0 }) :
    UniformSet g h d v := by
  have hu (k : Nat) : h.u k = (g.setUs d v).u k := by rw [e]; rfl
  cases d with
  | zero => exact ⟨by rw [e]; rfl, hu⟩
  | reg n => exact ⟨by rw [e]; rfl, fun k => by simp only [hu, Group.setUs, Group.u_setU, eq_comm]⟩

/-- In a group that is not parted, a destination that asks for that fits where it would fit without asking (R80). -/
theorem planTrap_unparted {g : Group} {ps : List Plan} {dst : Plan} (hg : g.parted = false) (hs : ∀ pl ∈ ps, PlanFits g pl)
    (hd : PlanFits g { dst with parted := false }) : planTrap g (Plan.all (ps ++ [dst])) = none := by
  have fits : PlanFits g (Plan.all (ps ++ [{ dst with parted := false }])) := planFits_all (by simpa [or_imp, forall_and] using ⟨hs, hd⟩)
  have hi : (Plan.all (ps ++ [dst])).illegal = false := by simpa [all_illegal] using fits.illegal
  have hc : (Plan.all (ps ++ [dst])).converge = false := by simpa [all_converge] using fits.converge
  have ht : (Plan.all (ps ++ [dst])).tiles = [] := by simpa [all_tiles] using fits.tiles
  exact planTrap_none hi (fun _ => hg) (by simp [hc]) (by simpa [all_regs] using fits.regs) (by simp [ht])

theorem planFits_udst (g : Group) (d : UReg) : PlanFits g { planUdst d with parted := false } := by
  cases d <;> exact ⟨rfl, rfl, rfl, by simp [planUdst, Plan.none], rfl⟩

theorem planFits_udstSpan (g : Group) (n k : Nat) : PlanFits g { planUdstSpan n k with parted := false } :=
  ⟨rfl, rfl, rfl, by simp [planUdstSpan, Plan.none], rfl⟩

theorem planFits_dsrc {g : Group} {a : VReg} (h : dstIn g a) (p : Path) (m : Mask) : PlanFits g (planSrc g p m (dsrc a)) := by
  refine planFits_src ?_ p m
  cases a with
  | reg n => exact h
  | zero => trivial

section Word
variable {i : Instr} {s : State} {gid pid : Nat} {g : Group} {p : Path} {plan : Group → Path → Plan} {body : State → Ctx → Res}
  {d : UReg} {v : Word}

/-- A word that writes one uniform register completes, and changes nothing else of the group. -/
theorem completes_setUs (h : Issues s gid pid g p) (hw : wellFormed i = true) (hp : planTrap g (plan g p) = none)
    (hb : body s ⟨gid, pid, g, p, wordOf i⟩ = .done (Ctx.onGroup ⟨gid, pid, g, p, wordOf i⟩ s fun g => g.setUs d v))
    (e : exec i s = issue i s plan body) : Completes i s gid pid g p fun h => UniformSet g h d v := by
  obtain ⟨t, h', he, honly, hat, hsig, hframe⟩ := complete_group h hw plan body _ hp hb (by simp) (by simp) e
  exact ⟨t, h', he, honly, hat, hsig, uniformSet_setUs hframe⟩

/-- A uniform instruction (R107). -/
theorem uniOp_completes {us : List UReg} {f : List Word → Word} (h : Issues s gid pid g p) (hw : wellFormed i = true)
    (hg : g.parted = false) (e : exec i s = uniOp i s d us f) (hv : f (us.map g.us) = v) :
    Completes i s gid pid g p fun h => UniformSet g h d v := by
  subst hv
  exact completes_setUs h hw (planTrap_unparted hg (by simp [planFits_u]) (planFits_udst g d)) rfl e

/-- P2S ignores the guard; lanes that the path does not hold read 0 (R114). -/
theorem p2s_completes (d : UReg) (a : Fin 8) (hi : Bool) (h : Issues s gid pid g p) (hg : g.parted = false) :
    Completes (.p2s d a hi) s gid pid g p fun h => UniformSet g h d (half64 (g.pred a.val &&& pathLanes g p).toNat hi) :=
  completes_setUs h rfl (planTrap_unparted (ps := [_]) hg (by simp [planFits_pred]) (planFits_udst g d)) rfl rfl

end Word

/-! ## The clauses of the statement -/

theorem uniformForms_complete : UniformsComplete := by
  intro i d vs f form s gid pid g p h hg hvs
  cases form with
  | sadd | ssub | smul | sand | sor | sxor => exact uniOp_completes h rfl hg rfl (by simp [two])
  | smov d a => exact uniOp_completes (us := [a]) (f := fun ws => ws.getD 0 0) h rfl hg rfl rfl
  | sli d imm => exact uniOp_completes (us := []) (f := fun _ => imm.setWidth 32) h rfl hg rfl rfl
  | slui d imm => exact uniOp_completes (us := [d]) (f := fun ws => imm ++ (ws.getD 0 0).setWidth 16) h rfl hg rfl rfl
  | sshl d a b => exact uniOp_completes (us := [a, b]) (f := two shlWord) h rfl hg rfl (shlWord_eq ..)
  | sshr d a b => exact uniOp_completes (us := [a, b]) (f := two shrWord) h rfl hg rfl (shrWord_eq ..)
  | scmpEq | scmpNe | scmpLt | scmpLe | scmpLtu | scmpLeu =>
    exact uniOp_completes h rfl hg rfl (by simp [two, scondHolds, BitVec.slt, BitVec.sle, BitVec.ult, BitVec.ule])
  | v2s d a k =>
    obtain ⟨ha, -⟩ := List.forall_mem_cons.mp hvs
    exact completes_setUs h rfl (planTrap_unparted (ps := [_]) hg (by simp [planFits_dsrc ha]) (planFits_udst g d)) rfl rfl
  | p2sLo d a => simpa only [half64_low] using p2s_completes d a false h hg
  | p2sHi d a => simpa only [half64_high] using p2s_completes d a true h hg

theorem ballotCompletes : BallotCompletes := by
  intro d a s gid pid g p h hw hg
  have hp : planTrap g (Plan.all ([planGuard g p, planPred (active g p) a.val] ++ [planUdstSpan d.val 2])) = none :=
    planTrap_unparted hg (by simp [planFits_guard, planFits_pred]) (planFits_udstSpan g _ _)
  obtain ⟨t, h', he, honly, hat, hsig, hframe⟩ := complete_group h hw _ _ _ hp rfl rfl rfl (rfl : exec (.ballot d a) s = _)
  have hu (k : Nat) : h'.u k = if d.val + 1 = k then (active g p &&& g.pred a.val).extractLsb' 32 32
      else if d.val = k then (active g p &&& g.pred a.val).setWidth 32 else g.u k := by
    rw [← half64_low, ← half64_high, ← Group.u_setU, ← Group.u_setU, hframe]
    rfl
  refine ⟨t, h', he, honly, hat, hsig, ?_, ?_, ?_, fun k hlo hhi => ?_⟩
  · rw [hframe]
    rfl
  · simp [hu]
  · simp [hu]
  · simp [hu, Ne.symm hlo, Ne.symm hhi]

/-- Settles O18: the body of each is one write of a uniform register, of BALLOT two. -/
theorem uniformsComplete : Obligations.UniformsComplete := ⟨uniformForms_complete, ballotCompletes⟩

end Sys2Proof.Claims
end

section
/-! PROOFS. Words over the lanes of the path, whatever the guard: the predicate instructions, SEL, S2V, S2P and P2S; and V2S, which reads
one lane (spec/05 R99, R112 to R114). The lanewise integer instructions (R96 to R105). -/
namespace Sys2Proof

/-- A sequence of reads that answers, answers at each. -/
theorem bind_eq_ok {ε α β : Type} {x : Except ε α} {f : α → Except ε β} {b : β} :
    x >>= f = .ok b ↔ ∃ a, x = .ok a ∧ f a = .ok b := by
  cases x with
  | error e => exact ⟨nofun, nofun⟩
  | ok a => simp

end Sys2Proof

namespace Sys2Proof.Machine

/-- A word in the high half of a mask (R114). -/
theorem ofNat_toNat_high (w : Word) : BitVec.ofNat 64 (w.toNat * 2 ^ 32) = w.setWidth 64 <<< 32 := by
  apply BitVec.eq_of_toNat_eq
  simp [Nat.shiftLeft_eq]

/-- A row of one word holds it in each lane. -/
theorem getD_replicate (v : Word) {n l : Nat} (h : l < n) : (List.replicate n v).getD l 0 = v := by
  rw [List.getD_eq_getElem?_getD, List.getElem?_replicate_of_lt h]
  rfl

theorem getLsbD_half64 (m : Mask) (hi : Bool) {l : Nat} (h : l < 32) :
    (half64 m.toNat hi).getLsbD l = m.getLsbD (l + if hi then 32 else 0) := by
  cases hi with
  | false => simp [half64_low, h]
  | true => simp [half64_high, h, Nat.add_comm]

end Sys2Proof.Machine

namespace Sys2Proof.Claims
open Sys2Proof.Machine

/-! ## Predicates -/

section Word
variable {i : Instr} {s : State} {gid pid : Nat} {g : Group} {p : Path} {plan : Group → Path → Plan} {body : State → Ctx → Res}

/-- An instruction on predicate bits (R113). -/
theorem pOp_completes {d : Fin 8} {ps : List (Fin 8)} {f : List Mask → Mask} {v : Mask} (h : Issues s gid pid g p)
    (hw : wellFormed i = true) (e : exec i s = pOp i s d ps f) (hv : f (ps.map fun a => g.pred a.val) = v) :
    Completes i s gid pid g p fun h => PredicateSet g h d (pathLanes g p) v := by
  subst hv
  have fits : ∀ pl ∈ ps.map (fun a => planPred (pathLanes g p) a.val) ++ [planPdst (pathLanes g p) d.val], PlanFits g pl := by
    simp [or_imp, forall_and, planFits_pred, planFits_pdst]
  exact completes_setPred h hw (planFits_all fits).planTrap rfl e

/-- S2P writes the lanes of the path in one half (R114). -/
theorem s2p_completes (d : Fin 8) (a : UReg) (hi : Bool) (h : Issues s gid pid g p) :
    Completes (.s2p d a hi) s gid pid g p fun h =>
      PredicateSet g h d (pathLanes g p &&& halfLanes hi) (if hi then (g.us a).setWidth 64 <<< 32 else (g.us a).setWidth 64) := by
  have hv : BitVec.ofNat 64 ((g.us a).toNat * if hi then 2 ^ 32 else 1) =
      if hi then (g.us a).setWidth 64 <<< 32 else (g.us a).setWidth 64 := by
    cases hi with
    | false => exact (congrArg _ (Nat.mul_one _)).trans (BitVec.ofNat_toNat ..)
    | true => exact ofNat_toNat_high _
  exact completes_setPred h rfl (planFits_all (by simp [planFits_u, planFits_pdst])).planTrap
    (congrArg (fun w => Res.done (Ctx.onGroup _ s fun g => g.setPred d.val _ w)) hv) rfl

/-! ## Rows without a flag -/

theorem planFits_dst {g : Group} {d : VReg} (h : dstIn g d) (m : Mask) : PlanFits g (planDst g m d) := by
  cases d with
  | reg n => exact planFits_dstN h m
  | zero => exact planFits_none g

/-- Where no lane saturates, no flag is set. -/
theorem lanesComplete_unflagged {d : VReg} {m : Mask} {f : Nat → Word} (c : LanesComplete i s gid pid g p d m fun l => (f l, false)) :
    Completes i s gid pid g p fun h => VectorFrame g h 0 ∧ Rows g h d m f := by
  simpa [LanesComplete, anyLane] using c

/-- A word that writes a row in the lanes of `m` completes, and changes nothing else of the group. -/
theorem completes_setV {d : VReg} {m : Mask} {vs : List Word} {f : Nat → Word} (h : Issues s gid pid g p) (hw : wellFormed i = true)
    (hp : planTrap g (plan g p) = none)
    (hb : body s ⟨gid, pid, g, p, wordOf i⟩ = .done (Ctx.onGroup ⟨gid, pid, g, p, wordOf i⟩ s fun g => g.setV d m vs))
    (e : exec i s = issue i s plan body) (hl : vs.length = 64) (hf : ∀ l, l < 64 → bit m l = true → vs.getD l 0 = f l) :
    Completes i s gid pid g p fun h => VectorFrame g h 0 ∧ Rows g h d m f := by
  obtain ⟨t, h', he, honly, hat, hsig, hframe⟩ := complete_group h hw plan body _ hp hb (by simp) (by simp) e
  refine ⟨t, h', he, honly, hat, hsig, ?_, fun k => ?_⟩
  · have flags : g.flags ||| 0 = g.flags := BitVec.or_zero
    rw [VectorFrame, flags, hframe, Group.setV_eq h.clean]
  · rw [← rows_setV hl hf k, hframe]

end Word

/-! ## The clauses of the statements -/

/-- Settles O8: each is an instruction on the predicate bits of the path's lanes. -/
theorem predicateLogic : Obligations.PredicateLogic := fun _ _ _ _ _ h => ⟨rfl, fun _ a b =>
  ⟨pOp_completes (ps := [a, b]) (f := fun ms => ms.getD 0 0 &&& ms.getD 1 0) h rfl rfl rfl,
    pOp_completes (ps := [a, b]) (f := fun ms => ms.getD 0 0 ||| ms.getD 1 0) h rfl rfl rfl,
    pOp_completes (ps := [a, b]) (f := fun ms => ms.getD 0 0 ^^^ ms.getD 1 0) h rfl rfl rfl,
    pOp_completes (ps := [a]) (f := fun ms => ~~~ ms.getD 0 0) h rfl rfl rfl, rfl, rfl, rfl, rfl⟩⟩

/-- Settles O10: each is `laneOp` with the result of its form. -/
theorem laneIntegerCompletes : Obligations.LaneIntegerCompletes :=
  fun _ _ _ _ _ _ form s _ _ _ _ h hw hok hs hd => laneOp_completes h hw hok hs hd (exec_lane (.inl form) s)

theorem pathLaneForms_complete : PathLanesComplete := by
  intro i d srcs f form s gid pid g p h hs hd
  cases form with
  | sel d a b =>
    obtain ⟨ha, hb⟩ : srcIn g a ∧ srcIn g b := by simpa using hs
    have hp : planTrap g (Plan.all [planGuard g p, planSrc g p (pathLanes g p) a, planSrc g p (pathLanes g p) b,
        planDst g (pathLanes g p) d]) = none :=
      (planFits_all (by simp [planFits_guard, planFits_src ha, planFits_src hb, planFits_dst hd])).planTrap
    have pick : (fun l => (if bit (guardMask g) l then srcVals g p a else srcVals g p b).getD l 0) =
        fun l => if bit (guardMask g) l then (srcVals g p a).getD l 0 else (srcVals g p b).getD l 0 :=
      funext fun l => apply_ite (List.getD · l 0) ..
    have c := lanesComplete_unflagged (f := fun l => (if bit (guardMask g) l then srcVals g p a else srcVals g p b).getD l 0)
      (putLanes_completes h rfl hp rfl (rfl : exec (.sel d a b) s = _))
    rwa [pick] at c
  | s2v d a =>
    have hp : planTrap g (Plan.all [planU a, planDst g (pathLanes g p) d]) = none :=
      (planFits_all (by simp [planFits_u, planFits_dst hd])).planTrap
    exact completes_setV (vs := List.replicate 64 (g.us a)) h rfl hp rfl rfl List.length_replicate
      fun _ hl _ => getD_replicate _ hl

theorem predicatesComplete : PredicatesComplete := by
  intro i d m f form s gid pid g p h
  cases form with
  | s2pLo d a => exact s2p_completes d a false h
  | s2pHi d a => exact s2p_completes d a true h

theorem predicateHalves : PredicateHalves := by
  intro d a hi s gid pid g p h hg
  refine ⟨_, fun l hl => ?_, p2s_completes d a hi h hg⟩
  rw [getLsbD_half64 _ _ hl, BitVec.getLsbD_and]

/-- Settles O12: SEL and S2V write one row, S2P one predicate and P2S one uniform register. -/
theorem pathLanesComplete : Obligations.PathLanesComplete := ⟨pathLaneForms_complete, predicatesComplete, predicateHalves⟩

/-! ## V2S and S2V -/

/-- The fields of a word that is read as V2S (R112). -/
theorem fields_of_v2s {w : Word} {i : Instr} (ho : fOp w = 0x3E) (h : decode w = .ok i) :
    (∃ a : VReg, fA w = a.code) ∧ ∃ k : BitVec 6, fB w = b6Code k := by
  obtain ⟨_, _, a, ha, k, hk, _⟩ := by simpa [decode, ho, decodeClass3, bind_eq_ok, -bind_pure_comp] using h
  exact ⟨⟨a, ha⟩, k, hk⟩

/-- The sub of a word that is read as S2V (R112). -/
theorem sub_of_s2v {w : Word} {i : Instr} (ho : fOp w = 0x3F) (h : decode w = .ok i) : fB w = 0 := by
  obtain ⟨_, _, _, _, hb, _⟩ := by simpa [decode, ho, decodeClass3, bind_eq_ok, -bind_pure_comp] using h
  exact hb

theorem toNat_vregCode (a : VReg) : a.code.toNat < 248 ∨ a.code.toNat = 255 := by
  cases a with
  | reg n => exact .inl (by simp [VReg.code, finCode_toNat (by omega : n.val < 256)])
  | zero => exact .inr rfl

theorem toNat_b6Code (k : BitVec 6) : (b6Code k).toNat < 64 := by
  rw [b6Code, BitVec.toNat_append]
  simpa using k.isLt

/-- A word is no instruction where no instruction that it could be read as admits it. -/
theorem illegalWords_of {n : BitVec 8} {f : Word → Prop} (h : ∀ w i, fOp w = n → decode w = .ok i → ¬ f w) : IllegalWords n f := by
  intro w ho hf
  cases hd : decode w with
  | error e => exact ⟨e, rfl⟩
  | ok i => exact absurd hf (h w i ho hd)

/-- Settles O9: V2S writes one uniform register and S2V one row; a word that is read as either has its fields in their ranges. -/
theorem laneUniformMoves : Obligations.LaneUniformMoves := by
  refine ⟨fun s gid pid g p h => ⟨fun d a k hg ha => ?_, fun d a hd => ?_⟩, ?_, ?_, toOption_decode rfl⟩
  · have c := uniformForms_complete _ _ _ _ (.v2s d a k) s gid pid g p h hg (List.forall_mem_singleton.mpr ha)
    cases a with
    | reg n => simpa only [srcVals, dsrc, Group.v, Group.row, getD_mgetList k.isLt] using c
    | zero => simpa only [srcVals, dsrc, getD_replicate _ k.isLt] using c
  · exact pathLaneForms_complete _ _ _ _ (.s2v d a) s gid pid g p h nofun hd
  · refine illegalWords_of fun w i ho hd => ?_
    obtain ⟨⟨a, ha⟩, k, hk⟩ := fields_of_v2s ho hd
    have := toNat_vregCode a
    have := toNat_b6Code k
    rw [ha, hk]
    omega
  · exact illegalWords_of fun w i ho hd => not_not_intro (sub_of_s2v ho hd)

end Sys2Proof.Claims
end

section
/-! PROOFS. Control transfer: what a taken transfer leaves, the return stacks, branches, CALL and RET with their traps (spec/05 R115 to
R118, spec/08 R187). -/
namespace Sys2Proof.Machine

/-! ## What a taken transfer leaves -/

/-- The issuing path at the target of a taken transfer. -/
def Ctx.jumpedPath (x : Ctx) (pl : Plan) (pc : Addr) (q : Path) : Path := { x.retiredPath pl q with pc := pc }

/-- The group that a taken transfer to `pc` leaves of `h`: the signatures of the path's slices are clear (R86). -/
def Ctx.jumpedGroup (x : Ctx) (pl : Plan) (pc : Addr) (h : Group) : Group :=
  { (setSigs h x.p.mask fun _ => 0) with stall := 0, paths := kupd h.paths x.pid (x.jumpedPath pl pc) }

theorem retire_jump {x : Ctx} {pl : Plan} {s : State} {h : Group} (e : s.group x.gid = some h) (pc : Addr) :
    retire x pl s pc true = s.setGroup x.gid (x.jumpedGroup pl pc h) := by
  simp only [retire, e]
  rfl

theorem Ctx.path_jumpedGroup (x : Ctx) (pl : Plan) (pc : Addr) (h : Group) (k : Nat) :
    (x.jumpedGroup pl pc h).path k = if x.pid = k then (h.path k).map (x.jumpedPath pl pc) else h.path k := kget_kupd

theorem Ctx.sigOf_jumpedGroup (x : Ctx) (pl : Plan) (pc : Addr) (h : Group) (c : Nat) :
    (x.jumpedGroup pl pc h).sigOf c = if c ∈ slicesOf x.p.mask then 0 else h.sigOf c :=
  Claims.sigOf_setSigs h x.p.mask (fun _ => 0) c

theorem Ctx.jumpedGroup_frame (x : Ctx) (pl : Plan) (pc : Addr) (h : Group) :
    x.jumpedGroup pl pc h = { h with sig := (x.jumpedGroup pl pc h).sig, paths := (x.jumpedGroup pl pc h).paths, stall := 0 } := rfl

/-- Four times a displacement, as an address (R116). -/
theorem signExtend_mul_four {w : Nat} (x : BitVec w) : (x.signExtend 56 * 4 : Addr) = BitVec.ofInt 56 (4 * x.toInt) := by
  rw [BitVec.ofInt_mul, BitVec.mul_comm]
  rfl

/-! ## Return stacks (R115, R117) -/

/-- After a push the new address is on top of the live entries. -/
theorem Ret.live_push (r : Ret) (a : Addr) : (r.push a).live = a :: r.live := by
  have live : (r.slots.take r.depth ++ a :: r.slots.drop (r.depth + 1)).take (r.depth + 1) = r.slots.take r.depth ++ [a] := by
    rcases Nat.le_total r.depth r.slots.length with hd | hd
    · rw [List.take_append, List.take_take, List.length_take, Nat.min_eq_left hd, Nat.min_eq_right (Nat.le_succ _), Nat.add_sub_cancel_left]
      rfl
    · have short : (r.slots ++ [a]).length ≤ r.depth + 1 := by rw [List.length_append]; exact Nat.succ_le_succ hd
      rw [List.take_of_length_le hd, List.drop_eq_nil_of_le (Nat.le_succ_of_le hd), List.take_of_length_le short]
  simp [Ret.live, Ret.push, live]

/-- After a pop the live entries are those below the top. -/
theorem Ret.live_pop (r : Ret) : r.pop.live = r.live.tail := by
  simp only [Ret.pop, Ret.live, List.length_reverse, List.length_take, List.tail_reverse, List.dropLast_eq_take, List.take_take]
  congr 2
  omega

theorem kget_foldl_kset {β : Type} (v : Nat → β) (cs : List Nat) (m : List (Nat × β)) (c : Nat) :
    kget (cs.foldl (fun m c => kset m c (v c)) m) c = if c ∈ cs then some (v c) else kget m c := by
  induction cs generalizing m with
  | nil => rfl
  | cons k cs ih =>
    rw [List.foldl_cons, ih, kget_kset]
    by_cases hk : k = c <;> simp [hk, Ne.symm]

/-- A return stack after the stacks of some slices have changed. -/
theorem Group.retOf_mapRet (g : Group) (cs : List Nat) (f : Ret → Ret) (c : Nat) :
    (g.mapRet cs f).retOf c = if c ∈ cs then (f (g.retStack c)).live else g.retOf c := by
  simp only [Group.retOf, Group.retStack, Group.mapRet, kget_foldl_kset]
  split <;> rfl

end Sys2Proof.Machine

namespace Sys2Proof.Claims
open Sys2Proof.Machine

section Word
variable {i : Instr} {s : State} {gid pid : Nat} {g : Group} {p : Path} {plan : Group → Path → Plan} {body : State → Ctx → Res}

/-- A word whose body transfers control moves its path to the target in the state that the body leaves. -/
theorem issue_jump {u : State} {v : Group} {pc : Addr} (h : Issues s gid pid g p) (hw : wellFormed i = true)
    (hp : planTrap g (plan g p) = none) (hb : body s ⟨gid, pid, g, p, wordOf i⟩ = .jump u pc) (hu : u.group gid = some v) :
    issue i s plan body = .next (u.setGroup gid (Ctx.jumpedGroup ⟨gid, pid, g, p, wordOf i⟩ (plan g p) pc v)) := by
  have hi : idemTrap p (plan g p) = false := by simp [idemTrap, h.noCheck]
  rw [issue_eq h, issueBody_eq h hw plan body hp, hb]
  simp only [finish, hi, Bool.false_eq_true, if_false]
  rw [retire_jump hu]

/-- What such a word leaves, where its body's state differs in the issuing group alone. -/
theorem exec_jumps {u : State} {v : Group} {q : Path} {pc : Addr} (h : Issues s gid pid g p) (hw : wellFormed i = true)
    (hp : planTrap g (plan g p) = none) (hb : body s ⟨gid, pid, g, p, wordOf i⟩ = .jump u pc) (hu : OnlyGroup s u gid v)
    (hsig : v.sig = g.sig) (hq : v.path pid = some q) (others : ∀ k, k ≠ pid → v.path k = g.path k)
    (e : exec i s = issue i s plan body) :
    ∃ t h', exec i s = .next t ∧ OnlyGroup s t gid h' ∧
      h'.path pid = some (Ctx.jumpedPath ⟨gid, pid, g, p, wordOf i⟩ (plan g p) pc q) ∧ (∀ k, k ≠ pid → h'.path k = g.path k) ∧
      SigCleared g h' p ∧ h' = { v with sig := h'.sig, paths := h'.paths, stall := 0 } := by
  obtain ⟨hframe, hother, hgroup⟩ := hu
  refine ⟨_, Ctx.jumpedGroup ⟨gid, pid, g, p, wordOf i⟩ (plan g p) pc v, e.trans (issue_jump h hw hp hb hgroup),
    ⟨?_, fun k hk => ?_, by simp⟩, ?_, fun k hk => ?_, fun c => ?_, Ctx.jumpedGroup_frame ..⟩
  · rw [hframe]; rfl
  · simp [Ne.symm hk, hother k hk]
  · rw [Ctx.path_jumpedGroup, if_pos rfl, hq]
    rfl
  · rw [Ctx.path_jumpedGroup, if_neg (Ne.symm hk), others k hk]
  · rw [Ctx.sigOf_jumpedGroup, Group.sigOf, hsig]
    rfl

/-- A change of the issuing group by its own issue. -/
theorem onlyGroup_onGroup (h : Issues s gid pid g p) (w : Word) (f : Group → Group) :
    OnlyGroup s (Ctx.onGroup ⟨gid, pid, g, p, w⟩ s f) gid (f g) := by
  simp only [Ctx.onGroup, h.group]
  exact ⟨rfl, fun k hk => by simp [Ne.symm hk], by simp⟩

/-- A change of the issuing path after one of its group. -/
theorem onlyGroup_onPath {u : State} {v : Group} (hu : OnlyGroup s u gid v) (w : Word) (f : Path → Path) :
    OnlyGroup s (Ctx.onPath ⟨gid, pid, g, p, w⟩ u f) gid { v with paths := kupd v.paths pid f } := by
  obtain ⟨hframe, hother, hgroup⟩ := hu
  simp only [Ctx.onPath, hgroup]
  exact ⟨by rw [hframe]; rfl, fun k hk => by simp [Ne.symm hk, hother k hk], by simp⟩

/-- A word traps where its body does. -/
theorem trapsAt_body {k : TrapInfo} (h : Issues s gid pid g p) (hw : wellFormed i = true) (hp : planTrap g (plan g p) = none)
    (hb : body s ⟨gid, pid, g, p, wordOf i⟩ = .trap k) (e : exec i s = issue i s plan body) : TrapsAt i s gid pid p k := by
  rw [TrapsAt, e, issue_eq h, issueBody_eq h hw plan body hp, hb]
  rfl

/-- A word whose body transfers control and does nothing else. -/
theorem jumps_of_body {pc : Addr} (h : Issues s gid pid g p) (hw : wellFormed i = true) (hp : planTrap g (plan g p) = none)
    (hb : body s ⟨gid, pid, g, p, wordOf i⟩ = .jump s pc) (e : exec i s = issue i s plan body) : Jumps i s gid pid g p pc := by
  obtain ⟨t, h', he, ho, hpath, hothers, hsig, hframe⟩ :=
    exec_jumps h hw hp hb ⟨rfl, fun _ _ => rfl, h.group⟩ rfl h.path (fun _ _ => rfl) e
  exact ⟨t, h', he, ho, ⟨⟨_, hpath, rfl, rfl, rfl, rfl, rfl, rfl, rfl⟩, hothers⟩, hsig, hframe⟩

end Word

/-! ## Branches -/

section Branch
variable {i : Instr} {s : State} {gid pid : Nat} {g : Group} {p : Path} {d : UReg} {imm : BitVec 16} {taken : Word → Bool}

theorem branchOn_taken (h : Issues s gid pid g p) (hw : wellFormed i = true) (e : exec i s = branchOn i s d imm taken)
    (ht : taken (g.us d) = true) : Jumps i s gid pid g p (p.pc + 4 + BitVec.ofInt 56 (4 * imm.toInt)) := by
  rw [← signExtend_mul_four]
  exact jumps_of_body h hw (planFits_u g d).planTrap (if_pos ht) e

theorem branchOn_notTaken (h : Issues s gid pid g p) (hw : wellFormed i = true) (e : exec i s = branchOn i s d imm taken)
    (ht : taken (g.us d) = false) : Completes i s gid pid g p fun h => GroupBut g h :=
  completes_idle h hw (planFits_u g d).planTrap (if_neg (by simp [ht])) e

end Branch

theorem branchesComplete : BranchesComplete := by
  intro s gid pid g p h
  refine ⟨completes_idle h rfl (planFits_none g).planTrap rfl rfl, fun disp => ?_, fun d imm h0 => ⟨?_, ?_⟩, fun d imm h0 => ⟨?_, ?_⟩⟩
  · rw [← signExtend_mul_four]
    exact jumps_of_body h rfl (planFits_none g).planTrap rfl rfl
  · exact branchOn_taken (taken := fun w => w = 0) h rfl rfl (by simp [h0])
  · exact branchOn_notTaken (taken := fun w => w ≠ 0) h rfl rfl (by simp [h0])
  · exact branchOn_taken (taken := fun w => w ≠ 0) h rfl rfl (by simpa using h0)
  · exact branchOn_notTaken (taken := fun w => w = 0) h rfl rfl (by simpa using h0)

/-! ## CALL and RET -/

/-- The tops of the return stacks of some slices, of those that are not empty. -/
def returnTops (g : Group) (cs : List Nat) : List Addr := cs.filterMap fun c => (g.retOf c).head?

/-- Some top differs from the first, as RET asks it (R117). -/
def topsDiffer (g : Group) (cs : List Nat) : Bool := (returnTops g cs).any fun t => t ≠ (returnTops g cs).headD 0

/-- Some element differs from the first where some two differ. -/
theorem any_ne_head_iff {l : List Addr} : (l.any fun t => t ≠ l.headD 0) = true ↔ ∃ a ∈ l, ∃ b ∈ l, a ≠ b := by
  simp only [List.any_eq_true, decide_eq_true_eq]
  cases l with
  | nil => simp
  | cons x l =>
    refine ⟨fun ⟨t, ht, hne⟩ => ⟨t, ht, x, List.mem_cons_self, hne⟩, fun ⟨a, ha, b, hb, hne⟩ => ?_⟩
    by_cases hax : a = x
    · exact ⟨b, hb, fun hbx => hne (hax.trans hbx.symm)⟩
    · exact ⟨a, ha, hax⟩

theorem topsDiffer_iff {g : Group} {cs : List Nat} :
    topsDiffer g cs = true ↔ ∃ k ∈ cs, ∃ a ∈ (g.retOf k).head?, ∃ j ∈ cs, ∃ b ∈ (g.retOf j).head?, a ≠ b := by
  rw [topsDiffer, any_ne_head_iff]
  simp only [returnTops, List.mem_filterMap, Option.mem_def]
  constructor
  · rintro ⟨a, ⟨k, hk, ha⟩, b, ⟨j, hj, hb⟩, hne⟩
    exact ⟨k, hk, a, ha, j, hj, b, hb, hne⟩
  · rintro ⟨k, hk, a, ha, j, hj, b, hb, hne⟩
    exact ⟨a, ⟨k, hk, ha⟩, b, ⟨j, hj, hb⟩, hne⟩

/-- Where every slice's top is `r`, RET goes there. -/
theorem head_returnTops {g : Group} {cs : List Nat} {r : Addr} (hne : cs ≠ []) (hr : ∀ c ∈ cs, (g.retOf c).head? = some r) :
    (returnTops g cs).headD 0 = r := by
  obtain ⟨c, cs, rfl⟩ := List.exists_cons_of_ne_nil hne
  simp [returnTops, hr c List.mem_cons_self]

theorem callsComplete : CallsComplete := by
  intro s gid pid g p h
  refine ⟨fun disp hd => ?_, fun r hne hr => ?_⟩
  · have room : ¬ ((slicesOf p.mask).any fun c => decide (16 ≤ (g.retStack c).depth)) = true := by simpa using hd
    obtain ⟨t, h', he, ho, hpath, hothers, hsig, hframe⟩ :=
      exec_jumps h rfl (planFits_none g).planTrap (if_neg room) (onlyGroup_onGroup h _ _) rfl h.path (fun _ _ => rfl)
        (rfl : exec (.call disp) s = _)
    refine ⟨t, h', he, ho, ⟨⟨_, hpath, ?_, rfl, rfl, rfl, rfl, rfl, rfl⟩, hothers⟩, hsig, by rw [hframe]; rfl, fun c => ?_⟩
    · rw [← signExtend_mul_four]
      rfl
    · have hret : h'.retOf c = (g.mapRet (slicesOf p.mask) (·.push (p.pc + 4))).retOf c := by rw [hframe]; rfl
      rw [hret, Group.retOf_mapRet, Ret.live_push]
      rfl
  · have agree : ¬ topsDiffer g (slicesOf p.mask) = true := by
      rw [topsDiffer_iff]
      rintro ⟨k, hk, a, ha, j, hj, b, hb, hne⟩
      exact hne (Option.some.inj (ha.symm.trans ((hr k hk).trans ((hr j hj).symm.trans hb))))
    have filled : ¬ ((slicesOf p.mask).any fun c => (g.retOf c).isEmpty) = true := by
      simp only [List.any_eq_true, List.isEmpty_iff, not_exists, not_and]
      intro c hc hnil
      simpa [hnil] using hr c hc
    have hpath : kget g.paths pid = some p := h.path
    obtain ⟨t, h', he, ho, hat, hothers, hsig, hframe⟩ :=
      exec_jumps (q := { p with entryDue := some 0xFFFF }) h rfl (planFits_none g).planTrap ((if_neg agree).trans (if_neg filled))
        (onlyGroup_onPath (onlyGroup_onGroup h _ _) _ _) rfl (by simp [Group.path, Group.mapRet, kget_kupd, hpath])
        (fun k hk => by simp [Group.path, Group.mapRet, kget_kupd, Ne.symm hk]) (rfl : exec .ret s = _)
    refine ⟨t, h', _, he, ho, hat, head_returnTops hne hr, rfl, hothers, hsig, by rw [hframe]; rfl, fun c => ?_⟩
    have hret : h'.retOf c = (g.mapRet (slicesOf p.mask) Ret.pop).retOf c := by rw [hframe]; rfl
    rw [hret, Group.retOf_mapRet, Ret.live_pop]
    rfl

theorem callTraps : CallTraps := by
  intro s gid pid g p h
  refine ⟨fun disp c hc hfull => ?_, fun c hc hnil hagree => ?_, fun c e a b hc he ha hb hne => ?_⟩
  · have full : ((slicesOf p.mask).any fun c => decide (16 ≤ (g.retStack c).depth)) = true :=
      List.any_eq_true.mpr ⟨c, hc, decide_eq_true hfull⟩
    exact trapsAt_body h rfl (planFits_none g).planTrap (if_pos full) rfl
  · have agree : ¬ topsDiffer g (slicesOf p.mask) = true := by
      rw [topsDiffer_iff]
      rintro ⟨k, hk, a, ha, j, hj, b, hb, hne⟩
      exact hne (hagree k j hk hj a ha b hb)
    have empty : ((slicesOf p.mask).any fun c => (g.retOf c).isEmpty) = true :=
      List.any_eq_true.mpr ⟨c, hc, List.isEmpty_iff.mpr hnil⟩
    exact trapsAt_body h rfl (planFits_none g).planTrap ((if_neg agree).trans (if_pos empty)) rfl
  · have differ : topsDiffer g (slicesOf p.mask) = true := topsDiffer_iff.mpr ⟨c, hc, a, ha, e, he, b, hb, hne⟩
    exact trapsAt_body h rfl (planFits_none g).planTrap (if_pos differ) rfl

/-- Settles O21: the body of each transfers control, with a push or a pop of the return stacks of the path's slices, or traps. -/
theorem transfersComplete : Obligations.TransfersComplete := ⟨branchesComplete, callsComplete, callTraps⟩

end Sys2Proof.Claims
end
